-- ==== Sys2Proof/Word.lean ====
section
/-! DEFINITION. Word.lean: the word types of the FT712 (00_scope Conventions) and the small numbering types. -/
namespace Sys2Proof

/-- A word is 32 bits (00_scope Conventions). -/
abbrev Word := BitVec 32

/-- One byte of the head memory. -/
abbrev Byte := BitVec 8

/-- A far-side byte address, 00000h to FFFFFh (00_scope Conventions). -/
abbrev Addr := BitVec 20

/-- Heads are numbered 0 to 11 (00_scope Conventions). -/
abbrev HeadId := Fin 12

/-- A zone set: bit z set means that zone z is a member (11 Record and Word Formats). -/
abbrev Zones := BitVec 32

/-- The status records: 0 is the part record, h + 1 the record of head h (R165). -/
abbrev RecId := Fin 13

end Sys2Proof
end

