-- ==== Sys2Proof/Syntax.lean ====
section
/-! DEFINITION. Syntax.lean: the commands of the FT712, one constructor per row of spec/opcode_table.json. -/
namespace Sys2Proof

/-- One re-examination that an event causes: of a head's candidate (R91) or of a head's pending restored move (R110).
The same two names tell the two kinds of zone claims apart (R143). -/
inductive Recheck where
  | candidate (h : HeadId)
  | pendingMove (h : HeadId)
deriving DecidableEq, Repr

/-- The blocks that each take an FMARK in an event of their own (section 7.5, R93, R147, R64, R166). -/
inductive FmarkBlock where
  | moveEngine
  | headUnit (h : HeadId)
  | zoneArbiter
  | fetcher
  | statusWriter
deriving DecidableEq, Repr

/-- The clients of class 4 (R13). -/
inductive ReadClient where
  | stager
  | fetcher
  | loader
  | adopter
deriving DecidableEq, Repr

/-- Where a reset cuts the far-port transfer in progress (R15): how many words the head memory has answered, and which of
them with ERR. -/
structure CutPoint where
  answered : Nat
  err : BitVec 16
deriving DecidableEq, Repr

/-- The commands: one constructor per row of spec/opcode_table.json. A command of the cue port carries its whole
parameter word (11.3). An `order` operand gives the order in which re-examinations that reach the blocks
together are taken, where the spec leaves it open (R178, R151); what it does not name follows in a default order.
An `err` operand says which words of the transfer the head memory answered with ERR (R12). -/
inductive Instr where
  /-- HOST_WRITE (R3): a write of one word arrives at the near port. -/
  | hostWrite (addr : Addr) (lanes : BitVec 4) (data : Word) (order : List Recheck)
  /-- HOST_READ (R8): a read of one word arrives at the near port. -/
  | hostRead (addr : Addr)
  /-- HOST_TRANSFER_END (R5): the host pass-through transfer ends, with ERR or without. -/
  | hostTransferEnd (err : Bool)
  /-- FAR_PORT_GRANT (R13): the arbiter makes a grant; `first` names the class 4 client that goes first among
  requests of class 4 made together. -/
  | farPortGrant (first : Option ReadClient)
  /-- START (R19). -/
  | start (param : Word)
  /-- STOP (R31). -/
  | stop (param : Word)
  /-- RESET (R51). -/
  | reset (param : Word)
  /-- FIRE (R65). -/
  | fire (param : Word) (order : List Recheck)
  /-- CUT (R67). -/
  | cut (param : Word)
  /-- SWAP (R68). -/
  | swap (param : Word)
  /-- MOVE (R85). -/
  | move (param : Word)
  /-- HOLD (R158). -/
  | hold (param : Word)
  /-- THAW (R159). -/
  | thaw (param : Word) (order : List Recheck)
  /-- RESUME (R161). -/
  | resume (param : Word) (order : List Recheck)
  /-- LEVEL END (R106). -/
  | levelEnd (param : Word)
  /-- CLEAR FAULT (R174). -/
  | clearFault (param : Word)
  /-- MODE (R78). -/
  | mode (param : Word)
  /-- FMARK (R33): the blocks take the mark in the order given; a head unit or the zone arbiter named in `later` takes
  it in a step of its own (OFFSET_COUNTDOWN_EXPIRY, ZONE_TIMEOUT); `losses` orders the claims that time out. -/
  | fmark (order later : List FmarkBlock) (losses : List Recheck)
  /-- OFFSET_COUNTDOWN_EXPIRY (R93): the head unit takes its FMARK and a countdown reaches 0. -/
  | offsetCountdownExpiry (h : HeadId)
  /-- ZONE_TIMEOUT (R147): the zone arbiter takes its FMARK and patience counts reach 0. -/
  | zoneTimeout (losses : List Recheck)
  /-- TALLY_CHANGE (R154). -/
  | tallyChange (h : HeadId) (onAir : Bool) (order : List Recheck)
  /-- FLOOR_ASSERTED (R161). -/
  | floorAsserted
  /-- FLOOR_RELEASED (R160). -/
  | floorReleased
  /-- POWER_ON (R34), with the levels of the TALLY and FLOOR lines at that moment (R153). -/
  | powerOn (cut : CutPoint) (tally : BitVec 12) (floor : Bool)
  /-- RESET_N_ASSERTED (R34). -/
  | resetNAsserted (cut : CutPoint)
  /-- RESET_N_RELEASED (R16). -/
  | resetNReleased
  /-- POWER_ON_RESET_END (R15). -/
  | powerOnResetEnd
  /-- TABLE_READ_END (R20); bit j of `err` says that word j was answered with ERR. -/
  | tableReadEnd (err : BitVec 16)
  /-- ENTRY_READ_END (R60). -/
  | entryReadEnd (err : Bool)
  /-- HELD_ENTRY_EXAMINATION (R62). -/
  | heldEntryExamination
  /-- HEADER_READ_END (R69). -/
  | headerReadEnd (err : Bool)
  /-- STAGE_READ_END (R88). -/
  | stageReadEnd (err : Bool)
  /-- ADOPTION_READ_END (R81). -/
  | adoptionReadEnd (err : Bool)
  /-- PAGE_WRITE_END (R130); bit j of `err` says that word j was answered with ERR. -/
  | pageWriteEnd (err : BitVec 8)
  /-- POINTER_WRITE_END (R131). -/
  | pointerWriteEnd (err : Bool)
  /-- POINTER_CHECK_READ_END (R132). -/
  | pointerCheckReadEnd (err : Bool)
  /-- SAVE_TRANSFER_END (R102); bit j of `err` says that word j was answered with ERR. -/
  | saveTransferEnd (err : BitVec 16)
  /-- RESTORE_READ_END (R108). -/
  | restoreReadEnd (err : Bool) (order : List Recheck)
  /-- EMPTY_TAG_WRITE_END (R101). -/
  | emptyTagWriteEnd (err : Bool)
  /-- STATUS_TRANSFER_END (R169); bit j of `err` says that word j of the transfer was answered with ERR. -/
  | statusTransferEnd (err : BitVec 16)
deriving DecidableEq, Repr

end Sys2Proof
end

