-- ==== Sys2Proof/Decode.lean ====
section
/-! DEFINITION. Decode.lean: the command a word spells by the table's bits. spec/opcode_table.json gives no row any bits
("n_rows_with_fixed": 0 in 98_reader.md), so no word spells a command. -/
namespace Sys2Proof

/-- The command that a word spells by the bits of spec/opcode_table.json: the table gives no row any bits. -/
def decodeTableWord (_nbits _w : Nat) : Option Instr := none

end Sys2Proof
end

