-- ==== Sys2Proof/Config.lean ====
section
/-! DEFINITION. Config.lean: what the head memory's maker fixes and the spec leaves open. -/
namespace Sys2Proof

/-- FREE VALUE (log entry 4). "What the head memory holds at the word after an ERR is the head memory's affair, and
the part makes no assumption about it" (R5; R131 says the same of a pointer word). The n-th word that a write
transfer had answered with ERR holds this value afterwards. -/
opaque Config.freeWord : Nat → Word

end Sys2Proof
end

