-- ==== Sys2Proof/Machine/Memory.lean ====
section
/-! DEFINITION. Machine/Memory.lean: the head memory as a sorted list of address and byte pairs, and its word accesses. -/
namespace Sys2Proof.Machine

/-- The head memory: addresses strictly rising, no entry equal to what an unlisted address reads as. -/
abbrev Memory := List Host.Cell

/-- What an address that nothing has written reads as (DESIGN CHOICE, log entry 1: the spec gives the head memory no
contents at power-on). -/
def unlistedByte : Byte := 0

/-- The byte at an address. -/
def Memory.read : Memory → Nat → Byte
  | [], _ => unlistedByte
  | (k, v) :: rest, a => if k = a then v else Memory.read rest a

/-- The memory after a byte is written; the canonical form is kept. -/
def Memory.write : Memory → Nat → Byte → Memory
  | [], a, v => if v = unlistedByte then [] else [(a, v)]
  | (k, w) :: rest, a, v =>
    if a < k then (if v = unlistedByte then (k, w) :: rest else (a, v) :: (k, w) :: rest)
    else if a = k then (if v = unlistedByte then rest else (a, v) :: rest)
    else (k, w) :: Memory.write rest a v

/-- The canonical form: addresses strictly rising and no listed byte equal to the unlisted one. -/
def Memory.wf : Memory → Bool
  | [] => true
  | [(_, v)] => decide (v ≠ unlistedByte)
  | (k, v) :: (k', v') :: rest => decide (k < k') && decide (v ≠ unlistedByte) && Memory.wf ((k', v') :: rest)

/-- Byte j (0 is the least significant) of a word (00_scope Conventions, little-endian). -/
def byteOf (w : Word) (j : Nat) : Byte := BitVec.ofNat 8 (w.toNat / 2 ^ (8 * j))

/-- The word whose lowest byte lies at a. -/
def Memory.readWord (m : Memory) (a : Nat) : Word :=
  BitVec.ofNat 32 ((m.read a).toNat + (m.read (a + 1)).toNat * 2 ^ 8 + (m.read (a + 2)).toNat * 2 ^ 16
    + (m.read (a + 3)).toNat * 2 ^ 24)

/-- Write the bytes of a word whose lanes are enabled (R1). -/
def Memory.writeLanes (m : Memory) (a : Nat) (lanes : BitVec 4) (w : Word) : Memory :=
  let m0 := if lanes.getLsbD 0 then m.write a (byteOf w 0) else m
  let m1 := if lanes.getLsbD 1 then m0.write (a + 1) (byteOf w 1) else m0
  let m2 := if lanes.getLsbD 2 then m1.write (a + 2) (byteOf w 2) else m1
  if lanes.getLsbD 3 then m2.write (a + 3) (byteOf w 3) else m2

/-- Write a whole word. -/
def Memory.writeWord (m : Memory) (a : Nat) (w : Word) : Memory := m.writeLanes a 15 w

/-- The n consecutive words from a (R12: ascending address order). -/
def Memory.readWords (m : Memory) : Nat → Nat → List Word
  | _, 0 => []
  | a, n + 1 => m.readWord a :: m.readWords (a + 4) n

/-- Write consecutive words from a, in ascending address order (R12). -/
def Memory.writeWords : Memory → Nat → List Word → Memory
  | m, _, [] => m
  | m, a, w :: ws => (m.writeWord a w).writeWords (a + 4) ws

/-- What a write transfer leaves: the words sent, but a free value at each word answered with ERR (R5, log entry 4).
Word j takes the free value of index free + j. -/
def answeredWords (err : Nat) (free : Nat) : Nat → List Word → List Word
  | _, [] => []
  | j, w :: ws => (if err.testBit j then Config.freeWord (free + j) else w) :: answeredWords err free (j + 1) ws

end Sys2Proof.Machine
end

