-- ==== Sys2Proof/Machine/State.lean ====
section
/-! DEFINITION. Machine/State.lean: the state of the FT712 as plain data, and its value after power-on reset. Each
field's docstring names the rule of spec/ that gives it; INVENTORY.md lists them with their reset values. -/
namespace Sys2Proof.Machine

/-- The part mode (R18). -/
inductive PartMode where
  | halted | loading | running | draining
deriving DecidableEq, Repr

/-- The last reset cause (R34, R35). -/
inductive ResetCause where
  | power | line | command
deriving DecidableEq, Repr

/-- The START result (R26). -/
inductive StartResult where
  | nothing | ok | headTable | zoneOverlap | levelTable | curveTable | bank | memory
deriving DecidableEq, Repr

/-- The type of a head (R21). -/
inductive HeadType where
  | ped | fixed
deriving DecidableEq, Repr

/-- The head mode (R75). -/
inductive HeadMode where
  | managed | direct | off
deriving DecidableEq, Repr

/-- The head state (R75); `noState` in HALTED and LOADING. -/
inductive HeadState where
  | noState | off | direct | adopting | rest | moving | restoring
deriving DecidableEq, Repr

/-- The priority level of a move: PARK (1), SET (2), LIVE (3), OVERRIDE (4) (00_scope Terms). -/
inductive Level where
  | park | set | live | override
deriving DecidableEq, Repr

/-- A rundown bank, or a page bank of a head's page area (00_scope Terms). -/
inductive Bank where
  | a | b
deriving DecidableEq, Repr

/-- The kind of a shot (section 11.2). -/
inductive ShotKind where
  | head | ped
deriving DecidableEq, Repr

/-- A pose: one 32-bit value for each of the seven axes (00_scope Terms); also used for the per-axis minima, maxima and
speed limits of a head record (R21). -/
structure Pose where
  x : Word
  y : Word
  lift : Word
  pan : Word
  tilt : Word
  zoom : Word
  focus : Word
deriving DecidableEq, Repr

/-- Where a cue comes from (R83): a bank and entry index, or the MOVE command. -/
inductive Origin where
  | rundown (bank : Bank) (index : Nat)
  | direct
deriving DecidableEq, Repr

/-- A cue reference with the shot and, where it is known, the shot kind (R116, section 11.6). -/
structure CueRef where
  origin : Origin
  shot : BitVec 8
  kind : Option ShotKind
deriving DecidableEq, Repr

/-- How a cue waits to begin (R54); the offset is present for OFFSET only. -/
inductive StartKind where
  | step
  | chain
  | offset (frames : Nat)
deriving DecidableEq, Repr

/-- The staged shot copy (R88): the copy of a HEAD shot holds no pedestal targets and no zones. -/
inductive ShotCopy where
  | head (pan tilt zoom focus : Word)
  | ped (target : Pose) (stand path : Zones)
deriving DecidableEq, Repr

/-- The stage state of a cue (R83); the copy is present in STAGED only. -/
inductive Stage where
  | staging
  | restaging
  | staged (copy : ShotCopy)
deriving DecidableEq, Repr

/-- A cue of a queue or direct slot (R83). The zone patience count is in the waiting list of the zone arbiter (R143). -/
structure Cue where
  origin : Origin
  shot : BitVec 8
  level : Level
  curve : BitVec 4
  dur : Nat
  kind : StartKind
  stepEnd : Bool
  stage : Stage
  released : Bool
  countdown : Option Nat
deriving DecidableEq, Repr

/-- A gate of the chain (R91), in its order. -/
inductive Gate where
  | staging | fire | chain | offset | level | hold | air | save | zone
deriving DecidableEq, Repr

/-- A move record (R116). The shot number and kind are in the cue reference. -/
structure MoveRec where
  origin : Pose
  target : Pose
  curve : BitVec 4
  dur : Nat
  k : Nat
  level : Level
  ref : CueRef
  stand : Zones
  path : Zones
  pending : Bool
deriving DecidableEq, Repr

/-- A saved move: the fields the save buffer records (R100). -/
structure SavedMove where
  target : Pose
  curve : BitVec 4
  level : Level
  dur : Nat
  k : Nat
  ref : CueRef
  stand : Zones
  path : Zones
deriving DecidableEq, Repr

/-- The pointer copy of a head (R129): it names a bank (0 is A, 1 is B), or is UNKNOWN. -/
inductive PointerCopy where
  | known (bk : Bank)
  | unknown
deriving DecidableEq, Repr

/-- The freeze-reason set of a head (R153). -/
structure Freeze where
  hold : Bool
  floor : Bool
  air : Bool
deriving DecidableEq, Repr

/-- What the head unit, level unit, move engine and hold unit keep for one head. -/
structure Head where
  /-- head state (R75) -/
  state : HeadState
  /-- cue queue, head of the queue first (R84) -/
  queue : List Cue
  /-- direct slot (R85) -/
  direct : Option Cue
  /-- first failing gate (R91) -/
  gate : Option Gate
  /-- level set: bit L - 1 for level L (R97) -/
  levels : BitVec 4
  /-- occupancy of the four save slots, level 1 first, with the kept cue reference (R100, R102) -/
  slots : Vector (Option CueRef) 4
  /-- the preempted move while it is being saved (R100) -/
  saveBuffer : Option SavedMove
  /-- move record (R116) -/
  move : Option MoveRec
  /-- last k reported once the record has gone (R171) -/
  lastK : Nat
  /-- last D reported once the record has gone (R171) -/
  lastD : Nat
  /-- current pose (R117) -/
  pose : Pose
  /-- pointer copy (R129) -/
  pointer : PointerCopy
  /-- freeze-reason set (R153) -/
  freeze : Freeze
  /-- tally state: ON AIR (R153) -/
  onAir : Bool
deriving DecidableEq, Repr

/-- The table copy of a head record (R21). -/
structure HeadRec where
  type : HeadType
  initMode : HeadMode
  min : Pose
  max : Pose
  vmax : Pose
  home : Pose
  zones : Zones
deriving DecidableEq, Repr

/-- The table copy of a level record (R22): speed scale, zone patience, may-start-on-air YES, response FREEZE. -/
structure LevelRec where
  scale : Nat
  patience : Nat
  mayStartOnAir : Bool
  freezeOnAir : Bool
deriving DecidableEq, Repr

/-- A present curve (R23): 33 points and the peak step. -/
structure Curve where
  points : Vector Nat 33
  peak : Nat
deriving DecidableEq, Repr

/-- The table copies (R18, R21 to R23). `curves` holds curves 1 to 15; curve 0 is built in (R118). -/
structure Tables where
  valid : Bool
  heads : Vector HeadRec 12
  levels : Vector LevelRec 4
  curves : Vector (Option Curve) 15
deriving DecidableEq, Repr

/-- The reads of the table loader (R20), one transfer each. -/
inductive TableRead where
  | headLow (h : HeadId)
  | headHigh (h : HeadId)
  | levels
  | curveLow (c : Fin 15)
  | curveHigh (c : Fin 15)
  | header
  | adoptPointer (h : HeadId)
  | adoptPage (h : HeadId) (bk : Bank)
deriving DecidableEq, Repr

/-- The table loader while LOADING (R20 to R30). -/
structure Loader where
  /-- the read that is waiting, in progress or to be requested next; none when the sequence is done -/
  next : Option TableRead
  /-- the first sixteen words of the record being read -/
  half : List Word
  /-- the held count of bank A (R25) -/
  count : Option Nat
  /-- a header notice has made the held count stale and the re-read has not been requested (R25) -/
  stale : Bool
  /-- the MANAGED heads marked adopted (R27 to R29) -/
  adopted : Vector Bool 12
deriving DecidableEq, Repr

/-- The entry the fetcher holds in HOLDING (R62): its head and the cue it makes. -/
structure HeldEntry where
  head : HeadId
  cue : Cue
deriving DecidableEq, Repr

/-- The fetcher's state (R58): HEADER remembers whether an FMARK in RETRY has made its request again (R64, R72), and RETRY
which read failed. -/
inductive FetchState where
  | off
  | idle
  | reading
  | holding (e : HeldEntry)
  | header
  | headerRetried
  | retryEntry
  | retryHeader
deriving DecidableEq, Repr

/-- The rundown fetcher (R56, R58). -/
structure Fetcher where
  state : FetchState
  bank : Bank
  count : Nat
  fetch : Nat
  next : Nat
  on : Option Nat
  fireOpen : Bool
  stepEnds : List Nat
  /-- start index of a SWAP, remembered until its header read ends (R68) -/
  startIndex : Option Nat
deriving DecidableEq, Repr

/-- Which cue of a head a place of the stager's list is for (R87): a queued cue by its entry index, or the direct cue. -/
structure StageKey where
  head : HeadId
  index : Option Nat
deriving DecidableEq, Repr

/-- The shared stager (R87). -/
structure Stager where
  list : List StageKey
  /-- the cue whose read is outstanding -/
  current : Option StageKey
deriving DecidableEq, Repr

/-- The adoption client (R80): the heads it serves, and the bank of the front head's page once its pointer is read. -/
structure Adopter where
  list : List HeadId
  page : Option Bank
deriving DecidableEq, Repr

/-- The kinds of jobs of the saver and restorer (R101). -/
inductive SaveKind where
  | save (m : SavedMove)
  | restore
  | emptyTag
deriving DecidableEq, Repr

/-- A job of the saver and restorer (R101), with the cue reference the level unit keeps for the slot. `discard` marks a
granted save whose slot STOP discards at its end (R113). -/
structure SaveJob where
  kind : SaveKind
  head : HeadId
  level : Level
  ref : CueRef
  discard : Bool
deriving DecidableEq, Repr

/-- Who placed a page job and hears of its end (R128): the move engine, the table loader, a head unit, or the status
writer alone, once a failed START has left a home page behind (R26). -/
inductive JobOrigin where
  | frame | homeLoader | homeHead | homeLeft
deriving DecidableEq, Repr

/-- How far a page job has come (R128): not begun, its check read, its page write, its pointer write. -/
inductive PagePhase where
  | notBegun
  | check
  | page (bk : Bank)
  | pointer (bk : Bank)
deriving DecidableEq, Repr

/-- A job of the page writer (R128). -/
structure PageJob where
  head : HeadId
  stamp : Word
  pose : Pose
  origin : JobOrigin
  phase : PagePhase
deriving DecidableEq, Repr

/-- The kind of a waiting claim (R143): of a candidate, or of a pending restored move. -/
inductive ClaimKind where
  | cue | restore
deriving DecidableEq, Repr

/-- An entry of the zone arbiter's waiting list (R143). The order of putting is the order in the list. -/
structure Claim where
  head : HeadId
  kind : ClaimKind
  level : Level
  zones : Zones
  count : Nat
deriving DecidableEq, Repr

/-- The floor-stop state (R160). -/
inductive FloorStop where
  | clear | active | latched
deriving DecidableEq, Repr

/-- The refusal reasons (R40). -/
inductive Reason where
  | mode | busy | range | expect | ending | floor | head
deriving DecidableEq, Repr

/-- An occupied last-refusal record (R41). -/
structure LastRefusal where
  slot : Nat
  reason : Reason
  param : Word
deriving DecidableEq, Repr

/-- The head fault kinds (R172). -/
inductive HeadFaultKind where
  | blankShot | shotKind | limit | curve | duration | zoneTimeout | headMode | memory | pageOverrun | saveLost
  | restoreLost | poseLimit
deriving DecidableEq, Repr

/-- An occupied head fault record (R172). -/
structure HeadFault where
  kind : HeadFaultKind
  ref : Option CueRef
  frame : Word
  more : Bool
deriving DecidableEq, Repr

/-- The part fault kinds (R172). -/
inductive PartFaultKind where
  | entryInvalid | bankInvalid | memory | startFailed
deriving DecidableEq, Repr

/-- An occupied part fault record (R172). -/
structure PartFault where
  kind : PartFaultKind
  index : Nat
  shot : Option (BitVec 8)
  result : Option StartResult
  frame : Word
  more : Bool
deriving DecidableEq, Repr

/-- The status writer's job in progress (R165): its record, the copy taken at the grant (empty before), and whether a
transfer of it has ended with ERR (R169). -/
structure StatusJob where
  record : RecId
  copy : List Word
  failed : Bool
deriving DecidableEq, Repr

/-- The status writer (chapter 10). -/
structure StatusWriter where
  counts : Vector Word 13
  owed : Vector Bool 13
  remembered : RecId
  job : Option StatusJob
  partFault : Option PartFault
  headFaults : Vector (Option HeadFault) 12
  attn : Bool
deriving DecidableEq, Repr

/-- A snoop notice (R10, R11). -/
inductive Notice where
  | shot (n : BitVec 8)
  | header
  | entry (i : Nat)
deriving DecidableEq, Repr

/-- A near-port operation (R1), with the snoop notice decided at its arrival (R4). -/
structure HostOp where
  write : Bool
  addr : Addr
  lanes : BitVec 4
  data : Word
  notice : Option Notice
deriving DecidableEq, Repr

/-- The answers of the near port (R1). -/
inductive Answer where
  | readData (w : Word)
  | writeDone
  | err
deriving DecidableEq, Repr

/-- The near port (R1, R16). -/
structure NearPort where
  /-- the operation in progress -/
  op : Option HostOp
  /-- it was caught by a reset and is answered with ERR at the reset's end (R16) -/
  cut : Bool
  /-- the operation that arrived during a reset (R16) -/
  held : Option HostOp
  /-- the answer given last -/
  answer : Option Answer
deriving DecidableEq, Repr

/-- The input lines that have a level (00_scope External lines). -/
structure Pins where
  tally : BitVec 12
  floor : Bool
  /-- RESET_N is asserted -/
  resetN : Bool
  /-- power-on reset has not ended -/
  powerReset : Bool
deriving DecidableEq, Repr

/-- A half of a status record's write (R165). -/
inductive Half where
  | first | second
deriving DecidableEq, Repr

/-- The transfers of the far-port clients (R12, R13). -/
inductive Xfer where
  | pageCheck (h : HeadId)
  | pageWrite (h : HeadId) (bk : Bank) (stamp : Word) (pose : Pose)
  | pointerWrite (h : HeadId) (bk : Bank)
  | host
  | save (h : HeadId) (m : SavedMove)
  | restore (h : HeadId) (l : Level)
  | emptyTag (h : HeadId) (l : Level)
  | stage (shot : BitVec 8)
  | entry (bank : Bank) (i : Nat)
  | header (bank : Bank)
  | table (r : TableRead)
  | adoptPointer (h : HeadId)
  | adoptPage (h : HeadId) (bk : Bank)
  | status (record : RecId) (half : Half)
deriving DecidableEq, Repr

/-- A request waiting at the arbiter (R13). `letRun` marks a completing write of a RESET command (R17); `madeAt` is the
event in which it was made. -/
structure Request where
  xfer : Xfer
  letRun : Bool
  madeAt : Nat
deriving DecidableEq, Repr

/-- The current grant (R13). `discard` marks a read whose data is not wanted any more (R14). -/
structure Grant where
  xfer : Xfer
  letRun : Bool
  discard : Bool
deriving DecidableEq, Repr

/-- Faults of the machine: there is none. No command stops the part; its faults are records (R172). -/
inductive Fault where
deriving DecidableEq, Repr

/-- Refusals of the model. -/
inductive Refusal where
  /-- A command the model gives no meaning to. No arm of exec raises it: every command has its meaning. Safe. -/
  | notModelled (mnemonic : String)
deriving DecidableEq, Repr

/-- The state of the part, of the head memory behind its far port, and of the queue of commands. -/
structure State where
  /-- near port (R1) -/
  near : NearPort
  /-- lines (00_scope) -/
  pins : Pins
  /-- head memory (00_scope) -/
  mem : Memory
  /-- current grant of the far port (R13) -/
  grant : Option Grant
  /-- waiting requests, in the order they were made (R13) -/
  waiting : List Request
  /-- last-refusal record (R41) -/
  lastRefusal : Option LastRefusal
  /-- part mode (R18) -/
  mode : PartMode
  /-- last reset cause (R34) -/
  cause : ResetCause
  /-- START result (R26) -/
  startResult : StartResult
  /-- table copies (R18) -/
  tables : Tables
  /-- table loader in LOADING (R20) -/
  loader : Loader
  /-- rundown fetcher (R56) -/
  fetcher : Fetcher
  /-- per-head state -/
  heads : Vector Head 12
  /-- stager (R87) -/
  stager : Stager
  /-- adoption client (R80) -/
  adopter : Adopter
  /-- saver's list (R101) -/
  saver : List SaveJob
  /-- page writer's list (R128) -/
  pageJobs : List PageJob
  /-- frame number (R33) -/
  frame : Word
  /-- zone table: FREE or an owner (R139) -/
  zoneTable : Vector (Option HeadId) 32
  /-- zone arbiter's waiting list, in the order of R143 -/
  claims : List Claim
  /-- floor-stop state (R153) -/
  floorStop : FloorStop
  /-- status writer (chapter 10) -/
  status : StatusWriter
  /-- the model's own: blocks that have not yet taken the last FMARK (log entry 6) -/
  due : List FmarkBlock
  /-- the model's own: number of events taken (log entry 7) -/
  eventNo : Nat
  /-- the model's own: counter of the free values (log entry 4) -/
  freeCount : Nat
  /-- the model's own: the queue of commands, first in, first out -/
  pending : List Instr
deriving DecidableEq, Repr

/-- Every axis 0. -/
def Pose.zero : Pose := ⟨0, 0, 0, 0, 0, 0, 0⟩

/-- No freeze reason. -/
def Freeze.empty : Freeze := ⟨false, false, false⟩

/-- A head after a reset (R77, R115, R138, R153, R171): no state, nothing queued, pointer copy UNKNOWN, pose reported 0,
the tally state from its line. -/
def Head.reset (onAir : Bool) : Head :=
  { state := .noState, queue := [], direct := none, gate := none, levels := 0, slots := Vector.replicate 4 none,
    saveBuffer := none, move := none, lastK := 0, lastD := 0, pose := Pose.zero, pointer := .unknown,
    freeze := Freeze.empty, onAir := onAir }

/-- The table copies after power-on: invalid, curves 1 to 15 absent (R34; the other contents are log entry 3). -/
def Tables.reset : Tables :=
  { valid := false,
    heads := Vector.replicate 12 ⟨.fixed, .off, Pose.zero, Pose.zero, Pose.zero, Pose.zero, 0⟩,
    levels := Vector.replicate 4 ⟨0, 0, false, false⟩,
    curves := Vector.replicate 15 none }

/-- The table loader outside LOADING. -/
def Loader.idle : Loader :=
  { next := none, half := [], count := none, stale := false, adopted := Vector.replicate 12 false }

/-- The fetcher after every reset (R74), which is also what START sets (R19). -/
def Fetcher.reset : Fetcher :=
  { state := .off, bank := .a, count := 0, fetch := 0, next := 0, on := none, fireOpen := false, stepEnds := [],
    startIndex := none }

/-- The status writer after every reset (R170). -/
def StatusWriter.reset : StatusWriter :=
  { counts := Vector.replicate 13 0, owed := Vector.replicate 13 true, remembered := 12, job := none, partFault := none,
    headFaults := Vector.replicate 12 none, attn := false }

/-- The part right after power-on reset has ended (R15, R34): HALTED with cause POWER, every block at its reset values,
the near port free, and the status writer's request for the part record made (R170). The lines are released
(log entry 3). -/
def State.reset : State :=
  { near := { op := none, cut := false, held := none, answer := none },
    pins := { tally := 0, floor := false, resetN := false, powerReset := false },
    mem := [],
    grant := none,
    waiting := [⟨.status 0 .first, false, 0⟩],
    lastRefusal := none,
    mode := .halted,
    cause := .power,
    startResult := .nothing,
    tables := Tables.reset,
    loader := Loader.idle,
    fetcher := Fetcher.reset,
    heads := Vector.replicate 12 (Head.reset false),
    stager := ⟨[], none⟩,
    adopter := ⟨[], none⟩,
    saver := [],
    pageJobs := [],
    frame := 0,
    zoneTable := Vector.replicate 32 none,
    claims := [],
    floorStop := .clear,
    status := { StatusWriter.reset with job := some ⟨0, [], false⟩ },
    due := [],
    eventNo := 0,
    freeCount := 0,
    pending := [] }

end Sys2Proof.Machine
end

