-- ==== Sys2Proof/Machine/Operands.lean ====
section
/-! DEFINITION. Machine/Operands.lean: the fields of the words the part reads and writes (chapter 11), and the windows of
the head memory (R2). Pure functions of words and addresses. -/
namespace Sys2Proof.Machine

/-- The unsigned field of `len` bits of a word from bit `lo` (chapter 11). -/
def field (w : Word) (lo len : Nat) : Nat := w.toNat / 2 ^ lo % 2 ^ len

/-- The word made of fields (value, lowest bit, width); bits of no field are 0 (R177). -/
def packWord (fields : List (Nat × Nat × Nat)) : Word :=
  BitVec.ofNat 32 (fields.foldl (fun acc f => acc + f.1 % 2 ^ f.2.2 * 2 ^ f.2.1) 0)

/-- 1 for a set flag, 0 for a clear one. -/
def flagBit (v : Bool) : Nat := if v then 1 else 0

/-! ## Small numberings -/

/-- The number of a level, 1 to 4 (00_scope Terms). -/
def Level.num : Level → Nat
  | .park => 1
  | .set => 2
  | .live => 3
  | .override => 4

/-- The level of a number; a number above 4 never arises where this is used and reads as OVERRIDE. -/
def Level.ofNum : Nat → Level
  | 0 => .park
  | 1 => .park
  | 2 => .set
  | 3 => .live
  | _ => .override

/-- The index of a level in a table of four (R22). -/
def Level.idx : Level → Fin 4
  | .park => 0
  | .set => 1
  | .live => 2
  | .override => 3

/-- The levels in ascending order. -/
def Level.all : List Level := [.park, .set, .live, .override]

/-- The heads in ascending order. -/
def allHeads : List HeadId := List.finRange 12

/-- The status records in their cycle from the part record (R167). -/
def allRecords : List RecId := List.finRange 13

/-- The head a field of four bits names; 12 to 15 name none (R46, R55). -/
def headOf (n : Nat) : Option HeadId := if h : n < 12 then some ⟨n, h⟩ else none

/-- The status record of a head (R165). -/
def recOf (h : HeadId) : RecId := h.succ

/-- The other bank. -/
def Bank.other : Bank → Bank
  | .a => .b
  | .b => .a

/-- The pointer value that names a page bank (section 11.4), and the code of a rundown bank (section 11.6). -/
def Bank.num : Bank → Nat
  | .a => 0
  | .b => 1

/-- The page bank a pointer word names: 0 is A, 1 is B, any other value names neither (section 11.4). -/
def pointerBank (w : Word) : Option Bank := if w = 0 then some .a else if w = 1 then some .b else none

/-- The head mode that a head state refines (R75). -/
def HeadState.mode : HeadState → Option HeadMode
  | .noState => none
  | .off => some .off
  | .direct => some .direct
  | .adopting => some .managed
  | .rest => some .managed
  | .moving => some .managed
  | .restoring => some .managed

/-! ## Level sets (R97), as four bits -/

/-- Membership of a level set. -/
def levelIn (ls : BitVec 4) (l : Level) : Bool := ls.getLsbD l.idx.val

/-- A level set with a level added. -/
def levelAdd (ls : BitVec 4) (l : Level) : BitVec 4 := ls ||| BitVec.ofNat 4 (2 ^ l.idx.val)

/-- A level set with a level removed. -/
def levelDrop (ls : BitVec 4) (l : Level) : BitVec 4 := ls &&& ~~~ BitVec.ofNat 4 (2 ^ l.idx.val)

/-- The highest member of a level set (R97). -/
def highest (ls : BitVec 4) : Option Level :=
  if levelIn ls .override then some .override else if levelIn ls .live then some .live
  else if levelIn ls .set then some .set else if levelIn ls .park then some .park else none

/-- The holding level H: the highest level of the set, or 0 (R97). -/
def holdingLevel (ls : BitVec 4) : Nat :=
  match highest ls with
  | some l => l.num
  | none => 0

/-! ## Poses -/

/-- The seven axis values in the order X, Y, LIFT, PAN, TILT, ZOOM, FOCUS (section 11.2). -/
def Pose.toList (p : Pose) : List Word := [p.x, p.y, p.lift, p.pan, p.tilt, p.zoom, p.focus]

/-- The pose of seven words in that order; missing words read 0. -/
def Pose.ofWords (ws : List Word) : Pose :=
  ⟨ws.getD 0 0, ws.getD 1 0, ws.getD 2 0, ws.getD 3 0, ws.getD 4 0, ws.getD 5 0, ws.getD 6 0⟩

/-- A pose with X, Y and LIFT taken as 0: the pose of a FIXED head (R27, R123). -/
def Pose.noFloor (p : Pose) : Pose := { p with x := 0, y := 0, lift := 0 }

/-- One axis value lies within a minimum and a maximum, both included; signed (R21, R176). -/
def within (lo hi v : Word) : Bool := decide (lo.toInt ≤ v.toInt) && decide (v.toInt ≤ hi.toInt)

/-- PAN, TILT, ZOOM and FOCUS lie within a head's limits (R88). -/
def aimWithin (r : HeadRec) (p : Pose) : Bool :=
  within r.min.pan r.max.pan p.pan && within r.min.tilt r.max.tilt p.tilt && within r.min.zoom r.max.zoom p.zoom
    && within r.min.focus r.max.focus p.focus

/-- X, Y and LIFT lie within a head's limits (R88). -/
def floorWithin (r : HeadRec) (p : Pose) : Bool :=
  within r.min.x r.max.x p.x && within r.min.y r.max.y p.y && within r.min.lift r.max.lift p.lift

/-- The checked axes of a page: all seven of a PED head, the last four of a FIXED head (R27). -/
def pageWithin (r : HeadRec) (p : Pose) : Bool :=
  match r.type with
  | .ped => floorWithin r p && aimWithin r p
  | .fixed => aimWithin r p

/-! ## Windows (R2) -/

/-- A word of a rundown bank: a word of the header, or a word of an entry (R2). -/
inductive BankWord where
  | header (w : Nat)
  | entry (i w : Nat)
deriving DecidableEq, Repr

/-- The windows of the decoded map (R2), with the record derived. -/
inductive Window where
  | shot (n : BitVec 8) (w : Nat)
  | curve
  | headTable
  | levelTable
  | rundown (bank : Bank) (w : BankWord)
  | cue (slot : Nat)
  | status
  | save
  | page (h : HeadId)
  | plain
deriving DecidableEq, Repr

/-- The byte address of the word an operation selects: the two least significant bits are taken as 0 (R1). -/
def wordAddr (a : Addr) : Nat := a.toNat / 4 * 4

/-- The record of a rundown bank at an offset from its base (R2). -/
def bankWord (off : Nat) : BankWord :=
  if off < 0x10 then .header (off / 4) else .entry ((off - 0x10) / 0x10) ((off - 0x10) % 0x10 / 4)

/-- The decoded window map (R2). -/
def windowOf (a : Addr) : Window :=
  let n := wordAddr a
  if n < 0x10000 then .shot (BitVec.ofNat 8 (n / 0x100)) (n % 0x100 / 4)
  else if n < 0x10800 then .curve
  else if n < 0x10E00 then .headTable
  else if n < 0x10E40 then .levelTable
  else if n < 0x11000 then .plain
  else if n < 0x11810 then .rundown .a (bankWord (n - 0x11000))
  else if n < 0x12000 then .plain
  else if n < 0x12810 then .rundown .b (bankWord (n - 0x12000))
  else if n < 0x13000 then .plain
  else if n < 0x13040 then .cue ((n - 0x13000) / 4)
  else if n < 0x14000 then .plain
  else if n < 0x14700 then .status
  else if n < 0x15000 then .plain
  else if n < 0x15C00 then .save
  else if n < 0x16000 then .plain
  else if h : (n - 0x16000) / 0x80 < 12 then .page ⟨(n - 0x16000) / 0x80, h⟩
  else .plain

/-! ## Addresses of the part's own transfers -/

/-- The base of a rundown bank (R53). -/
def bankBase : Bank → Nat
  | .a => 0x11000
  | .b => 0x12000

/-- The pointer word of a head (R128). -/
def pointerAddr (h : HeadId) : Nat := 0x16000 + h.val * 0x80

/-- A page bank of a head (R128). -/
def pageAddr (h : HeadId) : Bank → Nat
  | .a => 0x16000 + h.val * 0x80 + 0x20
  | .b => 0x16000 + h.val * 0x80 + 0x40

/-- A save slot (R100). -/
def slotAddr (h : HeadId) (l : Level) : Nat := 0x15000 + (h.val * 4 + l.num - 1) * 0x40

/-- The tag word of a save slot, word 15 (section 11.5). -/
def tagAddr (h : HeadId) (l : Level) : Nat := slotAddr h l + 60

/-- A status record: the part record, or a head's (R165). -/
def statusAddr (r : RecId) : Nat := if r.val = 0 then 0x14000 else 0x14100 + (r.val - 1) * 0x80

/-- Where a read of the table loader begins and how many words it has (R20, R27, section 11.2). -/
def TableRead.place : TableRead → Nat × Nat
  | .headLow h => (0x10800 + h.val * 0x80, 16)
  | .headHigh h => (0x10800 + h.val * 0x80 + 64, 16)
  | .levels => (0x10E00, 16)
  | .curveLow c => (0x10000 + (c.val + 1) * 0x80, 16)
  | .curveHigh c => (0x10000 + (c.val + 1) * 0x80 + 64, 16)
  | .header => (0x11000, 1)
  | .adoptPointer h => (pointerAddr h, 1)
  | .adoptPage h bk => (pageAddr h bk, 8)

/-- Where a transfer begins and how many words it has (R12). A host transfer's place is in the operation. -/
def Xfer.place : Xfer → Nat × Nat
  | .pageCheck h => (pointerAddr h, 1)
  | .pageWrite h bk _ _ => (pageAddr h bk, 8)
  | .pointerWrite h _ => (pointerAddr h, 1)
  | .host => (0, 1)
  | .save h m => (slotAddr h m.level, 16)
  | .restore h l => (slotAddr h l, 16)
  | .emptyTag h l => (tagAddr h l, 1)
  | .stage n => (n.toNat * 0x100, 10)
  | .entry bk i => (bankBase bk + 0x10 + i * 0x10, 2)
  | .header bk => (bankBase bk, 1)
  | .table r => r.place
  | .adoptPointer h => (pointerAddr h, 1)
  | .adoptPage h bk => (pageAddr h bk, 8)
  | .status r .first => (statusAddr r, 16)
  | .status r .second => (statusAddr r + 64, 16)

/-! ## Words the part writes -/

/-- The code of a shot kind (section 11.2, section 11.6); 0 where it is not known. -/
def kindCode : Option ShotKind → Nat
  | none => 0
  | some .head => 1
  | some .ped => 2

/-- The cue reference word (section 11.6). -/
def CueRef.word (r : CueRef) : Word :=
  match r.origin with
  | .rundown bk i => packWord [(i, 0, 7), (bk.num, 7, 1), (0, 8, 1), (1, 15, 1), (r.shot.toNat, 16, 8), (kindCode r.kind, 24, 2)]
  | .direct => packWord [(1, 8, 1), (1, 15, 1), (r.shot.toNat, 16, 8), (kindCode r.kind, 24, 2)]

/-- A reference of none is written as a whole word of 0 (section 11.6). -/
def refWord : Option CueRef → Word
  | none => 0
  | some r => r.word

/-- The cue reference a reference word holds (section 11.6); kind 2 is PED, kind 1 HEAD. -/
def CueRef.ofWord (w : Word) : CueRef :=
  { origin := if field w 8 1 = 1 then .direct else .rundown (if field w 7 1 = 1 then .b else .a) (field w 0 7),
    shot := BitVec.ofNat 8 (field w 16 8),
    kind := if field w 24 2 = 1 then some .head else if field w 24 2 = 2 then some .ped else none }

/-- The words of a page: the stamp, then the seven axes (R128). -/
def pageWords (stamp : Word) (p : Pose) : List Word := stamp :: p.toList

/-- The tag word SAVED with a level (section 11.5). -/
def savedTag (l : Level) : Word := packWord [(l.num, 0, 16), (0x5A7E, 16, 16)]

/-- The sixteen words of a save record (section 11.5). -/
def SavedMove.words (m : SavedMove) : List Word :=
  m.target.toList ++ [m.ref.word, packWord [(m.dur, 0, 16), (m.k, 16, 16)],
    packWord [(m.curve.toNat, 0, 4), (m.level.num, 8, 3)], m.stand, m.path, 0, 0, 0, savedTag m.level]

/-- The saved move that the words of a slot of level l hold (section 11.5, R109: the saved level is the slot's). -/
def SavedMove.ofWords (l : Level) (ws : List Word) : SavedMove :=
  { target := Pose.ofWords ws,
    curve := BitVec.ofNat 4 (field (ws.getD 9 0) 0 4),
    level := l,
    dur := field (ws.getD 8 0) 0 16,
    k := field (ws.getD 8 0) 16 16,
    ref := CueRef.ofWord (ws.getD 7 0),
    stand := ws.getD 10 0,
    path := ws.getD 11 0 }

/-! ## Records the part reads -/

/-- The cue an entry makes (R54), unreleased and in STAGING; none if the entry is invalid (R55): a head field of 12 to
15, a level field outside 1 to 4, or start kind 3. -/
def entryCue (bank : Bank) (i : Nat) (w0 w1 : Word) : Option HeldEntry :=
  match headOf (field w0 0 4) with
  | none => none
  | some h =>
    let lev := field w0 4 3
    let kind : Option StartKind :=
      match field w0 8 2 with
      | 0 => some .step
      | 1 => some .chain
      | 2 => some (.offset (field w1 16 16))
      | _ => none
    match kind with
    | none => none
    | some kd =>
      if 1 ≤ lev ∧ lev ≤ 4 then
        some { head := h,
               cue := { origin := .rundown bank i, shot := BitVec.ofNat 8 (field w0 16 8), level := Level.ofNum lev,
                        curve := BitVec.ofNat 4 (field w0 12 4), dur := field w1 0 16, kind := kd,
                        stepEnd := decide (field w0 10 1 = 1), stage := .staging, released := false,
                        countdown := none } }
      else none

/-- The step-end flag of an entry as written (R63). -/
def entryStepEnd (w0 : Word) : Bool := decide (field w0 10 1 = 1)

/-- The shot field of an entry as read (R55). -/
def entryShot (w0 : Word) : BitVec 8 := BitVec.ofNat 8 (field w0 16 8)

/-- The direct cue that a MOVE parameter makes (R85, section 11.3): released from creation, in STAGING. -/
def moveCue (p : Word) : Cue :=
  { origin := .direct, shot := BitVec.ofNat 8 (field p 10 8), level := Level.ofNum (field p 4 2 + 1),
    curve := BitVec.ofNat 4 (field p 6 4), dur := field p 18 14, kind := .step, stepEnd := false, stage := .staging,
    released := true, countdown := none }

/-- The per-axis words of a head record: word `o` of each axis's four, axis a at words 2 + 4a on (section 11.2). -/
def axisWords (ws : List Word) (o : Nat) : Pose :=
  ⟨ws.getD (2 + o) 0, ws.getD (6 + o) 0, ws.getD (10 + o) 0, ws.getD (14 + o) 0, ws.getD (18 + o) 0, ws.getD (22 + o) 0,
    ws.getD (26 + o) 0⟩

/-- One examined axis is valid: minimum ≤ maximum, vmax at least 1, home within both (R21, checks 3 and 4). -/
def axisOk (lo hi vmax home : Word) : Bool :=
  decide (lo.toInt ≤ hi.toInt) && decide (1 ≤ vmax.toNat) && within lo hi home

/-- The examined axes of a record of the type are valid (R21). -/
def axesOk (t : HeadType) (lo hi vm hm : Pose) : Bool :=
  let aim := axisOk lo.pan hi.pan vm.pan hm.pan && axisOk lo.tilt hi.tilt vm.tilt hm.tilt
    && axisOk lo.zoom hi.zoom vm.zoom hm.zoom && axisOk lo.focus hi.focus vm.focus hm.focus
  match t with
  | .fixed => aim
  | .ped => aim && axisOk lo.x hi.x vm.x hm.x && axisOk lo.y hi.y vm.y hm.y && axisOk lo.lift hi.lift vm.lift hm.lift

/-- The type code of a head record (section 11.2). -/
def headTypeOf (w : Word) : Option HeadType :=
  match field w 0 8 with
  | 1 => some .ped
  | 2 => some .fixed
  | _ => none

/-- The initial mode code of a head record (section 11.2). -/
def initModeOf (w : Word) : Option HeadMode :=
  match field w 8 8 with
  | 1 => some .managed
  | 2 => some .direct
  | 3 => some .off
  | _ => none

/-- The head record taken into the table copy, or none if a check of R21 fails. A FIXED head's pedestal axes are held
as 0. -/
def parseHead (ws : List Word) : Option HeadRec :=
  match headTypeOf (ws.getD 0 0), initModeOf (ws.getD 0 0) with
  | some t, some m =>
    let z := ws.getD 1 0
    let lo := axisWords ws 0
    let hi := axisWords ws 1
    let vm := axisWords ws 2
    let hm := axisWords ws 3
    if axesOk t lo hi vm hm && (decide (t = .ped) || decide (z = 0)) then
      match t with
      | .ped => some ⟨t, m, lo, hi, vm, hm, z⟩
      | .fixed => some ⟨t, m, lo.noFloor, hi.noFloor, vm.noFloor, hm.noFloor, z⟩
    else none
  | _, _ => none

/-- The level record taken into the table copy, or none if a check of R22 fails. -/
def parseLevel (ws : List Word) : Option LevelRec :=
  let scale := (ws.getD 0 0).toNat
  let air := (ws.getD 2 0).toNat
  let resp := (ws.getD 3 0).toNat
  if 1 ≤ scale ∧ scale ≤ 100 ∧ air ≤ 1 ∧ resp ≤ 1 then
    some ⟨scale, field (ws.getD 1 0) 0 16, decide (air = 1), decide (resp = 1)⟩
  else none

/-- Point i of a curve record (section 11.2). -/
def curvePoint (ws : List Word) (i : Nat) : Nat := field (ws.getD (1 + i / 2) 0) (16 * (i % 2)) 16

/-- The peak step of 33 points: the largest difference of neighbours (R23). -/
def peakStep (p : Nat → Nat) : Nat := (List.range 32).foldl (fun acc i => max acc (p (i + 1) - p i)) 0

/-- The outcome of checking a curve record (R23). -/
inductive CurveCheck where
  | absent
  | present (c : Curve)
  | bad
deriving DecidableEq, Repr

/-- The check of a curve record (R23): p[0] is 0, p[32] is 65535, no point is smaller than the one before it. -/
def parseCurve (ws : List Word) : CurveCheck :=
  if ws.getD 0 0 = 1 then
    let p := curvePoint ws
    if p 0 = 0 ∧ p 32 = 65535 ∧ (List.range 32).all (fun i => decide (p i ≤ p (i + 1))) then
      .present ⟨Vector.ofFn (fun i : Fin 33 => p i.val), peakStep p⟩
    else .bad
  else .absent

/-- The outcome of judging a shot record (R88): a copy, or the fault that rejects the cue, with the shot kind where the
kind check has passed (section 11.6). -/
inductive StageVerdict where
  | staged (copy : ShotCopy)
  | rejected (kind : HeadFaultKind) (shotKind : Option ShotKind)
deriving DecidableEq, Repr

/-- The kind a tag word names: its low byte, 1 HEAD or 2 PED (section 11.2). -/
def shotKindOf (w : Word) : Option ShotKind :=
  match field w 0 8 with
  | 1 => some .head
  | 2 => some .ped
  | _ => none

/-- The targets of a shot record as a pose (section 11.2). -/
def shotTarget (ws : List Word) : Pose :=
  ⟨ws.getD 5 0, ws.getD 6 0, ws.getD 7 0, ws.getD 1 0, ws.getD 2 0, ws.getD 3 0, ws.getD 4 0⟩

/-- The checks of R88, in order, for a head record and a curve that is present or not. -/
def judgeShot (r : HeadRec) (curvePresent : Bool) (ws : List Word) : StageVerdict :=
  let tag := ws.getD 0 0
  if tag = 0 ∨ tag = 0xFFFFFFFF then .rejected .blankShot none
  else
    match shotKindOf tag with
    | none => .rejected .shotKind none
    | some .head =>
      if aimWithin r (shotTarget ws) then
        if curvePresent then .staged (.head (ws.getD 1 0) (ws.getD 2 0) (ws.getD 3 0) (ws.getD 4 0))
        else .rejected .curve (some .head)
      else .rejected .limit (some .head)
    | some .ped =>
      if r.type = .fixed then .rejected .shotKind (some .ped)
      else if aimWithin r (shotTarget ws) && floorWithin r (shotTarget ws) then
        if curvePresent then .staged (.ped (shotTarget ws) (ws.getD 8 0) (ws.getD 9 0))
        else .rejected .curve (some .ped)
      else .rejected .limit (some .ped)

end Sys2Proof.Machine
end

