-- ==== Sys2Proof/Machine/Ops.lean ====
section
/-! DEFINITION. Machine/Ops.lean: the named reads and updates of the state, the far-port arbiter's waiting set (R13,
R14), and the writing of a transfer into the head memory (R12). -/
namespace Sys2Proof.Machine

/-! ## Heads -/

/-- What is kept for a head. -/
def State.head (s : State) (h : HeadId) : Head := s.heads[h.val]

/-- Change what is kept for one head. -/
def State.setHead (s : State) (h : HeadId) (f : Head → Head) : State :=
  { s with heads := s.heads.set h.val (f (s.head h)) }

/-! ## Changes of one field -/

/-- Change the near port. -/
def State.setNear (s : State) (f : NearPort → NearPort) : State := { s with near := f s.near }

/-- Change the lines. -/
def State.setPins (s : State) (f : Pins → Pins) : State := { s with pins := f s.pins }

/-- Change the part mode. -/
def State.setMode (s : State) (m : PartMode) : State := { s with mode := m }

/-- Change the table copies. -/
def State.setTables (s : State) (f : Tables → Tables) : State := { s with tables := f s.tables }

/-- Change the stager. -/
def State.setStager (s : State) (f : Stager → Stager) : State := { s with stager := f s.stager }

/-- Change the adoption client. -/
def State.setAdopter (s : State) (f : Adopter → Adopter) : State := { s with adopter := f s.adopter }

/-- Change the saver's list. -/
def State.setSaver (s : State) (f : List SaveJob → List SaveJob) : State := { s with saver := f s.saver }

/-- Change the page writer's list. -/
def State.setPageJobs (s : State) (f : List PageJob → List PageJob) : State := { s with pageJobs := f s.pageJobs }

/-- Change the zone table. -/
def State.setZoneTable (s : State) (t : Vector (Option HeadId) 32) : State := { s with zoneTable := t }

/-- Change the zone arbiter's waiting list. -/
def State.setClaims (s : State) (f : List Claim → List Claim) : State := { s with claims := f s.claims }

/-- Change the floor-stop state. -/
def State.setFloorStop (s : State) (f : FloorStop) : State := { s with floorStop := f }

/-- Change the status writer. -/
def State.setStatus (s : State) (f : StatusWriter → StatusWriter) : State := { s with status := f s.status }

/-! ## Views -/

/-- The table copy of a head's record. -/
def State.headRec (s : State) (h : HeadId) : HeadRec := s.tables.heads[h.val]

/-- The table copy of a level's record. -/
def State.levelRec (s : State) (l : Level) : LevelRec := s.tables.levels[l.idx.val]

/-- The head has at least one freeze reason (R155). -/
def Freeze.any (f : Freeze) : Bool := f.hold || f.floor || f.air

/-- The head holds an occupied save slot at the level (R97). -/
def Head.slotRef (hd : Head) (l : Level) : Option CueRef := hd.slots[l.idx.val]

/-- Change the occupancy of a save slot. -/
def Head.setSlot (hd : Head) (l : Level) (r : Option CueRef) : Head := { hd with slots := hd.slots.set l.idx.val r }

/-- The part is in a mode in which the heads have states (R75). -/
def State.live (s : State) : Bool := decide (s.mode = .running) || decide (s.mode = .draining)

/-- RESET_N is asserted or power-on reset has not ended (R13, R16). -/
def State.inReset (s : State) : Bool := s.pins.resetN || s.pins.powerReset

/-- WAIT: the near port holds the host while an operation is unanswered and during a reset (R1, R16). -/
def State.wait (s : State) : Bool := s.inReset || s.near.op.isSome || s.near.held.isSome

/-! ## The far port -/

/-- The far-port clients (R13). -/
inductive Client where
  | pageWriter | host | saver | stager | fetcher | loader | adopter | status
deriving DecidableEq, Repr

/-- Whose transfer it is. -/
def Xfer.client : Xfer → Client
  | .pageCheck _ => .pageWriter
  | .pageWrite _ _ _ _ => .pageWriter
  | .pointerWrite _ _ => .pageWriter
  | .host => .host
  | .save _ _ => .saver
  | .restore _ _ => .saver
  | .emptyTag _ _ => .saver
  | .stage _ => .stager
  | .entry _ _ => .fetcher
  | .header _ => .fetcher
  | .table _ => .loader
  | .adoptPointer _ => .adopter
  | .adoptPage _ _ => .adopter
  | .status _ _ => .status

/-- The class of a client (R13). -/
def Client.cls : Client → Nat
  | .pageWriter => 1
  | .host => 2
  | .saver => 3
  | .stager => 4
  | .fetcher => 4
  | .loader => 4
  | .adopter => 4
  | .status => 5

/-- The client that a FAR_PORT_GRANT operand names. -/
def ReadClient.client : ReadClient → Client
  | .stager => .stager
  | .fetcher => .fetcher
  | .loader => .loader
  | .adopter => .adopter

/-- A client has a request waiting. -/
def State.waits (s : State) (c : Client) : Bool := s.waiting.any fun r => decide (r.xfer.client = c)

/-- A client's transfer is the current grant. -/
def State.granted (s : State) (c : Client) : Bool := s.grant.any fun g => decide (g.xfer.client = c)

/-- A client has a request waiting or granted, and makes no further request (R13). -/
def State.busy (s : State) (c : Client) : Bool := s.waits c || s.granted c

/-- Place a request with the arbiter (R13). -/
def State.request (s : State) (x : Xfer) : State := { s with waiting := s.waiting ++ [⟨x, false, s.eventNo⟩] }

/-- Place the request of a completing write of a RESET command (R17). -/
def State.requestLetRun (s : State) (x : Xfer) : State := { s with waiting := s.waiting ++ [⟨x, true, s.eventNo⟩] }

/-- Withdraw a client's waiting request (R14); a completing write of a RESET command stays (R52). -/
def State.withdraw (s : State) (c : Client) : State :=
  { s with waiting := s.waiting.filter fun r => decide (r.xfer.client ≠ c) || r.letRun }

/-- Abandon a client's read (R14): a waiting request is withdrawn, a granted transfer is finished and its data
discarded. -/
def State.abandon (s : State) (c : Client) : State :=
  let s1 := s.withdraw c
  { s1 with grant := s1.grant.map fun g => if g.xfer.client = c then { g with discard := true } else g }

/-- The current grant ends (R13). -/
def State.endGrant (s : State) : State := { s with grant := none }

/-- Writes that a RESET command lets run are still waiting or running (R17, R19). A START waits for these alone, as R19 says, and not for
a granted pointer check read that the RESET discards, which R138's 'these transfers' may name too (DESIGN CHOICE, log entry 27). -/
def State.letRunActive (s : State) : Bool :=
  (s.waiting.any fun r => r.letRun) || (s.grant.any fun g => g.letRun)

/-- Store the words of a write transfer from a byte address; bit j of `err` says that word j was answered with ERR and
holds a free value (R5, R12, log entry 4). -/
def State.store (s : State) (a : Nat) (ws : List Word) (err : Nat) : State :=
  { s with mem := s.mem.writeWords a (answeredWords err s.freeCount 0 ws),
           freeCount := if err = 0 then s.freeCount else s.freeCount + ws.length }

/-- The words of a read transfer (R12). -/
def State.load (s : State) (a n : Nat) : List Word := s.mem.readWords a n

/-! ## Cues -/

/-- The key of a cue of a head for the stager's list (R87). -/
def Cue.key (c : Cue) (h : HeadId) : StageKey :=
  match c.origin with
  | .rundown _ i => ⟨h, some i⟩
  | .direct => ⟨h, none⟩

/-- The entry index of a rundown cue (R83). -/
def Cue.index (c : Cue) : Option Nat :=
  match c.origin with
  | .rundown _ i => some i
  | .direct => none

/-- The staged copy of a STAGED cue. -/
def Cue.copy (c : Cue) : Option ShotCopy :=
  match c.stage with
  | .staged k => some k
  | .staging => none
  | .restaging => none

/-- The kind of a staged copy. -/
def ShotCopy.kind : ShotCopy → ShotKind
  | .head _ _ _ _ => .head
  | .ped _ _ _ => .ped

/-- The cue reference of a cue, with the shot kind where the copy gives it (section 11.6). -/
def Cue.ref (c : Cue) : CueRef := ⟨c.origin, c.shot, c.copy.map ShotCopy.kind⟩

/-- The candidate of a head (R90): in REST, MOVING and RESTORING the direct cue, else the head of the queue. -/
def Head.candidate (hd : Head) : Option Cue :=
  match hd.state with
  | .rest => hd.direct.or hd.queue.head?
  | .moving => hd.direct.or hd.queue.head?
  | .restoring => hd.direct.or hd.queue.head?
  | .noState => none
  | .off => none
  | .direct => none
  | .adopting => none

/-- The head without its candidate: the direct slot is emptied if it is occupied, else the head of the queue leaves
(R83, R90). -/
def Head.dropCandidate (hd : Head) : Head :=
  match hd.direct with
  | some _ => { hd with direct := none }
  | none => { hd with queue := hd.queue.tail }

/-- Change each cue of a head that a key names. -/
def Head.mapCue (hd : Head) (h : HeadId) (k : StageKey) (f : Cue → Cue) : Head :=
  { hd with queue := hd.queue.map (fun c => if c.key h = k then f c else c),
            direct := hd.direct.map (fun c => if c.key h = k then f c else c) }

/-- The cue of a head that a key names. -/
def Head.findCue (hd : Head) (h : HeadId) (k : StageKey) : Option Cue :=
  (hd.direct.toList ++ hd.queue).find? fun c => decide (c.key h = k)

/-- The head without the cue that a key names (R88: it leaves its queue or slot whether or not it is the candidate). -/
def Head.removeCue (hd : Head) (h : HeadId) (k : StageKey) : Head :=
  { hd with queue := hd.queue.filter (fun c => decide (c.key h ≠ k)),
            direct := hd.direct.filter (fun c => decide (c.key h ≠ k)) }

/-! ## Save jobs and page jobs -/

/-- The save buffer of a head is writing: a save job or an empty tag job of the head is in the saver's list (R103). -/
def State.saveWriting (s : State) (h : HeadId) : Bool :=
  s.saver.any fun j =>
    decide (j.head = h) &&
      match j.kind with
      | .save _ => true
      | .restore => false
      | .emptyTag => true

/-- Place a job at the tail of the saver's list (R101). -/
def State.placeSave (s : State) (j : SaveJob) : State := s.setSaver fun l => l ++ [j]

/-- A page job of the head is in the page writer's list (R124, R125). -/
def State.hasPageJob (s : State) (h : HeadId) : Bool := s.pageJobs.any fun j => decide (j.head = h)

/-- Place a job at the tail of the page writer's list (R128). -/
def State.placePage (s : State) (j : PageJob) : State := s.setPageJobs fun l => l ++ [j]

/-! ## Orders of re-examinations -/

/-- The items in the order a command's operand gives, then the rest in the order they stand in (log entry 5). -/
def arrange {α : Type} [DecidableEq α] (order items : List α) : List α :=
  (order.eraseDups.filter fun x => decide (x ∈ items)) ++ items.filter fun x => decide (x ∉ order)

/-- Fold a state change over a list. -/
def State.forEach {α : Type} (s : State) (l : List α) (f : α → State → State) : State := l.foldl (fun t x => f x t) s

end Sys2Proof.Machine
end

