-- ==== Sys2Proof/Machine/MoveMath.lean ====
section
/-! DEFINITION. Machine/MoveMath.lean: curves (R118), the effective duration (R119, R120) and the interpolation (R122),
in exact arithmetic. -/
namespace Sys2Proof.Machine

/-- Curve 0, built in (R118): p[i] = 2048 i for i to 31, p[32] = 65535, peak step 2048. -/
def curveZero : Curve := ⟨Vector.ofFn (fun i : Fin 33 => if i.val = 32 then 65535 else 2048 * i.val), 2048⟩

/-- The curve of a number (R118): curve 0, or the table copy's; none if it is absent. -/
def Tables.curve (t : Tables) (c : BitVec 4) : Option Curve :=
  if h : c.toNat = 0 then some curveZero else t.curves[c.toNat - 1]'(by have := c.isLt; omega)

/-- The curve of a move. A curve present at staging stays present (R118); where it is not, curve 0 stands in, which no
run reaches. -/
def Tables.curveOrZero (t : Tables) (c : BitVec 4) : Curve := (t.curve c).getD curveZero

/-- Point i of a curve. -/
def Curve.point (c : Curve) (i : Nat) : Nat := (c.points[i]?).getD 0

/-- The speed limit of an axis: max(1, (vmax · S) div 100) (R119). -/
def axisSpeed (vmax : Word) (scale : Nat) : Nat := max 1 (vmax.toNat * scale / 100)

/-- The distance of an axis: |target − origin|, exact (R120). -/
def axisDistance (origin target : Word) : Nat := (target.toInt - origin.toInt).natAbs

/-- Division rounded up to the next integer (00_scope Conventions). -/
def ceilDiv (a b : Nat) : Nat := (a + b - 1) / b

/-- D_A = ceil(Δ · s · 32 / (65535 · v)) (R120). -/
def axisDuration (peak : Nat) (vmax : Word) (scale : Nat) (origin target : Word) : Nat :=
  ceilDiv (axisDistance origin target * peak * 32) (65535 * axisSpeed vmax scale)

/-- The effective duration D = max(R', D_A over all seven axes), R' = max(1, R) (R120). It may exceed 65535 (R121). -/
def effectiveDuration (r : HeadRec) (scale peak requested : Nat) (origin target : Pose) : Nat :=
  let d := fun (vm o t : Word) => axisDuration peak vm scale o t
  [d r.vmax.x origin.x target.x, d r.vmax.y origin.y target.y, d r.vmax.lift origin.lift target.lift,
    d r.vmax.pan origin.pan target.pan, d r.vmax.tilt origin.tilt target.tilt, d r.vmax.zoom origin.zoom target.zoom,
    d r.vmax.focus origin.focus target.focus].foldl max (max 1 requested)

/-- u of frame k of D frames (R122, steps 1 to 3). -/
def progress (c : Curve) (dur k : Nat) : Nat :=
  let i := 32 * k / dur
  let r := 32 * k % dur
  if 32 ≤ i then 65535 else c.point i + (c.point (i + 1) - c.point i) * r / dur

/-- One axis at progress u: origin + ((target − origin) · u) div 65535, truncated toward zero (R122, step 4). -/
def axisAt (origin target : Word) (u : Nat) : Word :=
  BitVec.ofInt 32 (origin.toInt + ((target.toInt - origin.toInt) * (u : Int)).tdiv 65535)

/-- A pose at progress u. -/
def poseAt (origin target : Pose) (u : Nat) : Pose :=
  ⟨axisAt origin.x target.x u, axisAt origin.y target.y u, axisAt origin.lift target.lift u,
    axisAt origin.pan target.pan u, axisAt origin.tilt target.tilt u, axisAt origin.zoom target.zoom u,
    axisAt origin.focus target.focus u⟩

/-- The pose of frame k of a move record (R122). A HEAD shot's X, Y and LIFT targets equal its origin, and a FIXED head's
are 0 in both, so the two exceptions of R123 are in the record. -/
def MoveRec.poseAtFrame (m : MoveRec) (t : Tables) (k : Nat) : Pose :=
  poseAt m.origin m.target (progress (t.curveOrZero m.curve) m.dur k)

/-- The target pose of a staged copy for a head at a pose: a HEAD shot keeps X, Y and LIFT (R95 step 4). -/
def ShotCopy.target (c : ShotCopy) (origin : Pose) : Pose :=
  match c with
  | .head pan tilt zoom focus => { origin with pan := pan, tilt := tilt, zoom := zoom, focus := focus }
  | .ped target _ _ => target

/-- The stand zones of a staged copy; empty for a HEAD shot. -/
def ShotCopy.stand : ShotCopy → Zones
  | .head _ _ _ _ => 0
  | .ped _ stand _ => stand

/-- The path zones of a staged copy; empty for a HEAD shot. -/
def ShotCopy.path : ShotCopy → Zones
  | .head _ _ _ _ => 0
  | .ped _ _ path => path

/-- The claim of a staged copy (R141): the stand zones and the path zones; empty for a HEAD shot. -/
def ShotCopy.claim (c : ShotCopy) : Zones := c.stand ||| c.path

end Sys2Proof.Machine
end

