-- ==== Sys2Proof/Machine/Flags.lean ====
section
/-! DEFINITION. Machine/Flags.lean: fault records and ATTN (R172 to R175), owed marks (R166), and the words of the status
records (R171, section 11.6). -/
namespace Sys2Proof.Machine

/-! ## Fault records -/

/-- File a head fault in the head's record (R172): an empty record becomes occupied, an occupied one gets MORE. ATTN is
asserted while a record is occupied (R175). -/
def State.fileHead (s : State) (h : HeadId) (kind : HeadFaultKind) (ref : Option CueRef) (frame : Word) : State :=
  let f : HeadFault :=
    match s.status.headFaults[h.val] with
    | none => ⟨kind, ref, frame, false⟩
    | some f0 => { f0 with more := true }
  s.setStatus fun w => { w with headFaults := w.headFaults.set h.val (some f), attn := true }

/-- File a part fault in the part fault record (R172, R175). -/
def State.filePart (s : State) (kind : PartFaultKind) (index : Nat) (shot : Option (BitVec 8))
    (result : Option StartResult) : State :=
  let f : PartFault :=
    match s.status.partFault with
    | none => ⟨kind, index, shot, result, s.frame, false⟩
    | some f0 => { f0 with more := true }
  s.setStatus fun w => { w with partFault := some f, attn := true }

/-- At least one of the thirteen fault records is occupied (R175). -/
def StatusWriter.anyFault (w : StatusWriter) : Bool :=
  w.partFault.isSome || w.headFaults.toList.any fun f => f.isSome

/-- Empty a fault record: a head's, or the part's (R174); ATTN follows (R175). -/
def StatusWriter.clearFault (w : StatusWriter) (target : Option HeadId) : StatusWriter :=
  let w1 :=
    match target with
    | some h => { w with headFaults := w.headFaults.set h.val none }
    | none => { w with partFault := none }
  { w1 with attn := w1.anyFault }

/-! ## Owed marks -/

/-- Mark a record owed a write (R166). -/
def State.owe (s : State) (r : RecId) : State :=
  s.setStatus fun w => { w with owed := w.owed.set r.val true }

/-! ## Held zones and waiting claims as the host sees them (R152) -/

/-- The held set of a head: the zones whose entries name it (R139). -/
def heldSet (t : Vector (Option HeadId) 32) (h : HeadId) : Zones :=
  BitVec.ofNat 32 ((List.finRange 32).foldl (fun acc z => acc + if t[z.val] = some h then 2 ^ z.val else 0) 0)

/-- The waiting claim of a head and kind (R143: at most one). -/
def State.claimOf (s : State) (h : HeadId) (k : ClaimKind) : Option Claim :=
  s.claims.find? fun c => decide (c.head = h) && decide (c.kind = k)

/-- The patience count of a waiting claim; 0 stands for none (section 11.6). -/
def State.claimCount (s : State) (h : HeadId) (k : ClaimKind) : Nat :=
  match s.claimOf h k with
  | some c => c.count
  | none => 0

/-! ## Codes (section 11.6) -/

/-- Part mode code. -/
def PartMode.code : PartMode → Nat
  | .halted => 0
  | .loading => 1
  | .running => 2
  | .draining => 3

/-- Reset cause code. -/
def ResetCause.code : ResetCause → Nat
  | .power => 1
  | .line => 2
  | .command => 3

/-- START result code. -/
def StartResult.code : StartResult → Nat
  | .nothing => 0
  | .ok => 1
  | .headTable => 2
  | .zoneOverlap => 3
  | .levelTable => 4
  | .curveTable => 5
  | .bank => 6
  | .memory => 7

/-- Floor-stop state code. -/
def FloorStop.code : FloorStop → Nat
  | .clear => 0
  | .active => 1
  | .latched => 2

/-- Refusal reason code. -/
def Reason.code : Reason → Nat
  | .mode => 1
  | .busy => 2
  | .range => 3
  | .expect => 4
  | .ending => 5
  | .floor => 6
  | .head => 7

/-- Part fault kind code. -/
def PartFaultKind.code : PartFaultKind → Nat
  | .entryInvalid => 1
  | .bankInvalid => 2
  | .memory => 3
  | .startFailed => 4

/-- Head fault kind code. -/
def HeadFaultKind.code : HeadFaultKind → Nat
  | .blankShot => 1
  | .shotKind => 2
  | .limit => 3
  | .curve => 4
  | .duration => 5
  | .zoneTimeout => 6
  | .headMode => 7
  | .memory => 8
  | .pageOverrun => 9
  | .saveLost => 10
  | .restoreLost => 11
  | .poseLimit => 12

/-- Head mode code; 0 is NONE. -/
def modeCode : Option HeadMode → Nat
  | none => 0
  | some .managed => 1
  | some .direct => 2
  | some .off => 3

/-- Head state code. -/
def HeadState.code : HeadState → Nat
  | .noState => 0
  | .off => 1
  | .direct => 2
  | .adopting => 3
  | .rest => 4
  | .moving => 5
  | .restoring => 6

/-- Gate code; 0 is none. -/
def gateCode : Option Gate → Nat
  | none => 0
  | some .staging => 1
  | some .fire => 2
  | some .chain => 3
  | some .offset => 4
  | some .level => 5
  | some .hold => 6
  | some .air => 7
  | some .save => 8
  | some .zone => 9

/-- What the head record reports of a pending move: 0 NONE, 1 HOLD, 2 AIR, 3 ZONE, by the tests of R110. -/
def State.pendingCode (s : State) (h : HeadId) : Nat :=
  match (s.head h).move with
  | none => 0
  | some m =>
    if m.pending then
      if (s.head h).freeze.any then 1
      else if (s.head h).onAir && !(s.levelRec m.level).mayStartOnAir then 2
      else 3
    else 0

/-! ## The words of the status records (section 11.6) -/

/-- Words 6 and 7 of the part record: the last refusal. -/
def refusalWords : Option LastRefusal → List Word
  | none => [0, 0]
  | some r => [packWord [(r.slot, 0, 4), (r.reason.code, 8, 4)], r.param]

/-- Words 8 and 9 of the part record: the part fault record. -/
def partFaultWords : Option PartFault → List Word
  | none => [0, 0]
  | some f =>
    [packWord [(f.kind.code, 0, 4), (flagBit f.more, 7, 1), ((f.result.map StartResult.code).getD 0, 8, 4),
      (f.index, 16, 8), ((f.shot.map BitVec.toNat).getD 0, 24, 8)], f.frame]

/-- The sixteen words of the part status record with an update count. -/
def State.partImage (s : State) (count : Word) : List Word :=
  [count,
   packWord [(s.mode.code, 0, 2), (s.cause.code, 4, 2), (s.startResult.code, 8, 4), (s.floorStop.code, 12, 2)],
   s.frame,
   packWord [(s.fetcher.bank.num, 0, 1), (flagBit s.fetcher.fireOpen, 1, 1), (s.fetcher.count, 16, 8)],
   packWord [(s.fetcher.fetch, 0, 16), (s.fetcher.next, 16, 16)],
   packWord [(s.fetcher.on.getD 0xFFFF, 0, 16)]]
  ++ refusalWords s.lastRefusal ++ partFaultWords s.status.partFault ++ [0, 0, 0, 0, 0, count]

/-- Words 15 to 17 of a head record: the head fault record. -/
def headFaultWords : Option HeadFault → List Word
  | none => [0, 0, 0]
  | some f => [packWord [(f.kind.code, 0, 4), (flagBit f.more, 7, 1)], refWord f.ref, f.frame]

/-- Word 1 of a head record. -/
def Head.word1 (hd : Head) : Word :=
  packWord [(modeCode hd.state.mode, 0, 2), (hd.state.code, 4, 3), (hd.levels.toNat, 8, 4),
    (flagBit (hd.slotRef .park).isSome, 12, 1), (flagBit (hd.slotRef .set).isSome, 13, 1),
    (flagBit (hd.slotRef .live).isSome, 14, 1), (flagBit (hd.slotRef .override).isSome, 15, 1),
    (flagBit hd.freeze.hold, 16, 1), (flagBit hd.freeze.floor, 17, 1), (flagBit hd.freeze.air, 18, 1),
    (flagBit hd.onAir, 20, 1), (flagBit hd.direct.isSome, 21, 1), (hd.queue.length, 24, 3)]

/-- Word 6 of a head record: k and D of the move record, or the last values (R171). -/
def Head.word6 (hd : Head) : Word :=
  match hd.move with
  | some m => packWord [(m.k, 0, 16), (m.dur, 16, 16)]
  | none => packWord [(hd.lastK, 0, 16), (hd.lastD, 16, 16)]

/-- The thirty-two words of a head status record with an update count. -/
def State.headImage (s : State) (h : HeadId) (count : Word) : List Word :=
  [count,
   (s.head h).word1,
   refWord ((s.head h).candidate.map Cue.ref),
   packWord [(gateCode (s.head h).gate, 0, 4), (s.pendingCode h, 8, 2)],
   packWord [(s.claimCount h .cue, 0, 16), (s.claimCount h .restore, 16, 16)],
   refWord ((s.head h).move.map MoveRec.ref),
   (s.head h).word6]
  ++ (s.head h).pose.toList ++ [heldSet s.zoneTable h] ++ headFaultWords s.status.headFaults[h.val]
  ++ List.replicate 13 0 ++ [count]

/-- The words of a status record with an update count (R165). -/
def State.image (s : State) (r : RecId) (count : Word) : List Word :=
  if h : r.val = 0 then s.partImage count else s.headImage ⟨r.val - 1, by omega⟩ count

/-- Mark owed every record of which a field differs between the state before an event and the state after it (R166). -/
def State.oweChanged (s0 s : State) : State :=
  s.setStatus fun w => { w with
    owed := w.owed.mapIdx fun i o =>
      o || decide ((s0.image (Fin.ofNat 13 i) 0) ≠ (s.image (Fin.ofNat 13 i) 0)) }

end Sys2Proof.Machine
end

