-- ==== Sys2Proof/Machine/ZoneOps.lean ====
section
/-! DEFINITION. Machine/ZoneOps.lean: the zone table and the waiting list of the zone arbiter (R139 to R146). -/
namespace Sys2Proof.Machine

/-- A claim is grantable when every zone of it that the head does not hold is FREE (R141). -/
def grantable (t : Vector (Option HeadId) 32) (h : HeadId) (z : Zones) : Bool :=
  (List.finRange 32).all fun i => !(z.getLsbD i.val) || decide (t[i.val] = none) || decide (t[i.val] = some h)

/-- Enter the head as owner of each FREE zone of a claim (R142). -/
def enterZones (t : Vector (Option HeadId) 32) (h : HeadId) (z : Zones) : Vector (Option HeadId) 32 :=
  t.mapIdx fun i o => if z.getLsbD i && decide (o = none) then some h else o

/-- Settle a held set to the stand zones: every other zone of the head becomes FREE (R145). -/
def settleZones (t : Vector (Option HeadId) 32) (h : HeadId) (stand : Zones) : Vector (Option HeadId) 32 :=
  t.mapIdx fun i o => if decide (o = some h) && !(stand.getLsbD i) then none else o

/-- Grant a claim: the missing zones are entered (R142). -/
def State.enterClaim (s : State) (h : HeadId) (z : Zones) : State :=
  s.setZoneTable (enterZones s.zoneTable h z)

/-- The rank of an entry of the waiting list: level, highest first, then head number, lowest first (R143). -/
def Claim.before (c d : Claim) : Bool :=
  decide (d.level.num < c.level.num) || (decide (c.level.num = d.level.num) && decide (c.head.val ≤ d.head.val))

/-- Put a claim into the waiting list in its place by R143, behind every earlier claim of its level and head. -/
def insertClaim (c : Claim) : List Claim → List Claim
  | [] => [c]
  | d :: ds => if d.before c then d :: insertClaim c ds else c :: d :: ds

/-- Withdraw the waiting claim of a head and kind (R144): it takes no zone and frees none. -/
def State.withdrawClaim (s : State) (h : HeadId) (k : ClaimKind) : State :=
  s.setClaims fun l => l.filter fun c => !(decide (c.head = h) && decide (c.kind = k))

/-- A claim joins the waiting list (R142). -/
def State.putClaim (s : State) (c : Claim) : State := s.setClaims (insertClaim c)

/-- A claim of the head and kind is waiting. -/
def State.claimWaits (s : State) (h : HeadId) (k : ClaimKind) : Bool := (s.claimOf h k).isSome

end Sys2Proof.Machine
end

