-- ==== Sys2Proof/Machine/HeadOps.lean ====
section
/-! DEFINITION. Machine/HeadOps.lean: the candidate's gates (R91 to R94, R98, R155), the start of a cue (R95, R99, R100,
R104), claims (R142), pending restored moves (R110), flushes (R86), releases (R57), completion and the grant scan (R134, R145,
R146). -/
namespace Sys2Proof.Machine

/-! ## Gates -/

/-- An OFFSET cue's countdown is not 0 (R93); an unreleased cue has no countdown. -/
def Cue.offsetWaits (c : Cue) : Bool :=
  match c.kind with
  | .step => false
  | .chain => false
  | .offset _ => decide (c.countdown ≠ some 0)

/-- The cue would preempt: the head is MOVING and the cue's level is above the level of the move record (R94). -/
def Head.preempts (hd : Head) (c : Cue) : Bool :=
  decide (hd.state = .moving) && hd.move.any fun m => decide (m.level.num < c.level.num)

/-- The LEVEL gate fails (R98). -/
def Head.levelFails (hd : Head) (c : Cue) : Bool :=
  decide (c.level.num < holdingLevel hd.levels)
    || (decide (c.level.num = holdingLevel hd.levels) && decide (c.kind = .chain)
        && (decide (hd.state = .moving) || decide (hd.state = .restoring)))

/-- The first gate of STAGING to SAVE that the candidate fails, if any (R91). -/
def State.gateOf (s : State) (h : HeadId) (c : Cue) : Option Gate :=
  let hd := s.head h
  if c.copy.isNone then some .staging
  else if !c.released then some .fire
  else if c.kind = .chain ∧ hd.state ≠ .rest then some .chain
  else if c.offsetWaits then some .offset
  else if hd.levelFails c then some .level
  else if hd.freeze.any then some .hold
  else if hd.onAir && !(s.levelRec c.level).mayStartOnAir then some .air
  else if hd.state = .restoring ∨ (hd.preempts c && s.saveWriting h) = true then some .save
  else none

/-- Record the first failing gate (R91). -/
def State.setGate (s : State) (h : HeadId) (g : Option Gate) : State := s.setHead h fun hd => { hd with gate := g }

/-! ## Starting and rejecting -/

/-- The move record ends; its last k and D stay reported (R116, R171). -/
def Head.endMove (hd : Head) : Head :=
  match hd.move with
  | some m => { hd with move := none, lastK := m.k, lastD := m.dur }
  | none => hd

/-- What the save buffer records of a move (R100). -/
def MoveRec.saved (m : MoveRec) : SavedMove := ⟨m.target, m.curve, m.level, m.dur, m.k, m.ref, m.stand, m.path⟩

/-- A preemption's step 3 (R100): the move goes to the save buffer, its slot becomes occupied, a save job is placed. A
RESTORE claim of a pending move is withdrawn (R144). -/
def State.preempt (s : State) (h : HeadId) (m : MoveRec) : State :=
  ((s.setHead h fun hd => { hd.endMove.setSlot m.level (some m.ref) with saveBuffer := some m.saved }).placeSave
    ⟨.save m.saved, h, m.level, m.ref, false⟩).withdrawClaim h .restore

/-- Step 3 of a start for a cue of a level (R99): preemption, retarget (the old record is dropped, R104), or nothing. -/
def State.retireMove (s : State) (h : HeadId) (l : Level) : State :=
  if (s.head h).state = .moving then
    match (s.head h).move with
    | some m => if m.level.num < l.num then s.preempt h m else (s.setHead h Head.endMove).withdrawClaim h .restore
    | none => s
  else s

/-- The move record of a start (R95 step 4). -/
def Cue.moveRec (c : Cue) (copy : ShotCopy) (origin : Pose) (dur : Nat) : MoveRec :=
  { origin := origin, target := copy.target origin, curve := c.curve, dur := dur, k := 0, level := c.level,
    ref := ⟨c.origin, c.shot, some copy.kind⟩, stand := copy.stand, path := copy.path, pending := false }

/-- Step 4 of a start (R95): level set, move record, MOVING; the cue leaves its queue or slot. -/
def State.beginMove (s : State) (h : HeadId) (c : Cue) (copy : ShotCopy) (dur : Nat) : State :=
  s.setHead h fun hd =>
    { hd.dropCandidate with
        levels := levelAdd hd.levels c.level, move := some (c.moveRec copy hd.pose dur), state := .moving, gate := none }

/-- Reject the candidate with a head fault that carries its reference, shot and the frame number; it leaves its queue or
slot (R88, R121, R147). -/
def State.rejectCandidate (s : State) (h : HeadId) (c : Cue) (kind : HeadFaultKind) : State :=
  (s.fileHead h kind (some c.ref) s.frame).setHead h Head.dropCandidate

/-- The effective duration of a cue's move (R120). -/
def State.cueDuration (s : State) (h : HeadId) (c : Cue) (copy : ShotCopy) : Nat :=
  effectiveDuration (s.headRec h) (s.levelRec c.level).scale (s.tables.curveOrZero c.curve).peak c.dur (s.head h).pose
    (copy.target (s.head h).pose)

/-- The start of the candidate on a grant (R95), or its rejection with DURATION in step 1 (R121). -/
def State.startCandidate (s : State) (h : HeadId) (c : Cue) (copy : ShotCopy) : State :=
  if 65535 < s.cueDuration h c copy then s.rejectCandidate h c .duration
  else ((s.enterClaim h copy.claim).retireMove h c.level).beginMove h c copy (s.cueDuration h c copy)

/-! ## The examination of the candidate -/

/-- The re-examination of a head's candidate, at most n cues deep: each start or rejection removes a cue and the next
candidate is examined (R91, R95, R142). -/
def State.examineUpTo : Nat → HeadId → State → State
  | 0, _, s => s
  | n + 1, h, s =>
    match (s.head h).candidate with
    | none => (s.withdrawClaim h .cue).setGate h none
    | some c =>
      match s.gateOf h c, c.copy with
      | some g, _ => (s.withdrawClaim h .cue).setGate h (some g)
      | none, none => s.setGate h (some .staging)
      | none, some copy =>
        if s.claimWaits h .cue then s.setGate h (some .zone)
        else if grantable s.zoneTable h copy.claim then State.examineUpTo n h (s.startCandidate h c copy)
        else if (s.levelRec c.level).patience = 0 then State.examineUpTo n h (s.rejectCandidate h c .zoneTimeout)
        else
          (s.putClaim ⟨h, .cue, c.level, copy.claim, (s.levelRec c.level).patience⟩).setGate h (some .zone)

/-- The re-examination of a head's candidate (R91). A head has at most its direct cue and its queued cues to try. -/
def State.examine (s : State) (h : HeadId) : State := State.examineUpTo ((s.head h).queue.length + 2) h s

/-! ## Levels revealed, pending moves -/

/-- Examine the highest member of the level set (R106, R108): an occupied slot there starts a restore, else the head is
in REST. -/
def State.revealLevel (s : State) (h : HeadId) : State :=
  match highest (s.head h).levels with
  | none => s.setHead h fun hd => { hd with state := .rest }
  | some l =>
    match (s.head h).slotRef l with
    | none => s.setHead h fun hd => { hd with state := .rest }
    | some r => (s.setHead h fun hd => { hd with state := .restoring }).placeSave ⟨.restore, h, l, r, false⟩

/-- A pending restored move is lost by ZONE_TIMEOUT (R110): the fault, its level removed, REST, and the next level down
is examined. Nothing happens if no pending record is there any more. -/
def State.losePending (s : State) (h : HeadId) : State :=
  match (s.head h).move with
  | none => s
  | some m =>
    if m.pending then
      ((s.fileHead h .zoneTimeout (some m.ref) s.frame).setHead h fun hd =>
        { hd.endMove with levels := levelDrop hd.levels m.level }).revealLevel h
    else s

/-- The start of a pending restored move on its grant: its missing zones are entered and the pending mark is removed
(R110, R142). -/
def State.grantPending (s : State) (h : HeadId) (z : Zones) : State :=
  (s.enterClaim h z).setHead h fun hd => { hd with move := hd.move.map fun m => { m with pending := false } }

/-- The tests that carry a pending restored move to its start (R110). -/
def State.testPending (s : State) (h : HeadId) : State :=
  match (s.head h).move with
  | none => s
  | some m =>
    if m.pending then
      if (s.head h).freeze.any then s.withdrawClaim h .restore
      else if (s.head h).onAir && !(s.levelRec m.level).mayStartOnAir then s.withdrawClaim h .restore
      else if s.claimWaits h .restore then s
      else if grantable s.zoneTable h (m.stand ||| m.path) then s.grantPending h (m.stand ||| m.path)
      else if (s.levelRec m.level).patience = 0 then (s.losePending h).examine h
      else s.putClaim ⟨h, .restore, m.level, m.stand ||| m.path, (s.levelRec m.level).patience⟩
    else s

/-- One re-examination. -/
def State.recheck (r : Recheck) (s : State) : State :=
  match r with
  | .candidate h => s.examine h
  | .pendingMove h => s.testPending h

/-- The re-examinations an event causes, in the order its operand gives (R178, log entry 5). -/
def State.recheckAll (s : State) (order items : List Recheck) : State := s.forEach (arrange order items) State.recheck

/-- Both re-examinations of each head of a list (R154, R159, R161). -/
def bothRechecks (hs : List HeadId) : List Recheck := hs.flatMap fun h => [.candidate h, .pendingMove h]

/-! ## Flushes and releases -/

/-- A flushed cue's stage read is abandoned and its place in the stager's list given up (R86). -/
def State.unstage (k : StageKey) (s : State) : State :=
  let s1 := s.setStager fun g => { g with list := g.list.filter fun x => decide (x ≠ k) }
  if s.stager.current = some k then (s1.setStager fun g => { g with current := none }).abandon .stager else s1

/-- The flush takes the candidate (R86, R90): the direct cue if the slot is occupied, else the head of the queue. -/
def Head.flushesCandidate (hd : Head) (gone : Cue → Bool) (slot : Bool) : Bool :=
  hd.candidate.isSome &&
    match hd.direct with
    | some _ => slot
    | none => hd.queue.head?.any gone

/-- Flush the cues of a head that `gone` names, and its direct cue if `slot` says so (R86): no fault; a flushed
candidate's claim is withdrawn and the next candidate examined. -/
def State.flushHead (gone : Cue → Bool) (slot : Bool) (h : HeadId) (s : State) : State :=
  let hd := s.head h
  let flushed := hd.queue.filter gone ++ (if slot then hd.direct.toList else [])
  let s1 := s.forEach (flushed.map fun c => c.key h) State.unstage
  let s2 := s1.setHead h fun hd =>
    { hd with queue := hd.queue.filter (fun c => !gone c), direct := if slot then none else hd.direct }
  if hd.flushesCandidate gone slot then (s2.withdrawClaim h .cue).examine h else s2

/-- Flush cues of every head (R67, R68, R69, R70, R71, R31). -/
def State.flushAll (s : State) (gone : Cue → Bool) (slot : Bool) : State := s.forEach allHeads (State.flushHead gone slot)

/-- A queued cue at or above an index (R69, R70, R71). -/
def Cue.atOrAbove (n : Nat) (c : Cue) : Bool :=
  match c.origin with
  | .rundown _ i => decide (n ≤ i)
  | .direct => false

/-- The cue as released (R57): the countdown of an OFFSET cue becomes present with the value of its offset (R93). -/
def Cue.release (c : Cue) : Cue :=
  match c.kind with
  | .offset n => { c with released := true, countdown := some n }
  | .step => { c with released := true }
  | .chain => { c with released := true }

/-- A queued cue that a release up to NEXT newly releases (R57). -/
def Cue.newlyReleased (next : Nat) (c : Cue) : Bool :=
  match c.origin with
  | .rundown _ i => decide (i < next) && !c.released
  | .direct => false

/-- Release every queued cue below NEXT; the heads that held one re-examine their candidates (R57). -/
def State.releaseBelow (s : State) (next : Nat) (order : List Recheck) : State :=
  let hs := allHeads.filter fun h => (s.head h).queue.any (Cue.newlyReleased next)
  let s1 := s.forEach hs fun h t =>
    t.setHead h fun hd => { hd with queue := hd.queue.map fun c => if c.newlyReleased next then c.release else c }
  s1.recheckAll order (hs.map Recheck.candidate)

/-! ## Completion and the grant scan -/

/-- The scan's test of one entry of the waiting list (R146). An entry that has left the list is not tested. -/
def State.scanClaim (c : Claim) (s : State) : State :=
  if c ∈ s.claims ∧ grantable s.zoneTable c.head c.zones = true then
    match c.kind with
    | .restore => (s.withdrawClaim c.head .restore).grantPending c.head c.zones
    | .cue =>
      match (s.head c.head).candidate with
      | none => s.withdrawClaim c.head .cue
      | some cue =>
        match cue.copy with
        | none => s.withdrawClaim c.head .cue
        | some copy => (s.withdrawClaim c.head .cue).startCandidate c.head cue copy
  else s

/-- The grant scan of a release (R146): the entries as they stand when it begins, in the order of R143. -/
def State.scan (s : State) : State := s.forEach s.claims State.scanClaim

/-- The heads whose CUE claim the scan has taken out of the list (R146). -/
def scanned (s0 s : State) (h : HeadId) : Bool := s0.claimWaits h .cue && !s.claimWaits h .cue

/-- A completion's settled zone table takes effect (R145, R146): a release is followed by the scan, and then by the
re-examinations in ascending head number; without a release the head alone is examined. -/
def State.settle (s : State) (h : HeadId) (t : Vector (Option HeadId) 32) : State :=
  if t = s.zoneTable then s.examine h
  else
    let s2 := s.setZoneTable t
    let s3 := s2.scan
    s3.forEach (allHeads.filter fun x => decide (x = h) || scanned s2 s3 x) fun x y => y.examine x

/-- The head at its completion (R134, R156): the record ends, REST, AIR removed. -/
def Head.completed (hd : Head) : Head := { hd.endMove with state := .rest, freeze := { hd.freeze with air := false } }

/-- The completion of a head's move (R134, R145, R146): the held set settles to the stand zones, unless they are empty. -/
def State.complete (s : State) (h : HeadId) (m : MoveRec) : State :=
  (s.setHead h Head.completed).settle h
    (if m.stand = 0 then s.zoneTable else settleZones s.zoneTable h m.stand)

/-- The examination for completion at the end of a frame page job (R134): MOVING, not pending, k = D. -/
def State.checkComplete (s : State) (h : HeadId) : State :=
  match (s.head h).move with
  | none => s
  | some m => if (s.head h).state = .moving ∧ m.pending = false ∧ m.k = m.dur then s.complete h m else s

end Sys2Proof.Machine
end

