-- ==== Sys2Proof/Machine/LevelOps.lean ====
section
/-! DEFINITION. Machine/LevelOps.lean: LEVEL END, the ends of saves, restores and empty tag writes, and the discards of MODE
and STOP (chapter 06). -/
namespace Sys2Proof.Machine

/-- LEVEL END (R106): the highest member leaves the level set and the new highest member is examined. -/
def State.levelEnd (s : State) (h : HeadId) : State :=
  match highest (s.head h).levels with
  | none => s
  | some l => ((s.setHead h fun hd => { hd with levels := levelDrop hd.levels l }).revealLevel h).examine h

/-- The job at the front of the saver's list is removed (R101). -/
def State.dropSaveJob (s : State) : State := s.setSaver List.tail

/-- A slot is empty and its level leaves the level set (R102, R108, R113). -/
def State.loseSlot (s : State) (h : HeadId) (l : Level) : State :=
  s.setHead h fun hd => { hd.setSlot l none with levels := levelDrop hd.levels l }

/-- An empty tag job for a slot, with the reference the level unit kept (R101). -/
def emptyTagJob (h : HeadId) (l : Level) (r : CueRef) : SaveJob := ⟨.emptyTag, h, l, r, false⟩

/-- The save buffer of a head is free once no save or empty tag job of it is left (R103). -/
def State.freeBuffer (s : State) (h : HeadId) : State :=
  if s.saveWriting h then s else s.setHead h fun hd => { hd with saveBuffer := none }

/-- A save's transfer ended (R102, R113). -/
def State.saveEnded (s : State) (j : SaveJob) (ok : Bool) : State :=
  let s1 := s.dropSaveJob
  if ok && !j.discard then (s1.freeBuffer j.head).examine j.head
  else
    let s2 := s1.loseSlot j.head j.level
    let s3 := if ok then s2 else s2.fileHead j.head .saveLost (some j.ref) s2.frame
    (s3.placeSave (emptyTagJob j.head j.level j.ref)).examine j.head

/-- An empty tag write ended (R101, R102): with ERR the head fault MEMORY; the save buffer may be free. -/
def State.emptyTagEnded (s : State) (j : SaveJob) (ok : Bool) : State :=
  let s1 := s.dropSaveJob
  let s2 := if ok then s1 else s1.fileHead j.head .memory (some j.ref) s1.frame
  (s2.freeBuffer j.head).examine j.head

/-- The target of a restored move (R109): a saved move of kind HEAD takes X, Y and LIFT from the current pose. -/
def SavedMove.targetFrom (m : SavedMove) (pose : Pose) : Pose :=
  if m.ref.kind = some .head then { m.target with x := pose.x, y := pose.y, lift := pose.lift } else m.target

/-- The effective duration of a restored move (R109): the requested duration is max(1, D − k). -/
def State.restoreDuration (s : State) (h : HeadId) (m : SavedMove) : Nat :=
  effectiveDuration (s.headRec h) (s.levelRec m.level).scale (s.tables.curveOrZero m.curve).peak (max 1 (m.dur - m.k))
    (s.head h).pose (m.targetFrom (s.head h).pose)

/-- The move record of a restored move, marked pending (R109). -/
def SavedMove.pendingRec (m : SavedMove) (pose : Pose) (dur : Nat) : MoveRec :=
  { origin := pose, target := m.targetFrom pose, curve := m.curve, dur := dur, k := 0, level := m.level, ref := m.ref,
    stand := m.stand, path := m.path, pending := true }

/-- A restore read failed (R108): slot and level lost, RESTORE_LOST, an empty tag job, REST, and the next level down is
examined. -/
def State.restoreFailed (s : State) (j : SaveJob) : State :=
  (((((s.loseSlot j.head j.level).fileHead j.head .restoreLost (some j.ref) s.frame).placeSave
    (emptyTagJob j.head j.level j.ref)).setHead j.head fun hd => { hd with state := .rest }).revealLevel j.head).examine
    j.head

/-- A good restore read is replanned (R109). -/
def State.restoreReplan (s : State) (j : SaveJob) (m : SavedMove) (order : List Recheck) : State :=
  let h := j.head
  let s1 := (s.setHead h fun hd => hd.setSlot j.level none).placeSave (emptyTagJob h j.level j.ref)
  let dur := s1.restoreDuration h m
  if 65535 < dur then
    (((s1.fileHead h .duration (some m.ref) s1.frame).setHead h fun hd =>
      { hd with levels := levelDrop hd.levels j.level, state := .rest }).revealLevel h).examine h
  else
    (s1.setHead h fun hd => { hd with move := some (m.pendingRec hd.pose dur), state := .moving }).recheckAll order
      [.pendingMove h, .candidate h]

/-- A restore read ended (R108, R109). -/
def State.restoreEnded (s : State) (j : SaveJob) (err : Bool) (ws : List Word) (order : List Recheck) : State :=
  let s1 := s.dropSaveJob
  if err || decide (ws.getD 15 0 ≠ savedTag j.level) then s1.restoreFailed j
  else s1.restoreReplan j (SavedMove.ofWords j.level ws) order

/-- MODE's discard of an occupied slot (R112): its occupancy is cleared and an empty tag job placed. -/
def State.discardForMode (h : HeadId) (l : Level) (s : State) : State :=
  match (s.head h).slotRef l with
  | none => s
  | some r => (s.setHead h fun hd => hd.setSlot l none).placeSave (emptyTagJob h l r)

/-- The job is the save of a slot. -/
def SaveJob.savesSlot (j : SaveJob) (h : HeadId) (l : Level) : Bool :=
  match j.kind with
  | .save _ => decide (j.head = h) && decide (j.level = l)
  | .restore => false
  | .emptyTag => false

/-- The transfer is the save of a slot. -/
def Xfer.savesSlot (x : Xfer) (h : HeadId) (l : Level) : Bool :=
  match x with
  | .save g m => decide (g = h) && decide (m.level = l)
  | .pageCheck _ => false
  | .pageWrite _ _ _ _ => false
  | .pointerWrite _ _ => false
  | .host => false
  | .restore _ _ => false
  | .emptyTag _ _ => false
  | .stage _ => false
  | .entry _ _ => false
  | .header _ => false
  | .table _ => false
  | .adoptPointer _ => false
  | .adoptPage _ _ => false
  | .status _ _ => false

/-- STOP's discard of an occupied slot (R113): a granted save is marked to be discarded at its end; a slot being read stays;
any other slot is discarded at once, with its waiting save request withdrawn and its save job removed. -/
def State.discardForStop (h : HeadId) (l : Level) (s : State) : State :=
  match (s.head h).slotRef l with
  | none => s
  | some r =>
    if (s.head h).state = .restoring ∧ highest (s.head h).levels = some l then s
    else if (s.grant.any fun g => g.xfer.savesSlot h l && !g.letRun) then
      s.setSaver fun js => js.map fun j => if j.savesSlot h l then { j with discard := true } else j
    else
      let s1 := if (s.waiting.any fun q => q.xfer.savesSlot h l) then s.withdraw .saver else s
      let s2 := s1.setSaver fun js => js.filter fun j => !j.savesSlot h l
      (s2.loseSlot h l).placeSave (emptyTagJob h l r)

/-- STOP's discard of the saved moves of every head (R113): ascending head number, ascending level. -/
def State.discardAllForStop (s : State) : State :=
  s.forEach allHeads fun h t => t.forEach Level.all fun l u => State.discardForStop h l u

end Sys2Proof.Machine
end

