-- ==== Sys2Proof/Machine/FetcherOps.lean ====
section
/-! DEFINITION. Machine/FetcherOps.lean: the rundown fetcher (chapter 04): hand-on, pass, held entries, header reads, FIRE,
CUT, SWAP, STOP and bank notices. The fetcher's next request is made at the end of the event (Machine/Events.lean). -/
namespace Sys2Proof.Machine

/-- Change the fetcher. -/
def State.setFetcher (s : State) (f : Fetcher → Fetcher) : State := { s with fetcher := f s.fetcher }

/-- The pointers after an entry has been handed on or passed (R61, R63): FETCH rises by 1; with FIRE_OPEN set NEXT rises
with it, and FIRE_OPEN is cleared by a step end or at the count; with FIRE_OPEN clear a step end joins the list. -/
def Fetcher.advance (f : Fetcher) (stepEnd : Bool) : Fetcher :=
  let fetch := f.fetch + 1
  if f.fireOpen then
    { f with state := .idle, fetch := fetch, next := fetch, fireOpen := !(stepEnd || decide (fetch = f.count)) }
  else
    { f with state := .idle, fetch := fetch, stepEnds := if stepEnd then f.stepEnds ++ [f.fetch] else f.stepEnds }

/-- Pass an entry (R63). -/
def State.passEntry (s : State) (stepEnd : Bool) : State := s.setFetcher fun f => f.advance stepEnd

/-- Hand a cue on to the tail of its head's queue (R61), released if FIRE_OPEN is set; it joins the stager's list (R83), and
the head examines it if it becomes the candidate (R90). -/
def State.handOn (s : State) (e : HeldEntry) : State :=
  let cue := if s.fetcher.fireOpen then e.cue.release else e.cue
  let hd := s.head e.head
  let s1 := (s.setHead e.head fun hd => { hd with queue := hd.queue ++ [cue] }).setFetcher fun f => f.advance cue.stepEnd
  let s2 := s1.setStager fun g => { g with list := g.list ++ [cue.key e.head] }
  if hd.queue.isEmpty && hd.direct.isNone then s2.examine e.head else s2

/-- Act on a valid entry by the state of its head (R60): pass it with HEAD_MODE, hold it, or hand it on. -/
def State.dispatchEntry (s : State) (e : HeldEntry) : State :=
  let hold := s.setFetcher fun f => { f with state := .holding e }
  let pass := (s.fileHead e.head .headMode (some e.cue.ref) s.frame).passEntry e.cue.stepEnd
  let place := if (s.head e.head).queue.length < 4 then s.handOn e else hold
  match (s.head e.head).state with
  | .off => pass
  | .direct => pass
  | .adopting => hold
  | .rest => place
  | .moving => place
  | .restoring => place
  | .noState => hold

/-- Judge an entry that has been read (R55, R60): an invalid one raises ENTRY_INVALID and is passed. -/
def State.judgeEntry (s : State) (w0 w1 : Word) : State :=
  match entryCue s.fetcher.bank s.fetcher.fetch w0 w1 with
  | some e => s.dispatchEntry e
  | none => (s.filePart .entryInvalid s.fetcher.fetch (some (entryShot w0)) none).passEntry (entryStepEnd w0)

/-- The pointers after a header read (R69): with a SWAP's start index remembered, FETCH and NEXT are the smaller of it and
the count; otherwise NEXT is clamped to the count and FETCH set to it. FIRE_OPEN is cleared at the count. A start index counts as
remembered whichever request made the read, a header notice's included (DESIGN CHOICE, log entry 26). -/
def Fetcher.latch (f : Fetcher) (count : Nat) : Fetcher :=
  let place := match f.startIndex with
    | some s => min s count
    | none => min f.next count
  { f with state := .idle, count := count, fetch := place, next := place, startIndex := none, stepEnds := [],
           fireOpen := f.fireOpen && !decide (place = count) }

/-- A header read ended without ERR (R69): a count word above 128 latches 0 and raises BANK_INVALID; queued cues at or
above the new NEXT are flushed. -/
def State.latchHeader (s : State) (w : Word) : State :=
  let ok := decide (w.toNat ≤ 128)
  let s1 := if ok then s else s.filePart .bankInvalid 128 none none
  let s2 := s1.setFetcher fun f => f.latch (if ok then w.toNat else 0)
  s2.flushAll (Cue.atOrAbove s2.fetcher.next) false

/-- The fetcher after an accepted FIRE (R65). -/
def Fetcher.fire (f : Fetcher) : Fetcher :=
  match f.stepEnds with
  | e :: rest => { f with on := some f.next, next := e + 1, stepEnds := rest }
  | [] => { f with on := some f.next, next := f.fetch, fireOpen := decide (f.fetch < f.count) }

/-- FIRE (R65): the pointers move and the cues up to NEXT are released (R57). -/
def State.fire (s : State) (order : List Recheck) : State :=
  let s1 := s.setFetcher Fetcher.fire
  s1.releaseBelow s1.fetcher.next order

/-- A header read is outstanding that a CUT or a bank notice leaves to go on (R67, R70, R71): any but a retry request that still
waits for the far port, which they withdraw (R72). A retry request that has been granted goes on like any other header read
(DEDUCED, log entry 25). -/
def State.headerGoesOn (s : State) : Bool :=
  match s.fetcher.state with
  | .header => true
  | .headerRetried => !s.waits .fetcher
  | .off => false
  | .idle => false
  | .reading => false
  | .holding _ => false
  | .retryEntry => false
  | .retryHeader => false

/-- The fetch in progress is abandoned (R67, R70, R71, R72), but for a header read that goes on. -/
def State.abandonFetch (s : State) : State := if s.headerGoesOn then s else s.abandon .fetcher

/-- The fetcher's state at a CUT or a bank notice: a header read that goes on stays as it is, and any other fetch gives way to the
state given. -/
def State.fetchStateOr (s : State) (st : FetchState) : FetchState := if s.headerGoesOn then s.fetcher.state else st

/-- CUT to index j (R67): every queue is flushed, the pointers are set, the fetch in progress is abandoned; a header read that is
outstanding goes on without a SWAP's start index, but for a retry request that waits, which is withdrawn (R72). -/
def State.cutTo (s : State) (j : Nat) : State :=
  (s.abandonFetch.flushAll (fun _ => true) false).setFetcher fun f =>
    { f with fetch := j, next := j, on := none, fireOpen := false, stepEnds := [], startIndex := none,
             state := s.fetchStateOr .idle }

/-- SWAP with start index i (R68). -/
def State.swapTo (s : State) (i : Nat) : State :=
  let s1 := (s.flushAll (fun _ => true) false).abandon .fetcher
  s1.setFetcher fun f =>
    { f with bank := f.bank.other, count := 0, fetch := 0, next := 0, on := none, fireOpen := false, stepEnds := [],
             startIndex := some i, state := .header }

/-- The fetcher at STOP (R73): OFF, its reads abandoned; pointers and FIRE_OPEN keep their values. -/
def State.stopFetcher (s : State) : State :=
  (s.abandon .fetcher).setFetcher fun f => { f with state := .off, startIndex := none }

/-- Take back what was read from NEXT on (R70, R71): queued cues at or above NEXT are flushed, FETCH is set to NEXT, the
step-end list is emptied, and the fetcher takes the state given. -/
def State.takeBack (s : State) (st : FetchState) : State :=
  let s1 := s.flushAll (Cue.atOrAbove s.fetcher.next) false
  s1.setFetcher fun f => { f with fetch := f.next, stepEnds := [], state := st }

/-- The fetcher holds an entry. -/
def Fetcher.isHolding (f : Fetcher) : Bool :=
  match f.state with
  | .holding _ => true
  | .off => false
  | .idle => false
  | .reading => false
  | .header => false
  | .headerRetried => false
  | .retryEntry => false
  | .retryHeader => false

/-- A bank notice for entry i in RUNNING (R70, R72). -/
def State.entryNotice (s : State) (i : Nat) : State :=
  let f := s.fetcher
  if f.next ≤ i ∧ i < f.fetch then s.abandonFetch.takeBack (s.fetchStateOr .idle)
  else if i = f.fetch ∧ f.isHolding = true then s.setFetcher fun f => { f with state := .idle }
  else s

/-- A bank notice for the header in RUNNING (R71): what was read from NEXT on is taken back and the header is read, unless a
header read already waits. A retry request that waits is withdrawn (R72), and the notice makes its own (R64). A SWAP's start index
stays remembered in RETRY (DESIGN CHOICE, log entry 26). -/
def State.headerNotice (s : State) : State := s.abandonFetch.takeBack (s.fetchStateOr .header)

/-- The fetcher takes an FMARK (R64): in RETRY, in RUNNING, it makes its failed request again; a CUT, SWAP or notice that meets the
waiting request withdraws it (R72). -/
def State.fetcherMark (s : State) : State :=
  if s.mode = .running then
    match s.fetcher.state with
    | .retryEntry => s.setFetcher fun f => { f with state := .reading }
    | .retryHeader => s.setFetcher fun f => { f with state := .headerRetried }
    | .off => s
    | .idle => s
    | .reading => s
    | .holding _ => s
    | .header => s
    | .headerRetried => s
  else s

end Sys2Proof.Machine
end

