-- ==== Sys2Proof/Machine/LoaderOps.lean ====
section
/-! DEFINITION. Machine/LoaderOps.lean: the table loader (chapter 02): START, the table checks, initial adoption, a failed
START, and the entry to RUNNING. The loader's next request is made at the end of the event (Machine/Events.lean). -/
namespace Sys2Proof.Machine

/-- Change the loader. -/
def State.setLoader (s : State) (f : Loader → Loader) : State := { s with loader := f s.loader }

/-- An accepted START (R19): LOADING, frame number 0, START result NONE, the fetcher's starting values, table copies
invalid; the loader's sequence begins with the record of head 0. -/
def State.beginLoading (s : State) : State :=
  { s with mode := .loading, frame := 0, startResult := .nothing, fetcher := Fetcher.reset,
           tables := { s.tables with valid := false }, loader := { Loader.idle with next := some (.headLow 0) } }

/-- A failed START (R26): the result, HALTED, table copies invalid, the part fault START_FAILED with the index. A home page
in the page writer's list runs to its end, and an ERR of it is still the head's adoption fault (log entry 14); every current pose
is discarded (R117). -/
def State.failStart (s : State) (result : StartResult) (index : Nat) : State :=
  let s1 := s.abandon .loader
  let s2 : State := { s1 with
    mode := .halted, startResult := result, tables := { s1.tables with valid := false }, loader := Loader.idle,
    heads := s1.heads.map (fun hd : Head => { hd with pose := Pose.zero }),
    pageJobs := s1.pageJobs.map fun j : PageJob =>
      if j.origin = JobOrigin.homeLoader then { j with origin := .homeLeft } else j }
  s2.filePart .startFailed index none (some result)

/-- The index a failed read carries (R26): the head, level or curve whose record was being read, or 0. The level table is
one transfer of four records: the first word answered with ERR tells the level (log entry 15). -/
def TableRead.index (r : TableRead) (err : BitVec 16) : Nat :=
  match r with
  | .headLow h => h.val
  | .headHigh h => h.val
  | .levels => ((List.range 16).find? fun j => err.getLsbD j).getD 0 / 4 + 1
  | .curveLow c => c.val + 1
  | .curveHigh c => c.val + 1
  | .header => 0
  | .adoptPointer h => h.val
  | .adoptPage h _ => h.val

/-- The first head, in ascending order, whose start zone set shares a zone with a lower-numbered head's (R24). -/
def Tables.overlap (t : Tables) : Option HeadId :=
  allHeads.find? fun h => allHeads.any fun g =>
    decide (g.val < h.val) && decide (t.heads[g.val].zones &&& t.heads[h.val].zones ≠ 0)

/-- The next MANAGED head from a number on (R27). -/
def Tables.managedFrom (t : Tables) (n : Nat) : Option HeadId :=
  allHeads.find? fun h => decide (n ≤ h.val) && decide (t.heads[h.val].initMode = .managed)

/-- The loader's read after the adoption of a head, or of none yet (R27). -/
def State.nextAdoption (s : State) (n : Nat) : State :=
  s.setLoader fun l => { l with next := (s.tables.managedFrom n).map TableRead.adoptPointer }

/-- Entry to step 6 (R27, R117): a DIRECT or OFF head's current pose is its home pose; adoption begins. -/
def State.beginAdoption (s : State) : State :=
  let s1 := s.forEach allHeads fun h t =>
    if (t.headRec h).initMode = .managed then t else t.setHead h fun hd => { hd with pose := (t.headRec h).home }
  s1.nextAdoption 0

/-- The fault of a head's initial adoption (R29): frame number 0, no cue reference, current pose the home pose; it will
begin in DIRECT. -/
def State.adoptionFault (s : State) (h : HeadId) (kind : HeadFaultKind) : State :=
  ((s.fileHead h kind none 0).setHead h fun hd => { hd with pose := (s.headRec h).home }).setLoader fun l =>
    { l with adopted := l.adopted.set h.val false }

/-- Mark a head adopted (R27, R28). -/
def State.markAdopted (s : State) (h : HeadId) : State :=
  s.setLoader fun l => { l with adopted := l.adopted.set h.val true }

/-- The adopted pose of a page (R27): X, Y and LIFT taken as 0 for a FIXED head. -/
def HeadRec.adopted (r : HeadRec) (p : Pose) : Pose :=
  match r.type with
  | .ped => p
  | .fixed => p.noFloor

/-- The home page job of a head (R28, R81). -/
def homeJob (h : HeadId) (home : Pose) (o : JobOrigin) : PageJob := ⟨h, 0, home, o, .notBegun⟩

/-- The end, without ERR, of the read of a pointer word in initial adoption (R27, R28). -/
def State.adoptPointerRead (s : State) (h : HeadId) (w : Word) : State :=
  match pointerBank w with
  | some bk => s.setLoader fun l => { l with next := some (.adoptPage h bk) }
  | none =>
    (((s.setHead h fun hd => { hd with pose := (s.headRec h).home }).placePage
      (homeJob h (s.headRec h).home .homeLoader)).markAdopted h).nextAdoption (h.val + 1)

/-- The end, without ERR, of the read of a page in initial adoption (R27, R29). -/
def State.adoptPageRead (s : State) (h : HeadId) (bk : Bank) (p : Pose) : State :=
  if pageWithin (s.headRec h) p then
    ((s.setHead h fun hd => { hd with pose := (s.headRec h).adopted p, pointer := .known bk }).markAdopted h).nextAdoption
      (h.val + 1)
  else (s.adoptionFault h .poseLimit).nextAdoption (h.val + 1)

/-- The end, without ERR, of the read of a head record's second half (R21, R24). -/
def State.headRecordRead (s : State) (h : HeadId) (ws : List Word) : State :=
  match parseHead ws with
  | none => s.failStart .headTable h.val
  | some r =>
    let s1 := s.setTables fun t => { t with heads := t.heads.set h.val r }
    if hn : h.val + 1 < 12 then s1.setLoader fun l => { l with next := some (.headLow ⟨h.val + 1, hn⟩) }
    else
      match s1.tables.overlap with
      | some g => s1.failStart .zoneOverlap g.val
      | none => s1.setLoader fun l => { l with next := some .levels }

/-- The end, without ERR, of the read of the level table (R22). -/
def State.levelTableRead (s : State) (ws : List Word) : State :=
  match parseLevel ws, parseLevel (ws.drop 4), parseLevel (ws.drop 8), parseLevel (ws.drop 12) with
  | none, _, _, _ => s.failStart .levelTable 1
  | some _, none, _, _ => s.failStart .levelTable 2
  | some _, some _, none, _ => s.failStart .levelTable 3
  | some _, some _, some _, none => s.failStart .levelTable 4
  | some a, some b, some c, some d =>
    (s.setTables fun t => { t with levels := #v[a, b, c, d] }).setLoader fun l =>
      { l with next := some (.curveLow 0) }

/-- The end, without ERR, of the read of a curve record's second half (R23). -/
def State.curveRead (s : State) (c : Fin 15) (ws : List Word) : State :=
  let go := fun (s1 : State) => s1.setLoader fun l =>
    { l with next := some (if hn : c.val + 1 < 15 then .curveLow ⟨c.val + 1, hn⟩ else .header) }
  match parseCurve ws with
  | .bad => s.failStart .curveTable (c.val + 1)
  | .absent => go (s.setTables fun t => { t with curves := t.curves.set c.val none })
  | .present k => go (s.setTables fun t => { t with curves := t.curves.set c.val (some k) })

/-- The end, without ERR, of a read of the bank A header (R25): step 5, or a re-read. -/
def State.headerRead (s : State) (w : Word) : State :=
  if 128 < w.toNat then s.failStart .bank 0
  else
    let s1 := s.setLoader fun l => { l with count := some w.toNat }
    if s.loader.next = some .header then s1.beginAdoption else s1

/-- A read of the loader ended (R20, R26, R29): `ws` are its words, `err` the words answered with ERR. -/
def State.tableRead (s : State) (r : TableRead) (ws : List Word) (err : BitVec 16) : State :=
  match r with
  | .adoptPointer h =>
    if err = 0 then s.adoptPointerRead h (ws.getD 0 0) else (s.adoptionFault h .memory).nextAdoption (h.val + 1)
  | .adoptPage h bk =>
    if err = 0 then s.adoptPageRead h bk (Pose.ofWords (ws.drop 1))
    else (s.adoptionFault h .memory).nextAdoption (h.val + 1)
  | .headLow h =>
    if err = 0 then s.setLoader fun l => { l with half := ws, next := some (.headHigh h) }
    else s.failStart .memory (r.index err)
  | .headHigh h =>
    if err = 0 then s.headRecordRead h (s.loader.half ++ ws) else s.failStart .memory (r.index err)
  | .levels => if err = 0 then s.levelTableRead ws else s.failStart .memory (r.index err)
  | .curveLow c =>
    if err = 0 then s.setLoader fun l => { l with half := ws, next := some (.curveHigh c) }
    else s.failStart .memory (r.index err)
  | .curveHigh c => if err = 0 then s.curveRead c (s.loader.half ++ ws) else s.failStart .memory (r.index err)
  | .header => if err = 0 then s.headerRead (ws.getD 0 0) else s.failStart .memory (r.index err)

/-- The current transfer or a waiting request of the loader is a read of the header. -/
def State.headerReadOut (s : State) : Bool :=
  (s.waiting.any fun r => decide (r.xfer = .table .header)) || (s.grant.any fun g => decide (g.xfer = .table .header))

/-- A header notice in LOADING (R25): once a header read has ended, it makes the held count stale, unless a re-read is
already waiting. -/
def State.loaderNotice (s : State) : State :=
  if s.loader.count.isSome ∧ s.headerReadOut = false then s.setLoader fun l => { l with stale := true } else s

/-- The three conditions of R30 hold; the held count. -/
def State.loaded (s : State) : Option Nat :=
  if s.mode = .loading ∧ s.loader.next = none ∧ s.loader.stale = false ∧ s.busy .loader = false
      ∧ (s.pageJobs.any fun j => decide (j.origin = .homeLoader)) = false
  then s.loader.count else none

/-- The first head state of a head (R30). -/
def firstState (m : HeadMode) (adopted : Bool) : HeadState :=
  match m with
  | .managed => if adopted then .rest else .direct
  | .direct => .direct
  | .off => .off

/-- A head at the entry to RUNNING (R30, R153): empty queue, slot and level set, no move record; FLOOR for a PED head
while the floor-stop state is not CLEAR. -/
def Head.enter (hd : Head) (r : HeadRec) (adopted : Bool) (floor : FloorStop) : Head :=
  { hd with state := firstState r.initMode adopted, queue := [], direct := none, gate := none, levels := 0,
            slots := Vector.replicate 4 none, saveBuffer := none, move := none,
            freeze := ⟨false, decide (r.type = .ped) && decide (floor ≠ .clear), false⟩ }

/-- The start zone sets entered in the zone table (R30, R139). -/
def Tables.startZones (t : Tables) : Vector (Option HeadId) 32 :=
  Vector.ofFn fun z : Fin 32 =>
    allHeads.find? fun h => t.heads[h.val].zones.getLsbD z.val && decide (t.heads[h.val].type = .ped)

/-- The entry to RUNNING with the held count (R30). -/
def State.enterRunning (s : State) (count : Nat) : State :=
  { s with
    mode := .running, startResult := .ok, tables := { s.tables with valid := true },
    fetcher := { s.fetcher with count := count, state := .idle },
    heads := Vector.ofFn fun h : Fin 12 => (s.head h).enter (s.headRec h) s.loader.adopted[h.val] s.floorStop,
    zoneTable := s.tables.startZones, claims := [], loader := Loader.idle }

/-! ## Adoption through MODE (R80, R81) -/

/-- A head in ADOPTING ends in REST with a pose (R81). -/
def State.adopted (s : State) (h : HeadId) (p : Pose) : State :=
  (s.setHead h fun hd => { hd with state := .rest, levels := 0, pose := p }).examine h

/-- A head in ADOPTING ends in DIRECT with a fault (R81): frame number, no cue reference; the pose is unchanged, the
pointer copy UNKNOWN (R129). -/
def State.adoptFailed (s : State) (h : HeadId) (kind : HeadFaultKind) : State :=
  (s.fileHead h kind none s.frame).setHead h fun hd => { hd with state := .direct, pointer := .unknown }

/-- The front head leaves the adoption client's list (R80). -/
def State.nextAdopter (s : State) : State := s.setAdopter fun a => ⟨a.list.tail, none⟩

/-- The end of an adoption read of the pointer word (R80, R81). -/
def State.adopterPointer (s : State) (h : HeadId) (err : Bool) (w : Word) : State :=
  if err then s.nextAdopter.adoptFailed h .memory
  else
    match pointerBank w with
    | some bk => s.setAdopter fun a => { a with page := some bk }
    | none => s.nextAdopter.placePage (homeJob h (s.headRec h).home .homeHead)

/-- The end of an adoption read of a page (R81). -/
def State.adopterPage (s : State) (h : HeadId) (bk : Bank) (err : Bool) (p : Pose) : State :=
  if err then s.nextAdopter.adoptFailed h .memory
  else if pageWithin (s.headRec h) p then
    (s.nextAdopter.setHead h fun hd => { hd with pointer := .known bk }).adopted h ((s.headRec h).adopted p)
  else s.nextAdopter.adoptFailed h .poseLimit

/-- The report of a home page job's end to the block that placed it (R29, R81, R130, R131). Of a page that a failed START has
left behind only the head fault of R29 remains: its pose and its adopted mark are gone with LOADING (R26, R117). -/
def State.reportHome (s : State) (j : PageJob) (ok : Bool) : State :=
  match j.origin with
  | .frame => s
  | .homeLeft => if ok then s else s.fileHead j.head .memory none 0
  | .homeLoader => if ok then s else s.adoptionFault j.head .memory
  | .homeHead => if ok then s.adopted j.head j.pose else s.adoptFailed j.head .memory

end Sys2Proof.Machine
end

