-- ==== Sys2Proof/Machine/Events.lean ====
section
/-! DEFINITION. Machine/Events.lean: what ends every event: the end of LOADING and of DRAINING (R30, R32), the owed marks
(R166), and the requests the clients make when they have work and no request (R13, R59, R80, R87, R101, R128, R167). -/
namespace Sys2Proof.Machine

/-! ## The end of DRAINING -/

/-- The drain condition (R32). -/
def State.drained (s : State) : Bool :=
  (allHeads.all fun h => decide ((s.head h).state ≠ .moving) && decide ((s.head h).state ≠ .restoring)
    && !s.saveWriting h)
  && s.pageJobs.isEmpty && !s.busy .pageWriter

/-- A head at the change to HALTED (R32, R117, R129, R171): no state, nothing queued or saved, pose discarded, pointer
copy UNKNOWN, freeze reasons gone; the last k and D and the tally state stay. -/
def Head.halt (hd : Head) : Head :=
  { hd.endMove with state := .noState, queue := [], direct := none, gate := none, levels := 0,
                    slots := Vector.replicate 4 none, saveBuffer := none, pose := Pose.zero, pointer := .unknown,
                    freeze := Freeze.empty }

/-- The change to HALTED at the end of DRAINING (R32, R82, R139). -/
def State.endDraining (s : State) : State :=
  let s1 := s.abandon .adopter
  { s1 with mode := .halted, tables := { s1.tables with valid := false }, heads := s1.heads.map Head.halt,
            zoneTable := Vector.replicate 32 none, claims := [], adopter := ⟨[], none⟩, due := [] }

/-- LOADING ends in RUNNING when R30's conditions hold, and DRAINING in HALTED when R32's do. -/
def State.settleMode (s : State) : State :=
  match s.loaded with
  | some n => s.enterRunning n
  | none => if s.mode = .draining ∧ s.drained = true then s.endDraining else s

/-! ## The clients' requests -/

/-- The page job at the front of the list as it begins (R128, R129, R132): a frame page starts with a check read if the
pointer copy is UNKNOWN, else with a page write to the bank the copy does not name; a home page goes to bank A. -/
def PageJob.begin (j : PageJob) (copy : PointerCopy) : PageJob :=
  match j.phase with
  | .notBegun =>
    if j.origin = .frame then
      match copy with
      | .unknown => { j with phase := .check }
      | .known bk => { j with phase := .page bk.other }
    else { j with phase := .page .a }
  | .check => j
  | .page _ => j
  | .pointer _ => j

/-- The transfer a begun page job needs next (R128). -/
def PageJob.xfer (j : PageJob) : Xfer :=
  match j.phase with
  | .notBegun => .pageCheck j.head
  | .check => .pageCheck j.head
  | .page bk => .pageWrite j.head bk j.stamp j.pose
  | .pointer bk => .pointerWrite j.head bk

/-- The page writer requests the next transfer of the job at the front of its list (R128). -/
def State.pumpPage (s : State) : State :=
  if s.busy .pageWriter then s
  else
    match s.pageJobs with
    | [] => s
    | j :: rest =>
      let j1 := j.begin (s.head j.head).pointer
      (s.setPageJobs fun _ => j1 :: rest).request j1.xfer

/-- The transfer of a job of the saver and restorer (R101). -/
def SaveJob.xfer (j : SaveJob) : Xfer :=
  match j.kind with
  | .save m => .save j.head m
  | .restore => .restore j.head j.level
  | .emptyTag => .emptyTag j.head j.level

/-- The saver and restorer requests the transfer of the job at the front of its list (R101). -/
def State.pumpSaver (s : State) : State :=
  if s.busy .saver then s
  else
    match s.saver with
    | [] => s
    | j :: _ => s.request j.xfer

/-- The loader requests a header re-read, or the next read of its sequence, once the writes of an earlier RESET command
have ended (R19, R20, R25). -/
def State.pumpLoader (s : State) : State :=
  if s.mode ≠ .loading ∨ s.busy .loader = true ∨ s.letRunActive = true then s
  else if s.loader.stale then (s.setLoader fun l => { l with stale := false }).request (.table .header)
  else
    match s.loader.next with
    | some r => s.request (.table r)
    | none => s

/-- The adoption client requests the read of the head at the front of its list (R80). -/
def State.pumpAdopter (s : State) : State :=
  if s.busy .adopter then s
  else
    match s.adopter.list with
    | [] => s
    | h :: _ =>
      match s.adopter.page with
      | none => s.request (.adoptPointer h)
      | some bk => s.request (.adoptPage h bk)

/-- The stager requests the read of a cue's shot (R87). -/
def State.requestStage (s : State) (k : StageKey) : State :=
  match (s.head k.head).findCue k.head k with
  | some c => s.request (.stage c.shot)
  | none => s

/-- The stager reads again for the cue it has kept (R89), or takes the cue at the front of its list (R87). -/
def State.pumpStager (s : State) : State :=
  if s.busy .stager then s
  else
    match s.stager.current with
    | some k => s.requestStage k
    | none =>
      match s.stager.list with
      | [] => s
      | k :: rest => (s.setStager fun _ => ⟨rest, some k⟩).requestStage k

/-- The fetcher requests entry FETCH, or the header, in RUNNING (R59, R68, R71, R64). -/
def State.pumpFetcher (s : State) : State :=
  if s.mode ≠ .running ∨ s.busy .fetcher = true then s
  else
    match s.fetcher.state with
    | .idle =>
      if s.fetcher.fetch < s.fetcher.count then
        (s.setFetcher fun f => { f with state := .reading }).request (.entry s.fetcher.bank s.fetcher.fetch)
      else s
    | .reading => s.request (.entry s.fetcher.bank s.fetcher.fetch)
    | .header => s.request (.header s.fetcher.bank)
    | .headerRetried => s.request (.header s.fetcher.bank)
    | .off => s
    | .holding _ => s
    | .retryEntry => s
    | .retryHeader => s

/-- The first owed record that follows the remembered one in the cycle (R167). -/
def StatusWriter.nextOwed (w : StatusWriter) : Option RecId :=
  ((List.range 13).map fun i => Fin.ofNat 13 (w.remembered.val + 1 + i)).find? fun r => w.owed[r.val]

/-- The status writer begins a job when it has none and a record is owed (R167). -/
def State.pumpStatus (s : State) : State :=
  if s.busy .status then s
  else
    match s.status.job, s.status.nextOwed with
    | none, some r =>
      (s.setStatus fun w => { w with job := some ⟨r, [], false⟩ }).request (.status r .first)
    | none, none => s
    | some _, _ => s

/-- Every client that has work and no request makes its request; none does during a reset (R13, R15). Requests of one
event are made together. -/
def State.pump (s : State) : State :=
  if s.inReset then s
  else s.pumpPage.pumpSaver.pumpLoader.pumpAdopter.pumpStager.pumpFetcher.pumpStatus

/-- What ends an event that began in state s0 (R30, R32, R166, R13). -/
def State.finish (s0 s : State) : State := (State.oweChanged s0 s.settleMode).pump

/-- One event: the change f, and what ends every event. -/
def State.event (s : State) (f : State → State) : State :=
  let s0 := { s with eventNo := s.eventNo + 1 }
  State.finish s0 (f s0)

end Sys2Proof.Machine
end

