-- ==== Sys2Proof/Machine/ResetOps.lean ====
section
/-! DEFINITION. Machine/ResetOps.lean: the three resets (R15, R17, R34, R35, R51, R52, R74, R77, R115, R138, R140, R153,
R170). -/
namespace Sys2Proof.Machine

/-- The floor-stop state that a reset takes from the FLOOR line (R153). -/
def floorFromLine (floor : Bool) : FloorStop := if floor then .active else .clear

/-- The reset values that every reset gives every block (R34, R35 and the tables of the chapters). -/
def State.resetBlocks (s : State) (cause : ResetCause) : State :=
  { s with
    lastRefusal := none, mode := .halted, cause := cause, startResult := .nothing,
    tables := { s.tables with valid := false }, loader := Loader.idle, fetcher := Fetcher.reset,
    heads := Vector.ofFn fun h : Fin 12 => Head.reset (s.pins.tally.getLsbD h.val),
    stager := ⟨[], none⟩, adopter := ⟨[], none⟩, saver := [], pageJobs := [], frame := 0,
    zoneTable := Vector.replicate 32 none, claims := [], floorStop := floorFromLine s.pins.floor,
    status := StatusWriter.reset, due := [] }

/-- A grant as the RESET command leaves it (R17, R52): a host operation goes on, a read is discarded, a write is let run. -/
def Grant.afterReset (g : Grant) : Grant :=
  match g.xfer with
  | .host => g
  | .pageCheck _ => { g with discard := true }
  | .restore _ _ => { g with discard := true }
  | .stage _ => { g with discard := true }
  | .entry _ _ => { g with discard := true }
  | .header _ => { g with discard := true }
  | .table _ => { g with discard := true }
  | .adoptPointer _ => { g with discard := true }
  | .adoptPage _ _ => { g with discard := true }
  | .pageWrite _ _ _ _ => { g with letRun := true }
  | .pointerWrite _ _ => { g with letRun := true }
  | .save _ _ => { g with letRun := true }
  | .emptyTag _ _ => { g with letRun := true }
  | .status _ _ => { g with letRun := true }

/-- A waiting request as the RESET command leaves it (R52): host operations and completing writes stay; the second
transfer of a begun head record stays as one; a first transfer of the status writer becomes the part record's; the rest
are withdrawn. -/
def Request.afterReset (r : Request) : Option Request :=
  if r.letRun then some r
  else
    match r.xfer with
    | .host => some r
    | .status _ .first => some { r with xfer := .status 0 .first }
    | .status _ .second => some { r with letRun := true }
    | .pageCheck _ => none
    | .pageWrite _ _ _ _ => none
    | .pointerWrite _ _ => none
    | .save _ _ => none
    | .restore _ _ => none
    | .emptyTag _ _ => none
    | .stage _ => none
    | .entry _ _ => none
    | .header _ => none
    | .table _ => none
    | .adoptPointer _ => none
    | .adoptPage _ _ => none

/-- A status record's transfer is granted, or the second transfer of one waits: a record's write has begun. -/
def State.statusBegun (s : State) : Bool :=
  s.granted .status
    || s.waiting.any fun r => match r.xfer with
        | .status _ .second => true
        | _ => false

/-- The status job after the RESET command (R170): a begun write goes on with its copy; a first request that waits becomes
the part record's job. -/
def State.jobAfterReset (s : State) : Option StatusJob :=
  if s.statusBegun then s.status.job else if s.waits .status then some ⟨0, [], false⟩ else none

/-- The RESET command's effect (R51, R52). -/
def State.resetCommand (s : State) : State :=
  let s1 := s.resetBlocks .command
  { s1 with grant := s.grant.map Grant.afterReset, waiting := s.waiting.filterMap Request.afterReset,
            status := { s1.status with job := s.jobAfterReset } }

/-- The words of the part's own write transfers (R12); none for a read, and for a host operation. -/
def State.grantWords (s : State) (x : Xfer) : List Word :=
  match x with
  | .pageWrite _ _ stamp pose => pageWords stamp pose
  | .pointerWrite _ bk => [BitVec.ofNat 32 bk.num]
  | .save _ m => m.words
  | .emptyTag _ _ => [0]
  | .status _ .first => ((s.status.job.map StatusJob.copy).getD []).take 16
  | .status _ .second => ((s.status.job.map StatusJob.copy).getD []).drop 16
  | .pageCheck _ => []
  | .host => []
  | .restore _ _ => []
  | .stage _ => []
  | .entry _ _ => []
  | .header _ => []
  | .table _ => []
  | .adoptPointer _ => []
  | .adoptPage _ _ => []

/-- The cut of the transfer in progress (R15): the words already answered stay written, the word in progress and the later
ones are not written; the grant is none and no request waits. -/
def State.cutTransfer (s : State) (c : CutPoint) : State :=
  let s1 :=
    match s.grant with
    | none => s
    | some g => s.store g.xfer.place.1 ((s.grantWords g.xfer).take (min c.answered (g.xfer.place.2 - 1))) c.err.toNat
  { s1 with grant := none, waiting := [] }

/-- A reset by power or line (R15, R16, R34): the transfer is cut, every block takes its reset values, and an operation
in progress waits for its ERR. -/
def State.hardReset (s : State) (cause : ResetCause) (c : CutPoint) : State :=
  let s1 := (s.cutTransfer c).resetBlocks cause
  s1.setNear fun n => { n with cut := n.op.isSome }

end Sys2Proof.Machine
end

