-- ==== Sys2Proof/Machine/PathOps.lean ====
section
/-! DEFINITION. Machine/PathOps.lean: the near port and the path classifier (chapter 01), the command decoder (chapter 03),
and what each accepted command does. -/
namespace Sys2Proof.Machine

/-! ## Classification (R3) -/

/-- How a host write is treated (R3). -/
inductive Treatment where
  | pass
  | watched (n : Notice)
  | refused
  | command (slot : Nat)
deriving DecidableEq, Repr

/-- The treatment of a host write in a window, by part mode, head state and active bank (R3, R10, R11). -/
def State.treatment (s : State) (w : Window) : Treatment :=
  match w with
  | .shot n i => if s.mode ≠ .halted ∧ i ≤ 9 then .watched (.shot n) else .pass
  | .curve => if s.mode = .halted then .pass else .refused
  | .headTable => if s.mode = .halted then .pass else .refused
  | .levelTable => if s.mode = .halted then .pass else .refused
  | .rundown bk bw =>
    if s.mode ≠ .halted ∧ bk = s.fetcher.bank then
      match bw with
      | .header i => if i = 0 then .watched .header else .pass
      | .entry i j => if j ≤ 1 then .watched (.entry i) else .pass
    else .pass
  | .cue k => .command k
  | .status => .refused
  | .save => .refused
  | .page h =>
    match s.mode with
    | .halted => .pass
    | .loading => .refused
    | .running => if (s.head h).state = .direct then .pass else .refused
    | .draining => if (s.head h).state = .direct then .pass else .refused
  | .plain => .pass

/-- Give an answer on the near port; the operation is over and WAIT is released (R1). -/
def State.answerHost (s : State) (a : Answer) : State :=
  s.setNear fun n => { n with op := none, answer := some a }

/-- Forward an operation as a one-word transfer of the host pass-through client (R5, R8). -/
def State.forward (s : State) (op : HostOp) : State :=
  (s.setNear fun n => { n with op := some op, answer := none }).request .host

/-! ## The command decoder (R36 to R50) -/

/-- A refusal by the decoder (R40, R41): ERR, and the last-refusal record is overwritten whole. -/
def State.refuse (s : State) (slot : Nat) (reason : Reason) (param : Word) : State :=
  ({ s with lastRefusal := some ⟨slot, reason, param⟩ } : State).answerHost .err

/-- The commands available by part mode (R39); slots 13 to 15 hold none. -/
def available (slot : Nat) (m : PartMode) : Bool :=
  match slot with
  | 0 => decide (m = .halted)
  | 2 => true
  | 7 => decide (m = .running) || decide (m = .draining)
  | 8 => decide (m = .running) || decide (m = .draining)
  | 9 => decide (m = .running) || decide (m = .draining)
  | 11 => true
  | _ => decide (m = .running)

/-- FIRE's state checks (R44). -/
def State.judgeFire (s : State) (p : Word) : Option Reason :=
  if s.fetcher.fireOpen then some .busy
  else if s.fetcher.next = s.fetcher.count then some .ending
  else if field p 0 16 ≠ 0xFFFF ∧ field p 0 16 ≠ s.fetcher.next then some .expect
  else none

/-- CUT's state check (R45). -/
def State.judgeCut (s : State) (p : Word) : Option Reason :=
  if s.fetcher.count < field p 0 16 then some .range else none

/-- MOVE's field and state checks (R46). -/
def State.judgeMove (s : State) (p : Word) : Option Reason :=
  match headOf (field p 0 4) with
  | none => some .range
  | some h =>
    match (s.head h).state with
    | .off => some .head
    | .direct => some .head
    | .noState => some .head
    | .adopting => some .busy
    | .rest => none
    | .moving => none
    | .restoring => none

/-- RESUME's state check (R43): refused with FLOOR exactly in ACTIVE (R160). -/
def State.judgeResume (s : State) : Option Reason := if s.floorStop = .active then some .floor else none

/-- The reason for a LEVEL END to a head in OFF or DIRECT: HEAD (R48), but BUSY while the EMPTY tags of its discard are still being
written (R103, R112), where the order of R48's checks would give HEAD: the spec's rules differ here (DESIGN CHOICE, log entry 24). -/
def State.outsideReason (s : State) (h : HeadId) : Reason := if s.saveWriting h then .busy else .head

/-- LEVEL END's field and state checks (R48). -/
def State.judgeLevelEnd (s : State) (p : Word) : Option Reason :=
  match headOf (field p 0 4) with
  | none => some .range
  | some h =>
    match (s.head h).state with
    | .off => some (s.outsideReason h)
    | .direct => some (s.outsideReason h)
    | .noState => some .head
    | .adopting => some .busy
    | .moving => some .busy
    | .restoring => some .busy
    | .rest => if s.saveWriting h then some .busy else if (s.head h).levels = 0 then some .range else none

/-- CLEAR FAULT's field check (R50). -/
def judgeClearFault (p : Word) : Option Reason :=
  if field p 0 5 < 12 ∨ field p 0 5 = 31 then none else some .range

/-- The mode a MODE parameter names; code 3 names none (section 11.3). -/
def modeOf (p : Word) : Option HeadMode :=
  match field p 4 2 with
  | 0 => some .managed
  | 1 => some .direct
  | 2 => some .off
  | _ => none

/-- MODE's field and state checks (R49). -/
def State.judgeMode (s : State) (p : Word) : Option Reason :=
  match headOf (field p 0 4), modeOf p with
  | none, _ => some .range
  | some _, none => some .range
  | some h, some _ =>
    match (s.head h).state with
    | .adopting => some .busy
    | .moving => some .busy
    | .restoring => some .busy
    | .rest => if s.saveWriting h then some .busy else none
    | .off => if s.saveWriting h then some .busy else none
    | .direct => if s.saveWriting h then some .busy else none
    | .noState => if s.saveWriting h then some .busy else none

/-- The checks of a full-word write to slots 0 to 12, in order (R38): part mode, fields, state. -/
def State.judge (s : State) (slot : Nat) (p : Word) : Option Reason :=
  if !available slot s.mode then some .mode
  else
    match slot with
    | 3 => s.judgeFire p
    | 4 => s.judgeCut p
    | 6 => s.judgeMove p
    | 9 => s.judgeResume
    | 10 => s.judgeLevelEnd p
    | 11 => judgeClearFault p
    | 12 => s.judgeMode p
    | _ => none

/-! ## What accepted commands do -/

/-- STOP (R31): DRAINING; the fetcher OFF, every cue flushed, the saved moves discarded. -/
def State.stopPart (s : State) : State :=
  ((s.setMode .draining).stopFetcher.flushAll (fun _ => true) true).discardAllForStop

/-- MOVE (R85): an unstarted direct cue is replaced under R86; the new cue takes the slot in STAGING and joins the stager's
list. The candidate changes to it in this event, so the claim of the cue it displaces is withdrawn (R90). -/
def State.placeDirect (s : State) (h : HeadId) (p : Word) : State :=
  let s1 := if (s.head h).direct.isSome then State.unstage ⟨h, none⟩ s else s
  let s2 := (s1.withdrawClaim h .cue).setHead h fun hd => { hd with direct := some (moveCue p) }
  (s2.setStager fun g => { g with list := g.list ++ [⟨h, none⟩] }).examine h

/-- The heads of a head set (R47, section 11.3). -/
def headSet (p : Word) : List HeadId := allHeads.filter fun h => p.getLsbD h.val

/-- Change a head's freeze-reason set. -/
def State.setFreeze (s : State) (h : HeadId) (f : Freeze → Freeze) : State :=
  s.setHead h fun hd => { hd with freeze := f hd.freeze }

/-- HOLD (R158): HOLD joins the set of each head of the set that does not carry it; claims are withdrawn by the
re-examinations. -/
def State.holdHeads (s : State) (p : Word) : State :=
  let hs := (headSet p).filter fun h => !(s.head h).freeze.hold
  (s.forEach hs fun h t => t.setFreeze h fun f => { f with hold := true }).recheckAll [] (bothRechecks hs)

/-- THAW (R159): HOLD leaves the set of each head of the set; heads left unfrozen are re-examined. -/
def State.thawHeads (s : State) (p : Word) (order : List Recheck) : State :=
  let hs := (headSet p).filter fun h => (s.head h).freeze.hold
  let s1 := s.forEach hs fun h t => t.setFreeze h fun f => { f with hold := false }
  s1.recheckAll order (bothRechecks (hs.filter fun h => !(s1.head h).freeze.any))

/-- RESUME (R161): in LATCHED the floor-stop state becomes CLEAR, FLOOR leaves every PED head, and heads left unfrozen are
re-examined; in CLEAR it has no effect (R43). -/
def State.resumeFloor (s : State) (order : List Recheck) : State :=
  if s.floorStop = .latched then
    let hs := allHeads.filter fun h => (s.head h).freeze.floor
    let s1 := s.setFloorStop .clear
    let s2 := s1.forEach hs fun h t => t.setFreeze h fun f => { f with floor := false }
    s2.recheckAll order (bothRechecks (hs.filter fun h => !(s2.head h).freeze.any))
  else s

/-- The head state of a mode outside managed operation. -/
def outsideState : HeadMode → HeadState
  | .direct => .direct
  | .off => .off
  | .managed => .adopting

/-- A head takes DIRECT or OFF (R78, R79): from REST its cues are flushed, its saved moves discarded, its level set emptied
and its pointer copy made UNKNOWN (R112, R137); HOLD is removed. -/
def State.leaveTo (s : State) (h : HeadId) (m : HeadMode) : State :=
  let s1 :=
    if (s.head h).state = .rest then
      ((s.flushHead (fun _ => true) true h).forEach Level.all fun l t => State.discardForMode h l t).setHead h fun hd =>
        { hd with levels := 0, pointer := .unknown }
    else s
  ((s1.setFreeze h fun f => { f with hold := false }).setHead h fun hd => { hd with state := outsideState m }).examine h

/-- A head begins adoption (R80): ADOPTING, HOLD removed, and a place at the tail of the adoption client's list. -/
def State.beginAdopting (s : State) (h : HeadId) : State :=
  let s1 := (s.setFreeze h fun f => { f with hold := false }).setHead h fun hd => { hd with state := .adopting }
  s1.setAdopter fun a => { a with list := a.list ++ [h] }

/-- MODE (R78, R79, R80): the present mode has no effect; MANAGED begins adoption; DIRECT and OFF leave managed operation or
change between the two. -/
def State.changeMode (s : State) (h : HeadId) (m : HeadMode) : State :=
  if (s.head h).state.mode = some m then s
  else
    match m with
    | .managed => s.beginAdopting h
    | .direct => s.leaveTo h .direct
    | .off => s.leaveTo h .off

/-- CLEAR FAULT (R174): the named record is emptied; an empty record changes nothing. -/
def State.clearFaultRecord (s : State) (p : Word) : State :=
  match headOf (field p 0 5) with
  | some h =>
    if s.status.headFaults[h.val].isSome then s.setStatus fun w => w.clearFault (some h) else s
  | none => if s.status.partFault.isSome then s.setStatus fun w => w.clearFault none else s

/-- The effect of an accepted command in its owning block (R42). -/
def State.carryOut (s : State) (slot : Nat) (p : Word) (order : List Recheck) : State :=
  match slot with
  | 0 => s.beginLoading
  | 1 => s.stopPart
  | 2 => s.resetCommand
  | 3 => s.fire order
  | 4 => s.cutTo (field p 0 16)
  | 5 => s.swapTo (field p 0 16)
  | 6 =>
    match headOf (field p 0 4) with
    | some h => s.placeDirect h p
    | none => s
  | 7 => s.holdHeads p
  | 8 => s.thawHeads p order
  | 9 => s.resumeFloor order
  | 10 =>
    match headOf (field p 0 4) with
    | some h => s.levelEnd h
    | none => s
  | 11 => s.clearFaultRecord p
  | 12 =>
    match headOf (field p 0 4), modeOf p with
    | some h, some m => s.changeMode h m
    | some _, none => s
    | none, _ => s
  | _ => s

/-- A mask of 32 bits with the bytes of the enabled lanes set (R41). -/
def laneMask (lanes : BitVec 4) : Word :=
  (if lanes.getLsbD 0 then 0xFF else 0) ||| (if lanes.getLsbD 1 then 0xFF00 else 0)
    ||| (if lanes.getLsbD 2 then 0xFF0000 else 0) ||| (if lanes.getLsbD 3 then 0xFF000000 else 0)

/-- A cue-port write offered to the decoder (R7, R36 to R38): a partial write and a write to slots 13 to 15 are refused with
RANGE; a refusal answers ERR; an accepted command takes effect and its word is forwarded (R42). -/
def State.offer (s : State) (slot : Nat) (op : HostOp) (order : List Recheck) : State :=
  if op.lanes ≠ 15 then s.refuse slot .range (op.data &&& laneMask op.lanes)
  else if 13 ≤ slot then s.refuse slot .range op.data
  else
    match s.judge slot op.data with
    | some r => s.refuse slot r op.data
    | none => (s.carryOut slot op.data order).forward op

/-! ## Arrival at the near port -/

/-- A host operation is taken (R3, R5, R6, R7, R8). -/
def State.takeOp (s : State) (op : HostOp) (order : List Recheck) : State :=
  if op.write then
    match s.treatment (windowOf op.addr) with
    | .pass => s.forward op
    | .watched n => s.forward { op with notice := some n }
    | .refused => s.answerHost .err
    | .command slot => s.offer slot op order
  else s.forward op

/-- A host operation arrives (R1, R16): while another is unanswered it is taken no notice of; during a reset it is held;
otherwise it is taken. -/
def State.arrive (s : State) (op : HostOp) (order : List Recheck) : State :=
  if s.near.op.isSome || s.near.held.isSome then s
  else if s.inReset then s.setNear fun n => { n with held := some op, answer := none }
  else s.takeOp op order

/-- The end of a reset by power or line (R15, R16): a cut operation is answered with ERR, and a held one is taken as an
arrival. -/
def State.resumeNear (s : State) : State :=
  let s1 := if s.near.cut && s.near.op.isSome then
      (s.setNear fun n => { n with cut := false }).answerHost .err
    else s
  match s1.near.held with
  | some op => (s1.setNear fun n => { n with held := none }).takeOp op []
  | none => s1

/-- The cue names a shot and is STAGED. -/
def Cue.stagedOn (n : BitVec 8) (c : Cue) : Bool := decide (c.shot = n) && c.copy.isSome

/-- A cue after a shot notice (R89): a STAGED cue of the shot returns to STAGING, and a STAGING cue of it whose read is
outstanding becomes RESTAGING. -/
def Cue.noticed (n : BitVec 8) (current : Bool) (c : Cue) : Cue :=
  if c.shot = n then
    match c.stage with
    | .staged _ => { c with stage := .staging }
    | .staging => if current then { c with stage := .restaging } else c
    | .restaging => c
  else c

/-- A shot notice at one head (R89): the cues that return to STAGING join the tail of the stager's list, queued cues before
the direct cue; a candidate among them is re-examined. -/
def State.shotNoticeAt (n : BitVec 8) (h : HeadId) (s : State) : State :=
  let hd := s.head h
  let back := ((hd.queue ++ hd.direct.toList).filter (Cue.stagedOn n)).map fun c => c.key h
  let mark := fun c : Cue => c.noticed n (decide (s.stager.current = some (c.key h)))
  let s1 := s.setHead h fun hd => { hd with queue := hd.queue.map mark, direct := hd.direct.map mark }
  let s2 := s1.setStager fun g => { g with list := g.list ++ back }
  if hd.candidate.any (Cue.stagedOn n) then s2.examine h else s2

/-- A shot notice reaches every head unit, in ascending head number, and the stager (R89). -/
def State.shotNotice (s : State) (n : BitVec 8) : State := s.forEach allHeads (State.shotNoticeAt n)

/-- A snoop notice is delivered (R10, R11): a shot notice to the head units and the stager, a bank notice to the table loader
in LOADING (R25) and to the fetcher in RUNNING (R70, R71); in HALTED and DRAINING a bank notice has no effect (R73). -/
def State.deliver (s : State) (n : Notice) : State :=
  match n with
  | .shot k => s.shotNotice k
  | .header =>
    match s.mode with
    | .loading => s.loaderNotice
    | .running => s.headerNotice
    | .halted => s
    | .draining => s
  | .entry i =>
    match s.mode with
    | .running => s.entryNotice i
    | .loading => s
    | .halted => s
    | .draining => s

end Sys2Proof.Machine
end

