-- ==== Sys2Proof/Machine/HostPath.lean ====
section
/-! DEFINITION. Machine/HostPath.lean: the commands of the near port and of the far-port arbiter: HOST_WRITE, HOST_READ,
HOST_TRANSFER_END, FAR_PORT_GRANT. A command that cannot occur in the state it meets changes nothing (log entry 8). -/
namespace Sys2Proof.Machine

/-- The near port takes no new operation: an earlier one is unanswered (R1). -/
def State.nearBusy (s : State) : Bool := s.near.op.isSome || s.near.held.isSome

/-- An operation arrives at the near port as one event (R1); while an earlier one is unanswered the part takes no notice. -/
def State.hostArrival (s : State) (op : HostOp) (order : List Recheck) : State :=
  if s.nearBusy then s else s.event fun t => t.arrive op order

/-- HOST_WRITE (R3). -/
def execHostWrite (addr : Addr) (lanes : BitVec 4) (data : Word) (order : List Recheck) (s : State) :
    Host.Outcome State Fault Refusal :=
  .next (s.hostArrival ⟨true, addr, lanes, data, none⟩ order)

/-- HOST_READ (R8). -/
def execHostRead (addr : Addr) (s : State) : Host.Outcome State Fault Refusal :=
  .next (s.hostArrival ⟨false, addr, 15, 0, none⟩ [])

/-- What a forwarded operation leaves in the head memory (R5): the enabled lanes of the word, or after ERR a free value
(log entry 4); a read leaves it unchanged (R8). -/
def State.hostStore (s : State) (op : HostOp) (err : Bool) : State :=
  if op.write then
    if err then s.store (wordAddr op.addr) [op.data] 1
    else { s with mem := s.mem.writeLanes (wordAddr op.addr) op.lanes op.data }
  else s

/-- The answer at the end of a forwarded operation (R1). -/
def State.hostAnswer (s : State) (op : HostOp) (err : Bool) : Answer :=
  if err then .err else if op.write then .writeDone else .readData (s.mem.readWord (wordAddr op.addr))

/-- The end of the host pass-through transfer (R5, R8, R10, R11): memory, answer, and the snoop notice whatever the result. -/
def State.hostTransferEnd (s : State) (op : HostOp) (err : Bool) : State :=
  let s1 := (s.endGrant.hostStore op err).answerHost (s.hostAnswer op err)
  match op.notice with
  | some n => s1.deliver n
  | none => s1

/-- HOST_TRANSFER_END (R5). -/
def execHostTransferEnd (err : Bool) (s : State) : Host.Outcome State Fault Refusal :=
  .next (match s.granted .host, s.near.op with
    | true, some op => s.event fun t => t.hostTransferEnd op err
    | true, none => s
    | false, _ => s)

/-- A waiting request that the arbiter may grant (R13): no waiting request has a lower class, and none of the same class was
made earlier. -/
def State.grantableNow (s : State) (r : Request) : Bool :=
  s.waiting.all fun q =>
    decide (r.xfer.client.cls < q.xfer.client.cls)
      || (decide (r.xfer.client.cls = q.xfer.client.cls) && decide (r.madeAt ≤ q.madeAt))

/-- The request granted (R13): of those that may be granted, that of the named client, else the first to have been placed. -/
def State.nextGrant (s : State) (first : Option ReadClient) : Option Request :=
  (s.waiting.find? fun r => s.grantableNow r && decide (some r.xfer.client = first.map ReadClient.client)).or
    (s.waiting.find? s.grantableNow)

/-- The start of a status record's write, at the grant of its first transfer (R167): the owed mark is cleared, the update
count raised, the fields copied, and the record remembered. -/
def State.startStatusWrite (s : State) (r : RecId) : State :=
  let count := s.status.counts[r.val] + 1
  s.setStatus fun w => { w with
    owed := w.owed.set r.val false, counts := w.counts.set r.val count, remembered := r,
    job := some ⟨r, s.image r count, false⟩ }

/-- The request starts a status record's write. -/
def Xfer.startsRecord (x : Xfer) : Option RecId :=
  match x with
  | .status r .first => some r
  | .status _ .second => none
  | .pageCheck _ => none
  | .pageWrite _ _ _ _ => none
  | .pointerWrite _ _ => none
  | .host => none
  | .save _ _ => none
  | .restore _ _ => none
  | .emptyTag _ _ => none
  | .stage _ => none
  | .entry _ _ => none
  | .header _ => none
  | .table _ => none
  | .adoptPointer _ => none
  | .adoptPage _ _ => none

/-- The arbiter grants a waiting request (R13, R167). -/
def State.grantRequest (s : State) (r : Request) : State :=
  let s1 := { s with waiting := s.waiting.erase r, grant := some ⟨r.xfer, r.letRun, false⟩ }
  match r.xfer.startsRecord with
  | some rec => s1.startStatusWrite rec
  | none => s1

/-- FAR_PORT_GRANT (R13). No grant is made while one is current, while nothing waits, and during a reset. -/
def execFarPortGrant (first : Option ReadClient) (s : State) : Host.Outcome State Fault Refusal :=
  .next (if s.grant.isSome || s.inReset then s
    else
      match s.nextGrant first with
      | some r => s.event fun t => t.grantRequest r
      | none => s)

end Sys2Proof.Machine
end

