-- ==== Sys2Proof/Machine/CueCommands.lean ====
section
/-! DEFINITION. Machine/CueCommands.lean: the thirteen commands of the cue port (chapter 03), each as the full-word host write
to its slot that carries its parameter (R36, R42). -/
namespace Sys2Proof.Machine

/-- The near-port operation that writes a parameter to a slot: a full word at 13000h + 4·slot (R36). -/
def cueWrite (slot : Nat) (param : Word) : HostOp := ⟨true, BitVec.ofNat 20 (0x13000 + 4 * slot), 15, param, none⟩

/-- START (R19). -/
def execStart (param : Word) (s : State) : Host.Outcome State Fault Refusal := .next (s.hostArrival (cueWrite 0 param) [])

/-- STOP (R31). -/
def execStop (param : Word) (s : State) : Host.Outcome State Fault Refusal := .next (s.hostArrival (cueWrite 1 param) [])

/-- RESET (R51). -/
def execReset (param : Word) (s : State) : Host.Outcome State Fault Refusal := .next (s.hostArrival (cueWrite 2 param) [])

/-- FIRE (R65); the order of the re-examinations of the heads it releases cues on (R178). -/
def execFire (param : Word) (order : List Recheck) (s : State) : Host.Outcome State Fault Refusal :=
  .next (s.hostArrival (cueWrite 3 param) order)

/-- CUT (R67). -/
def execCut (param : Word) (s : State) : Host.Outcome State Fault Refusal := .next (s.hostArrival (cueWrite 4 param) [])

/-- SWAP (R68). -/
def execSwap (param : Word) (s : State) : Host.Outcome State Fault Refusal := .next (s.hostArrival (cueWrite 5 param) [])

/-- MOVE (R85). -/
def execMove (param : Word) (s : State) : Host.Outcome State Fault Refusal := .next (s.hostArrival (cueWrite 6 param) [])

/-- HOLD (R158). -/
def execHold (param : Word) (s : State) : Host.Outcome State Fault Refusal := .next (s.hostArrival (cueWrite 7 param) [])

/-- THAW (R159). -/
def execThaw (param : Word) (order : List Recheck) (s : State) : Host.Outcome State Fault Refusal :=
  .next (s.hostArrival (cueWrite 8 param) order)

/-- RESUME (R161). -/
def execResume (param : Word) (order : List Recheck) (s : State) : Host.Outcome State Fault Refusal :=
  .next (s.hostArrival (cueWrite 9 param) order)

/-- LEVEL END (R106). -/
def execLevelEnd (param : Word) (s : State) : Host.Outcome State Fault Refusal :=
  .next (s.hostArrival (cueWrite 10 param) [])

/-- CLEAR FAULT (R174). -/
def execClearFault (param : Word) (s : State) : Host.Outcome State Fault Refusal :=
  .next (s.hostArrival (cueWrite 11 param) [])

/-- MODE (R78). -/
def execMode (param : Word) (s : State) : Host.Outcome State Fault Refusal := .next (s.hostArrival (cueWrite 12 param) [])

end Sys2Proof.Machine
end

