-- ==== Sys2Proof/WellFormed.lean ====
section
/-! DEFINITION. WellFormed.lean: which commands are well formed. The operands' types bound the numbers; what is left to
check is that an order names nothing twice, that only a block with a row of its own takes an FMARK later, and that a
cut lies inside a transfer of at most sixteen words. `exec` is total on ill-formed commands too. -/
namespace Sys2Proof

/-- An order list names nothing twice. -/
def orderOk {α : Type} [DecidableEq α] (l : List α) : Bool := decide l.Nodup

/-- The blocks whose own event at an FMARK has a row of the table: the head units (OFFSET_COUNTDOWN_EXPIRY, R93) and the
zone arbiter (ZONE_TIMEOUT, R147). -/
def FmarkBlock.deferrable : FmarkBlock → Bool
  | .moveEngine => false
  | .headUnit _ => true
  | .zoneArbiter => true
  | .fetcher => false
  | .statusWriter => false

/-- A cut leaves at least one word of a transfer of 1 to 16 words unanswered (R12, R15), and only answered words can have
been answered with ERR. -/
def CutPoint.ok (c : CutPoint) : Bool := decide (c.answered < 16) && decide (c.err.toNat < 2 ^ c.answered)

/-- A well-formed command. -/
def Instr.wf : Instr → Bool
  | .hostWrite _ _ _ order => orderOk order
  | .hostRead _ => true
  | .hostTransferEnd _ => true
  | .farPortGrant _ => true
  | .start _ => true
  | .stop _ => true
  | .reset _ => true
  | .fire _ order => orderOk order
  | .cut _ => true
  | .swap _ => true
  | .move _ => true
  | .hold _ => true
  | .thaw _ order => orderOk order
  | .resume _ order => orderOk order
  | .levelEnd _ => true
  | .clearFault _ => true
  | .mode _ => true
  | .fmark order later losses => orderOk order && orderOk later && later.all FmarkBlock.deferrable && orderOk losses
  | .offsetCountdownExpiry _ => true
  | .zoneTimeout losses => orderOk losses
  | .tallyChange _ _ order => orderOk order
  | .floorAsserted => true
  | .floorReleased => true
  | .powerOn c _ _ => c.ok
  | .resetNAsserted c => c.ok
  | .resetNReleased => true
  | .powerOnResetEnd => true
  | .tableReadEnd _ => true
  | .entryReadEnd _ => true
  | .heldEntryExamination => true
  | .headerReadEnd _ => true
  | .stageReadEnd _ => true
  | .adoptionReadEnd _ => true
  | .pageWriteEnd _ => true
  | .pointerWriteEnd _ => true
  | .pointerCheckReadEnd _ => true
  | .saveTransferEnd _ => true
  | .restoreReadEnd _ order => orderOk order
  | .emptyTagWriteEnd _ => true
  | .statusTransferEnd _ => true

end Sys2Proof
end

