-- ==== Sys2Proof/Machine/FrameMarks.lean ====
section
/-! DEFINITION. Machine/FrameMarks.lean: FMARK at each block that takes it (R33, R64, R93, R124, R125, R147, R166), and the two
commands by which a head unit or the zone arbiter takes an FMARK in a step of its own. -/
namespace Sys2Proof.Machine

/-- The move engine advances a head (R124): k rises by 1, the pose of the frame becomes current, and a frame page job is
placed. -/
def State.advanceHead (s : State) (h : HeadId) (m : MoveRec) : State :=
  let pose := m.poseAtFrame s.tables (m.k + 1)
  (s.setHead h fun hd => { hd with move := some { m with k := m.k + 1 }, pose := pose }).placePage
    ⟨h, s.frame, pose, .frame, .notBegun⟩

/-- An FMARK at the move engine for one head (R124, R125, R126). -/
def State.engineMark (h : HeadId) (s : State) : State :=
  match (s.head h).move with
  | none => s
  | some m =>
    if (s.head h).state ≠ .moving ∨ m.pending = true ∨ (s.head h).freeze.any = true ∨ m.dur ≤ m.k then s
    else if s.hasPageJob h then s.fileHead h .pageOverrun (some m.ref) s.frame
    else s.advanceHead h m

/-- A released OFFSET cue whose countdown is above 0 is lowered by 1 (R93). -/
def Cue.countDown (c : Cue) : Cue :=
  match c.kind, c.released, c.countdown with
  | .offset _, true, some (n + 1) => { c with countdown := some n }
  | .offset _, true, some 0 => c
  | .offset _, true, none => c
  | .offset _, false, _ => c
  | .step, _, _ => c
  | .chain, _, _ => c

/-- A cue's offset countdown reaches 0 at this FMARK (R93). -/
def Cue.expires (c : Cue) : Bool := decide (c.countdown = some 1) && decide (c.countDown.countdown = some 0)

/-- An FMARK at a head unit (R93): in RUNNING and without a freeze reason the countdowns of the queue fall, and a candidate
whose countdown reaches 0 is re-examined. -/
def State.headMark (h : HeadId) (s : State) : State :=
  if s.mode = .running ∧ (s.head h).freeze.any = false then
    let expires := (s.head h).candidate.any Cue.expires
    let s1 := s.setHead h fun hd => { hd with queue := hd.queue.map Cue.countDown }
    if expires then s1.examine h else s1
  else s

/-- The loss that a claim's timeout is (R147): of a candidate, or of a pending restored move. -/
def Claim.loss (c : Claim) : Recheck :=
  match c.kind with
  | .cue => .candidate c.head
  | .restore => .pendingMove c.head

/-- The head that a re-examination concerns. -/
def recheckHead : Recheck → HeadId
  | .candidate h => h
  | .pendingMove h => h

/-- A loss by ZONE_TIMEOUT (R147): the candidate is rejected, or the pending restored move is lost (R110). -/
def State.timeOut (r : Recheck) (s : State) : State :=
  match r with
  | .candidate h =>
    match (s.head h).candidate with
    | some c => s.rejectCandidate h c .zoneTimeout
    | none => s
  | .pendingMove h => s.losePending h

/-- An FMARK at the zone arbiter (R147): every patience count falls by 1; claims that reach 0 are removed and lost, in the
order given; then the heads concerned re-examine their candidates. -/
def State.arbiterMark (losses : List Recheck) (s : State) : State :=
  if s.live then
    let fallen := s.claims.map fun c : Claim => { c with count := c.count - 1 }
    let lost := arrange losses ((fallen.filter fun c => decide (c.count = 0)).map Claim.loss)
    let s1 := s.setClaims fun _ => fallen.filter fun c => decide (c.count ≠ 0)
    (s1.forEach lost State.timeOut).forEach lost fun r t => t.examine (recheckHead r)
  else s

/-- An FMARK at one block, in that block's own event (section 7.5). -/
def State.blockMark (losses : List Recheck) (b : FmarkBlock) (s : State) : State :=
  match b with
  | .moveEngine => if s.live then s.forEach allHeads State.engineMark else s
  | .headUnit h => s.headMark h
  | .zoneArbiter => s.arbiterMark losses
  | .fetcher => s.fetcherMark
  | .statusWriter => if s.live then s.owe 0 else s

/-- The blocks that take an FMARK, in the default order. -/
def allBlocks : List FmarkBlock :=
  [.moveEngine] ++ allHeads.map FmarkBlock.headUnit ++ [.zoneArbiter, .fetcher, .statusWriter]

/-- A block takes the mark and ends its event. -/
def State.markEvent (losses : List Recheck) (b : FmarkBlock) (s : State) : State := State.finish s (s.blockMark losses b)

/-- The block is to take this FMARK in a step of its own (log entry 6). -/
def blockDeferred (later : List FmarkBlock) (b : FmarkBlock) : Bool := b.deferrable && decide (b ∈ later)

/-- An FMARK in RUNNING or DRAINING (R33): the frame number rises by 1 before any block acts; then each block takes the
mark in its own event, in the order given. -/
def State.frameMark (s : State) (order later : List FmarkBlock) (losses : List Recheck) : State :=
  let raised := { s with frame := s.frame + 1, due := allBlocks.filter (blockDeferred later) }
  match (arrange order allBlocks).filter fun b => !blockDeferred later b with
  | [] => State.finish s raised
  | b :: bs => (State.finish s (raised.blockMark losses b)).forEach bs (State.markEvent losses)

/-- The blocks that still owe the FMARK before this one take it first (log entry 6). -/
def State.takeDue (s : State) (losses : List Recheck) : State :=
  ({ s with due := [] } : State).forEach s.due (State.markEvent losses)

/-- FMARK (R33). In HALTED and LOADING it changes nothing. -/
def execFmark (order later : List FmarkBlock) (losses : List Recheck) (s : State) : Host.Outcome State Fault Refusal :=
  .next (if s.live then
      let s1 := ({ s with eventNo := s.eventNo + 1 } : State).takeDue losses
      if s1.live then s1.frameMark order later losses else s1
    else s)

/-- A block is no longer due. -/
def State.dropDue (s : State) (b : FmarkBlock) : State := { s with due := s.due.filter fun x => decide (x ≠ b) }

/-- The head's candidate is a released OFFSET cue whose countdown is 0 (R93). -/
def Head.offsetReady (hd : Head) : Bool := hd.candidate.any fun c => c.released && decide (c.countdown = some 0)

/-- OFFSET_COUNTDOWN_EXPIRY (R93): the head unit takes the last FMARK, if it has not yet; else a candidate whose countdown is
at 0 is re-examined, which finds nothing new. -/
def execOffsetCountdownExpiry (h : HeadId) (s : State) : Host.Outcome State Fault Refusal :=
  .next (if FmarkBlock.headUnit h ∈ s.due then s.event fun t => (t.dropDue (.headUnit h)).headMark h
    else if (s.head h).offsetReady then s.event fun t => t.examine h
    else s)

/-- ZONE_TIMEOUT (R147): the zone arbiter takes the last FMARK, if it has not yet; else no claim stands at count 0. -/
def execZoneTimeout (losses : List Recheck) (s : State) : Host.Outcome State Fault Refusal :=
  .next (if FmarkBlock.zoneArbiter ∈ s.due then s.event fun t => (t.dropDue .zoneArbiter).arbiterMark losses else s)

end Sys2Proof.Machine
end

