-- ==== Sys2Proof/Machine/Lines.lean ====
section
/-! DEFINITION. Machine/Lines.lean: the commands of the studio lines: TALLY, FLOOR, power-on and RESET_N (chapters 01, 02, 09). -/
namespace Sys2Proof.Machine

/-- The TALLY lines with one line at a level. -/
def setLine (t : BitVec 12) (h : HeadId) (on : Bool) : BitVec 12 :=
  if on then t ||| BitVec.ofNat 12 (2 ^ h.val) else t &&& ~~~ BitVec.ofNat 12 (2 ^ h.val)

/-- The on-air response applies AIR at a change to ON AIR (R156): MOVING, not pending, response FREEZE. -/
def State.respondsFreeze (s : State) (h : HeadId) : Bool :=
  decide ((s.head h).state = .moving) && (s.head h).move.any fun m => !m.pending && (s.levelRec m.level).freezeOnAir

/-- AIR is added or removed at a tally change (R154, R156). -/
def State.tallyFreeze (s : State) (h : HeadId) (on : Bool) : State :=
  if on then (if s.respondsFreeze h then s.setFreeze h fun f => { f with air := true } else s)
  else s.setFreeze h fun f => { f with air := false }

/-- A change of a TALLY line (R154): recorded in every mode; with head states it acts on the head. -/
def State.tallyChanged (s : State) (h : HeadId) (on : Bool) (order : List Recheck) : State :=
  let s1 := (s.setPins fun p => { p with tally := setLine p.tally h on }).setHead h fun hd =>
    { hd with onAir := on }
  if s1.live then (s1.tallyFreeze h on).recheckAll order (bothRechecks [h]) else s1

/-- TALLY_CHANGE (R154). A line that keeps its level is no change. -/
def execTallyChange (h : HeadId) (onAir : Bool) (order : List Recheck) (s : State) : Host.Outcome State Fault Refusal :=
  .next (if s.pins.tally.getLsbD h.val = onAir then s else s.event fun t => t.tallyChanged h onAir order)

/-- FLOOR joins the freeze-reason set of every PED head, and their claims are withdrawn by the re-examinations (R161). -/
def State.freezeFloor (s : State) : State :=
  let hs := allHeads.filter fun h => decide ((s.headRec h).type = .ped)
  (s.forEach hs fun h t => t.setFreeze h fun f => { f with floor := true }).recheckAll [] (bothRechecks hs)

/-- The assertion of FLOOR (R160, R161). -/
def State.floorOn (s : State) : State :=
  let s1 := (s.setPins fun p => { p with floor := true }).setFloorStop .active
  if s.floorStop = .clear ∧ s.live = true then s1.freezeFloor else s1

/-- FLOOR_ASSERTED (R161). -/
def execFloorAsserted (s : State) : Host.Outcome State Fault Refusal :=
  .next (if s.pins.floor then s else s.event State.floorOn)

/-- The release of FLOOR (R160): ACTIVE becomes LATCHED. -/
def State.floorOff (s : State) : State :=
  (s.setPins fun p => { p with floor := false }).setFloorStop (if s.floorStop = .active then .latched else s.floorStop)

/-- FLOOR_RELEASED (R160). -/
def execFloorReleased (s : State) : Host.Outcome State Fault Refusal :=
  .next (if s.pins.floor then s.event State.floorOff else s)

/-- POWER_ON (R34), with the lines at the levels they have then (R153). -/
def execPowerOn (cut : CutPoint) (tally : BitVec 12) (floor : Bool) (s : State) : Host.Outcome State Fault Refusal :=
  .next (s.event fun t =>
    (t.setPins fun p => { p with tally := tally, floor := floor, powerReset := true }).hardReset .power cut)

/-- RESET_N_ASSERTED (R34). -/
def execResetNAsserted (cut : CutPoint) (s : State) : Host.Outcome State Fault Refusal :=
  .next (if s.pins.resetN then s
    else s.event fun t => (t.setPins fun p => { p with resetN := true }).hardReset .line cut)

/-- RESET_N_RELEASED (R16): the reset ends, unless power-on reset still lasts. -/
def execResetNReleased (s : State) : Host.Outcome State Fault Refusal :=
  .next (if s.pins.resetN then
      s.event fun t =>
        let t1 := t.setPins fun p => { p with resetN := false }
        if t1.inReset then t1 else t1.resumeNear
    else s)

/-- POWER_ON_RESET_END (R15): the reset ends, unless RESET_N is still asserted. -/
def execPowerOnResetEnd (s : State) : Host.Outcome State Fault Refusal :=
  .next (if s.pins.powerReset then
      s.event fun t =>
        let t1 := t.setPins fun p => { p with powerReset := false }
        if t1.inReset then t1 else t1.resumeNear
    else s)

end Sys2Proof.Machine
end

