-- ==== Sys2Proof/Machine/ReadEnds.lean ====
section
/-! DEFINITION. Machine/ReadEnds.lean: the ends of the reads of the table loader, the fetcher, the stager and the adoption
client, and the fetcher's examination of a held entry. The data is taken from the head memory at the end (R12); a read marked
to be discarded only ends (R14). An end that matches no current grant changes nothing (log entry 8). -/
namespace Sys2Proof.Machine

/-- The words of a transfer in the head memory (R12). -/
def State.loadXfer (s : State) (x : Xfer) : List Word := s.load x.place.1 x.place.2

/-- The words of a transfer of n words that were answered with ERR; marks beyond the transfer name no word. -/
def errMask (err n : Nat) : Nat := err % 2 ^ n

/-- One read of a client ends: nothing is done with data to be discarded (R14). -/
def State.readEnd (s : State) (g : Grant) (act : State → State) : State :=
  s.event fun t => if g.discard then t.endGrant else act t.endGrant

/-- TABLE_READ_END (R20). -/
def execTableReadEnd (err : BitVec 16) (s : State) : Host.Outcome State Fault Refusal :=
  .next (match s.grant with
    | some ⟨.table r, l, d⟩ =>
      s.readEnd ⟨.table r, l, d⟩ fun t =>
        t.tableRead r (t.loadXfer (.table r)) (BitVec.ofNat 16 (errMask err.toNat r.place.2))
    | _ => s)

/-- The end of an entry read (R60, R64). -/
def State.entryRead (s : State) (ws : List Word) (err : Bool) : State :=
  if err then
    (s.filePart .memory s.fetcher.fetch none none).setFetcher fun f => { f with state := .retryEntry }
  else s.judgeEntry (ws.getD 0 0) (ws.getD 1 0)

/-- ENTRY_READ_END (R60). -/
def execEntryReadEnd (err : Bool) (s : State) : Host.Outcome State Fault Refusal :=
  .next (match s.grant with
    | some ⟨.entry bk i, l, d⟩ => s.readEnd ⟨.entry bk i, l, d⟩ fun t => t.entryRead (t.loadXfer (.entry bk i)) err
    | _ => s)

/-- The entry that the fetcher holds, in RUNNING (R62). -/
def State.heldEntry (s : State) : Option HeldEntry :=
  if s.mode = .running then
    match s.fetcher.state with
    | .holding e => some e
    | _ => none
  else none

/-- HELD_ENTRY_EXAMINATION (R62). -/
def execHeldEntryExamination (s : State) : Host.Outcome State Fault Refusal :=
  .next (match s.heldEntry with
    | some e => s.event fun t => t.dispatchEntry e
    | none => s)

/-- The end of a header read (R64, R69). -/
def State.headerReadBack (s : State) (ws : List Word) (err : Bool) : State :=
  if err then (s.filePart .memory 128 none none).setFetcher fun f => { f with state := .retryHeader }
  else s.latchHeader (ws.getD 0 0)

/-- HEADER_READ_END (R69). -/
def execHeaderReadEnd (err : Bool) (s : State) : Host.Outcome State Fault Refusal :=
  .next (match s.grant with
    | some ⟨.header bk, l, d⟩ => s.readEnd ⟨.header bk, l, d⟩ fun t => t.headerReadBack (t.loadXfer (.header bk)) err
    | _ => s)

/-- The stager's current cue has been handled (R87). -/
def State.stageDone (s : State) : State := s.setStager fun g => { g with current := none }

/-- A cue is rejected at its stage read's end (R88): the head fault, and the cue leaves its queue or slot wherever it
stands; the head re-examines if it was the candidate. -/
def State.stageReject (s : State) (k : StageKey) (c : Cue) (kind : HeadFaultKind) (sk : Option ShotKind) : State :=
  let wasCandidate := (s.head k.head).candidate.any fun x => decide (x.key k.head = k)
  let s1 := (s.fileHead k.head kind (some ⟨c.origin, c.shot, sk⟩) s.frame).setHead k.head fun hd => hd.removeCue k.head k
  if wasCandidate then s1.examine k.head else s1

/-- A cue becomes STAGED with its copy (R88). -/
def State.stageAccept (s : State) (k : StageKey) (copy : ShotCopy) : State :=
  let wasCandidate := (s.head k.head).candidate.any fun x => decide (x.key k.head = k)
  let s1 := s.setHead k.head fun hd => hd.mapCue k.head k fun x => { x with stage := .staged copy }
  if wasCandidate then s1.examine k.head else s1

/-- The end of the stage read of a cue (R88, R89): a RESTAGING cue returns to STAGING and is read again; any other is judged. -/
def State.stageEnded (s : State) (k : StageKey) (c : Cue) (ws : List Word) (err : Bool) : State :=
  if c.stage = .restaging then
    s.setHead k.head fun hd => hd.mapCue k.head k fun x => { x with stage := .staging }
  else if err then s.stageDone.stageReject k c .memory none
  else
    match judgeShot (s.headRec k.head) (s.tables.curve c.curve).isSome ws with
    | .staged copy => s.stageDone.stageAccept k copy
    | .rejected kind sk => s.stageDone.stageReject k c kind sk

/-- The stager handles its read for its current cue. -/
def State.stageRead (s : State) (ws : List Word) (err : Bool) : State :=
  match s.stager.current with
  | none => s
  | some k =>
    match (s.head k.head).findCue k.head k with
    | some c => s.stageEnded k c ws err
    | none => s.stageDone

/-- STAGE_READ_END (R88). -/
def execStageReadEnd (err : Bool) (s : State) : Host.Outcome State Fault Refusal :=
  .next (match s.grant with
    | some ⟨.stage n, l, d⟩ => s.readEnd ⟨.stage n, l, d⟩ fun t => t.stageRead (t.loadXfer (.stage n)) err
    | _ => s)

/-- ADOPTION_READ_END (R80, R81): of a pointer word, or of a page. -/
def execAdoptionReadEnd (err : Bool) (s : State) : Host.Outcome State Fault Refusal :=
  .next (match s.grant with
    | some ⟨.adoptPointer h, l, d⟩ =>
      s.readEnd ⟨.adoptPointer h, l, d⟩ fun t => t.adopterPointer h err ((t.loadXfer (.adoptPointer h)).getD 0 0)
    | some ⟨.adoptPage h bk, l, d⟩ =>
      s.readEnd ⟨.adoptPage h bk, l, d⟩ fun t =>
        t.adopterPage h bk err (Pose.ofWords ((t.loadXfer (.adoptPage h bk)).drop 1))
    | _ => s)

end Sys2Proof.Machine
end

