-- ==== Sys2Proof/Machine/PageEnds.lean ====
section
/-! DEFINITION. Machine/PageEnds.lean: the ends of the page writer's transfers (R130 to R134). A write that a RESET command has
let run is completed and reported to nobody (R52, R138). -/
namespace Sys2Proof.Machine

/-- The end of a page job (R130, R131, R132): the job leaves the list. A frame job raises MEMORY if it failed, makes the head's
record owed (R166), and the head is examined for completion (R134); a home job is reported to its placer. -/
def State.endPageJob (s : State) (j : PageJob) (ok : Bool) : State :=
  let s1 := s.setPageJobs List.tail
  match j.origin with
  | .frame =>
    let s2 := if ok then s1 else s1.fileHead j.head .memory ((s1.head j.head).move.map MoveRec.ref) j.stamp
    (s2.owe (recOf j.head)).checkComplete j.head
  | .homeLoader => s1.reportHome j ok
  | .homeHead => s1.reportHome j ok
  | .homeLeft => s1.reportHome j ok

/-- The job at the front of the page writer's list goes on with its next transfer (R128). -/
def State.setPagePhase (s : State) (p : PagePhase) : State :=
  match s.pageJobs with
  | [] => s
  | j :: rest => s.setPageJobs fun _ => { j with phase := p } :: rest

/-- Change a head's pointer copy (R129). -/
def State.setPointer (s : State) (h : HeadId) (c : PointerCopy) : State := s.setHead h fun hd => { hd with pointer := c }

/-- The page write has ended (R130). -/
def State.pageWritten (s : State) (h : HeadId) (bk : Bank) (letRun ok : Bool) : State :=
  if letRun then (if ok then s.requestLetRun (.pointerWrite h bk) else s)
  else if ok then s.setPagePhase (.pointer bk)
  else
    match s.pageJobs with
    | [] => s
    | j :: _ => s.endPageJob j false

/-- PAGE_WRITE_END (R130). -/
def execPageWriteEnd (err : BitVec 8) (s : State) : Host.Outcome State Fault Refusal :=
  .next (match s.grant with
    | some ⟨.pageWrite h bk stamp pose, letRun, _⟩ =>
      s.event fun t =>
        (t.endGrant.store (pageAddr h bk) (pageWords stamp pose) err.toNat).pageWritten h bk letRun (decide (err = 0))
    | _ => s)

/-- The pointer write has ended (R131). -/
def State.pointerWritten (s : State) (h : HeadId) (bk : Bank) (letRun ok : Bool) : State :=
  if letRun then s
  else
    let s1 := s.setPointer h (if ok then .known bk else .unknown)
    match s1.pageJobs with
    | [] => s1
    | j :: _ => s1.endPageJob j ok

/-- POINTER_WRITE_END (R131). -/
def execPointerWriteEnd (err : Bool) (s : State) : Host.Outcome State Fault Refusal :=
  .next (match s.grant with
    | some ⟨.pointerWrite h bk, letRun, _⟩ =>
      s.event fun t =>
        (t.endGrant.store (pointerAddr h) [BitVec.ofNat 32 bk.num] (flagBit err)).pointerWritten h bk letRun (!err)
    | _ => s)

/-- The pointer check read has ended (R132). -/
def State.pointerChecked (s : State) (h : HeadId) (w : Word) (err : Bool) : State :=
  if err then
    match s.pageJobs with
    | [] => s
    | j :: _ => s.endPageJob j false
  else
    match pointerBank w with
    | some bk => (s.setPointer h (.known bk)).setPagePhase (.page bk.other)
    | none => s.setPagePhase (.page .a)

/-- POINTER_CHECK_READ_END (R132). -/
def execPointerCheckReadEnd (err : Bool) (s : State) : Host.Outcome State Fault Refusal :=
  .next (match s.grant with
    | some ⟨.pageCheck h, l, d⟩ =>
      s.readEnd ⟨.pageCheck h, l, d⟩ fun t => t.pointerChecked h ((t.loadXfer (.pageCheck h)).getD 0 0) err
    | _ => s)

end Sys2Proof.Machine
end

