-- ==== Sys2Proof/Machine/SaveEnds.lean ====
section
/-! DEFINITION. Machine/SaveEnds.lean: the ends of the transfers of the saver and restorer (R101, R102, R108, R115). -/
namespace Sys2Proof.Machine

/-- The end of a transfer of the saver: handled by the job at the front of its list (R101). -/
def State.saverEnd (s : State) (act : SaveJob → State → State) : State :=
  match s.saver with
  | [] => s
  | j :: _ => act j s

/-- SAVE_TRANSFER_END (R102); a save that a RESET command has let run is followed by the EMPTY tag of its slot (R115). -/
def execSaveTransferEnd (err : BitVec 16) (s : State) : Host.Outcome State Fault Refusal :=
  .next (match s.grant with
    | some ⟨.save h m, letRun, _⟩ =>
      s.event fun t =>
        let t1 := t.endGrant.store (slotAddr h m.level) m.words err.toNat
        if letRun then t1.requestLetRun (.emptyTag h m.level) else t1.saverEnd fun j u => u.saveEnded j (decide (err = 0))
    | _ => s)

/-- RESTORE_READ_END (R108). -/
def execRestoreReadEnd (err : Bool) (order : List Recheck) (s : State) : Host.Outcome State Fault Refusal :=
  .next (match s.grant with
    | some ⟨.restore h l, r, d⟩ =>
      s.readEnd ⟨.restore h l, r, d⟩ fun t =>
        t.saverEnd fun j u => u.restoreEnded j err (u.loadXfer (.restore h l)) order
    | _ => s)

/-- EMPTY_TAG_WRITE_END (R101); one that a RESET command has let run raises no fault (R115). -/
def execEmptyTagWriteEnd (err : Bool) (s : State) : Host.Outcome State Fault Refusal :=
  .next (match s.grant with
    | some ⟨.emptyTag h l, letRun, _⟩ =>
      s.event fun t =>
        let t1 := t.endGrant.store (tagAddr h l) [0] (flagBit err)
        if letRun then t1 else t1.saverEnd fun j u => u.emptyTagEnded j (!err)
    | _ => s)

end Sys2Proof.Machine
end

