-- ==== Sys2Proof/Machine/StatusEnds.lean ====
section
/-! DEFINITION. Machine/StatusEnds.lean: the end of a status transfer (R165, R169, R170). -/
namespace Sys2Proof.Machine

/-- The status job sees an ERR (R169). -/
def State.statusFailed (s : State) (failed : Bool) : State :=
  s.setStatus fun w => { w with job := w.job.map fun j => { j with failed := j.failed || failed } }

/-- The status writer requests the second transfer of a head record, let run if the first was (R165, R170). -/
def State.requestSecond (s : State) (r : RecId) (letRun : Bool) : State :=
  if letRun then s.requestLetRun (.status r .second) else s.request (.status r .second)

/-- The status job ends; a failed one makes its record owed again (R169). -/
def State.endStatusJob (s : State) (r : RecId) : State :=
  let failed := s.status.job.any fun j => j.failed
  let s1 := s.setStatus fun w => { w with job := none }
  if failed then s1.owe r else s1

/-- A status transfer has ended (R165, R169). -/
def State.statusWritten (s : State) (r : RecId) (half : Half) (letRun failed : Bool) : State :=
  let s1 := s.statusFailed failed
  match half with
  | .first => if r.val = 0 then s1.endStatusJob r else s1.requestSecond r letRun
  | .second => s1.endStatusJob r

/-- STATUS_TRANSFER_END (R169). -/
def execStatusTransferEnd (err : BitVec 16) (s : State) : Host.Outcome State Fault Refusal :=
  .next (match s.grant with
    | some ⟨.status r half, letRun, _⟩ =>
      s.event fun t =>
        (t.endGrant.store (Xfer.status r half).place.1 (t.grantWords (.status r half)) err.toNat).statusWritten r half letRun
          (decide (err ≠ 0))
    | _ => s)

end Sys2Proof.Machine
end

