-- ==== Sys2Proof/Machine/Dispatch.lean ====
section
/-! DEFINITION. Machine/Dispatch.lean: the effect of each command on everything but the queue, one arm per command. -/
namespace Sys2Proof.Machine

def exec (i : Instr) (s : State) : Host.Outcome State Fault Refusal :=
  match i with
  | .hostWrite addr lanes data order => Sys2Proof.Machine.execHostWrite addr lanes data order s
  | .hostRead addr => Sys2Proof.Machine.execHostRead addr s
  | .hostTransferEnd err => Sys2Proof.Machine.execHostTransferEnd err s
  | .farPortGrant first => Sys2Proof.Machine.execFarPortGrant first s
  | .start param => Sys2Proof.Machine.execStart param s
  | .stop param => Sys2Proof.Machine.execStop param s
  | .reset param => Sys2Proof.Machine.execReset param s
  | .fire param order => Sys2Proof.Machine.execFire param order s
  | .cut param => Sys2Proof.Machine.execCut param s
  | .swap param => Sys2Proof.Machine.execSwap param s
  | .move param => Sys2Proof.Machine.execMove param s
  | .hold param => Sys2Proof.Machine.execHold param s
  | .thaw param order => Sys2Proof.Machine.execThaw param order s
  | .resume param order => Sys2Proof.Machine.execResume param order s
  | .levelEnd param => Sys2Proof.Machine.execLevelEnd param s
  | .clearFault param => Sys2Proof.Machine.execClearFault param s
  | .mode param => Sys2Proof.Machine.execMode param s
  | .fmark order later losses => Sys2Proof.Machine.execFmark order later losses s
  | .offsetCountdownExpiry h => Sys2Proof.Machine.execOffsetCountdownExpiry h s
  | .zoneTimeout losses => Sys2Proof.Machine.execZoneTimeout losses s
  | .tallyChange h onAir order => Sys2Proof.Machine.execTallyChange h onAir order s
  | .floorAsserted => Sys2Proof.Machine.execFloorAsserted s
  | .floorReleased => Sys2Proof.Machine.execFloorReleased s
  | .powerOn cut tally floor => Sys2Proof.Machine.execPowerOn cut tally floor s
  | .resetNAsserted cut => Sys2Proof.Machine.execResetNAsserted cut s
  | .resetNReleased => Sys2Proof.Machine.execResetNReleased s
  | .powerOnResetEnd => Sys2Proof.Machine.execPowerOnResetEnd s
  | .tableReadEnd err => Sys2Proof.Machine.execTableReadEnd err s
  | .entryReadEnd err => Sys2Proof.Machine.execEntryReadEnd err s
  | .heldEntryExamination => Sys2Proof.Machine.execHeldEntryExamination s
  | .headerReadEnd err => Sys2Proof.Machine.execHeaderReadEnd err s
  | .stageReadEnd err => Sys2Proof.Machine.execStageReadEnd err s
  | .adoptionReadEnd err => Sys2Proof.Machine.execAdoptionReadEnd err s
  | .pageWriteEnd err => Sys2Proof.Machine.execPageWriteEnd err s
  | .pointerWriteEnd err => Sys2Proof.Machine.execPointerWriteEnd err s
  | .pointerCheckReadEnd err => Sys2Proof.Machine.execPointerCheckReadEnd err s
  | .saveTransferEnd err => Sys2Proof.Machine.execSaveTransferEnd err s
  | .restoreReadEnd err order => Sys2Proof.Machine.execRestoreReadEnd err order s
  | .emptyTagWriteEnd err => Sys2Proof.Machine.execEmptyTagWriteEnd err s
  | .statusTransferEnd err => Sys2Proof.Machine.execStatusTransferEnd err s

end Sys2Proof.Machine
end

