-- ==== Sys2Proof/Safety.lean ====
section
/-! DEFINITION. Safety.lean: the laws of the spec that hold in every state a run reaches, and the areas of the state in which
the effects of the commands and their frames are stated. The machine has no fault and no refusal of its own, so a safe run is
one that keeps the laws. -/
namespace Sys2Proof.Machine

/-! ## Laws -/

/-- The head memory is in its canonical form. -/
def State.memoryOk (s : State) : Prop := Memory.wf s.mem = true

/-- ATTN is asserted exactly while a fault record is occupied (R175). -/
def State.attnOk (s : State) : Prop := s.status.attn = s.status.anyFault

/-- Each cue queue holds at most four cues (R84). -/
def State.queuesOk (s : State) : Prop := ∀ h : HeadId, (s.head h).queue.length ≤ 4

/-- In every move record, 1 ≤ D ≤ 65535 and 0 ≤ k ≤ D (R116). -/
def State.movesOk (s : State) : Prop :=
  ∀ (h : HeadId) (m : MoveRec), (s.head h).move = some m → 1 ≤ m.dur ∧ m.dur ≤ 65535 ∧ m.k ≤ m.dur

/-- No change of part mode is due: a LOADING part lacks a condition of R30, a DRAINING part one of R32. -/
def State.settled (s : State) : Prop := s.loaded = none ∧ ¬ (s.mode = .draining ∧ s.drained = true)

/-- A state that keeps the laws. -/
structure State.Safe (s : State) : Prop where
  memory : s.memoryOk
  attn : s.attnOk
  queues : s.queuesOk
  moves : s.movesOk

/-- One step from a state answers a state that keeps the laws. -/
def safeStep (s : State) : Prop := ∃ t, step s = .next t ∧ t.Safe

/-! ## Areas -/

/-- An area of the state: what one statement says is changed or left. -/
inductive Area where
  | nearPort | lines | memory | freeValues | grant | requests | lastRefusal | partMode | cause | startResult | tables
  | loader | rundown | fetchState
  | cues (h : HeadId) | levels (h : HeadId) | move (h : HeadId) | pose (h : HeadId) | pointer (h : HeadId)
  | freeze (h : HeadId) | tally (h : HeadId)
  | stager | adopter | saver | pageJobs | frame | zones | claims | floorStop
  | partFault | headFault (h : HeadId) | attn | counts | statusJob | owed | due | queue
deriving DecidableEq, Repr

/-- The area has not changed from s to t. Every event may end with a client's next request (R13); so `requests` says that no
waiting request has gone, `fetchState` that the fetcher has at most gone on to its next read, `stager` that the cues to be
staged stand in their order, `pageJobs` that the page jobs do, `statusJob` that a job in progress is the same, and `owed` that
no owed mark is cleared. -/
def sameArea (s t : State) : Area → Prop
  | .nearPort => t.near = s.near
  | .lines => t.pins = s.pins
  | .memory => ∀ a : Nat, t.mem.read a = s.mem.read a
  | .freeValues => t.freeCount = s.freeCount
  | .grant => t.grant = s.grant
  | .requests => ∀ q ∈ s.waiting, q ∈ t.waiting
  | .lastRefusal => t.lastRefusal = s.lastRefusal
  | .partMode => t.mode = s.mode
  | .cause => t.cause = s.cause
  | .startResult => t.startResult = s.startResult
  | .tables => t.tables = s.tables
  | .loader => t.loader.next = s.loader.next ∧ t.loader.half = s.loader.half ∧ t.loader.count = s.loader.count
      ∧ t.loader.adopted = s.loader.adopted
  | .rundown => t.fetcher.bank = s.fetcher.bank ∧ t.fetcher.count = s.fetcher.count ∧ t.fetcher.fetch = s.fetcher.fetch
      ∧ t.fetcher.next = s.fetcher.next ∧ t.fetcher.on = s.fetcher.on ∧ t.fetcher.fireOpen = s.fetcher.fireOpen
      ∧ t.fetcher.stepEnds = s.fetcher.stepEnds ∧ t.fetcher.startIndex = s.fetcher.startIndex
  | .fetchState => t.fetcher.state = s.fetcher.state ∨ (s.fetcher.state = .idle ∧ t.fetcher.state = .reading)
  | .cues h => (t.head h).queue = (s.head h).queue ∧ (t.head h).direct = (s.head h).direct
      ∧ (t.head h).gate = (s.head h).gate
  | .levels h => (t.head h).levels = (s.head h).levels ∧ (t.head h).slots = (s.head h).slots
      ∧ (t.head h).saveBuffer = (s.head h).saveBuffer
  | .move h => (t.head h).state = (s.head h).state ∧ (t.head h).move = (s.head h).move
      ∧ (t.head h).lastK = (s.head h).lastK ∧ (t.head h).lastD = (s.head h).lastD
  | .pose h => (t.head h).pose = (s.head h).pose
  | .pointer h => (t.head h).pointer = (s.head h).pointer
  | .freeze h => (t.head h).freeze = (s.head h).freeze
  | .tally h => (t.head h).onAir = (s.head h).onAir
  | .stager => t.stager.current.toList ++ t.stager.list = s.stager.current.toList ++ s.stager.list
  | .adopter => t.adopter = s.adopter
  | .saver => t.saver = s.saver
  | .pageJobs => t.pageJobs.map (fun j => (j.head, j.stamp, j.pose, j.origin))
      = s.pageJobs.map fun j => (j.head, j.stamp, j.pose, j.origin)
  | .frame => t.frame = s.frame
  | .zones => t.zoneTable = s.zoneTable
  | .claims => t.claims = s.claims
  | .floorStop => t.floorStop = s.floorStop
  | .partFault => t.status.partFault = s.status.partFault
  | .headFault h => t.status.headFaults[h.val] = s.status.headFaults[h.val]
  | .attn => t.status.attn = s.status.attn
  | .counts => t.status.counts = s.status.counts ∧ t.status.remembered = s.status.remembered
  | .statusJob => ∀ j, s.status.job = some j → t.status.job = some j
  | .owed => ∀ r : RecId, s.status.owed[r.val] = true → t.status.owed[r.val] = true
  | .due => t.due = s.due
  | .queue => t.pending = s.pending

/-- Every area but the listed ones is unchanged from s to t. -/
def Leaves (changed : List Area) (s t : State) : Prop := ∀ a, a ∉ changed → sameArea s t a

/-- The areas that an examination of a head's candidate, or of its pending move, may change (R91, R95, R110): the head's cues,
level set, slots and move, its fault record, and what the zone arbiter and the saver hold. -/
def examAreas (h : HeadId) : List Area :=
  [.cues h, .levels h, .move h, .claims, .zones, .saver, .headFault h, .attn]

/-- Every area of one head. -/
def headAreas (h : HeadId) : List Area :=
  [.cues h, .levels h, .move h, .pose h, .pointer h, .freeze h, .tally h]

end Sys2Proof.Machine
end

