-- ==== Sys2Proof/Certificates/Slice0/Obligations.lean ====
section
/-! DEFINITION. Certificates/Slice0/Obligations.lean: the statements for the provers, and the few words they share. A statement of
a command's effect says that exec answers a next state t, what t holds, and which areas (Safety.lean) it leaves. -/
namespace Sys2Proof.Machine

/-! ## Shared words -/

/-- The near port can take an operation (R1, R16), and no change of part mode is due. -/
structure State.Ready (s : State) : Prop where
  noOp : s.near.op = none
  noHeld : s.near.held = none
  noReset : s.inReset = false
  settled : s.settled

/-- A full-word write of a parameter to a slot of the cue port at 13000h + 4·k (R36, section 11.3). -/
def slotOp (k : Nat) (p : Word) : HostOp :=
  { write := true, addr := BitVec.ofNat 20 (0x13000 + 4 * k), lanes := 15, data := p, notice := none }

/-- A near-port operation is in progress, unanswered, and its request waits at the far-port arbiter (R5, R8, R42). -/
structure Forwards (t : State) (op : HostOp) : Prop where
  op : t.near.op = some op
  unanswered : t.near.answer = none
  held : t.wait = true
  request : ∃ q ∈ t.waiting, q.xfer = .host

/-- A refusal by the command decoder (R40, R41): ERR at once, nothing forwarded, the last-refusal record overwritten, every
other area left. -/
structure Refuses (s t : State) (slot : Nat) (r : Reason) (p : Word) : Prop where
  answered : t.near.op = none ∧ t.near.answer = some .err
  record : t.lastRefusal = some ⟨slot, r, p⟩
  left : Leaves [.nearPort, .lastRefusal] s t

/-- The commands of the cue port by slot (section 11.3). -/
def commandOf (k : Nat) (p : Word) (order : List Recheck) : Option Instr :=
  match k with
  | 0 => some (.start p)
  | 1 => some (.stop p)
  | 2 => some (.reset p)
  | 3 => some (.fire p order)
  | 4 => some (.cut p)
  | 5 => some (.swap p)
  | 6 => some (.move p)
  | 7 => some (.hold p)
  | 8 => some (.thaw p order)
  | 9 => some (.resume p order)
  | 10 => some (.levelEnd p)
  | 11 => some (.clearFault p)
  | 12 => some (.mode p)
  | _ => none

/-- The part modes in which a command is available (the table of R39). -/
def modesOf (k : Nat) : List PartMode :=
  match k with
  | 0 => [.halted]
  | 1 => [.running]
  | 2 => [.halted, .loading, .running, .draining]
  | 3 => [.running]
  | 4 => [.running]
  | 5 => [.running]
  | 6 => [.running]
  | 7 => [.running, .draining]
  | 8 => [.running, .draining]
  | 9 => [.running, .draining]
  | 10 => [.running]
  | 11 => [.halted, .loading, .running, .draining]
  | 12 => [.running]
  | _ => []

/-- The areas of the cues of every head. -/
def allCues : List Area := allHeads.map Area.cues

/-- The areas that a completion of one head, and the scan and re-examinations that follow it, may change. -/
def allExams : List Area := allHeads.flatMap examAreas

/-- A head fault stands in the head's record: it is the given one if the record was empty, and MORE is set if it was not
(R172). -/
def Filed (s t : State) (h : HeadId) (kind : HeadFaultKind) (ref : Option CueRef) (frame : Word) : Prop :=
  t.status.attn = true ∧
    t.status.headFaults[h.val] =
      match s.status.headFaults[h.val] with
      | none => some ⟨kind, ref, frame, false⟩
      | some f => some { f with more := true }

/-- A head fault has been raised (R172): the record is occupied, by this fault if it was empty. -/
def Raised (s t : State) (h : HeadId) (kind : HeadFaultKind) (ref : Option CueRef) (frame : Word) : Prop :=
  t.status.attn = true ∧ ∃ f, t.status.headFaults[h.val] = some f
    ∧ (s.status.headFaults[h.val] = none → f.kind = kind ∧ f.ref = ref ∧ f.frame = frame)

/-- A part fault stands in the part fault record, in the same way (R172). -/
def FiledPart (s t : State) (kind : PartFaultKind) (index : Nat) (shot : Option (BitVec 8))
    (result : Option StartResult) (frame : Word) : Prop :=
  t.status.attn = true ∧
    t.status.partFault =
      match s.status.partFault with
      | none => some ⟨kind, index, shot, result, frame, false⟩
      | some f => some { f with more := true }

/-- The grant of a client's own transfer, wanted and not let run by a RESET command. -/
def State.grants (s : State) (x : Xfer) : Prop := s.grant = some ⟨x, false, false⟩

/-- The head has no cue. -/
def Head.noCue (hd : Head) : Prop := hd.queue = [] ∧ hd.direct = none

/-- A head's candidate has been examined (R91): the first failing gate recorded is the first of STAGING to SAVE that it fails, ZONE
for a candidate that passes them, and none without a candidate; at ZONE, and only there, a claim of it waits (R142, R144). -/
structure Examined (t : State) (h : HeadId) : Prop where
  gate : (t.head h).gate =
    match (t.head h).candidate with
    | none => none
    | some c =>
      match t.gateOf h c with
      | some g => some g
      | none => some .zone
  claim : t.claimOf h .cue ≠ none ↔ (t.head h).gate = some .zone

/-- The head's candidate, if any, fails a gate of STAGING to SAVE (R91): its examination starts and rejects nothing. -/
def State.Held (u : State) (h : HeadId) : Prop := ∀ q, (u.head h).candidate = some q → u.gateOf h q ≠ none

/-- A pending restored move of a head with no cue, not yet at the zone arbiter, whose zones are FREE or the head's own (R110). -/
structure PendingReady (s : State) (h : HeadId) (m : MoveRec) : Prop where
  move : (s.head h).move = some m
  pending : m.pending = true
  noCue : (s.head h).noCue
  noClaim : s.claimOf h .restore = none
  zones : ∀ z : Fin 32, (m.stand ||| m.path).getLsbD z.val = true → s.zoneTable[z.val] = none ∨ s.zoneTable[z.val] = some h

/-- The pending restored move has started (R110, R142): its mark is gone and its zones are the head's. -/
structure PendingStarted (s t : State) (h : HeadId) (m : MoveRec) : Prop where
  move : (t.head h).move = some { m with pending := false }
  zones : ∀ z : Fin 32, t.zoneTable[z.val] = if (m.stand ||| m.path).getLsbD z.val then some h else s.zoneTable[z.val]

/-- What an event that thaws heads or ends moves may change, with the halt of a DRAINING part at its end (R32). -/
def haltAreas : List Area :=
  [.partMode, .tables, .requests, .grant, .adopter, .claims, .zones, .saver, .attn, .due] ++ allHeads.flatMap fun h =>
    [.cues h, .levels h, .move h, .pose h, .pointer h, .freeze h, .headFault h]

end Sys2Proof.Machine

open Sys2Proof Sys2Proof.Machine

/-! ## The queue of commands, and the laws -/

/-- A step takes the command at the front of the queue, and its outcome is the command's on the queue's rest; with no command
the part idles (the model's choice, log entry 9). -/
def Obligations.StepTakesFrontCommand : Prop :=
  (∀ (c : Instr) (rest : List Instr) (s : State), step { s with pending := c :: rest } = exec c { s with pending := rest })
  ∧ ∀ s : State, s.pending = [] → step s = .next s

/-- Every command answers a next state in every state, and leaves the queue. For a command that names an event that cannot occur this is
the model's choice (log entry 8): such a command changes nothing. -/
def Obligations.EveryCommandAnswersNext : Prop := ∀ (c : Instr) (s : State), ∃ t, exec c s = .next t ∧ t.pending = s.pending

/-- A step keeps the canonical form of the head memory. -/
def Obligations.StepKeepsMemoryCanonical : Prop := ∀ s t : State, s.memoryOk → step s = .next t → t.memoryOk

/-- The law of ATTN (R175): a step keeps it asserted exactly while a fault record is occupied, and so does the state after
power-on reset; power-on, the assertion of RESET_N and an accepted RESET deassert it. -/
def Obligations.StepKeepsAttnLaw : Prop :=
  (∀ s t : State, s.attnOk → step s = .next t → t.attnOk)
  ∧ (∀ s : State, s.attnOk →
      (s.status.attn = true ↔ s.status.partFault ≠ none ∨ ∃ h : HeadId, s.status.headFaults[h.val] ≠ none))
  ∧ State.reset.attnOk ∧ State.reset.status.attn = false
  ∧ (∀ (s : State) (c : CutPoint) (tally : BitVec 12) (floor : Bool),
      ∃ t, exec (.powerOn c tally floor) s = .next t ∧ t.status.attn = false)
  ∧ (∀ (s : State) (c : CutPoint), s.pins.resetN = false →
      ∃ t, exec (.resetNAsserted c) s = .next t ∧ t.status.attn = false)
  ∧ ∀ (s : State) (p : Word), s.near.op = none → s.near.held = none → s.inReset = false →
      ∃ t, exec (.reset p) s = .next t ∧ t.status.attn = false

/-- A step keeps the law of move records (R116): 1 ≤ D ≤ 65535 and 0 ≤ k ≤ D. -/
def Obligations.StepKeepsMoveRecordLaw : Prop := ∀ s t : State, s.movesOk → step s = .next t → t.movesOk

/-- A step keeps the bound of four cues of each queue (R84). -/
def Obligations.StepKeepsQueueBound : Prop := ∀ s t : State, s.queuesOk → step s = .next t → t.queuesOk

/-- After a step no change of part mode is due (R30, R32): the conditions are examined in the event that meets them. -/
def Obligations.StepLeavesNoChangeDue : Prop := ∀ s t : State, s.settled → step s = .next t → t.settled

/-- The state after power-on reset keeps the laws. -/
def Obligations.ResetKeepsTheLaws : Prop := State.reset.Safe ∧ State.reset.settled

/-- What the spec gives the part at the end of power-on reset, which is the model's State.reset (log entry 2) (R34, R74, R77, R115, R138,
R140, R170). -/
def Obligations.ResetState : Prop :=
  State.reset.mode = .halted ∧ State.reset.cause = .power ∧ State.reset.startResult = .nothing
    ∧ State.reset.tables.valid = false ∧ State.reset.frame = 0 ∧ State.reset.lastRefusal = none
    ∧ State.reset.fetcher = ⟨.off, .a, 0, 0, 0, none, false, [], none⟩
    ∧ (∀ h : HeadId, (State.reset.head h).state = .noState ∧ (State.reset.head h).queue = []
        ∧ (State.reset.head h).direct = none ∧ (State.reset.head h).levels = 0
        ∧ (∀ l, (State.reset.head h).slotRef l = none) ∧ (State.reset.head h).move = none
        ∧ (State.reset.head h).pointer = .unknown ∧ State.reset.status.headFaults[h.val] = none)
    ∧ (∀ z : Fin 32, State.reset.zoneTable[z.val] = none) ∧ State.reset.claims = [] ∧ State.reset.saver = []
    ∧ State.reset.pageJobs = [] ∧ State.reset.status.partFault = none ∧ State.reset.status.attn = false
    ∧ (∀ r : RecId, State.reset.status.counts[r.val] = 0 ∧ State.reset.status.owed[r.val] = true)
    ∧ State.reset.grant = none ∧ (State.reset.waiting.map fun q => q.xfer) = [.status 0 .first]
    ∧ State.reset.pending = []

/-! ## Near port and far port -/

/-- A host read passes in every window and mode (R8): at its arrival it is forwarded as a one-word transfer, and at the transfer's
end the answer is the word the head memory gave, or ERR; nothing else changes. -/
def Obligations.HostReadPasses : Prop :=
  (∀ (s : State) (addr : Addr), s.Ready →
    ∃ t, exec (.hostRead addr) s = .next t ∧ Forwards t ⟨false, addr, 15, 0, none⟩ ∧ Leaves [.nearPort] s t)
  ∧ ∀ (s : State) (addr : Addr) (err : Bool), s.grants .host → s.near.op = some ⟨false, addr, 15, 0, none⟩ → s.settled →
    ∃ t, exec (.hostTransferEnd err) s = .next t ∧ t.near.op = none
      ∧ t.near.answer = some (if err then .err else .readData (s.mem.readWord (addr.toNat / 4 * 4)))
      ∧ Leaves [.nearPort, .grant] s t

/-- A host write outside the cue port that falls, at word address n, in a window the part owns (R3): the status window, the save
area, the tables outside HALTED, and the page area in LOADING or of a head that is not in DIRECT. -/
def Sys2Proof.windowRefuses (s : State) (n : Nat) : Prop :=
  (0x14000 ≤ n ∧ n < 0x14700) ∨ (0x15000 ≤ n ∧ n < 0x15C00)
    ∨ (s.mode ≠ .halted ∧ 0x10000 ≤ n ∧ n < 0x10E40)
    ∨ (s.mode = .loading ∧ 0x16000 ≤ n ∧ n < 0x16600)
    ∨ ((s.mode = .running ∨ s.mode = .draining)
        ∧ ∃ h : HeadId, 0x16000 + h.val * 0x80 ≤ n ∧ n < 0x16000 + h.val * 0x80 + 0x80 ∧ (s.head h).state ≠ .direct)

/-- The base of the active bank (R53). -/
def Sys2Proof.activeBase (s : State) : Nat := if s.fetcher.bank = .a then 0x11000 else 0x12000

/-- The snoop notice of a host write at word address n (R10, R11). -/
def Sys2Proof.noticeAt (s : State) (n : Nat) : Option Notice :=
  if s.mode = .halted then none
  else if n < 0x10000 then (if n % 0x100 < 40 then some (.shot (BitVec.ofNat 8 (n / 0x100))) else none)
  else if n = activeBase s then some .header
  else if activeBase s + 0x10 ≤ n ∧ n < activeBase s + 0x810 ∧ (n - activeBase s) % 0x10 < 8 then
    some (.entry ((n - activeBase s - 0x10) / 0x10))
  else none

/-- A host write outside the cue port that arrives at a ready near port: in a window the part owns it is answered ERR at once and
changes nothing (R3, R6); anywhere else it is forwarded with its address, lanes and data, and with the snoop notice of its place
(R4, R5, R10, R11). -/
def Obligations.HostWritesAreRefusedOrForwarded : Prop :=
  ∀ (s : State) (addr : Addr) (lanes : BitVec 4) (data : Word) (order : List Recheck), s.Ready →
    (windowRefuses s (addr.toNat / 4 * 4) →
      ∃ t, exec (.hostWrite addr lanes data order) s = .next t ∧ t.near.op = none ∧ t.near.answer = some .err
        ∧ Leaves [.nearPort] s t)
    ∧ (¬ windowRefuses s (addr.toNat / 4 * 4) → ¬ (0x13000 ≤ addr.toNat / 4 * 4 ∧ addr.toNat / 4 * 4 < 0x13040) →
      ∃ t, exec (.hostWrite addr lanes data order) s = .next t
        ∧ Forwards t ⟨true, addr, lanes, data, noticeAt s (addr.toNat / 4 * 4)⟩ ∧ Leaves [.nearPort] s t)

/-- While an operation is unanswered the near port takes no notice of another (R1). -/
def Obligations.BusyNearPortTakesNoNotice : Prop :=
  ∀ (s : State) (c : Instr), (s.near.op ≠ none ∨ s.near.held ≠ none) →
    ((∃ addr lanes data order, c = .hostWrite addr lanes data order) ∨ (∃ addr, c = .hostRead addr)
      ∨ ∃ k p order, commandOf k p order = some c) →
    exec c s = .next s

/-- The areas of every end of a forwarded host write (R5). -/
def Sys2Proof.writeEndAreas : List Area := [.nearPort, .memory, .freeValues, .grant]

/-- A cue after a shot notice (R89): a STAGED cue of the shot returns to STAGING, and the stager's current cue, if it is STAGING,
becomes RESTAGING. -/
def Sys2Proof.noticedCue (n : BitVec 8) (current : Bool) (q : Cue) : Cue :=
  if q.shot = n then
    { q with stage := match q.stage with
        | .staged _ => .staging
        | .staging => if current then .restaging else .staging
        | .restaging => .restaging }
  else q

/-- A shot notice has been taken (R89): each cue of the shot acts by its stage state; those that return to STAGING join the tail of
the stager's list in ascending head number, queued cues before the direct cue; a STAGED candidate of the shot now fails STAGING,
and its claim is withdrawn. -/
structure Sys2Proof.ShotNoticed (s t : State) (n : BitVec 8) : Prop where
  cues : ∀ h : HeadId,
    (t.head h).queue = (s.head h).queue.map (fun q => noticedCue n (decide (s.stager.current = some (q.key h))) q)
    ∧ (t.head h).direct = (s.head h).direct.map (fun q => noticedCue n (decide (s.stager.current = some (q.key h))) q)
  list : t.stager.current.toList ++ t.stager.list = s.stager.current.toList ++ s.stager.list
    ++ allHeads.flatMap fun h =>
      (((s.head h).queue ++ (s.head h).direct.toList).filter fun q => decide (q.shot = n) && q.copy.isSome).map fun q => q.key h
  candidate : ∀ (h : HeadId) (c : Cue), (s.head h).candidate = some c → c.shot = n → c.copy ≠ none →
    (t.head h).gate = some .staging ∧ t.claimOf h .cue = none
  left : Leaves (writeEndAreas ++ [.stager, .claims] ++ allCues) s t

/-- The queued cues of a head below an index. -/
def Sys2Proof.keptCues (s : State) (n : Nat) (h : HeadId) : List Cue :=
  (s.head h).queue.filter fun q =>
    match q.origin with
    | .rundown _ i => decide (i < n)
    | .direct => true

/-- The queued cues at or above an index have been flushed, of every head (R69 to R71, R86): the direct slots stay, and no flushed cue
stands with the stager. A queue whose head stays, or of which nothing stays, holds the cues below the index; the rest of a queue whose
head went is examined, so that only cues at its front may have left it. -/
structure Sys2Proof.FlushedFrom (s t : State) (n : Nat) : Prop where
  queues : ∀ h : HeadId, (t.head h).queue <:+ keptCues s n h ∧ (t.head h).direct = (s.head h).direct
    ∧ ((s.head h).direct ≠ none ∨ keptCues s n h = [] ∨ (keptCues s n h).head? = (s.head h).queue.head? →
        (t.head h).queue = keptCues s n h)
  examined : ∀ h : HeadId, (s.head h).candidate ≠ none → (s.head h).direct = none →
    (keptCues s n h).head? ≠ (s.head h).queue.head? → Examined t h
  staging : ∀ h : HeadId, ∀ q ∈ (s.head h).queue, q ∉ keptCues s n h → q.key h ∉ t.stager.current.toList ++ t.stager.list

/-- A bank notice has taken back what was read from NEXT on (R70, R71, R86): FETCH is NEXT, the step-end list is empty, the other values
of the fetcher stay; queued cues at or above NEXT are flushed. -/
structure Sys2Proof.TakenBack (s t : State) : Prop where
  pointers : t.fetcher.fetch = s.fetcher.next ∧ t.fetcher.next = s.fetcher.next ∧ t.fetcher.stepEnds = []
  values : t.fetcher.bank = s.fetcher.bank ∧ t.fetcher.count = s.fetcher.count ∧ t.fetcher.on = s.fetcher.on
    ∧ t.fetcher.fireOpen = s.fetcher.fireOpen ∧ t.fetcher.startIndex = s.fetcher.startIndex
  flushed : FlushedFrom s t s.fetcher.next
  left : Leaves (writeEndAreas ++ [.requests, .rundown, .fetchState, .stager] ++ allExams) s t

/-- Nothing keeps the fetcher from its next request: no transfer of a RESET command's is left, and no reset lasts. -/
def Sys2Proof.fetcherFree (s : State) : Prop := s.inReset = false ∧ ∀ q ∈ s.waiting, q.letRun = false

/-- The fetcher's only waiting request is the given one. -/
def Sys2Proof.fetches (t : State) (x : Xfer) : Prop :=
  (∃ q ∈ t.waiting, q.xfer = x) ∧ ∀ q ∈ t.waiting, q.xfer.client = .fetcher → q.xfer = x

/-- A header read is outstanding that a CUT or a bank notice leaves to go on (R67, R71): any but a retry request that still waits, which
they withdraw (R72). -/
def Sys2Proof.headerStands (s : State) : Prop :=
  s.fetcher.state = .header ∨ (s.fetcher.state = .headerRetried ∧ s.waits .fetcher = false)

/-- The fetcher's header read is as it was: its state, and its request if it waits. -/
def Sys2Proof.headerKept (s t : State) : Prop :=
  t.fetcher.state = s.fetcher.state ∧ ∀ q ∈ s.waiting, q.xfer.client = .fetcher → q ∈ t.waiting

/-- A snoop notice has been taken at the end of its write's transfer (R10, R11): a shot notice by the heads and the stager (R89); a
header notice in RUNNING by the fetcher, which reads the header unless a header read waits (R71), a waiting retry request being withdrawn
for one of its own (R72), and in LOADING by the loader, whose held count it makes stale and re-read (R25); an entry notice in RUNNING by
the fetcher, by where the entry stands (R70). Elsewhere a bank notice has no effect (R73). -/
def Sys2Proof.NoticeTaken (s t : State) (n : Notice) : Prop :=
  match n with
  | .shot k => ShotNoticed s t k
  | .header =>
    match s.mode with
    | .running => TakenBack s t ∧ (headerStands s → headerKept s t)
        ∧ (¬ headerStands s → t.fetcher.state = .header ∧ (fetcherFree s → fetches t (.header s.fetcher.bank)))
    | .loading => Leaves writeEndAreas s t
        ∧ (s.loader.count ≠ none → s.headerReadOut = false → t.loader.stale = true ∨ ∃ q ∈ t.waiting, q.xfer = .table .header)
    | .halted => Leaves writeEndAreas s t
    | .draining => Leaves writeEndAreas s t
  | .entry i =>
    if s.mode = .running ∧ s.fetcher.next ≤ i ∧ i < s.fetcher.fetch then
      TakenBack s t ∧ (headerStands s → headerKept s t)
        ∧ (¬ headerStands s → fetcherFree s → s.fetcher.next < s.fetcher.count →
            t.fetcher.state = .reading ∧ fetches t (.entry s.fetcher.bank s.fetcher.next))
    else if s.mode = .running ∧ i = s.fetcher.fetch ∧ s.fetcher.isHolding = true then
      (t.fetcher.state = .idle ∨ t.fetcher.state = .reading) ∧ Leaves (writeEndAreas ++ [.fetchState]) s t
        ∧ (s.inReset = false → s.busy .fetcher = false → i < s.fetcher.count →
            t.fetcher.state = .reading ∧ ∃ q ∈ t.waiting, q.xfer = .entry s.fetcher.bank i)
    else Leaves writeEndAreas s t

/-- The end of a forwarded write (R1, R5): without ERR the bytes of the enabled lanes are written and the answer is write done;
with ERR the answer is ERR and the whole word holds the next free value (the model's choice, log entries 4 and 20). No byte outside the
word changes, and without ERR none outside the enabled lanes. A snoop notice of the write is taken in the same event, whatever the
result (R10, R11); without one nothing else changes. That a bank notice withdraws a header request which an FMARK has made again in RETRY
for as long as it waits (R72) is the model's reading (log entry 25), and that a header notice keeps a SWAP's start index in RETRY its
choice (log entry 26). -/
def Obligations.HostWriteEnds : Prop :=
  ∀ (s : State) (op : HostOp) (err : Bool), s.grants .host → s.near.op = some op → op.write = true → s.memoryOk →
    ∃ t, exec (.hostTransferEnd err) s = .next t ∧ t.near.op = none
      ∧ t.near.answer = some (if err then .err else .writeDone)
      ∧ (∀ a : Nat, a < op.addr.toNat / 4 * 4 ∨ op.addr.toNat / 4 * 4 + 4 ≤ a → t.mem.read a = s.mem.read a)
      ∧ (err = false → ∀ j : Fin 4, t.mem.read (op.addr.toNat / 4 * 4 + j.val) =
          if op.lanes.getLsbD j.val then BitVec.ofNat 8 (op.data.toNat / 2 ^ (8 * j.val))
          else s.mem.read (op.addr.toNat / 4 * 4 + j.val))
      ∧ (err = true → t.mem.readWord (op.addr.toNat / 4 * 4) = Config.freeWord s.freeCount ∧ t.freeCount = s.freeCount + 1)
      ∧ (op.notice = none → s.settled → Leaves writeEndAreas s t)
      ∧ ∀ n, op.notice = some n → s.settled → NoticeTaken s t n

/-- The arbiter grants the waiting request of the lowest class, and within it the one made earliest; it leaves the others waiting (R13;
requests of one event are made together, log entry 7). At the grant of a status record's first transfer its owed mark is cleared, its
update count is raised by 1, a copy of its fields is taken, and it is remembered (R167, R168); any other grant changes nothing else. -/
def Obligations.GrantGoesToLowestClass : Prop :=
  (∀ (s : State) (first : Option ReadClient), s.grant = none → s.inReset = false → s.waiting ≠ [] → s.settled →
    ∃ t r, exec (.farPortGrant first) s = .next t ∧ r ∈ s.waiting ∧ t.grant = some ⟨r.xfer, r.letRun, false⟩
      ∧ (∀ q ∈ s.waiting, r.xfer.client.cls < q.xfer.client.cls
          ∨ (r.xfer.client.cls = q.xfer.client.cls ∧ r.madeAt ≤ q.madeAt))
      ∧ (∀ q ∈ s.waiting.erase r, q ∈ t.waiting)
      ∧ Leaves [.grant, .requests, .counts, .statusJob, .owed] s t
      ∧ ((∀ rec, r.xfer ≠ .status rec .first) → Leaves [.grant, .requests] s t))
  ∧ ∀ (s : State) (rec : RecId) (q : Request), s.grant = none → s.inReset = false → s.settled → s.waiting = [q] →
    q.xfer = .status rec .first →
    ∃ t, exec (.farPortGrant none) s = .next t ∧ t.grant = some ⟨.status rec .first, q.letRun, false⟩
      ∧ t.status.counts[rec.val] = s.status.counts[rec.val] + 1 ∧ t.status.owed[rec.val] = false
      ∧ t.status.remembered = rec
      ∧ t.status.job = some ⟨rec, s.image rec (s.status.counts[rec.val] + 1), false⟩
      ∧ (∀ r : RecId, r ≠ rec → t.status.counts[r.val] = s.status.counts[r.val]
          ∧ t.status.owed[r.val] = s.status.owed[r.val])
      ∧ Leaves [.grant, .requests, .counts, .statusJob, .owed] s t

/-! ## The command decoder -/

/-- Each command of the cue port is the full-word write of its parameter to its slot (R36); the order operand is that of the
command. -/
def Obligations.CommandIsItsSlotWrite : Prop :=
  ∀ (k : Nat) (p : Word) (order : List Recheck) (c : Instr) (s : State), commandOf k p order = some c →
    exec c s = exec (.hostWrite (BitVec.ofNat 20 (0x13000 + 4 * k)) 15 p
      (if k = 3 ∨ k = 8 ∨ k = 9 then order else [])) s

/-- A write with fewer than four lanes, and every write to slots 13 to 15, is refused with RANGE in every part mode; the record
keeps the bytes of the enabled lanes and 0 in the others (R37, R41). -/
def Obligations.PartialAndUnnamedSlotsAreRefused : Prop :=
  ∀ (s : State) (k : Fin 16) (lanes : BitVec 4) (data : Word) (order : List Recheck), s.Ready →
    (lanes ≠ 15 ∨ 13 ≤ k.val) →
    ∃ t w, exec (.hostWrite (BitVec.ofNat 20 (0x13000 + 4 * k.val)) lanes data order) s = .next t
      ∧ Refuses s t k.val .range w
      ∧ ∀ j : Fin 4, w.toNat / 2 ^ (8 * j.val) % 256 =
          if lanes.getLsbD j.val then data.toNat / 2 ^ (8 * j.val) % 256 else 0

/-- A command written in a part mode in which it is not available is refused with MODE (R39, R40). -/
def Obligations.CommandsAreRefusedByMode : Prop :=
  ∀ (s : State) (k : Nat) (p : Word) (order : List Recheck) (c : Instr), s.Ready → commandOf k p order = some c →
    s.mode ∉ modesOf k → ∃ t, exec c s = .next t ∧ Refuses s t k .mode p

/-- FIRE's three state checks, in their order; a FIRE that passes them is accepted (R44). -/
def Obligations.FireIsJudged : Prop :=
  ∀ (s : State) (p : Word) (order : List Recheck), s.Ready → s.mode = .running →
    ∃ t, exec (.fire p order) s = .next t ∧
      (if s.fetcher.fireOpen then Refuses s t 3 .busy p
       else if s.fetcher.next = s.fetcher.count then Refuses s t 3 .ending p
       else if p.toNat % 65536 ≠ 0xFFFF ∧ p.toNat % 65536 ≠ s.fetcher.next then Refuses s t 3 .expect p
       else Forwards t (slotOp 3 p))

/-- The reason for which a command is refused by its field and state checks, if any (R43, R45 to R50). -/
def Sys2Proof.refusalOf (s : State) (k : Nat) (p : Word) : Option Reason :=
  match k with
  | 4 => if s.fetcher.count < p.toNat % 65536 then some .range else none
  | 6 =>
    if h : p.toNat % 16 < 12 then
      match (s.head ⟨p.toNat % 16, h⟩).state with
      | .off | .direct | .noState => some .head
      | .adopting => some .busy
      | .rest | .moving | .restoring => none
    else some .range
  | 9 => if s.floorStop = .active then some .floor else none
  | 10 =>
    if h : p.toNat % 16 < 12 then
      match (s.head ⟨p.toNat % 16, h⟩).state with
      | .off | .direct => if s.saveWriting ⟨p.toNat % 16, h⟩ then some .busy else some .head
      | .noState => some .head
      | .adopting | .moving | .restoring => some .busy
      | .rest =>
        if s.saveWriting ⟨p.toNat % 16, h⟩ then some .busy
        else if (s.head ⟨p.toNat % 16, h⟩).levels = 0 then some .range else none
    else some .range
  | 11 => if p.toNat % 32 < 12 ∨ p.toNat % 32 = 31 then none else some .range
  | 12 =>
    if h : p.toNat % 16 < 12 then
      if p.toNat / 16 % 4 = 3 then some .range
      else
        match (s.head ⟨p.toNat % 16, h⟩).state with
        | .adopting | .moving | .restoring => some .busy
        | .rest | .off | .direct | .noState => if s.saveWriting ⟨p.toNat % 16, h⟩ then some .busy else none
    else some .range
  | _ => none

/-- Every command but FIRE, in a mode in which it is available: refused for its reason, or accepted and forwarded to its slot (R38,
R42, R43, R45 to R51). START, STOP, RESET, SWAP, HOLD and THAW are always accepted. A LEVEL END for a
head in OFF or DIRECT is refused with HEAD, but with BUSY while its EMPTY tags are still being written (R103, R112; R48's order would give
HEAD, and the choice is the model's, log entry 24). -/
def Obligations.CommandsAreJudged : Prop :=
  ∀ (s : State) (k : Nat) (p : Word) (order : List Recheck) (c : Instr), s.Ready → commandOf k p order = some c →
    k ≠ 3 → s.mode ∈ modesOf k →
    ∃ t, exec c s = .next t ∧
      match refusalOf s k p with
      | some r => Refuses s t k r p
      | none => Forwards t (slotOp k p)

/-! ## Accepted commands -/

/-- START (R19): LOADING, frame number 0, START result NONE, the fetcher on bank A with nothing fetched, the table copies invalid;
the loader asks for the record of head 0 at once, unless a read of its own is still outstanding or a write that a RESET command has let
run. That it does not wait for a granted pointer check read whose data is discarded is the model's choice (log entry 27), and that it does
not wait for home pages that a failed START has left is the model's reading (log entry 14). Fault records, last refusal and reset cause
are left. -/
def Obligations.StartBeginsLoading : Prop :=
  ∀ (s : State) (p : Word), s.Ready → s.mode = .halted →
    ∃ t, exec (.start p) s = .next t ∧ t.mode = .loading ∧ t.frame = 0 ∧ t.startResult = .nothing
      ∧ t.fetcher = ⟨.off, .a, 0, 0, 0, none, false, [], none⟩ ∧ t.tables.valid = false
      ∧ (s.busy .loader = false → s.letRunActive = false → ∃ q ∈ t.waiting, q.xfer = .table (.headLow 0))
      ∧ Forwards t (slotOp 0 p)
      ∧ Leaves [.nearPort, .partMode, .frame, .startResult, .rundown, .fetchState, .tables, .loader] s t

/-- The slot is being read by its RESTORING head (R106, R113). -/
def Sys2Proof.beingRead (s : State) (h : HeadId) (l : Level) : Bool :=
  decide ((s.head h).state = .restoring) && decide (highest (s.head h).levels = some l)

/-- The save transfer of a slot has been granted (R113). -/
def Sys2Proof.saveGranted (s : State) (h : HeadId) (l : Level) : Bool :=
  match s.grant with
  | some ⟨.save g m, false, _⟩ => decide (g = h) && decide (m.level = l)
  | _ => false

/-- The cue reference of an occupied slot that a STOP discards at once (R113): neither being read nor being saved. -/
def Sys2Proof.stopDiscards (s : State) (h : HeadId) (l : Level) : Option CueRef :=
  if beingRead s h l || saveGranted s h l then none else (s.head h).slotRef l

/-- A job that saves a slot. -/
def Sys2Proof.isSave (j : SaveJob) : Bool :=
  match j.kind with
  | .save _ => true
  | _ => false

/-- The EMPTY tag jobs of a STOP (R113): one for each slot discarded at once, in ascending head number and level. -/
def Sys2Proof.stopTags (s : State) : List SaveJob :=
  allHeads.flatMap fun h => [Level.park, .set, .live, .override].filterMap fun l =>
    (stopDiscards s h l).map fun r => ⟨.emptyTag, h, l, r, false⟩

/-- The saved moves after a STOP, of a part that drains (R113): a slot discarded at once is empty, its level has left the set, and an EMPTY
tag job stands for it behind the jobs left, while its save job and waiting save request are gone; the job of a granted save is marked to be
discarded at its end; every other slot and level stays. -/
structure Sys2Proof.SavesDiscarded (s t : State) : Prop where
  slots : ∀ h l, (t.head h).slotRef l = if (stopDiscards s h l).isSome then none else (s.head h).slotRef l
  levels : ∀ (h : HeadId) (l : Level),
    (t.head h).levels.getLsbD (l.num - 1) = ((s.head h).levels.getLsbD (l.num - 1) && (stopDiscards s h l).isNone)
  jobs : t.saver = ((s.saver.filter fun j => !(isSave j && (stopDiscards s j.head j.level).isSome)).map fun j =>
      if isSave j && saveGranted s j.head j.level && !beingRead s j.head j.level && ((s.head j.head).slotRef j.level).isSome then
        { j with discard := true }
      else j)
    ++ stopTags s
  requests : (∀ j ∈ s.saver, ∀ m, j.kind = .save m → m.level = j.level) →
    ∀ q ∈ t.waiting, q.letRun = false → ∀ h m, q.xfer = .save h m → stopDiscards s h m.level = none
  buffers : ∀ h, (t.head h).saveBuffer = (s.head h).saveBuffer

/-- STOP (R31, R32, R73, R86, R113, R144): every cue is flushed, its CUE claim withdrawn, and the fetcher is OFF with its pointers kept; a
MOVING head keeps its move and the part drains. While it drains, only a slot being read or written stays occupied: any other is discarded
at once, its level leaves the set and its EMPTY tag is written. RESTORE claims, pending restored moves and held zones stay. A part with
nothing to drain is HALTED at once: the table copies are invalid, the heads have no state, every zone is FREE; START result, frame
number, fault records, tally and floor-stop state stay. -/
def Obligations.StopDrains : Prop :=
  ∀ (s : State) (p : Word), s.Ready → s.mode = .running →
    ∃ t, exec (.stop p) s = .next t ∧ Forwards t (slotOp 1 p)
      ∧ (t.mode = .draining ∨ t.mode = .halted)
      ∧ (∀ h, (t.head h).noCue) ∧ t.fetcher.state = .off
      ∧ t.fetcher.count = s.fetcher.count ∧ t.fetcher.fetch = s.fetcher.fetch ∧ t.fetcher.next = s.fetcher.next
      ∧ t.fetcher.on = s.fetcher.on ∧ t.fetcher.bank = s.fetcher.bank ∧ t.fetcher.fireOpen = s.fetcher.fireOpen
      ∧ ((∃ h, (s.head h).state = .moving) → t.mode = .draining)
      ∧ ((∀ h, (s.head h).state ≠ .moving ∧ (s.head h).state ≠ .restoring ∧ ∀ l, (s.head h).slotRef l = none) →
          s.saver = [] → s.pageJobs = [] → s.busy .pageWriter = false → t.mode = .halted)
      ∧ (t.mode = .halted → t.tables.valid = false
          ∧ (∀ h, (t.head h).state = .noState ∧ (t.head h).levels = 0 ∧ (t.head h).move = none
              ∧ (t.head h).pose = ⟨0, 0, 0, 0, 0, 0, 0⟩ ∧ (t.head h).onAir = (s.head h).onAir)
          ∧ (∀ z : Fin 32, t.zoneTable[z.val] = none) ∧ t.claims = []
          ∧ Leaves ([.nearPort, .partMode, .tables, .rundown, .fetchState, .requests, .grant, .stager, .adopter, .claims, .zones,
              .saver, .due] ++ allHeads.flatMap fun h =>
                [.cues h, .levels h, .move h, .pose h, .pointer h, .freeze h]) s t)
      ∧ (t.mode = .draining → SavesDiscarded s t
          ∧ (∀ h, (t.head h).move = (s.head h).move ∧ (t.head h).state = (s.head h).state)
          ∧ (∀ h, (s.head h).candidate ≠ none → t.claimOf h .cue = none)
          ∧ (t.claims.filter fun c => decide (c.kind = .restore)) = (s.claims.filter fun c => decide (c.kind = .restore))
          ∧ (∀ z : Fin 32, t.zoneTable[z.val] = s.zoneTable[z.val])
          ∧ Leaves ([.nearPort, .partMode, .rundown, .fetchState, .requests, .grant, .stager, .claims, .saver] ++ allCues
            ++ allHeads.map Area.levels) s t)

/-- The state of a part that a reset has just given its reset values (R34, R35, R74, R77, R115, R138, R140, R153, R170). -/
structure Sys2Proof.ResetValues (t : State) (cause : ResetCause) : Prop where
  mode : t.mode = .halted
  cause : t.cause = cause
  startResult : t.startResult = .nothing
  frame : t.frame = 0
  tables : t.tables.valid = false
  lastRefusal : t.lastRefusal = none
  fetcher : t.fetcher = ⟨.off, .a, 0, 0, 0, none, false, [], none⟩
  heads : ∀ h : HeadId, (t.head h).state = .noState ∧ (t.head h).noCue ∧ (t.head h).gate = none ∧ (t.head h).levels = 0
    ∧ (∀ l, (t.head h).slotRef l = none) ∧ (t.head h).saveBuffer = none ∧ (t.head h).move = none
    ∧ (t.head h).lastK = 0 ∧ (t.head h).lastD = 0 ∧ (t.head h).pose = ⟨0, 0, 0, 0, 0, 0, 0⟩
    ∧ (t.head h).pointer = .unknown ∧ (t.head h).freeze = ⟨false, false, false⟩
    ∧ (t.head h).onAir = t.pins.tally.getLsbD h.val
  stager : t.stager = ⟨[], none⟩
  adopter : t.adopter = ⟨[], none⟩
  saver : t.saver = []
  pageJobs : t.pageJobs = []
  zones : ∀ z : Fin 32, t.zoneTable[z.val] = none
  claims : t.claims = []
  floorStop : t.floorStop = if t.pins.floor then .active else .clear
  counts : ∀ r : RecId, t.status.counts[r.val] = 0 ∧ t.status.owed[r.val] = true
  remembered : t.status.remembered = 12
  faults : t.status.partFault = none ∧ (∀ h : HeadId, t.status.headFaults[h.val] = none) ∧ t.status.attn = false

/-- RESET (R51, R52): every block takes its reset values with the cause COMMAND; the memory, the lines and the host's own
operation are left; of the part's requests only the status writer's and completing writes still wait. -/
def Obligations.ResetCommandTakesEffect : Prop :=
  ∀ (s : State) (p : Word), s.near.op = none → s.near.held = none → s.inReset = false →
    ∃ t, exec (.reset p) s = .next t ∧ ResetValues t .command ∧ Forwards t (slotOp 2 p)
      ∧ t.pins = s.pins ∧ (∀ a : Nat, t.mem.read a = s.mem.read a)
      ∧ (∀ q ∈ t.waiting, q.letRun = true ∨ q.xfer = .host ∨ q.xfer = .status 0 .first)
      ∧ (∀ g, s.grant = some g → ∃ g', t.grant = some g' ∧ g'.xfer = g.xfer)
      ∧ (∀ g, t.grant = some g → g.xfer = .host ∨ g.discard = true ∨ g.letRun = true)

/-- A queued cue after a release up to NEXT (R57): released if its index is below NEXT, and then an OFFSET cue's countdown takes the
value of its offset (R93). -/
def Sys2Proof.releasedCue (next : Nat) (q : Cue) : Cue :=
  match q.origin, q.released with
  | .rundown _ i, false =>
    if i < next then
      { q with released := true, countdown := match q.kind with
          | .offset n => some n
          | .step => q.countdown
          | .chain => q.countdown }
    else q
  | .rundown _ _, true => q
  | .direct, _ => q

/-- FIRE (R65): ON takes NEXT; NEXT takes the place behind the lowest step end, which leaves the list, or FETCH, and FIRE_OPEN is
then set if FETCH is below the count. Every queued cue that NEXT has moved past is released, with its offset countdown, and the others
are as they were; a head that held a newly released cue examines its candidate (R57), and only cues at the front of a queue may have
left it. -/
def Obligations.FireReleases : Prop :=
  ∀ (s : State) (p : Word) (order : List Recheck), s.Ready → s.mode = .running → s.fetcher.fireOpen = false →
    s.fetcher.next ≠ s.fetcher.count → (p.toNat % 65536 = 0xFFFF ∨ p.toNat % 65536 = s.fetcher.next) →
    ∃ t, exec (.fire p order) s = .next t ∧ t.fetcher.on = some s.fetcher.next
      ∧ (match s.fetcher.stepEnds with
          | e :: rest => t.fetcher.next = e + 1 ∧ t.fetcher.stepEnds = rest ∧ t.fetcher.fireOpen = false
          | [] => t.fetcher.next = s.fetcher.fetch ∧ t.fetcher.stepEnds = []
              ∧ t.fetcher.fireOpen = decide (s.fetcher.fetch < s.fetcher.count))
      ∧ t.fetcher.bank = s.fetcher.bank ∧ t.fetcher.count = s.fetcher.count ∧ t.fetcher.fetch = s.fetcher.fetch
      ∧ t.fetcher.startIndex = s.fetcher.startIndex
      ∧ (∀ h : HeadId, (t.head h).queue <:+ (s.head h).queue.map (releasedCue t.fetcher.next)
          ∧ (if (s.head h).queue.map (releasedCue t.fetcher.next) = (s.head h).queue then (t.head h).queue = (s.head h).queue
             else Examined t h))
      ∧ Leaves ([.nearPort, .rundown] ++ allExams) s t

/-- The fetch in progress is abandoned (R14): a granted read of the fetcher is discarded, and no request of it waits but the next one,
if that is asked for (no request of the fetcher is ever let run by RESET). -/
structure Sys2Proof.FetchAbandoned (t : State) (next : Option Xfer) : Prop where
  granted : ∀ g, t.grant = some g → g.xfer.client = .fetcher → g.discard = true
  waiting : ∀ q ∈ t.waiting, q.xfer.client = .fetcher → q.letRun = false → some q.xfer = next

/-- CUT to index j (R67): every queue is flushed, FETCH and NEXT are j, ON is none, FIRE_OPEN is clear, the step-end list is empty and a
SWAP's start index given up (in header RETRY by the model's reading, log entry 11); an outstanding header read goes on, any other fetch
is abandoned and entry j is read. A header request that an FMARK has made again in RETRY is withdrawn (R72) for as long as it waits, and
goes on once it is granted (the model's reading, log entry 25). Direct slots, move records, level sets and saved moves are not touched. -/
def Obligations.CutFlushesAndSetsPointers : Prop :=
  ∀ (s : State) (p : Word), s.Ready → s.mode = .running → p.toNat % 65536 ≤ s.fetcher.count →
    ∃ t, exec (.cut p) s = .next t ∧ Forwards t (slotOp 4 p)
      ∧ t.fetcher.fetch = p.toNat % 65536 ∧ t.fetcher.next = p.toNat % 65536 ∧ t.fetcher.on = none
      ∧ t.fetcher.fireOpen = false ∧ t.fetcher.stepEnds = [] ∧ t.fetcher.startIndex = none
      ∧ t.fetcher.bank = s.fetcher.bank ∧ t.fetcher.count = s.fetcher.count
      ∧ (∀ h, (t.head h).queue = [] ∧ (t.head h).direct = (s.head h).direct)
      ∧ (∀ h, ∀ q ∈ (s.head h).queue, q.key h ∉ t.stager.current.toList ++ t.stager.list)
      ∧ (headerStands s → headerKept s t ∧ (s.granted .fetcher = true → t.grant = s.grant))
      ∧ (¬ headerStands s →
          (p.toNat % 65536 < s.fetcher.count → FetchAbandoned t (some (.entry s.fetcher.bank (p.toNat % 65536)))
            ∧ (s.granted .fetcher = false → (∀ q ∈ s.waiting, q.letRun = false) →
                t.fetcher.state = .reading ∧ fetches t (.entry s.fetcher.bank (p.toNat % 65536))))
          ∧ (p.toNat % 65536 = s.fetcher.count → t.fetcher.state = .idle ∧ FetchAbandoned t none))
      ∧ Leaves ([.nearPort, .rundown, .fetchState, .requests, .grant, .stager, .claims] ++ allCues) s t

/-- SWAP with start index i (R68): the other bank becomes active, every queue is flushed, count, FETCH and NEXT are 0, ON is none,
FIRE_OPEN clear, the step-end list empty; i is remembered, the fetch in progress is abandoned and the new bank's header is
read. -/
def Obligations.SwapChangesBank : Prop :=
  ∀ (s : State) (p : Word), s.Ready → s.mode = .running →
    ∃ t, exec (.swap p) s = .next t ∧ Forwards t (slotOp 5 p)
      ∧ t.fetcher = ⟨.header, (if s.fetcher.bank = .a then .b else .a), 0, 0, 0, none, false, [],
          some (p.toNat % 65536)⟩
      ∧ (∀ h, (t.head h).queue = [] ∧ (t.head h).direct = (s.head h).direct)
      ∧ (∀ h, ∀ q ∈ (s.head h).queue, q.key h ∉ t.stager.current.toList ++ t.stager.list)
      ∧ FetchAbandoned t (some (.header (if s.fetcher.bank = .a then .b else .a)))
      ∧ (s.granted .fetcher = false → (∀ q ∈ s.waiting, q.letRun = false) →
          fetches t (.header (if s.fetcher.bank = .a then .b else .a)))
      ∧ Leaves ([.nearPort, .rundown, .fetchState, .requests, .grant, .stager, .claims] ++ allCues) s t

/-- MOVE (R85, R90): a direct cue with the fields given, released and in STAGING, takes the slot and the tail of the stager's list;
an unstarted direct cue is replaced. It becomes the candidate and waits at STAGING; the claim of the cue it displaces is
withdrawn. -/
def Obligations.MovePlacesDirectCue : Prop :=
  ∀ (s : State) (p : Word) (h : HeadId), s.Ready → s.mode = .running → p.toNat % 16 = h.val →
    ((s.head h).state = .rest ∨ (s.head h).state = .moving ∨ (s.head h).state = .restoring) →
    ∃ t, exec (.move p) s = .next t ∧ Forwards t (slotOp 6 p)
      ∧ (t.head h).direct = some
          { origin := .direct, shot := BitVec.ofNat 8 (p.toNat / 2 ^ 10), level := Level.ofNum (p.toNat / 16 % 4 + 1),
            curve := BitVec.ofNat 4 (p.toNat / 2 ^ 6), dur := p.toNat / 2 ^ 18, kind := .step, stepEnd := false,
            stage := .staging, released := true, countdown := none }
      ∧ (t.head h).queue = (s.head h).queue ∧ (t.head h).gate = some .staging
      ∧ t.stager.current.toList ++ t.stager.list =
          (if (s.head h).direct = none then s.stager.current.toList ++ s.stager.list
           else (s.stager.current.toList ++ s.stager.list).filter fun k => decide (k ≠ ⟨h, none⟩)) ++ [⟨h, none⟩]
      ∧ t.claims = (s.claims.filter fun c => !(decide (c.head = h) && decide (c.kind = .cue)))
      ∧ Leaves [.nearPort, .cues h, .claims, .stager, .requests, .grant] s t
      ∧ ((s.head h).direct = none → Leaves [.nearPort, .cues h, .claims, .stager] s t)

/-- HOLD (R158): HOLD joins the freeze-reason set of each head of the set, FLOOR and AIR stay; a head newly held has no CUE claim
and no claim of a pending move left. Moves, level sets, queues, direct slots, zones and saved moves are as they were. -/
def Obligations.HoldFreezes : Prop :=
  ∀ (s : State) (p : Word), s.Ready → (s.mode = .running ∨ s.mode = .draining) →
    ∃ t, exec (.hold p) s = .next t ∧ Forwards t (slotOp 7 p)
      ∧ (∀ h : HeadId, (t.head h).freeze =
          if p.getLsbD h.val then ⟨true, (s.head h).freeze.floor, (s.head h).freeze.air⟩ else (s.head h).freeze)
      ∧ (∀ h : HeadId, (t.head h).queue = (s.head h).queue ∧ (t.head h).direct = (s.head h).direct)
      ∧ (∀ h : HeadId, p.getLsbD h.val = true → (s.head h).freeze.hold = false → t.claimOf h .cue = none
          ∧ ((s.head h).move.any MoveRec.pending = true → t.claimOf h .restore = none))
      ∧ Leaves ([.nearPort, .claims] ++ (allHeads.filter fun h => p.getLsbD h.val).flatMap fun h => [.freeze h, .cues h]) s t

/-- THAW (R159): HOLD leaves the freeze-reason set of each head of the set, FLOOR and AIR stay. A head whose set it empties examines
its candidate, so that its first failing gate is recorded anew, and a pending restored move of it whose tests pass starts. The lines,
the memory and the pointers are left. In DRAINING a loss that THAW brings about may halt the part, at the end
of the event (the model's reading, log entry 16). -/
def Obligations.ThawRemovesHold : Prop :=
  ∀ (s : State) (p : Word) (order : List Recheck), s.Ready → (s.mode = .running ∨ s.mode = .draining) →
    ∃ t, exec (.thaw p order) s = .next t ∧ Forwards t (slotOp 8 p)
      ∧ (t.mode = s.mode ∨ (s.mode = .draining ∧ t.mode = .halted)) ∧ Leaves (.nearPort :: haltAreas) s t
      ∧ (t.mode = s.mode →
          (∀ h : HeadId, (t.head h).freeze =
            if p.getLsbD h.val then ⟨false, (s.head h).freeze.floor, (s.head h).freeze.air⟩ else (s.head h).freeze)
          ∧ (∀ h : HeadId, p.getLsbD h.val = true → (s.head h).freeze = ⟨true, false, false⟩ →
              Examined t h
              ∧ ∀ m, PendingReady s h m → (∀ g : HeadId, p.getLsbD g.val = true → g = h) →
                  ((s.head h).onAir = false ∨ (s.levelRec m.level).mayStartOnAir = true) → PendingStarted s t h m)
          ∧ Leaves (.nearPort :: (allHeads.filter fun h => p.getLsbD h.val && (s.head h).freeze.hold).flatMap fun h =>
              .freeze h :: if (s.head h).freeze.floor || (s.head h).freeze.air then [] else examAreas h) s t)

/-- The floor-stop state (R160): an assertion of FLOOR makes it ACTIVE, a release makes ACTIVE LATCHED, an accepted RESUME makes
LATCHED CLEAR and leaves CLEAR, and RESUME is refused with FLOOR in ACTIVE. -/
def Obligations.FloorStopFollowsItsTable : Prop :=
  (∀ s : State, s.pins.floor = false →
      ∃ t, exec .floorAsserted s = .next t ∧ t.floorStop = .active ∧ t.pins = { s.pins with floor := true })
  ∧ (∀ s : State, s.pins.floor = true →
      ∃ t, exec .floorReleased s = .next t ∧ t.pins = { s.pins with floor := false }
        ∧ (s.settled → Leaves [.lines, .floorStop] s t)
        ∧ t.floorStop = if s.floorStop = .active then .latched else s.floorStop)
  ∧ (∀ (s : State) (p : Word) (order : List Recheck), s.Ready → (s.mode = .running ∨ s.mode = .draining) →
      ∃ t, exec (.resume p order) s = .next t ∧
        (match s.floorStop with
          | .active => t.floorStop = .active ∧ Refuses s t 9 .floor p
          | .latched => t.floorStop = .clear ∧ Forwards t (slotOp 9 p)
          | .clear => t.floorStop = .clear ∧ Forwards t (slotOp 9 p)))

/-- RESUME in LATCHED (R161): FLOOR leaves every head, HOLD and AIR stay; a head whose set it empties examines its candidate, and a
pending restored move of it whose tests pass starts; in CLEAR it has no effect (R43). In DRAINING a loss that it brings about may halt
the part, at the end of the event (the model's reading, log entry 16). -/
def Obligations.ResumeRemovesFloor : Prop :=
  ∀ (s : State) (p : Word) (order : List Recheck), s.Ready → (s.mode = .running ∨ s.mode = .draining) →
    s.floorStop ≠ .active →
    ∃ t, exec (.resume p order) s = .next t ∧ Forwards t (slotOp 9 p)
      ∧ (s.floorStop = .clear → Leaves [.nearPort] s t)
      ∧ (s.floorStop = .latched → (t.mode = s.mode ∨ (s.mode = .draining ∧ t.mode = .halted))
          ∧ Leaves ([.nearPort, .floorStop] ++ haltAreas) s t
          ∧ (t.mode = s.mode →
            (∀ h : HeadId, (t.head h).freeze = ⟨(s.head h).freeze.hold, false, (s.head h).freeze.air⟩)
            ∧ (∀ h : HeadId, (s.head h).freeze = ⟨false, true, false⟩ →
                Examined t h
                ∧ ∀ m, PendingReady s h m → (∀ g : HeadId, (s.head g).freeze.floor = true → g = h) →
                    ((s.head h).onAir = false ∨ (s.levelRec m.level).mayStartOnAir = true) → PendingStarted s t h m)
            ∧ Leaves ([.nearPort, .floorStop] ++ (allHeads.filter fun h => (s.head h).freeze.floor).flatMap fun h =>
                .freeze h :: if (s.head h).freeze.hold || (s.head h).freeze.air then [] else examAreas h) s t))

/-- LEVEL END (R106): the highest member leaves the level set. With an occupied slot at the new highest member the head is RESTORING
and a restore job for that slot is placed; otherwise it stays in REST, unless its candidate starts. Its candidate, if any, is examined,
so that its first failing gate is recorded anew; one that fails a gate of STAGING to SAVE once the level has left stays in its place, and
slots, saver and move stay. What a candidate that passes does is StagedCandidateStarts. -/
def Obligations.LevelEndRevealsTheNextLevel : Prop :=
  ∀ (s : State) (p : Word) (h : HeadId) (l : Level), s.Ready → s.mode = .running → p.toNat % 16 = h.val →
    (s.head h).state = .rest → s.saveWriting h = false → highest (s.head h).levels = some l →
    ∃ t, exec (.levelEnd p) s = .next t ∧ Forwards t (slotOp 10 p) ∧ Leaves (.nearPort :: examAreas h) s t
      ∧ Examined t h
      ∧ (∀ l' r, highest (levelDrop (s.head h).levels l) = some l' → (s.head h).slotRef l' = some r →
          (t.head h).state = .restoring ∧ (t.head h).levels = levelDrop (s.head h).levels l
          ∧ t.saver = s.saver ++ [⟨.restore, h, l', r, false⟩] ∧ (t.head h).slots = (s.head h).slots
          ∧ (t.head h).queue = (s.head h).queue ∧ (t.head h).direct = (s.head h).direct
          ∧ (t.head h).move = (s.head h).move)
      ∧ ((s.setHead h fun hd => { hd with levels := levelDrop hd.levels l }).Held h →
          (∀ l', highest (levelDrop (s.head h).levels l) = some l' → (s.head h).slotRef l' = none) →
          (t.head h).state = .rest ∧ (t.head h).levels = levelDrop (s.head h).levels l
          ∧ t.saver = s.saver ∧ (t.head h).slots = (s.head h).slots ∧ (t.head h).move = (s.head h).move
          ∧ (t.head h).queue = (s.head h).queue ∧ (t.head h).direct = (s.head h).direct
          ∧ Leaves [.nearPort, .cues h, .levels h, .claims] s t)

/-- CLEAR FAULT (R174): the named record is emptied whole and becomes owed, and ATTN stays asserted only for another occupied
record; an empty record changes nothing and makes nothing owed. -/
def Obligations.ClearFaultEmptiesTheRecord : Prop :=
  (∀ (s : State) (p : Word) (h : HeadId), s.Ready → p.toNat % 32 = h.val →
    ∃ t, exec (.clearFault p) s = .next t ∧ Forwards t (slotOp 11 p) ∧ t.status.headFaults[h.val] = none
      ∧ (s.status.headFaults[h.val] = none → t.status.owed = s.status.owed ∧ Leaves [.nearPort] s t)
      ∧ (s.status.headFaults[h.val] ≠ none → t.status.owed[h.val + 1] = true
          ∧ (t.status.attn = true ↔ t.status.partFault ≠ none ∨ ∃ g : HeadId, t.status.headFaults[g.val] ≠ none)
          ∧ Leaves [.nearPort, .headFault h, .attn] s t))
  ∧ (∀ (s : State) (p : Word), s.Ready → p.toNat % 32 = 31 →
    ∃ t, exec (.clearFault p) s = .next t ∧ Forwards t (slotOp 11 p) ∧ t.status.partFault = none
      ∧ (s.status.partFault = none → t.status.owed = s.status.owed ∧ Leaves [.nearPort] s t)
      ∧ (s.status.partFault ≠ none → t.status.owed[0] = true
          ∧ (t.status.attn = true ↔ ∃ g : HeadId, t.status.headFaults[g.val] ≠ none)
          ∧ Leaves [.nearPort, .partFault, .attn] s t))

/-- MODE (R78, R79, R80, R112, R137). From REST to DIRECT or OFF: the cues are flushed, each occupied slot is cleared with an
empty tag job in ascending level, the level set is emptied, HOLD is removed, the pointer copy is UNKNOWN, and the head takes the
state; zones, pose, FLOOR and AIR are kept. Between OFF and DIRECT only the state changes and HOLD is removed. To MANAGED the
head is ADOPTING without HOLD and joins the adoption client's list, which begins its pointer read when it is free. The present
mode has no effect. -/
def Obligations.ModeChangesHeadMode : Prop :=
  (∀ (s : State) (p : Word) (h : HeadId), s.Ready → s.mode = .running → p.toNat % 16 = h.val →
    s.saveWriting h = false → (s.head h).state = .rest → p.toNat / 16 % 4 ≠ 3 →
    ∃ t, exec (.mode p) s = .next t ∧ Forwards t (slotOp 12 p)
      ∧ (p.toNat / 16 % 4 = 0 → Leaves [.nearPort] s t)
      ∧ (p.toNat / 16 % 4 ≠ 0 →
          (t.head h).state = (if p.toNat / 16 % 4 = 1 then .direct else .off) ∧ (t.head h).noCue
          ∧ (t.head h).levels = 0 ∧ (∀ l, (t.head h).slotRef l = none) ∧ (t.head h).pointer = .unknown
          ∧ (t.head h).freeze = ⟨false, (s.head h).freeze.floor, (s.head h).freeze.air⟩
          ∧ (t.head h).move = (s.head h).move
          ∧ t.saver = s.saver ++ ([Level.park, .set, .live, .override].filterMap fun l =>
              ((s.head h).slotRef l).map fun r => (⟨.emptyTag, h, l, r, false⟩ : SaveJob))
          ∧ Leaves [.nearPort, .cues h, .levels h, .move h, .pointer h, .freeze h, .claims, .saver, .stager, .requests,
              .grant] s t))
  ∧ ∀ (s : State) (p : Word) (h : HeadId), s.Ready → s.mode = .running → p.toNat % 16 = h.val →
    s.saveWriting h = false → ((s.head h).state = .off ∨ (s.head h).state = .direct) → p.toNat / 16 % 4 ≠ 3 →
    ∃ t, exec (.mode p) s = .next t ∧ Forwards t (slotOp 12 p)
      ∧ (p.toNat / 16 % 4 = 0 → (t.head h).state = .adopting
          ∧ (t.head h).freeze = ⟨false, (s.head h).freeze.floor, (s.head h).freeze.air⟩
          ∧ t.adopter.list = s.adopter.list ++ [h] ∧ t.adopter.page = s.adopter.page
          ∧ (t.head h).move = (s.head h).move
          ∧ (s.adopter = ⟨[], none⟩ → s.busy .adopter = false → ∃ q ∈ t.waiting, q.xfer = .adoptPointer h)
          ∧ Leaves [.nearPort, .move h, .freeze h, .adopter] s t)
      ∧ (p.toNat / 16 % 4 = (if (s.head h).state = .direct then 1 else 2) → Leaves [.nearPort] s t)
      ∧ (p.toNat / 16 % 4 = (if (s.head h).state = .direct then 2 else 1) →
          (t.head h).state = (if (s.head h).state = .direct then .off else .direct)
          ∧ (t.head h).freeze = ⟨false, (s.head h).freeze.floor, (s.head h).freeze.air⟩
          ∧ (t.head h).queue = (s.head h).queue ∧ (t.head h).direct = (s.head h).direct
          ∧ (t.head h).move = (s.head h).move
          ∧ Leaves [.nearPort, .cues h, .move h, .freeze h, .claims] s t)

/-! ## Frames -/

/-- A claim with its patience count lowered by 1 (R147). -/
def Sys2Proof.fallen (c : Claim) : Claim := { c with count := c.count - 1 }

/-- The claims of a head whose patience count reaches 0 at this FMARK (R147). -/
def Sys2Proof.losing (s : State) (h : HeadId) : List Claim :=
  s.claims.filter fun c => decide (c.head = h) && decide (c.count ≤ 1)

/-- The candidate has left its slot, or its queue if the slot was empty, and the next cue waits at STAGING or FIRE (R83, R90, R92). -/
structure Sys2Proof.CueGone (u t : State) (h : HeadId) : Prop where
  direct : (t.head h).direct = none
  queue : (t.head h).queue = if (u.head h).direct = none then (u.head h).queue.tail else (u.head h).queue
  gate : (t.head h).gate = (t.head h).queue.head?.map fun q => if q.copy = none then .staging else .fire

/-- The cues of a head in the order in which they become the candidate (R90). -/
def Sys2Proof.cuesInOrder (hd : Head) : List Cue := hd.direct.toList ++ hd.queue

/-- A cue that waits at STAGING or FIRE as soon as it is the candidate (R92). -/
def Sys2Proof.early (q : Cue) : Prop := q.copy = none ∨ q.released = false

/-- A head has lost the claim of its candidate, its only claim to reach 0 (R147): ZONE_TIMEOUT is raised with the cue reference, and the cue
has left its slot or queue. Where the cue behind it waits at STAGING or FIRE, nothing else of the head has changed: its move and levels
stay, and so does a RESTORE claim of it. -/
structure Sys2Proof.CueTimedOut (s t : State) (h : HeadId) (q : Cue) : Prop where
  raised : Raised s t h .zoneTimeout (some q.ref) s.frame
  cues : (t.head h).direct = none
    ∧ (t.head h).queue <:+ if (s.head h).direct = none then (s.head h).queue.tail else (s.head h).queue
  rest : (∀ q', (cuesInOrder (s.head h))[1]? = some q' → early q') →
    CueGone s t h ∧ Filed s t h .zoneTimeout (some q.ref) s.frame
    ∧ (t.head h).state = (s.head h).state ∧ (t.head h).move = (s.head h).move ∧ (t.head h).levels = (s.head h).levels
    ∧ (t.head h).slots = (s.head h).slots
    ∧ (∀ i ∈ t.claims, i.head = h → ∃ c ∈ s.claims, 1 < c.count ∧ i = fallen c)
    ∧ ∀ c ∈ s.claims, c.head = h → c.kind = .restore → 1 < c.count → fallen c ∈ t.claims

/-- A head has lost the claim of its pending restored move, its only claim to reach 0 (R110, R147): ZONE_TIMEOUT is raised with the saved
reference. Where its candidate, if any, waits at STAGING or FIRE, the move is gone, its level has left the set, the cues stay, and the next
level down is restored if its slot is occupied; else the head is in REST. -/
structure Sys2Proof.MoveTimedOut (s t : State) (h : HeadId) (m : MoveRec) : Prop where
  raised : Raised s t h .zoneTimeout (some m.ref) s.frame
  rest : (∀ q, (s.head h).candidate = some q → early q) →
    Filed s t h .zoneTimeout (some m.ref) s.frame ∧ (t.head h).move = none
    ∧ (t.head h).levels = levelDrop (s.head h).levels m.level ∧ (t.head h).slots = (s.head h).slots
    ∧ (t.head h).queue = (s.head h).queue ∧ (t.head h).direct = (s.head h).direct
    ∧ (∀ i ∈ t.claims, i.head = h → ∃ c ∈ s.claims, 1 < c.count ∧ i = fallen c)
    ∧ (∀ l r, highest (levelDrop (s.head h).levels m.level) = some l → (s.head h).slotRef l = some r →
        (t.head h).state = .restoring ∧ (⟨.restore, h, l, r, false⟩ : SaveJob) ∈ t.saver)
    ∧ ((∀ l, highest (levelDrop (s.head h).levels m.level) = some l → (s.head h).slotRef l = none) → (t.head h).state = .rest)

/-- The head unit takes this FMARK at once and counts (R93): in RUNNING, with no freeze reason, and not left for a step of its own. -/
def Sys2Proof.counts (s : State) (later : List FmarkBlock) (h : HeadId) : Prop :=
  s.mode = .running ∧ (s.head h).freeze.any = false ∧ .headUnit h ∉ later

/-- The countdown of the head's candidate reaches 0 at this FMARK (R93). -/
def Sys2Proof.expiring (s : State) (later : List FmarkBlock) (h : HeadId) : Prop :=
  counts s later h ∧ (s.head h).candidate.any Cue.expires = true

/-- The queue of a head at this FMARK (R93): counted down if its head unit counts, else as it was. -/
structure Sys2Proof.MarkedQueue (s : State) (later : List FmarkBlock) (h : HeadId) (q : List Cue) : Prop where
  counted : counts s later h → q = (s.head h).queue.map Cue.countDown
  left : ¬ counts s later h → q = (s.head h).queue

/-- The blocks have taken an FMARK that no block owed before (R93, R147), but for the head units and the zone arbiter that are left for a
step of their own, which now owe it (log entry 6). The countdowns fall, and a candidate whose countdown reaches 0 is examined, and stays if
it fails a gate of STAGING to SAVE; every patience count falls, and a claim that reaches 0 is lost as in PatienceCountsFall, with the new
frame number. A head with neither keeps its cues, its gate and its claims' places. Only cues at the front of a queue may have left it. -/
structure Sys2Proof.FmarkTaken (s t : State) (later : List FmarkBlock) : Prop where
  due : ∀ b, b ∈ t.due ↔ b ∈ later ∧ (b = .zoneArbiter ∨ ∃ h, b = .headUnit h)
  queues : ∀ h q, MarkedQueue s later h q → (t.head h).queue <:+ q
    ∧ (¬ expiring s later h → (.zoneArbiter ∈ later ∨ losing s h = []) →
        (t.head h).queue = q ∧ (t.head h).direct = (s.head h).direct ∧ (t.head h).gate = (s.head h).gate)
  held : ∀ h, expiring s later h → (.zoneArbiter ∈ later ∨ losing s h = []) →
    (s.setHead h fun hd => { hd with queue := hd.queue.map Cue.countDown }).Held h →
    (t.head h).queue = (s.head h).queue.map Cue.countDown ∧ (t.head h).direct = (s.head h).direct
  claims : ∀ h, ¬ expiring s later h →
    (.zoneArbiter ∈ later → (t.claims.filter fun c => decide (c.head = h)) = s.claims.filter fun c => decide (c.head = h))
    ∧ (.zoneArbiter ∉ later → losing s h = [] →
        (t.claims.filter fun c => decide (c.head = h)) = (s.claims.filter fun c => decide (c.head = h)).map fallen)
  unmarked : (∀ h, ¬ expiring s later h) → (.zoneArbiter ∈ later → t.claims = s.claims)
    ∧ (.zoneArbiter ∉ later → (∀ c ∈ s.claims, 1 < c.count) → t.claims = s.claims.map fallen)
  examined : ∀ h, (expiring s later h ∨ (.zoneArbiter ∉ later ∧ losing s h ≠ [])) → Examined t h
  cue : ∀ h c q q', ¬ expiring s later h → .zoneArbiter ∉ later → losing s h = [c] → c.kind = .cue →
    (s.head h).state ≠ .moving → (s.head h).candidate = some q → MarkedQueue s later h q' →
    Raised s t h .zoneTimeout (some q.ref) (s.frame + 1) ∧ (t.head h).direct = none
      ∧ (t.head h).queue <:+ if (s.head h).direct = none then q'.tail else q'
  restore : ∀ h c m, .zoneArbiter ∉ later → losing s h = [c] → c.kind = .restore → (s.head h).state = .moving →
    (s.head h).move = some m → m.pending = true → (s.head h).noCue → MoveTimedOut { s with frame := s.frame + 1 } t h m

/-- An FMARK in RUNNING or DRAINING raises the frame number by 1, FFFFFFFFh to 0, and makes the part record owed (R166); in HALTED and
LOADING it changes nothing (R33). It leaves the near port, the lines and the memory. The head units and the zone arbiter take it in the
same step, but for those that `later` names, which owe it (the model's choice, log entry 6). In RUNNING a fetcher in RETRY makes its failed
entry or header request again (R64); in any other state it at most goes on to its next read. In DRAINING a loss may halt the part (log
entry 16). -/
def Obligations.FmarkRaisesTheFrameNumber : Prop :=
  ∀ (s : State) (order later : List FmarkBlock) (losses : List Recheck),
    ((s.mode = .halted ∨ s.mode = .loading) → exec (.fmark order later losses) s = .next s)
    ∧ ((s.mode = .running ∨ s.mode = .draining) → (s.due = [] ∨ s.mode = .running) →
        ∃ t, exec (.fmark order later losses) s = .next t ∧ t.frame = s.frame + 1 ∧ t.status.owed[0] = true
          ∧ (s.due = [] → s.settled → (t.mode = s.mode ∨ (s.mode = .draining ∧ t.mode = .halted))
              ∧ (t.mode = s.mode → FmarkTaken s t later))
          ∧ (s.mode = .running → s.fetcher.state = .retryEntry → t.fetcher.state = .reading
              ∧ (s.busy .fetcher = false → s.inReset = false → ∃ q ∈ t.waiting, q.xfer = .entry s.fetcher.bank s.fetcher.fetch))
          ∧ (s.mode = .running → s.fetcher.state = .retryHeader → t.fetcher.state = .headerRetried
              ∧ (s.busy .fetcher = false → s.inReset = false → ∃ q ∈ t.waiting, q.xfer = .header s.fetcher.bank))
          ∧ (s.mode = .draining ∨ (s.fetcher.state ≠ .retryEntry ∧ s.fetcher.state ≠ .retryHeader) → sameArea s t .fetchState)
          ∧ Leaves ([.partMode, .tables, .requests, .grant, .fetchState, .adopter, .saver, .pageJobs, .frame, .zones, .claims,
              .attn, .due] ++ allHeads.flatMap fun h =>
                [.cues h, .levels h, .move h, .pose h, .pointer h, .freeze h, .headFault h]) s t)

/-- A MOVING head at an FMARK (R124 to R126, R110), where none of its claims runs out and no candidate of it reaches countdown 0: a
pending move, a frozen head and a head at k = D are left; a head whose page job is still in the list is left with PAGE_OVERRUN; any
other is advanced: k rises by 1, the pose of frame k becomes current, and a page job with it and the new frame number is placed. The
countdowns of its queue fall in RUNNING if it has no freeze reason and its head unit takes the mark at once (R93); its cues stay. The
list of blocks that owe an earlier FMARK, and the order of the blocks, are the model's own (log entry 6). -/
def Obligations.MovingHeadsAdvance : Prop :=
  ∀ (s : State) (order later : List FmarkBlock) (losses : List Recheck) (h : HeadId) (m : MoveRec),
    (s.mode = .running ∨ s.mode = .draining) → s.due = [] → (s.head h).state = .moving → (s.head h).move = some m →
    (s.head h).candidate.any Cue.expires = false → (∀ c ∈ s.claims, c.head = h → 1 < c.count) →
    ∃ t, exec (.fmark order later losses) s = .next t ∧ (t.head h).state = .moving
      ∧ (t.head h).direct = (s.head h).direct
      ∧ (t.head h).queue = (if s.mode = .running ∧ (s.head h).freeze.any = false ∧ .headUnit h ∉ later then
          (s.head h).queue.map Cue.countDown else (s.head h).queue)
      ∧ (if m.pending = true ∨ (s.head h).freeze.any = true ∨ m.dur ≤ m.k then
          (t.head h).move = some m ∧ (t.head h).pose = (s.head h).pose
          ∧ t.status.headFaults[h.val] = s.status.headFaults[h.val]
       else if s.pageJobs.any (fun j => decide (j.head = h)) then
         (t.head h).move = some m ∧ (t.head h).pose = (s.head h).pose
           ∧ Filed s t h .pageOverrun (some m.ref) (s.frame + 1)
       else
         (t.head h).move = some { m with k := m.k + 1 } ∧ (t.head h).pose = m.poseAtFrame s.tables (m.k + 1)
           ∧ t.status.headFaults[h.val] = s.status.headFaults[h.val]
           ∧ ∃ j ∈ t.pageJobs, j.head = h ∧ j.stamp = s.frame + 1
               ∧ j.pose = m.poseAtFrame s.tables (m.k + 1) ∧ j.origin = .frame)

/-- The pose of frame D of a move is its target on every axis (R122). -/
def Obligations.LastFrameReachesTarget : Prop :=
  ∀ (m : MoveRec) (tb : Tables), 1 ≤ m.dur → m.poseAtFrame tb m.dur = m.target

/-- A head unit takes the FMARK it owes (R93): in RUNNING, and without a freeze reason, the countdown of each released OFFSET cue of its
queue that is above 0 falls by 1; only cues at the front of the queue may then have left it. A candidate whose countdown reaches 0 is re-
examined, so that its first failing gate is recorded anew; a frozen head's countdowns stay. A candidate that has reached 0 and whose level
is below the holding level waits at LEVEL. That a block may take its FMARK in a step of its own is the model's choice (log entry 6). -/
def Obligations.OffsetCountdownsFall : Prop :=
  ∀ (s : State) (h : HeadId), s.mode = .running → .headUnit h ∈ s.due →
    ∃ t, exec (.offsetCountdownExpiry h) s = .next t ∧ .headUnit h ∉ t.due
      ∧ ((s.head h).freeze.any = true → Leaves [.due] s t)
      ∧ ((s.head h).freeze.any = false → (s.head h).candidate.any Cue.expires = false →
          (t.head h).queue = (s.head h).queue.map Cue.countDown ∧ (t.head h).direct = (s.head h).direct
          ∧ (t.head h).gate = (s.head h).gate ∧ Leaves [.due, .cues h] s t)
      ∧ ((s.head h).freeze.any = false → (t.head h).queue <:+ (s.head h).queue.map Cue.countDown
          ∧ ((s.head h).candidate.any Cue.expires = true → Examined t h))
      ∧ ((s.head h).freeze.any = false → ∀ q qs, (s.head h).queue = q :: qs → (s.head h).direct = none → q.expires = true →
          q.copy ≠ none →
          ((s.head h).state = .rest ∨ (s.head h).state = .moving ∨ (s.head h).state = .restoring) →
          q.level.num < holdingLevel (s.head h).levels →
          (t.head h).queue = { q with countdown := some 0 } :: qs.map Cue.countDown ∧ (t.head h).gate = some .level
          ∧ Leaves [.due, .cues h, .claims] s t)
      ∧ Leaves (.due :: examAreas h) s t

/-- The zone arbiter takes the FMARK it owes, in RUNNING and DRAINING (R147): every patience count falls by 1; the claims that reach 0 are
removed, and their owners rejected or lost with ZONE_TIMEOUT; the claims of every other head stay, and so does the head. A cue rejected,
of the slot or the queue, of a head in any state, leaves it; a pending restored move is lost as R110 gives. The heads concerned examine
their next candidates. A lone lost cue whose follower waits at STAGING or FIRE, and a lone lost move, change nothing else. In DRAINING the
loss of the last move halts a part with nothing else to drain (R32). That the arbiter may take its FMARK in a step of its own is the model's
choice (log entry 6). -/
def Obligations.PatienceCountsFall : Prop :=
  ∀ (s : State) (losses : List Recheck), (s.mode = .running ∨ s.mode = .draining) → s.settled → .zoneArbiter ∈ s.due →
    ∃ t, exec (.zoneTimeout losses) s = .next t ∧ .zoneArbiter ∉ t.due
      ∧ (t.mode = s.mode ∨ (s.mode = .draining ∧ t.mode = .halted))
      ∧ ((∀ c ∈ s.claims, 1 < c.count) → t.claims = s.claims.map fallen ∧ Leaves [.due, .claims] s t)
      ∧ (t.mode = s.mode →
          (∀ h, losing s h = [] → (t.claims.filter fun c => decide (c.head = h))
              = (s.claims.filter fun c => decide (c.head = h)).map fallen)
          ∧ (∀ h, losing s h ≠ [] → Examined t h)
          ∧ (∀ h c q, losing s h = [c] → c.kind = .cue → (s.head h).candidate = some q → CueTimedOut s t h q)
          ∧ (∀ h c m, losing s h = [c] → c.kind = .restore → (s.head h).state = .moving → (s.head h).move = some m →
              m.pending = true → MoveTimedOut s t h m)
          ∧ s.saver <+: t.saver
          ∧ Leaves ([.due, .claims] ++ (allHeads.filter fun h => decide (losing s h ≠ [])).flatMap examAreas) s t)
      ∧ (∀ c q, s.claims = [c] → c.count = 1 → c.kind = .cue → (s.head c.head).candidate = some q →
          (∀ q', (cuesInOrder (s.head c.head))[1]? = some q' → early q') →
          t.claims = [] ∧ Leaves [.due, .claims, .cues c.head, .headFault c.head, .attn] s t)
      ∧ ∀ c m, s.claims = [c] → c.count = 1 → c.kind = .restore → (s.head c.head).state = .moving →
          (s.head c.head).move = some m → m.pending = true → (∀ q, (s.head c.head).candidate = some q → early q) →
          t.claims = []
          ∧ (∀ l r, highest (levelDrop (s.head c.head).levels m.level) = some l → (s.head c.head).slotRef l = some r →
              t.mode = s.mode ∧ t.saver = s.saver ++ [⟨.restore, c.head, l, r, false⟩])
          ∧ ((∀ l, highest (levelDrop (s.head c.head).levels m.level) = some l → (s.head c.head).slotRef l = none) →
              t.saver = s.saver
              ∧ (s.mode = .draining → s.saver = [] → s.pageJobs = [] → s.busy .pageWriter = false →
                  (∀ g, g ≠ c.head → (s.head g).state ≠ .moving ∧ (s.head g).state ≠ .restoring) → t.mode = .halted))
          ∧ (t.mode = s.mode → Leaves [.due, .claims, .cues c.head, .levels c.head, .move c.head, .saver, .headFault c.head,
              .attn] s t)

/-! ## Lines -/

/-- A change of a TALLY line (R154, R156): the tally state follows the line in every mode. In HALTED and LOADING nothing else
happens. In RUNNING and DRAINING a change to ON AIR adds AIR to a MOVING head whose move is not pending and whose level
responds FREEZE, a change to OFF AIR removes it, and the head's candidate is examined. A pending restored move whose level may not start
on air loses its claim at a change to ON AIR, and one whose tests pass starts at a change to OFF AIR (R110). In DRAINING a loss that this
brings about may halt the part, at the end of the event (the model's reading, log entry 16). -/
def Obligations.TallyFollowsItsLine : Prop :=
  ∀ (s : State) (h : HeadId) (on : Bool) (order : List Recheck), s.settled → s.pins.tally.getLsbD h.val = !on →
    ∃ t, exec (.tallyChange h on order) s = .next t
      ∧ (∀ g : HeadId, t.pins.tally.getLsbD g.val = if g = h then on else s.pins.tally.getLsbD g.val)
      ∧ t.pins.floor = s.pins.floor ∧ (t.head h).onAir = on
      ∧ ((s.mode = .halted ∨ s.mode = .loading) → Leaves [.lines, .tally h] s t)
      ∧ ((s.mode = .running ∨ s.mode = .draining) →
          (t.mode = s.mode ∨ (s.mode = .draining ∧ t.mode = .halted)) ∧ Leaves ([.lines, .tally h] ++ haltAreas) s t
          ∧ (t.mode = s.mode →
              ((t.head h).freeze =
                { (s.head h).freeze with air :=
                    if on then
                      (s.head h).freeze.air || (decide ((s.head h).state = .moving)
                        && (s.head h).move.any fun m => !m.pending && (s.levelRec m.level).freezeOnAir)
                    else false })
              ∧ Examined t h
              ∧ (on = true → ∀ m, (s.head h).move = some m → m.pending = true → (s.head h).noCue →
                  (s.levelRec m.level).mayStartOnAir = false → t.claimOf h .restore = none)
              ∧ (on = false → (s.head h).freeze.hold = false → (s.head h).freeze.floor = false →
                  ∀ m, PendingReady s h m → PendingStarted s t h m)
              ∧ Leaves ([.lines, .tally h, .freeze h] ++ examAreas h) s t))

/-- An assertion of FLOOR in RUNNING or DRAINING (R161): from CLEAR, FLOOR joins the freeze-reason set of every PED head and of no FIXED
head, whose moves stay where they are, and a waiting claim of a PED head is withdrawn; from LATCHED the sets are unchanged. -/
def Obligations.FloorFreezesPedestals : Prop :=
  ∀ s : State, s.settled → (s.mode = .running ∨ s.mode = .draining) → s.pins.floor = false →
    ∃ t, exec .floorAsserted s = .next t
      ∧ (s.floorStop ≠ .clear → Leaves [.lines, .floorStop] s t)
      ∧ (s.floorStop = .clear →
          (∀ h : HeadId, (t.head h).freeze =
            if (s.headRec h).type = .ped then { (s.head h).freeze with floor := true } else (s.head h).freeze)
          ∧ (∀ h : HeadId, (s.headRec h).type = .ped → t.claimOf h .cue = none
              ∧ ((s.head h).move.any MoveRec.pending = true → t.claimOf h .restore = none))
          ∧ (∀ h : HeadId, (t.head h).queue = (s.head h).queue ∧ (t.head h).direct = (s.head h).direct)
          ∧ Leaves ([.lines, .floorStop, .claims] ++ (allHeads.filter fun h => decide ((s.headRec h).type = .ped)).flatMap
              fun h => [.freeze h, .cues h]) s t)

/-- The byte lies outside the words that the cut transfer had been answered for (R15). -/
def Sys2Proof.outsideCut (s : State) (c : CutPoint) (a : Nat) : Prop :=
  ∀ g, s.grant = some g → a < g.xfer.place.1
    ∨ g.xfer.place.1 + 4 * ((s.grantWords g.xfer).take (min c.answered (g.xfer.place.2 - 1))).length ≤ a

/-- Power-on and RESET_N (R15, R16, R34): every block takes its reset values with the cause POWER or LINE, the transfer in progress is
cut and no request waits, the host is held, and no byte outside the words already answered changes. -/
def Obligations.HardResetsTakeEffect : Prop :=
  (∀ (s : State) (c : CutPoint) (tally : BitVec 12) (floor : Bool),
    ∃ t, exec (.powerOn c tally floor) s = .next t ∧ ResetValues t .power ∧ t.grant = none ∧ t.waiting = []
      ∧ t.wait = true ∧ t.pins = { s.pins with tally := tally, floor := floor, powerReset := true }
      ∧ t.near = { s.near with cut := s.near.op.isSome } ∧ ∀ a : Nat, outsideCut s c a → t.mem.read a = s.mem.read a)
  ∧ (∀ (s : State) (c : CutPoint), s.pins.resetN = false →
    ∃ t, exec (.resetNAsserted c) s = .next t ∧ ResetValues t .line ∧ t.grant = none ∧ t.waiting = []
      ∧ t.wait = true ∧ t.pins = { s.pins with resetN := true }
      ∧ t.near = { s.near with cut := s.near.op.isSome } ∧ ∀ a : Nat, outsideCut s c a → t.mem.read a = s.mem.read a)

/-- The state in which an operation held during a reset arrives at its release: the line is released, and nothing is held (R16). -/
def Sys2Proof.released (s : State) (c : Instr) : State :=
  { s with pins := if c = .resetNReleased then { s.pins with resetN := false } else { s.pins with powerReset := false },
           near := { s.near with held := none } }

/-- A reset by line or power at the near port (R15, R16). An operation that arrives during it, a cue-port command too, is held with WAIT
and nothing else changes. At the end of the reset an operation that the reset cut is answered ERR and not forwarded again; one that was
held, a read, a write or a command, is taken as an arrival at that moment, with all that HOST_READ or HOST_WRITE do then; with no held
operation nothing else changes, and the status writer asks for the part record. RESET_N released while power-on reset lasts, and the
other way round, only the line changes (the model's choice, log entry 22). -/
def Obligations.ResetsEnd : Prop :=
  (∀ (s : State) (c : Instr) (op : HostOp), s.inReset = true → s.near.op = none → s.near.held = none → s.settled →
    ((∃ addr lanes data order, c = .hostWrite addr lanes data order ∧ op = ⟨true, addr, lanes, data, none⟩)
      ∨ (∃ addr, c = .hostRead addr ∧ op = ⟨false, addr, 15, 0, none⟩)
      ∨ ∃ k p order, commandOf k p order = some c ∧ op = slotOp k p) →
    ∃ t, exec c s = .next t ∧ t.near.held = some op ∧ t.near.op = none ∧ t.near.answer = none ∧ t.wait = true
      ∧ Leaves [.nearPort] s t)
  ∧ ∀ (s : State) (c : Instr), s.mode = .halted →
    ((c = .resetNReleased ∧ s.pins.resetN = true) ∨ (c = .powerOnResetEnd ∧ s.pins.powerReset = true)) →
    ∃ t, exec c s = .next t
      ∧ t.pins = (if c = .resetNReleased then { s.pins with resetN := false } else { s.pins with powerReset := false })
      ∧ (s.pins.resetN = true ∧ s.pins.powerReset = true → Leaves [.lines] s t)
      ∧ (¬ (s.pins.resetN = true ∧ s.pins.powerReset = true) →
          (s.near.held = none → Leaves [.lines, .nearPort] s t
            ∧ (s.near.cut = true → s.near.op ≠ none → t.near.op = none ∧ t.near.answer = some .err)
            ∧ (s.near.op = none → t.near = s.near)
            ∧ (s.busy .status = false → s.status.job = none → s.status.remembered = 12 → s.status.owed[0] = true →
                ∃ q ∈ t.waiting, q.xfer = .status 0 .first))
          ∧ (∀ addr, s.near.held = some ⟨false, addr, 15, 0, none⟩ → t.near.held = none
              ∧ Forwards t ⟨false, addr, 15, 0, none⟩ ∧ Leaves [.lines, .nearPort] s t
              ∧ (s.near.op = none → exec (.hostRead addr) (released s c) = .next t))
          ∧ ∀ addr lanes data, s.near.held = some ⟨true, addr, lanes, data, none⟩ → s.near.op = none →
              t.near.held = none ∧ exec (.hostWrite addr lanes data []) (released s c) = .next t)

/-! ## Reads of the table loader -/

/-- A read of the loader, wanted, is in progress in LOADING, and nothing keeps the loader from its next request. -/
structure Sys2Proof.LoaderReads (s : State) (r : TableRead) : Prop where
  mode : s.mode = .loading
  grant : s.grants (.table r)
  free : s.waits .loader = false ∧ s.letRunActive = false ∧ s.loader.stale = false ∧ s.inReset = false

/-- The record of a head, when its second half is being read (R20): the half kept, and that in memory. -/
def Sys2Proof.headRecord (s : State) (h : HeadId) : List Word :=
  s.loader.half ++ s.mem.readWords (0x10800 + h.val * 0x80 + 64) 16

/-- The start zone sets of the twelve heads, once the record of head 11 is read (R24). -/
def Sys2Proof.startZones (s : State) (r : HeadRec) (g : HeadId) : Zones :=
  if g = 11 then r.zones else s.tables.heads[g.val].zones

/-- Word i of the record of level l + 1 in the level table (section 11.2): speed scale, patience, may-start-on-air, response. -/
def Sys2Proof.levelWord (s : State) (l : Fin 4) (i : Nat) : Nat := (s.mem.readWord (0x10E00 + l.val * 16 + 4 * i)).toNat

/-- The checks of R22 on a level's record. -/
def Sys2Proof.levelGood (s : State) (l : Fin 4) : Prop :=
  1 ≤ levelWord s l 0 ∧ levelWord s l 0 ≤ 100 ∧ levelWord s l 2 ≤ 1 ∧ levelWord s l 3 ≤ 1

/-- The record of curve c + 1, when its second half is being read (R20). -/
def Sys2Proof.curveRecord (s : State) (c : Fin 15) : List Word :=
  s.loader.half ++ s.mem.readWords (0x10000 + (c.val + 1) * 0x80 + 64) 16

/-- The three checks of R23 on the points of a curve record. -/
def Sys2Proof.curveGood (ws : List Word) : Prop :=
  curvePoint ws 0 = 0 ∧ curvePoint ws 32 = 65535 ∧ ∀ i : Fin 32, curvePoint ws i.val ≤ curvePoint ws (i.val + 1)

/-- Head g is the next MANAGED head behind head h (R27). -/
structure Sys2Proof.NextManaged (s : State) (h g : HeadId) : Prop where
  behind : h < g
  managed : s.tables.heads[g.val].initMode = .managed
  first : ∀ g' : HeadId, h < g' → g' < g → s.tables.heads[g'.val].initMode ≠ .managed

/-- The initial adoption fault of a head (R29): the head fault with frame number 0 and no reference, the home pose, no adopted mark,
nothing written; the reads go on with the next MANAGED head, or LOADING may end, with the head in DIRECT (R30). -/
structure Sys2Proof.AdoptionFaults (s t : State) (h : HeadId) (kind : HeadFaultKind) : Prop where
  fault : Filed s t h kind none 0
  pose : (t.head h).pose = s.tables.heads[h.val].home
  mark : t.loader.adopted[h.val] = false
  memory : ∀ a : Nat, t.mem.read a = s.mem.read a
  goesOn : ∀ g, NextManaged s h g → (∃ q ∈ t.waiting, q.xfer = .table (.adoptPointer g))
    ∧ Leaves [.grant, .loader, .pose h, .headFault h, .attn] s t
  ends : t.mode = .loading ∨ (t.mode = .running
    ∧ (s.tables.heads[h.val].initMode = .managed → (t.head h).state = .direct))

/-- The loader's reads go on in their order (R20 to R25, R27 to R29): the first half of a head or curve record is kept and the second
half asked for; a good record of a head is taken into the table copy, and the next record asked for, or behind that of head 11, if no
two start zone sets share a zone, the level table; a good level table is taken and the record of curve 1 asked for; a curve record is
taken as present, with its points and peak step, or as absent, and the next one or the bank A header asked for; a count of 0 to 128 is
held, and the pointer word of the first MANAGED head asked for; a good re-read of the header (R25) replaces the count held, and the
adoption goes on with its next read. A pointer word of 0 or 1 leads to the read of its bank's page, any other
to the home pose and a home page; a page within the limits is adopted; the head is marked adopted. An ERR of either read, or a page
outside the limits, is the head's adoption fault. The pointer word of the next MANAGED head is asked for. -/
def Obligations.TableReadsGoOn : Prop :=
  (∀ (s : State) (h : HeadId), LoaderReads s (.headLow h) →
    ∃ t, exec (.tableReadEnd 0) s = .next t ∧ t.loader.half = s.mem.readWords (0x10800 + h.val * 0x80) 16
      ∧ (∃ q ∈ t.waiting, q.xfer = .table (.headHigh h)) ∧ Leaves [.grant, .loader] s t)
  ∧ (∀ (s : State) (h : HeadId) (hn : h.val + 1 < 12) (r : HeadRec), LoaderReads s (.headHigh h) →
    parseHead (headRecord s h) = some r →
    ∃ t, exec (.tableReadEnd 0) s = .next t ∧ t.tables.heads[h.val] = r
      ∧ (∀ g : HeadId, g ≠ h → t.tables.heads[g.val] = s.tables.heads[g.val])
      ∧ (∃ q ∈ t.waiting, q.xfer = .table (.headLow ⟨h.val + 1, hn⟩)) ∧ Leaves [.grant, .loader, .tables] s t)
  ∧ (∀ (s : State) (r : HeadRec), LoaderReads s (.headHigh 11) → parseHead (headRecord s 11) = some r →
    (∀ g h : HeadId, g < h → startZones s r g &&& startZones s r h = 0) →
    ∃ t, exec (.tableReadEnd 0) s = .next t ∧ t.tables.heads[11] = r
      ∧ (∀ g : HeadId, g ≠ 11 → t.tables.heads[g.val] = s.tables.heads[g.val])
      ∧ (∃ q ∈ t.waiting, q.xfer = .table .levels) ∧ Leaves [.grant, .loader, .tables] s t)
  ∧ (∀ s : State, LoaderReads s .levels → (∀ l, levelGood s l) →
    ∃ t, exec (.tableReadEnd 0) s = .next t
      ∧ (∀ l : Fin 4, t.tables.levels[l.val] = ⟨levelWord s l 0, levelWord s l 1 % 65536, decide (levelWord s l 2 = 1),
          decide (levelWord s l 3 = 1)⟩)
      ∧ t.tables.heads = s.tables.heads ∧ t.tables.curves = s.tables.curves
      ∧ (∃ q ∈ t.waiting, q.xfer = .table (.curveLow 0)) ∧ Leaves [.grant, .loader, .tables] s t)
  ∧ (∀ (s : State) (c : Fin 15), LoaderReads s (.curveLow c) →
    ∃ t, exec (.tableReadEnd 0) s = .next t ∧ t.loader.half = s.mem.readWords (0x10000 + (c.val + 1) * 0x80) 16
      ∧ (∃ q ∈ t.waiting, q.xfer = .table (.curveHigh c)) ∧ Leaves [.grant, .loader] s t)
  ∧ (∀ (s : State) (c : Fin 15), LoaderReads s (.curveHigh c) →
    ((curveRecord s c).getD 0 0 = 1 → curveGood (curveRecord s c)) →
    ∃ t, exec (.tableReadEnd 0) s = .next t
      ∧ ((curveRecord s c).getD 0 0 ≠ 1 → t.tables.curves[c.val] = none)
      ∧ ((curveRecord s c).getD 0 0 = 1 → ∃ k, t.tables.curves[c.val] = some k
          ∧ (∀ i : Fin 33, k.point i.val = curvePoint (curveRecord s c) i.val)
          ∧ (∀ i : Fin 32, k.point (i.val + 1) - k.point i.val ≤ k.peak)
          ∧ ∃ i : Fin 32, k.peak = k.point (i.val + 1) - k.point i.val)
      ∧ (∀ d : Fin 15, d ≠ c → t.tables.curves[d.val] = s.tables.curves[d.val])
      ∧ t.tables.heads = s.tables.heads ∧ t.tables.levels = s.tables.levels
      ∧ (∃ q ∈ t.waiting, q.xfer = .table (if hn : c.val + 1 < 15 then .curveLow ⟨c.val + 1, hn⟩ else .header))
      ∧ Leaves [.grant, .loader, .tables] s t)
  ∧ (∀ (s : State) (h : HeadId), LoaderReads s .header → s.loader.next = some .header →
    (s.mem.readWord 0x11000).toNat ≤ 128 → s.tables.heads[h.val].initMode = .managed →
    (∀ g : HeadId, g < h → s.tables.heads[g.val].initMode ≠ .managed) →
    ∃ t, exec (.tableReadEnd 0) s = .next t ∧ t.loader.count = some (s.mem.readWord 0x11000).toNat
      ∧ (∀ g : HeadId, (t.head g).pose =
          if s.tables.heads[g.val].initMode = .managed then (s.head g).pose else s.tables.heads[g.val].home)
      ∧ (∃ q ∈ t.waiting, q.xfer = .table (.adoptPointer h)) ∧ Leaves ([.grant, .loader] ++ allHeads.map Area.pose) s t)
  ∧ (∀ s : State, LoaderReads s .header → s.loader.next ≠ some .header → (s.mem.readWord 0x11000).toNat ≤ 128 →
    (s.loader.next = none → ∃ j ∈ s.pageJobs, j.origin = .homeLoader) →
    ∃ t, exec (.tableReadEnd 0) s = .next t ∧ t.loader.count = some (s.mem.readWord 0x11000).toNat
      ∧ t.loader.next = s.loader.next ∧ t.loader.half = s.loader.half ∧ t.loader.adopted = s.loader.adopted
      ∧ (∀ r, s.loader.next = some r → ∃ q ∈ t.waiting, q.xfer = .table r) ∧ Leaves [.grant, .loader] s t)
  ∧ (∀ (s : State) (h : HeadId), LoaderReads s (.adoptPointer h) →
    (∀ bk : Bank, s.mem.readWord (0x16000 + h.val * 0x80) = (if bk = .a then 0 else 1) →
      ∃ t, exec (.tableReadEnd 0) s = .next t ∧ (∃ q ∈ t.waiting, q.xfer = .table (.adoptPage h bk))
        ∧ Leaves [.grant, .loader] s t)
    ∧ (s.mem.readWord (0x16000 + h.val * 0x80) ≠ 0 → s.mem.readWord (0x16000 + h.val * 0x80) ≠ 1 →
      ∃ t, exec (.tableReadEnd 0) s = .next t ∧ (t.head h).pose = s.tables.heads[h.val].home
        ∧ t.loader.adopted[h.val] = true
        ∧ (t.pageJobs.map fun j => (j.head, j.stamp, j.pose, j.origin)) =
            (s.pageJobs.map fun j => (j.head, j.stamp, j.pose, j.origin))
              ++ [(h, 0, s.tables.heads[h.val].home, .homeLoader)]
        ∧ (∀ g, NextManaged s h g → ∃ q ∈ t.waiting, q.xfer = .table (.adoptPointer g))
        ∧ Leaves [.grant, .loader, .pageJobs, .pose h] s t)
    ∧ ∀ err : BitVec 16, err.getLsbD 0 = true →
      ∃ t, exec (.tableReadEnd err) s = .next t ∧ AdoptionFaults s t h .memory)
  ∧ ∀ (s : State) (h : HeadId) (bk : Bank), LoaderReads s (.adoptPage h bk) →
    (∀ p : Pose, p = Pose.ofWords ((s.mem.readWords (pageAddr h bk) 8).drop 1) →
      ∃ t, exec (.tableReadEnd 0) s = .next t ∧
        (if pageWithin s.tables.heads[h.val] p then
          (t.head h).pointer = .known bk
          ∧ (t.head h).pose = (match s.tables.heads[h.val].type with
              | .ped => p
              | .fixed => { p with x := 0, y := 0, lift := 0 })
          ∧ ∀ g, NextManaged s h g → t.loader.adopted[h.val] = true
              ∧ (∃ q ∈ t.waiting, q.xfer = .table (.adoptPointer g)) ∧ Leaves [.grant, .loader, .pose h, .pointer h] s t
         else AdoptionFaults s t h .poseLimit))
    ∧ ∀ (err : BitVec 16) (j : Fin 8), err.getLsbD j.val = true →
      ∃ t, exec (.tableReadEnd err) s = .next t ∧ AdoptionFaults s t h .memory

/-- A table read of steps 1 to 5 that ends with ERR, and a bad record, end LOADING (R21 to R26): the START result, HALTED, table
copies invalid, and the part fault START_FAILED with its index; every current pose is discarded (R117). The result is MEMORY after an
ERR, HEAD_TABLE for the first bad head record, ZONE_OVERLAP for the first head whose start zones a lower-numbered one shares, LEVEL_TABLE
for the first bad level, CURVE_TABLE for a present curve that fails a check, BANK for a count above 128. That an ERR in the level table
carries the level of the first word answered so is the model's reading (log entry 15). -/
def Obligations.FailedTableReadHalts : Prop :=
  ∀ (s : State) (r : TableRead) (err : BitVec 16) (result : StartResult) (index : Nat), LoaderReads s r →
    ((r = .header ∧ err.getLsbD 0 = true ∧ result = .memory ∧ index = 0)
      ∨ (err ≠ 0 ∧ result = .memory
          ∧ ((∃ h, (r = .headLow h ∨ r = .headHigh h) ∧ index = h.val)
            ∨ (∃ c, (r = .curveLow c ∨ r = .curveHigh c) ∧ index = c.val + 1)
            ∨ (r = .levels ∧ ∃ j : Fin 16, err.getLsbD j.val = true ∧ (∀ i : Fin 16, i < j → err.getLsbD i.val = false)
                ∧ index = j.val / 4 + 1)))
      ∨ (err = 0 ∧ result = .headTable ∧ ∃ h, r = .headHigh h ∧ index = h.val ∧ parseHead (headRecord s h) = none)
      ∨ (err = 0 ∧ result = .zoneOverlap ∧ r = .headHigh 11 ∧ ∃ rec, parseHead (headRecord s 11) = some rec
          ∧ ∃ h : HeadId, index = h.val ∧ (∃ g, g < h ∧ startZones s rec g &&& startZones s rec h ≠ 0)
            ∧ ∀ h' g : HeadId, h' < h → g < h' → startZones s rec g &&& startZones s rec h' = 0)
      ∨ (err = 0 ∧ result = .levelTable ∧ r = .levels ∧ ∃ l : Fin 4, index = l.val + 1 ∧ ¬ levelGood s l
          ∧ ∀ l' : Fin 4, l' < l → levelGood s l')
      ∨ (err = 0 ∧ result = .curveTable ∧ ∃ c, r = .curveHigh c ∧ index = c.val + 1 ∧ (curveRecord s c).getD 0 0 = 1
          ∧ ¬ curveGood (curveRecord s c))
      ∨ (err = 0 ∧ result = .bank ∧ r = .header ∧ index = 0 ∧ 128 < (s.mem.readWord 0x11000).toNat)) →
    ∃ t, exec (.tableReadEnd err) s = .next t ∧ t.mode = .halted ∧ t.startResult = result ∧ t.tables.valid = false
      ∧ FiledPart s t .startFailed index none (some result) s.frame
      ∧ (∀ h, (t.head h).pose = ⟨0, 0, 0, 0, 0, 0, 0⟩)
      ∧ Leaves ([.grant, .requests, .partMode, .startResult, .tables, .loader, .pageJobs, .partFault, .attn]
          ++ allHeads.map Area.pose) s t

/-- LOADING has ended in RUNNING with a count (R30, R139, R153): START result OK, table copies valid, the count latched, each head in its
first state with nothing queued, FLOOR on the PED heads unless the floor-stop state is CLEAR, and each zone of a PED head's start zone
set owned by it; frame number, floor stop, lines, near port and memory as they were. -/
structure Sys2Proof.EntersRunning (s t : State) (n : Nat) (adopted : HeadId → Bool) : Prop where
  mode : t.mode = .running ∧ t.startResult = .ok ∧ t.tables.valid = true
  tables : t.tables.heads = s.tables.heads ∧ t.tables.levels = s.tables.levels ∧ t.tables.curves = s.tables.curves
  fetcher : t.fetcher.count = n ∧ (0 < n → s.fetcher.fetch = 0 → s.busy .fetcher = false → t.fetcher.state = .reading)
  heads : ∀ g : HeadId, (t.head g).state =
      (match s.tables.heads[g.val].initMode with
        | .managed => if adopted g then .rest else .direct
        | .direct => .direct
        | .off => .off)
    ∧ (t.head g).noCue ∧ (t.head g).levels = 0 ∧ (t.head g).move = none
    ∧ (t.head g).freeze = ⟨false, decide (s.tables.heads[g.val].type = .ped ∧ s.floorStop ≠ .clear), false⟩
  owned : ∀ z : Fin 32, ∀ g : HeadId, s.tables.heads[g.val].type = .ped → s.tables.heads[g.val].zones.getLsbD z.val = true →
    (∀ g' : HeadId, g' < g → ¬ (s.tables.heads[g'.val].type = .ped ∧ s.tables.heads[g'.val].zones.getLsbD z.val = true)) →
    t.zoneTable[z.val] = some g
  free : ∀ z : Fin 32,
    (∀ g : HeadId, ¬ (s.tables.heads[g.val].type = .ped ∧ s.tables.heads[g.val].zones.getLsbD z.val = true)) →
    t.zoneTable[z.val] = none
  left : t.claims = [] ∧ t.frame = s.frame ∧ t.floorStop = s.floorStop ∧ t.pins = s.pins ∧ t.near = s.near
    ∧ ∀ a : Nat, t.mem.read a = s.mem.read a

/-- The last read of LOADING ends it in RUNNING, when no home page is left (R25, R27, R30): the page of the last MANAGED head with the
count held; the header, where the tables name no MANAGED head, every head at its home pose (R117); and a good re-read of the header
behind the last adoption read, with the new count. -/
def Obligations.LastAdoptionEntersRunning : Prop :=
  (∀ (s : State) (h : HeadId) (bk : Bank) (n : Nat), LoaderReads s (.adoptPage h bk) → s.loader.count = some n →
    s.tables.heads[h.val].initMode = .managed →
    (∀ g : HeadId, h < g → s.tables.heads[g.val].initMode ≠ .managed) → (∀ j ∈ s.pageJobs, j.origin ≠ .homeLoader) →
    pageWithin s.tables.heads[h.val] (Pose.ofWords ((s.mem.readWords (pageAddr h bk) 8).drop 1)) = true →
    ∃ t, exec (.tableReadEnd 0) s = .next t ∧ EntersRunning s t n (fun g => decide (g = h) || s.loader.adopted[g.val])
      ∧ (t.head h).pointer = .known bk
      ∧ (t.head h).pose = (s.tables.heads[h.val].adopted (Pose.ofWords ((s.mem.readWords (pageAddr h bk) 8).drop 1)))
      ∧ ∀ g : HeadId, g ≠ h → (t.head g).pose = (s.head g).pose ∧ (t.head g).pointer = (s.head g).pointer)
  ∧ (∀ s : State, LoaderReads s .header → s.loader.next = some .header → (s.mem.readWord 0x11000).toNat ≤ 128 →
    (∀ g : HeadId, s.tables.heads[g.val].initMode ≠ .managed) → (∀ j ∈ s.pageJobs, j.origin ≠ .homeLoader) →
    ∃ t, exec (.tableReadEnd 0) s = .next t
      ∧ EntersRunning s t (s.mem.readWord 0x11000).toNat (fun g => s.loader.adopted[g.val])
      ∧ ∀ g : HeadId, (t.head g).pose = s.tables.heads[g.val].home ∧ (t.head g).pointer = (s.head g).pointer)
  ∧ ∀ s : State, LoaderReads s .header → s.loader.next = none → (s.mem.readWord 0x11000).toNat ≤ 128 →
    (∀ j ∈ s.pageJobs, j.origin ≠ .homeLoader) →
    ∃ t, exec (.tableReadEnd 0) s = .next t
      ∧ EntersRunning s t (s.mem.readWord 0x11000).toNat (fun g => s.loader.adopted[g.val])
      ∧ ∀ g : HeadId, (t.head g).pose = (s.head g).pose ∧ (t.head g).pointer = (s.head g).pointer

/-! ## Reads of the fetcher -/

/-- The fields of an entry (R54, R55, section 11.2): an entry with head 0 to 11, level 1 to 4 and start kind 0 to 2 makes the cue of its
fields, in STAGING and unreleased; any other is invalid. -/
def Obligations.EntryFieldsMakeTheCue : Prop :=
  ∀ (bk : Bank) (i : Nat) (w0 w1 : Word),
    entryCue bk i w0 w1 =
      if h : w0.toNat % 16 < 12 then
        if 1 ≤ w0.toNat / 16 % 8 ∧ w0.toNat / 16 % 8 ≤ 4 ∧ w0.toNat / 256 % 4 ≠ 3 then
          some
            { head := ⟨w0.toNat % 16, h⟩,
              cue :=
                { origin := .rundown bk i, shot := BitVec.ofNat 8 (w0.toNat / 2 ^ 16),
                  level := Level.ofNum (w0.toNat / 16 % 8), curve := BitVec.ofNat 4 (w0.toNat / 2 ^ 12),
                  dur := w1.toNat % 2 ^ 16,
                  kind := if w0.toNat / 256 % 4 = 0 then .step
                    else if w0.toNat / 256 % 4 = 1 then .chain else .offset (w1.toNat / 2 ^ 16),
                  stepEnd := w0.getLsbD 10, stage := .staging, released := false, countdown := none } }
        else none
      else none

/-- The fetcher's pointers after an entry with a step-end flag has been handed on or passed (R61, R63). -/
structure Sys2Proof.Advanced (s t : State) (stepEnd : Bool) : Prop where
  fetch : t.fetcher.fetch = s.fetcher.fetch + 1
  opened : s.fetcher.fireOpen = true → t.fetcher.next = s.fetcher.fetch + 1 ∧ t.fetcher.stepEnds = s.fetcher.stepEnds
    ∧ t.fetcher.fireOpen = !(stepEnd || decide (s.fetcher.fetch + 1 = s.fetcher.count))
  closed : s.fetcher.fireOpen = false → t.fetcher.next = s.fetcher.next ∧ t.fetcher.fireOpen = false
    ∧ t.fetcher.stepEnds = if stepEnd then s.fetcher.stepEnds ++ [s.fetcher.fetch] else s.fetcher.stepEnds
  rest : t.fetcher.bank = s.fetcher.bank ∧ t.fetcher.count = s.fetcher.count ∧ t.fetcher.on = s.fetcher.on
    ∧ t.fetcher.startIndex = s.fetcher.startIndex
  state : t.fetcher.state = .idle ∨ t.fetcher.state = .reading

/-- The words 0 and 1 of an entry in memory (R53). -/
def Sys2Proof.entryWord (s : State) (bk : Bank) (i w : Nat) : Word :=
  s.mem.readWord ((if bk = .a then 0x11000 else 0x12000) + 0x10 + i * 0x10 + 4 * w)

/-- A command that puts a valid entry before the fetcher: the end of its read, or the examination of the entry it holds. -/
def Sys2Proof.Presents (s : State) (c : Instr) (e : HeldEntry) : Prop :=
  (c = .heldEntryExamination ∧ s.fetcher.state = .holding e ∧ e.cue.stage = .staging)
  ∨ (c = .entryReadEnd false ∧ ∃ bk i, s.grants (.entry bk i)
      ∧ entryCue s.fetcher.bank s.fetcher.fetch (entryWord s bk i 0) (entryWord s bk i 1) = some e)

/-- A valid entry is dealt with by the state of its head (R60 to R63): OFF or DIRECT passes it with HEAD_MODE; ADOPTING, or a full
queue, holds it; otherwise its cue joins the tail of the queue, released exactly if FIRE_OPEN is set, and the tail of the
stager's list. That an entry for a head without a state, which no run meets, is held is the model's choice (log entry 19). -/
def Obligations.EntryIsDispatchedByHeadState : Prop :=
  ∀ (s : State) (c : Instr) (e : HeldEntry), s.mode = .running → Presents s c e →
    ∃ t, exec c s = .next t ∧
      (if (s.head e.head).state = .off ∨ (s.head e.head).state = .direct then
        Advanced s t e.cue.stepEnd ∧ Filed s t e.head .headMode (some ⟨e.cue.origin, e.cue.shot, none⟩) s.frame
          ∧ Leaves [.grant, .rundown, .fetchState, .headFault e.head, .attn] s t
       else if (s.head e.head).state = .adopting ∨ (s.head e.head).state = .noState
           ∨ 4 ≤ (s.head e.head).queue.length then
        t.fetcher.state = .holding e ∧ Leaves [.grant, .fetchState] s t
       else
        Advanced s t e.cue.stepEnd
          ∧ (t.head e.head).queue = (s.head e.head).queue ++ [if s.fetcher.fireOpen then e.cue.release else e.cue]
          ∧ (t.head e.head).direct = (s.head e.head).direct
          ∧ t.stager.current.toList ++ t.stager.list =
              s.stager.current.toList ++ s.stager.list ++ [e.cue.key e.head]
          ∧ Leaves [.grant, .rundown, .fetchState, .stager, .claims, .cues e.head] s t)

/-- An invalid entry raises ENTRY_INVALID with its index and shot and is passed with its step-end flag as written (R55, R63); a failed
entry read raises MEMORY with the index, and the fetcher waits in RETRY with its pointers (R64). -/
def Obligations.BadEntriesArePassedOrRetried : Prop :=
  ∀ (s : State) (bk : Bank) (i : Nat), s.mode = .running → s.grants (.entry bk i) →
    (entryCue s.fetcher.bank s.fetcher.fetch (entryWord s bk i 0) (entryWord s bk i 1) = none →
      ∃ t, exec (.entryReadEnd false) s = .next t ∧ Advanced s t ((entryWord s bk i 0).getLsbD 10)
        ∧ FiledPart s t .entryInvalid s.fetcher.fetch (some (BitVec.ofNat 8 ((entryWord s bk i 0).toNat / 2 ^ 16))) none
            s.frame
        ∧ Leaves [.grant, .rundown, .fetchState, .partFault, .attn] s t)
    ∧ ∃ t, exec (.entryReadEnd true) s = .next t ∧ t.fetcher.state = .retryEntry
        ∧ FiledPart s t .memory s.fetcher.fetch none none s.frame
        ∧ Leaves [.grant, .fetchState, .partFault, .attn] s t

/-- The end of a header read (R64, R69): ERR raises MEMORY with index 128 and waits in RETRY; a count word above 128 latches 0 with
BANK_INVALID; the pointers take the smaller of the SWAP's start index, or else of NEXT, and the count; the queued cues from there on
are flushed, those below and the direct slots stay, and FIRE_OPEN is cleared at the count. Below the count the fetcher asks for its next
entry; at the count it is IDLE. That a start index still remembered places the pointers whichever request made the
read, a header notice's in RETRY too, is the model's choice (log entry 26). -/
def Obligations.HeaderReadLatchesTheCount : Prop :=
  ∀ (s : State) (bk : Bank), s.mode = .running → s.grants (.header bk) →
    (∃ t, exec (.headerReadEnd true) s = .next t ∧ t.fetcher.state = .retryHeader
        ∧ FiledPart s t .memory 128 none none s.frame ∧ Leaves [.grant, .fetchState, .partFault, .attn] s t)
    ∧ ∀ w n place : Nat, w = (s.mem.readWord (if bk = .a then 0x11000 else 0x12000)).toNat → n = (if w ≤ 128 then w else 0) →
        place = min (s.fetcher.startIndex.getD s.fetcher.next) n →
        ∃ t, exec (.headerReadEnd false) s = .next t ∧ t.fetcher.count = n ∧ t.fetcher.fetch = place
          ∧ t.fetcher.next = place ∧ t.fetcher.startIndex = none ∧ t.fetcher.stepEnds = []
          ∧ t.fetcher.fireOpen = (s.fetcher.fireOpen && decide (place ≠ n))
          ∧ t.fetcher.on = s.fetcher.on ∧ t.fetcher.bank = s.fetcher.bank
          ∧ (t.fetcher.state = .idle ∨ t.fetcher.state = .reading)
          ∧ (place = n → t.fetcher.state = .idle)
          ∧ (place < n → s.waits .fetcher = false → s.inReset = false →
              t.fetcher.state = .reading ∧ ∃ q ∈ t.waiting, q.xfer = .entry s.fetcher.bank place)
          ∧ (∀ h, ∀ q ∈ (t.head h).queue, ∀ bank i, q.origin = .rundown bank i → i < place) ∧ FlushedFrom s t place
          ∧ (if w ≤ 128 then t.status.partFault = s.status.partFault
             else FiledPart s t .bankInvalid 128 none none s.frame)
          ∧ Leaves ([.grant, .requests, .rundown, .fetchState, .stager, .partFault] ++ allExams) s t

/-! ## Stage reads and starts -/

/-- The stage read of a cue of a head is in progress in RUNNING; the cue is the only one of its key. -/
structure Sys2Proof.Stages (s : State) (k : StageKey) (c : Cue) : Prop where
  mode : s.mode = .running
  current : s.stager.current = some k
  grant : s.grants (.stage c.shot)
  found : (s.head k.head).findCue k.head k = some c
  only : ∀ q ∈ (s.head k.head).queue ++ (s.head k.head).direct.toList, q.key k.head = k → q = c

/-- The verdict of R88 on the words of a cue's shot record in memory. -/
def Sys2Proof.verdict (s : State) (k : StageKey) (c : Cue) (err : Bool) : StageVerdict :=
  if err then .rejected .memory none
  else judgeShot (s.headRec k.head) (s.tables.curve c.curve).isSome (s.mem.readWords (c.shot.toNat * 0x100) 10)

/-- The cue whose stage read has ended well is STAGED with its copy; any other is as it was (R88). -/
def Sys2Proof.stagedCue (c : Cue) (copy : ShotCopy) (q : Cue) : Cue := if q = c then { c with stage := .staged copy } else q

/-- The state in which the head examines a candidate that has become STAGED (R88). -/
def Sys2Proof.withStaged (s : State) (h : HeadId) (c : Cue) (copy : ShotCopy) : State :=
  s.setHead h fun hd => { hd with queue := hd.queue.map (stagedCue c copy), direct := hd.direct.map (stagedCue c copy) }

/-- Every zone of a claim is FREE or the head's own (R141). -/
def Sys2Proof.zonesFree (u : State) (h : HeadId) (copy : ShotCopy) : Prop :=
  ∀ z : Fin 32, copy.claim.getLsbD z.val = true → u.zoneTable[z.val] = none ∨ u.zoneTable[z.val] = some h

/-- The end of a stage read (R88, R89): a rejected cue leaves its queue or slot with the fault of its check; a cue that passes, released
or not, becomes STAGED with its copy. A candidate that passes is examined: it stays in its place, STAGED, if it fails a gate of STAGING
to SAVE, which is recorded (FIRE if it is unreleased), or if it has to wait at ZONE; what a start does is StagedCandidateStarts and
StartPreemptsOrRetargets. A RESTAGING cue returns to STAGING and is read again. The shot kind in the reference of a rejection is the
model's reading (log entry 12). -/
def Obligations.StageReadIsJudged : Prop :=
  ∀ (s : State) (k : StageKey) (c : Cue) (err : Bool), Stages s k c →
    ∃ t, exec (.stageReadEnd err) s = .next t
      ∧ (c.stage = .restaging → (t.head k.head).findCue k.head k = some { c with stage := .staging }
          ∧ (s.waits .stager = false → s.inReset = false → ∃ q ∈ t.waiting, q.xfer = .stage c.shot)
          ∧ Leaves [.grant, .cues k.head] s t)
      ∧ (c.stage ≠ .restaging → ∀ kind sk, verdict s k c err = .rejected kind sk →
          (t.head k.head).findCue k.head k = none ∧ t.status.attn = true
          ∧ (∃ f, t.status.headFaults[k.head.val] = some f ∧ (s.status.headFaults[k.head.val] = none →
              f.kind = kind ∧ f.ref = some ⟨c.origin, c.shot, sk⟩ ∧ f.frame = s.frame))
          ∧ Leaves ([.grant, .stager] ++ examAreas k.head) s t)
      ∧ (c.stage ≠ .restaging → ∀ copy, verdict s k c err = .staged copy →
          ((s.head k.head).candidate ≠ some c →
            (t.head k.head).findCue k.head k = some { c with stage := .staged copy } ∧ Leaves [.grant, .stager, .cues k.head] s t)
          ∧ ((s.head k.head).candidate = some c →
              Examined t k.head ∧ Leaves ([.grant, .stager] ++ examAreas k.head) s t
              ∧ (c.released = false → (t.head k.head).gate = some .fire)
              ∧ ∀ g, g = ((withStaged s k.head c copy).gateOf k.head { c with stage := .staged copy }).getD .zone →
                  (g = .zone → ¬ zonesFree s k.head copy ∧ (s.levelRec c.level).patience ≠ 0) →
                  (t.head k.head).findCue k.head k = some { c with stage := .staged copy } ∧ (t.head k.head).gate = some g
                  ∧ (t.head k.head).candidate = some { c with stage := .staged copy }
                  ∧ Leaves [.grant, .stager, .cues k.head, .claims] s t))

/-- The page writer's job of a head is at the front of its list while its transfer is in progress; nothing of it waits. -/
structure Sys2Proof.PageRuns (s : State) (x : Xfer) (j : PageJob) (rest : List PageJob) : Prop where
  live : s.mode = .running ∨ s.mode = .draining
  grant : s.grants x
  jobs : s.pageJobs = j :: rest
  frame : j.origin = .frame
  quiet : s.waits .pageWriter = false ∧ s.inReset = false
  memory : s.memoryOk

/-- The owner of a zone once the completing head's held set has settled (R145). -/
def Sys2Proof.settledZone (s : State) (h : HeadId) (m : MoveRec) (z : Fin 32) : Option HeadId :=
  if m.stand ≠ 0 ∧ s.zoneTable[z.val] = some h ∧ m.stand.getLsbD z.val = false then none else s.zoneTable[z.val]

/-- A job of the saver is at the front of its list while its transfer is in progress. -/
structure Sys2Proof.SaverRuns (s : State) (x : Xfer) (j : SaveJob) (rest : List SaveJob) : Prop where
  live : s.mode = .running ∨ s.mode = .draining
  grant : s.grants x
  jobs : s.saver = j :: rest
  settled : s.settled
  memory : s.memoryOk


/-- The completion releases a zone (R145). -/
def Sys2Proof.Releases (s : State) (h : HeadId) (m : MoveRec) : Prop := ∃ z : Fin 32, settledZone s h m z ≠ s.zoneTable[z.val]

/-- Every zone of a claim is FREE or its head's own once the held set has settled (R141). -/
def Sys2Proof.Grantable (s : State) (h : HeadId) (m : MoveRec) (q : Claim) : Prop :=
  ∀ z : Fin 32, q.zones.getLsbD z.val = true → settledZone s h m z = none ∨ settledZone s h m z = some q.head

/-- A head whose move has just completed, before it examines its candidate (R134, R145, R156): REST, no move, AIR removed, the zones
settled. -/
def Sys2Proof.completedState (s : State) (h : HeadId) (m : MoveRec) : State :=
  { s.setHead h fun hd => { hd with state := .rest, move := none, freeze := { hd.freeze with air := false } } with
    zoneTable := Vector.ofFn (settledZone s h m) }

/-- No waiting claim is granted at the completion (R146): nothing is released, or every claim still wants a zone of another head. -/
def Sys2Proof.noGrant (s : State) (h : HeadId) (m : MoveRec) : Prop := ¬ Releases s h m ∨ ∀ q ∈ s.claims, ¬ Grantable s h m q

/-- NEXT after a FIRE (R65): behind the lowest step end, or FETCH. -/
def Sys2Proof.firedNext (s : State) : Nat :=
  match s.fetcher.stepEnds with
  | e :: _ => e + 1
  | [] => s.fetcher.fetch

/-- A command in RUNNING that makes head h, and no other, examine its candidate (R91). The state given is s with what the command
changes before the examination, and the areas are those of that change: the end of the candidate's stage read (R88), FIRE releasing
cues on that head alone (R57, R65), a countdown that reaches 0 (R93), THAW, RESUME and a change to OFF AIR that leave it no freeze reason
(R159, R161, R154), LEVEL END onto a level with no saved move (R106), the completion of its move where no waiting claim is granted (R134,
R145), and the end of the save or empty tag that frees its save buffer (R103). A pending restored move, which these test too, has
statements of its own. -/
inductive Sys2Proof.Examines (s : State) : HeadId → Instr → State → List Area → Prop where
  | staged (k : StageKey) (c : Cue) (copy : ShotCopy) (stages : Stages s k c) (stage : c.stage = .staging)
      (candidate : (s.head k.head).candidate = some c) (verdict : verdict s k c false = .staged copy) :
      Examines s k.head (.stageReadEnd false)
        (withStaged s k.head c copy) [.grant, .stager]
  | fired (h : HeadId) (p : Word) (order : List Recheck) (ready : s.Ready) (mode : s.mode = .running)
      (closed : s.fetcher.fireOpen = false) (more : s.fetcher.next ≠ s.fetcher.count)
      (expected : p.toNat % 65536 = 0xFFFF ∨ p.toNat % 65536 = s.fetcher.next)
      (releases : (s.head h).queue.map (releasedCue (firedNext s)) ≠ (s.head h).queue)
      (alone : ∀ g : HeadId, g ≠ h → (s.head g).queue.map (releasedCue (firedNext s)) = (s.head g).queue) :
      Examines s h (.fire p order)
        (s.setHead h fun hd => { hd with queue := hd.queue.map (releasedCue (firedNext s)) }) [.nearPort, .rundown]
  | counted (h : HeadId) (mode : s.mode = .running) (due : .headUnit h ∈ s.due) (free : (s.head h).freeze.any = false)
      (zero : (s.head h).candidate.any Cue.expires = true) :
      Examines s h (.offsetCountdownExpiry h) (s.setHead h fun hd => { hd with queue := hd.queue.map Cue.countDown }) [.due]
  | thawed (h : HeadId) (p : Word) (order : List Recheck) (ready : s.Ready) (mode : s.mode = .running)
      (named : p.getLsbD h.val = true) (frozen : (s.head h).freeze = ⟨true, false, false⟩)
      (alone : ∀ g : HeadId, p.getLsbD g.val = true → g = h ∨ (s.head g).freeze.hold = false)
      (moves : (s.head h).move.any MoveRec.pending = false) :
      Examines s h (.thaw p order) (s.setHead h fun hd => { hd with freeze := ⟨false, false, false⟩ }) [.nearPort, .freeze h]
  | resumed (h : HeadId) (p : Word) (order : List Recheck) (ready : s.Ready) (mode : s.mode = .running)
      (latched : s.floorStop = .latched) (frozen : (s.head h).freeze = ⟨false, true, false⟩)
      (alone : ∀ g : HeadId, (s.head g).freeze.floor = true → g = h) (moves : (s.head h).move.any MoveRec.pending = false) :
      Examines s h (.resume p order) (s.setHead h fun hd => { hd with freeze := ⟨false, false, false⟩ })
        [.nearPort, .floorStop, .freeze h]
  | offAir (h : HeadId) (order : List Recheck) (mode : s.mode = .running) (line : s.pins.tally.getLsbD h.val = true)
      (free : (s.head h).freeze.hold = false ∧ (s.head h).freeze.floor = false)
      (moves : (s.head h).move.any MoveRec.pending = false) :
      Examines s h (.tallyChange h false order)
        (s.setHead h fun hd => { hd with onAir := false, freeze := ⟨false, false, false⟩ }) [.lines, .tally h, .freeze h]
  | revealed (h : HeadId) (l : Level) (p : Word) (ready : s.Ready) (mode : s.mode = .running) (named : p.toNat % 16 = h.val)
      (state : (s.head h).state = .rest) (save : s.saveWriting h = false) (top : highest (s.head h).levels = some l)
      (empty : ∀ l', highest (levelDrop (s.head h).levels l) = some l' → (s.head h).slotRef l' = none) :
      Examines s h (.levelEnd p) (s.setHead h fun hd => { hd with levels := levelDrop hd.levels l }) [.nearPort]
  | completed (h : HeadId) (bk : Bank) (m : MoveRec) (j : PageJob) (rest : List PageJob)
      (runs : PageRuns s (.pointerWrite h bk) j rest) (mode : s.mode = .running) (head : j.head = h)
      (state : (s.head h).state = .moving) (move : (s.head h).move = some m) (last : m.pending = false ∧ m.k = m.dur)
      (claims : noGrant s h m) :
      Examines s h (.pointerWriteEnd false) (completedState s h m)
        [.memory, .grant, .pageJobs, .pointer h, .freeze h]
  | saved (h : HeadId) (m m' : SavedMove) (r : CueRef) (rest : List SaveJob)
      (runs : SaverRuns s (.save h m) ⟨.save m', h, m.level, r, false⟩ rest) (mode : s.mode = .running)
      (last : ∀ i ∈ rest, i.head ≠ h) :
      Examines s h (.saveTransferEnd 0) { s.setHead h fun hd => { hd with saveBuffer := none } with saver := rest }
        [.memory, .grant, .saver, .levels h]
  | tagged (h : HeadId) (l : Level) (r : CueRef) (d : Bool) (rest : List SaveJob)
      (runs : SaverRuns s (.emptyTag h l) ⟨.emptyTag, h, l, r, d⟩ rest) (mode : s.mode = .running)
      (last : ∀ i ∈ rest, i.head ≠ h) :
      Examines s h (.emptyTagWriteEnd false) { s.setHead h fun hd => { hd with saveBuffer := none } with saver := rest }
        [.memory, .grant, .saver, .levels h]

/-- The candidate of head h in state u, of the queue or the direct slot, passes the gates of STAGING to AIR but for LEVEL, which is left to
the statements: released and STAGED, no CHAIN gate and no countdown, no freeze, no forbidden air; no claim of it waits (R91 to R93). -/
structure Sys2Proof.PassesGates (u : State) (h : HeadId) (c : Cue) (copy : ShotCopy) : Prop where
  candidate : (u.head h).candidate = some c
  staged : c.stage = .staged copy
  released : c.released = true
  chain : c.kind = .chain → (u.head h).state = .rest
  offset : ∀ n, c.kind = .offset n → c.countdown = some 0
  freeze : (u.head h).freeze.any = false
  air : (u.head h).onAir = false ∨ (u.levelRec c.level).mayStartOnAir = true
  claim : u.claimOf h .cue = none

/-- The candidate passes its gates and its claim is granted: its zones are FREE or its own, and its duration is within 65535 (R95, R141).
LEVEL and SAVE are left to the statements. The cue behind it, if any, is not yet STAGED or not released. -/
structure Sys2Proof.Startable (u : State) (h : HeadId) (c : Cue) (copy : ShotCopy) : Prop where
  gates : PassesGates u h c copy
  behind : ∀ q, (cuesInOrder (u.head h))[1]? = some q → early q
  zones : zonesFree u h copy
  duration : u.cueDuration h c copy ≤ 65535

/-- The candidate passes every gate of STAGING to SAVE (R91 to R94, R98), and its claim is put to the zone arbiter. -/
structure Sys2Proof.ReachesZone (u : State) (h : HeadId) (c : Cue) (copy : ShotCopy) : Prop where
  gates : PassesGates u h c copy
  level : holdingLevel (u.head h).levels ≤ c.level.num
  restore : (u.head h).state ≠ .restoring
  save : ∀ m, (u.head h).state = .moving → (u.head h).move = some m → m.level.num < c.level.num → u.saveWriting h = false

/-- What a head keeps while its candidate does not start: its move, level set and slots, and the zone table (R142). -/
structure Sys2Proof.NotStarted (u t : State) (h : HeadId) : Prop where
  move : (t.head h).state = (u.head h).state ∧ (t.head h).move = (u.head h).move
  levels : (t.head h).levels = (u.head h).levels ∧ (t.head h).slots = (u.head h).slots
    ∧ (t.head h).saveBuffer = (u.head h).saveBuffer ∧ t.saver = u.saver
  zones : ∀ z : Fin 32, t.zoneTable[z.val] = u.zoneTable[z.val]

/-- A claim ranks before the CUE claim of a head at a level: a higher level, or the same and no higher head number (R143). -/
def Sys2Proof.ranksBefore (d : Claim) (l : Level) (h : HeadId) : Prop := l.num < d.level.num ∨ (d.level = l ∧ d.head ≤ h)

/-- The candidate's claim has joined the waiting list in its place (R142, R143), with its level, its zones and the level's patience as its
count; the candidate stays and waits at ZONE. -/
structure Sys2Proof.ClaimPut (u t : State) (h : HeadId) (c : Cue) (copy : ShotCopy) : Prop where
  claim : t.claimOf h .cue = some ⟨h, .cue, c.level, copy.claim, (u.levelRec c.level).patience⟩
  place : ∃ before after, u.claims = before ++ after
    ∧ t.claims = before ++ ⟨h, .cue, c.level, copy.claim, (u.levelRec c.level).patience⟩ :: after
    ∧ (∀ d ∈ before, ranksBefore d c.level h) ∧ ∀ d, after.head? = some d → ¬ ranksBefore d c.level h
  cues : (t.head h).queue = (u.head h).queue ∧ (t.head h).direct = (u.head h).direct ∧ (t.head h).gate = some .zone
  kept : NotStarted u t h

/-- The candidate has been rejected at its claim (R121, R142): a head fault with its reference, no zone taken and no claim left. -/
structure Sys2Proof.TurnedAway (s u t : State) (h : HeadId) (c : Cue) (copy : ShotCopy) (kind : HeadFaultKind) : Prop where
  fault : Filed s t h kind (some ⟨c.origin, c.shot, some copy.kind⟩) s.frame
  cue : CueGone u t h
  claims : t.claims = u.claims
  kept : NotStarted u t h

/-- The move record that the start builds (R95, step 4), with the cue's own reference, RUNDOWN or DIRECT. -/
def Sys2Proof.startedMove (s : State) (h : HeadId) (c : Cue) (copy : ShotCopy) : MoveRec :=
  { origin := (s.head h).pose, target := copy.target (s.head h).pose, curve := c.curve, dur := s.cueDuration h c copy, k := 0,
    level := c.level, ref := ⟨c.origin, c.shot, some copy.kind⟩, stand := copy.stand, path := copy.path, pending := false }

/-- What every start does (R95, R139, R142): the zones of the claim are the head's, the level joins the set, the move record is built, the
head is MOVING, and the cue has left its slot, or its queue if the slot was empty; the next cue waits at STAGING or FIRE. -/
structure Sys2Proof.Started (u t : State) (h : HeadId) (c : Cue) (copy : ShotCopy) : Prop where
  state : (t.head h).state = .moving
  move : (t.head h).move = some (startedMove u h c copy)
  levels : (t.head h).levels = levelAdd (u.head h).levels c.level
  cue : CueGone u t h
  claim : t.claimOf h .cue = none
  zones : ∀ z : Fin 32, t.zoneTable[z.val] = if copy.claim.getLsbD z.val then some h else u.zoneTable[z.val]

/-- A start from REST (R95, R99) of a level at or above the holding level, by whatever command made the head examine its candidate; the
slots are left. A candidate that passes STAGING to SAVE, on a head in REST or MOVING, and finds a zone of another head's (R142): it takes a
claim with its level, its zones and the level's patience as its count, and waits at ZONE; with patience 0 it is rejected with ZONE_TIMEOUT
instead. One whose zones are FREE or its own but whose duration is above 65535 is rejected with DURATION and takes no zone (R121). -/
def Obligations.StagedCandidateStarts : Prop :=
  (∀ (s u : State) (i : Instr) (h : HeadId) (others : List Area) (c : Cue) (copy : ShotCopy), Examines s h i u others →
    Startable u h c copy → (u.head h).state = .rest → holdingLevel (u.head h).levels ≤ c.level.num →
    ∃ t, exec i s = .next t ∧ Started u t h c copy ∧ (t.head h).slots = (u.head h).slots
      ∧ (t.head h).saveBuffer = (u.head h).saveBuffer ∧ t.saver = u.saver
      ∧ Leaves (others ++ [.cues h, .claims, .zones, .levels h, .move h]) s t)
  ∧ ∀ (s u : State) (i : Instr) (h : HeadId) (others : List Area) (c : Cue) (copy : ShotCopy), Examines s h i u others →
    ReachesZone u h c copy →
    ∃ t, exec i s = .next t
      ∧ (¬ zonesFree u h copy → (u.levelRec c.level).patience ≠ 0 → ClaimPut u t h c copy
          ∧ Leaves (others ++ [.cues h, .claims, .zones, .levels h, .move h]) s t)
      ∧ ((∀ q, (cuesInOrder (u.head h))[1]? = some q → early q) →
          (¬ zonesFree u h copy → (u.levelRec c.level).patience = 0 → TurnedAway s u t h c copy .zoneTimeout
            ∧ Leaves (others ++ [.cues h, .claims, .zones, .levels h, .move h, .headFault h, .attn]) s t)
          ∧ (zonesFree u h copy → 65535 < u.cueDuration h c copy → TurnedAway s u t h c copy .duration
            ∧ Leaves (others ++ [.cues h, .claims, .zones, .levels h, .move h, .headFault h, .attn]) s t))

/-- A start on a MOVING head (R99, R100, R104), by whatever command made it examine its candidate: from a lower level, while the save
buffer is not writing, the move is preempted: its slot becomes occupied, the save buffer takes it, and a save job is placed; at the same
level it is dropped and nothing is saved. -/
def Obligations.StartPreemptsOrRetargets : Prop :=
  ∀ (s u : State) (i : Instr) (h : HeadId) (others : List Area) (c : Cue) (copy : ShotCopy) (m : MoveRec), Examines s h i u others →
    Startable u h c copy → (u.head h).state = .moving → (u.head h).move = some m →
    holdingLevel (u.head h).levels = m.level.num → (m.level.num < c.level.num → u.saveWriting h = false) →
    m.level.num ≤ c.level.num →
    ∃ t, exec i s = .next t ∧ Started u t h c copy
      ∧ (m.level.num < c.level.num → (t.head h).slotRef m.level = some m.ref
          ∧ (∀ l, l ≠ m.level → (t.head h).slotRef l = (u.head h).slotRef l)
          ∧ (t.head h).saveBuffer = some ⟨m.target, m.curve, m.level, m.dur, m.k, m.ref, m.stand, m.path⟩
          ∧ t.saver = u.saver ++ [⟨.save ⟨m.target, m.curve, m.level, m.dur, m.k, m.ref, m.stand, m.path⟩, h, m.level, m.ref,
              false⟩]
          ∧ Leaves (others ++ [.cues h, .claims, .zones, .levels h, .move h, .saver]) s t)
      ∧ (m.level.num = c.level.num → (t.head h).slots = (u.head h).slots
          ∧ (t.head h).saveBuffer = (u.head h).saveBuffer ∧ t.saver = u.saver
          ∧ Leaves (others ++ [.cues h, .claims, .zones, .levels h, .move h]) s t)

/-- The LEVEL gate (R98): a level above H passes; a level at H passes in REST, and in MOVING and RESTORING for every start kind but
CHAIN; a level below H fails. -/
def Obligations.LevelGateFollowsItsTable : Prop :=
  ∀ (hd : Head) (c : Cue), (hd.state = .rest ∨ hd.state = .moving ∨ hd.state = .restoring) →
    (hd.levelFails c = true ↔
      c.level.num < holdingLevel hd.levels
        ∨ (c.level.num = holdingLevel hd.levels ∧ hd.state ≠ .rest ∧ c.kind = .chain))

/-! ## Adoption through MODE -/

/-- The end of an adoption read (R80, R81): a pointer word of 0 or 1 leads to the read of that bank's page; any other to the home page
and the end of the reads; a page within the limits ends in REST with its pose and the pointer copy; a page outside them in DIRECT
with POSE_LIMIT; an ERR in DIRECT with MEMORY, pose unchanged. -/
def Obligations.AdoptionReadsEnd : Prop :=
  ∀ (s : State) (h : HeadId) (rest : List HeadId), s.settled → (s.mode = .running ∨ s.mode = .draining) →
    (s.head h).state = .adopting → (s.head h).noCue → s.adopter.list = h :: rest →
    (s.grants (.adoptPointer h) →
      (∃ t, exec (.adoptionReadEnd true) s = .next t ∧ (t.head h).state = .direct ∧ t.adopter.list = rest
          ∧ Filed s t h .memory none s.frame ∧ (t.head h).move = (s.head h).move
          ∧ Leaves [.grant, .adopter, .move h, .pointer h, .headFault h, .attn] s t)
      ∧ (∀ bk : Bank, s.mem.readWord (0x16000 + h.val * 0x80) = (if bk = .a then 0 else 1) →
          ∃ t, exec (.adoptionReadEnd false) s = .next t ∧ t.adopter = ⟨h :: rest, some bk⟩
            ∧ (s.waits .adopter = false → s.inReset = false → ∃ q ∈ t.waiting, q.xfer = .adoptPage h bk)
            ∧ Leaves [.grant, .adopter] s t)
      ∧ (s.mem.readWord (0x16000 + h.val * 0x80) ≠ 0 → s.mem.readWord (0x16000 + h.val * 0x80) ≠ 1 →
          ∃ t, exec (.adoptionReadEnd false) s = .next t ∧ t.adopter.list = rest ∧ (t.head h).state = .adopting
            ∧ (t.pageJobs.map fun j => (j.head, j.stamp, j.pose, j.origin)) =
                (s.pageJobs.map fun j => (j.head, j.stamp, j.pose, j.origin)) ++ [(h, 0, (s.headRec h).home, .homeHead)]
            ∧ Leaves [.grant, .adopter, .pageJobs] s t))
    ∧ ∀ bk : Bank, s.grants (.adoptPage h bk) →
      (∃ t, exec (.adoptionReadEnd true) s = .next t ∧ (t.head h).state = .direct ∧ t.adopter.list = rest
          ∧ Filed s t h .memory none s.frame ∧ Leaves [.grant, .adopter, .move h, .pointer h, .headFault h, .attn] s t)
      ∧ ∀ p : Pose, p = Pose.ofWords ((s.mem.readWords (pageAddr h bk) 8).drop 1) →
        ∃ t, exec (.adoptionReadEnd false) s = .next t ∧ t.adopter.list = rest ∧
          (if pageWithin (s.headRec h) p then
            (t.head h).state = .rest ∧ (t.head h).levels = 0 ∧ (t.head h).pointer = .known bk
              ∧ (t.head h).pose = (match (s.headRec h).type with
                  | .ped => p
                  | .fixed => { p with x := 0, y := 0, lift := 0 })
              ∧ Leaves [.grant, .adopter, .claims, .cues h, .move h, .levels h, .pose h, .pointer h] s t
           else
            (t.head h).state = .direct ∧ Filed s t h .poseLimit none s.frame
              ∧ Leaves [.grant, .adopter, .move h, .pointer h, .headFault h, .attn] s t)

/-! ## Pages -/

/-- A head whose move is not at its last frame: no completion follows its page job (R134). -/
def Sys2Proof.MovesOn (s : State) (h : HeadId) (m : MoveRec) : Prop :=
  (s.head h).state = .moving ∧ (s.head h).move = some m ∧ m.k ≠ m.dur

/-- The base of a page bank (R128). -/
def Sys2Proof.pageBase (h : HeadId) (bk : Bank) : Nat := 0x16000 + h.val * 0x80 + if bk = .a then 0x20 else 0x40

/-- The eight words of a page stand in its bank, and no other byte has changed (R128, R130). -/
structure Sys2Proof.PageWritten (s t : State) (h : HeadId) (bk : Bank) (stamp : Word) (pose : Pose) : Prop where
  words : t.mem.readWords (pageBase h bk) 8 =
    [stamp, pose.x, pose.y, pose.lift, pose.pan, pose.tilt, pose.zoom, pose.focus]
  others : ∀ a : Nat, a < pageBase h bk ∨ pageBase h bk + 32 ≤ a → t.mem.read a = s.mem.read a

/-- A home page job of a head is at the front of the page writer's list while its transfer is in progress (R28, R81). -/
structure Sys2Proof.HomeRuns (s : State) (x : Xfer) (h : HeadId) (j : PageJob) (rest : List PageJob) : Prop where
  grant : s.grants x
  jobs : s.pageJobs = j :: rest
  head : j.head = h
  home : j.origin ≠ .frame
  quiet : s.waits .pageWriter = false ∧ s.inReset = false
  memory : s.memoryOk
  settled : s.settled

/-- A home page has failed, beside what its transfer has changed. Placed by the loader, it is the head's initial adoption fault (R28,
R29); left behind by a failed START, it still raises that head fault and nothing else (R26, log entry 14); placed by a head unit, it
ends the adoption in DIRECT (R81). -/
def Sys2Proof.HomeFails (s t : State) (h : HeadId) (j : PageJob) : Prop :=
  match j.origin with
  | .frame => False
  | .homeLoader => s.mode = .loading → Filed s t h .memory none 0 ∧ (t.head h).pose = s.tables.heads[h.val].home
      ∧ t.loader.adopted[h.val] = false
      ∧ (t.mode = .loading ∨ (t.mode = .running ∧ (s.tables.heads[h.val].initMode = .managed → (t.head h).state = .direct)))
      ∧ (t.mode = .loading → Leaves [.memory, .freeValues, .grant, .pageJobs, .pointer h, .loader, .pose h, .headFault h,
          .attn] s t)
  | .homeLeft => s.mode = .halted → Filed s t h .memory none 0
      ∧ Leaves [.memory, .freeValues, .grant, .pageJobs, .pointer h, .headFault h, .attn] s t
  | .homeHead => (s.mode = .running ∨ s.mode = .draining) → (s.head h).state = .adopting → Filed s t h .memory none s.frame
      ∧ (t.mode = s.mode ∨ (s.mode = .draining ∧ t.mode = .halted))
      ∧ (t.mode = s.mode → (t.head h).state = .direct ∧ (t.head h).move = (s.head h).move
          ∧ Leaves [.memory, .freeValues, .grant, .pageJobs, .move h, .pointer h, .headFault h, .attn] s t)

/-- A home page has been written whole, beside what its transfer has changed (R28, R30, R81): LOADING may end, with an adopted head in
REST; an adoption through MODE ends in REST with the home pose. -/
def Sys2Proof.HomeEnds (s t : State) (h : HeadId) (j : PageJob) : Prop :=
  match j.origin with
  | .frame => False
  | .homeLoader => s.mode = .loading →
      (t.mode = .loading → Leaves [.memory, .grant, .pageJobs, .pointer h] s t)
      ∧ (t.mode = .loading ∨ (t.mode = .running ∧ (s.tables.heads[h.val].initMode = .managed →
          (t.head h).state = if s.loader.adopted[h.val] then .rest else .direct)))
      ∧ (s.loader.next = none → s.loader.count ≠ none → s.loader.stale = false → s.busy .loader = false →
          (∀ i ∈ s.pageJobs.tail, i.origin ≠ .homeLoader) → t.mode = .running)
  | .homeLeft => s.mode = .halted → Leaves [.memory, .grant, .pageJobs, .pointer h] s t
  | .homeHead => (s.mode = .running ∨ s.mode = .draining) → (s.head h).state = .adopting → (s.head h).noCue →
      (t.mode = s.mode ∨ (s.mode = .draining ∧ t.mode = .halted))
      ∧ (t.mode = s.mode → (t.head h).state = .rest ∧ (t.head h).levels = 0 ∧ (t.head h).pose = j.pose
          ∧ (t.head h).move = (s.head h).move
          ∧ Leaves [.memory, .grant, .pageJobs, .pointer h, .cues h, .claims, .move h, .levels h, .pose h] s t)

/-- A write that a RESET command has let run is in progress (R17, R52); the part is HALTED, or LOADING again (R19). -/
structure Sys2Proof.LetRun (s : State) (x : Xfer) : Prop where
  grant : ∃ d, s.grant = some ⟨x, true, d⟩
  mode : s.mode = .halted ∨ s.mode = .loading
  settled : s.settled
  memory : s.memoryOk

/-- The end of the first transfers of a page job (R128 to R130, R132, R134). For a frame page of a move that is not at its last
frame: a check read of 0 or 1 gives the pointer copy and the page goes to the other bank, of any other value to bank A; a page write
without ERR leaves the eight words in its bank and the pointer write is requested; with ERR the job ends with MEMORY and its stamp, and
no byte outside the bank changes; a check read with ERR ends the job in the same way. The fault's reference is that of the head's
present move (the model's reading, log entry 10). A home page's write goes on in the same way (R28), and with ERR is reported to the
block that placed it (R29, R81). A page write that a RESET command has let run is followed by its pointer write unless it failed, and
raises no fault; the data of a check read is discarded then (R17, R138). -/
def Obligations.PageTransfersEnd : Prop :=
  (∀ (s : State) (h : HeadId) (m : MoveRec) (j : PageJob) (rest : List PageJob), j.head = h → MovesOn s h m →
    (PageRuns s (.pageCheck h) j rest →
      (∀ bk : Bank, s.mem.readWord (0x16000 + h.val * 0x80) = (if bk = .a then 0 else 1) →
        ∃ t, exec (.pointerCheckReadEnd false) s = .next t ∧ (t.head h).pointer = .known bk
          ∧ (∃ q ∈ t.waiting, q.xfer = .pageWrite h (if bk = .a then .b else .a) j.stamp j.pose)
          ∧ Leaves [.grant, .pointer h] s t)
      ∧ (s.mem.readWord (0x16000 + h.val * 0x80) ≠ 0 → s.mem.readWord (0x16000 + h.val * 0x80) ≠ 1 →
        ∃ t, exec (.pointerCheckReadEnd false) s = .next t
          ∧ (∃ q ∈ t.waiting, q.xfer = .pageWrite h .a j.stamp j.pose) ∧ Leaves [.grant] s t)
      ∧ ∃ t, exec (.pointerCheckReadEnd true) s = .next t ∧ (t.pageJobs.map fun i => i.head) = (rest.map fun i => i.head)
          ∧ Filed s t h .memory (some m.ref) j.stamp ∧ t.status.owed[h.val + 1] = true
          ∧ Leaves [.grant, .pageJobs, .headFault h, .attn] s t)
    ∧ ∀ bk stamp pose, PageRuns s (.pageWrite h bk stamp pose) j rest →
      (∃ t, exec (.pageWriteEnd 0) s = .next t ∧ PageWritten s t h bk stamp pose
          ∧ (∃ q ∈ t.waiting, q.xfer = .pointerWrite h bk) ∧ Leaves [.memory, .grant] s t)
      ∧ ∀ err : BitVec 8, err ≠ 0 →
        ∃ t, exec (.pageWriteEnd err) s = .next t ∧ (t.pageJobs.map fun i => i.head) = (rest.map fun i => i.head)
          ∧ (∀ a : Nat, a < pageBase h bk ∨ pageBase h bk + 32 ≤ a → t.mem.read a = s.mem.read a)
          ∧ Filed s t h .memory (some m.ref) j.stamp ∧ t.status.owed[h.val + 1] = true
          ∧ Leaves [.memory, .freeValues, .grant, .pageJobs, .headFault h, .attn] s t)
  ∧ (∀ (s : State) (h : HeadId) (bk : Bank) (stamp : Word) (pose : Pose) (j : PageJob) (rest : List PageJob),
    HomeRuns s (.pageWrite h bk stamp pose) h j rest →
    (∃ t, exec (.pageWriteEnd 0) s = .next t ∧ PageWritten s t h bk stamp pose
        ∧ (∃ q ∈ t.waiting, q.xfer = .pointerWrite h bk) ∧ Leaves [.memory, .grant] s t)
    ∧ ∀ err : BitVec 8, err ≠ 0 →
      ∃ t, exec (.pageWriteEnd err) s = .next t ∧ (t.pageJobs.map fun i => i.head) = (rest.map fun i => i.head)
        ∧ (∀ a : Nat, a < pageBase h bk ∨ pageBase h bk + 32 ≤ a → t.mem.read a = s.mem.read a)
        ∧ (j.origin ≠ .homeHead → s.mode ≠ .draining → (t.head h).pointer = (s.head h).pointer) ∧ HomeFails s t h j)
  ∧ (∀ (s : State) (h : HeadId) (bk : Bank) (stamp : Word) (pose : Pose), LetRun s (.pageWrite h bk stamp pose) →
    (∃ t, exec (.pageWriteEnd 0) s = .next t ∧ PageWritten s t h bk stamp pose
        ∧ (∃ q ∈ t.waiting, q.xfer = .pointerWrite h bk ∧ q.letRun = true) ∧ Leaves [.memory, .grant] s t)
    ∧ ∀ err : BitVec 8, err ≠ 0 →
      ∃ t, exec (.pageWriteEnd err) s = .next t
        ∧ (∀ a : Nat, a < pageBase h bk ∨ pageBase h bk + 32 ≤ a → t.mem.read a = s.mem.read a)
        ∧ (∀ q ∈ t.waiting, q.letRun = true → q ∈ s.waiting) ∧ Leaves [.memory, .freeValues, .grant] s t)
  ∧ ∀ (s : State) (h : HeadId) (l err : Bool), s.grant = some ⟨.pageCheck h, l, true⟩ → s.mode ≠ .draining → s.settled →
    ∃ t, exec (.pointerCheckReadEnd err) s = .next t ∧ Leaves [.grant] s t

/-- A pointer write has ended (R128, R131): without ERR the word names the bank; no byte outside the word has changed. -/
structure Sys2Proof.PointerWritten (s t : State) (h : HeadId) (bk : Bank) (err : Bool) : Prop where
  word : err = false → t.mem.readWord (0x16000 + h.val * 0x80) = (if bk = .a then 0 else 1)
  others : ∀ a : Nat, a < 0x16000 + h.val * 0x80 ∨ 0x16000 + h.val * 0x80 + 4 ≤ a → t.mem.read a = s.mem.read a

/-- The end of the pointer write of a page job (R129, R131). Without ERR the pointer word and the pointer copy name the bank;
with ERR the copy is UNKNOWN. The job ends. For a frame page of a move that is not at its last frame the head's record is owed, and an
ERR raises MEMORY with the job's stamp and the reference of the head's present move (log entry 10). A home page's end is reported to the
block that placed it (R28 to R30, R81). A pointer write that a RESET command has let run changes nothing else: no fault is raised and the
pointer copy stays (R17, R138). -/
def Obligations.PointerWriteEndsThePageJob : Prop :=
  (∀ (s : State) (h : HeadId) (bk : Bank) (m : MoveRec) (j : PageJob) (rest : List PageJob), j.head = h →
    MovesOn s h m → PageRuns s (.pointerWrite h bk) j rest →
    (∃ t, exec (.pointerWriteEnd false) s = .next t ∧ PointerWritten s t h bk false
        ∧ (t.head h).pointer = .known bk ∧ (t.pageJobs.map fun i => i.head) = (rest.map fun i => i.head)
        ∧ t.status.owed[h.val + 1] = true ∧ Leaves [.memory, .grant, .pageJobs, .pointer h] s t)
    ∧ ∃ t, exec (.pointerWriteEnd true) s = .next t ∧ PointerWritten s t h bk true
        ∧ (t.head h).pointer = .unknown ∧ (t.pageJobs.map fun i => i.head) = (rest.map fun i => i.head)
        ∧ Filed s t h .memory (some m.ref) j.stamp ∧ t.status.owed[h.val + 1] = true
        ∧ Leaves [.memory, .freeValues, .grant, .pageJobs, .pointer h, .headFault h, .attn] s t)
  ∧ (∀ (s : State) (h : HeadId) (bk : Bank) (j : PageJob) (rest : List PageJob), HomeRuns s (.pointerWrite h bk) h j rest →
    (∃ t, exec (.pointerWriteEnd false) s = .next t ∧ PointerWritten s t h bk false
        ∧ (s.mode ≠ .draining → (t.head h).pointer = .known bk)
        ∧ (t.pageJobs.map fun i => i.head) = (rest.map fun i => i.head) ∧ HomeEnds s t h j)
    ∧ ∃ t, exec (.pointerWriteEnd true) s = .next t ∧ PointerWritten s t h bk true ∧ (t.head h).pointer = .unknown
        ∧ (t.pageJobs.map fun i => i.head) = (rest.map fun i => i.head) ∧ HomeFails s t h j)
  ∧ ∀ (s : State) (h : HeadId) (bk : Bank) (err : Bool), LetRun s (.pointerWrite h bk) →
    ∃ t, exec (.pointerWriteEnd err) s = .next t ∧ PointerWritten s t h bk err
      ∧ Leaves [.memory, .freeValues, .grant] s t

/-- The frame page job of a move's last frame runs, for a head whose candidate, if any, fails a gate of STAGING to SAVE once the move has
completed (R134). -/
structure Sys2Proof.Finishes (s : State) (x : Xfer) (h : HeadId) (m : MoveRec) (j : PageJob) (rest : List PageJob) : Prop where
  runs : PageRuns s x j rest
  head : j.head = h
  state : (s.head h).state = .moving
  move : (s.head h).move = some m
  last : m.pending = false ∧ m.k = m.dur
  held : (completedState s h m).Held h
  noClaim : s.claimOf h .cue = none

/-- The command ends a page job of the head whose transfer is in progress (R130 to R132): with its pointer write, or failed with an ERR
of any of its transfers. -/
def Sys2Proof.endsJob (c : Instr) (x : Xfer) (h : HeadId) (failed : Bool) : Prop :=
  (∃ bk, c = .pointerWriteEnd failed ∧ x = .pointerWrite h bk)
  ∨ (failed = true ∧ ∃ bk stamp pose err, c = .pageWriteEnd err ∧ err ≠ 0 ∧ x = .pageWrite h bk stamp pose)
  ∨ (failed = true ∧ c = .pointerCheckReadEnd true ∧ x = .pageCheck h)

/-- What a completion does to a head whose candidate is held (R134, R156, R171): it examines it, and its cues stay. -/
structure Sys2Proof.Completes (s t : State) (h : HeadId) (m : MoveRec) : Prop where
  state : (t.head h).state = .rest
  move : (t.head h).move = none
  last : (t.head h).lastK = m.dur ∧ (t.head h).lastD = m.dur
  freeze : (t.head h).freeze = { (s.head h).freeze with air := false }
  cues : (t.head h).queue = (s.head h).queue ∧ (t.head h).direct = (s.head h).direct
  examined : Examined t h

/-- The areas of a completion on a page job's end. -/
def Sys2Proof.completeAreas (h : HeadId) : List Area :=
  [.memory, .grant, .pageJobs, .pointer h, .cues h, .move h, .freeze h, .zones]

/-- The end of the page job of frame D completes the move, whether the job ended without ERR or with one (R134, R145, R156), here for a
head whose candidate, if any, then waits at a gate of STAGING to SAVE (what one that passes them does is StagedCandidateStarts): REST, no
move record, k and D kept for the report, AIR removed, the level set kept, the candidate examined; with stand zones the other zones of the
head become FREE, and without them the zones stay; an ERR raises MEMORY. In DRAINING it halts a part with nothing else to drain (R32).
A release is followed by one scan of the waiting claims in RUNNING (R146): a claim of another head that finds its zones FREE or its own is
granted, and its cue or its restored move starts, the cue behind it waiting at STAGING or FIRE; a cue whose duration is above 65535 is
rejected with DURATION instead and takes no zone (R95, R121); any other claim stays, and without a release none is tested. Of two claims
that want one zone the first in the list takes it, and a claim takes zones that the one before it could not use. -/
def Obligations.LastPageCompletesTheMove : Prop :=
  (∀ (s : State) (c : Instr) (x : Xfer) (h : HeadId) (m : MoveRec) (j : PageJob) (rest : List PageJob) (failed : Bool),
    Finishes s x h m j rest → endsJob c x h failed → noGrant s h m →
    ∃ t, exec c s = .next t ∧ (failed = true → Filed s t h .memory (some m.ref) j.stamp)
      ∧ (t.mode = s.mode ∨ (s.mode = .draining ∧ t.mode = .halted))
      ∧ (t.mode = s.mode → Completes s t h m ∧ (∀ z : Fin 32, t.zoneTable[z.val] = settledZone s h m z)
          ∧ (failed = false → Leaves (completeAreas h) s t)
          ∧ Leaves (completeAreas h ++ [.freeValues, .headFault h, .attn]) s t)
      ∧ (s.mode = .draining → rest = [] → s.saver = [] →
          (∀ g : HeadId, g ≠ h → (s.head g).state ≠ .moving ∧ (s.head g).state ≠ .restoring) → t.mode = .halted))
  ∧ (∀ (s : State) (bk : Bank) (h g : HeadId) (m : MoveRec) (j : PageJob) (rest : List PageJob) (q : Claim),
    Finishes s (.pointerWrite h bk) h m j rest → s.mode = .running → s.claims = [q] → q.head = g → g ≠ h →
    ∃ t, exec (.pointerWriteEnd false) s = .next t ∧ Completes s t h m
      ∧ (¬ (Releases s h m ∧ Grantable s h m q) → t.claims = [q]
          ∧ (∀ z : Fin 32, t.zoneTable[z.val] = settledZone s h m z) ∧ Leaves (completeAreas h) s t)
      ∧ (Releases s h m → Grantable s h m q →
          (∀ m', q.kind = .restore → (s.head g).move = some m' → t.claims = []
              ∧ (t.head g).move = some { m' with pending := false }
              ∧ (∀ z : Fin 32, t.zoneTable[z.val] = if q.zones.getLsbD z.val then some g else settledZone s h m z)
              ∧ Leaves (completeAreas h ++ [.move g, .claims]) s t)
          ∧ ∀ c copy, q.kind = .cue → (s.head g).state = .rest → (s.head g).candidate = some c → c.stage = .staged copy →
              copy.claim = q.zones → (∀ q', (cuesInOrder (s.head g))[1]? = some q' → early q') →
              t.claims = []
              ∧ (s.cueDuration g c copy ≤ 65535 →
                  Started { s with zoneTable := Vector.ofFn (settledZone s h m) } t g c copy
                  ∧ (t.head g).slots = (s.head g).slots
                  ∧ Leaves (completeAreas h ++ [.move g, .cues g, .levels g, .claims]) s t)
              ∧ (65535 < s.cueDuration g c copy → (t.head g).state = .rest ∧ (t.head g).direct = none
                  ∧ (t.head g).queue = (if (s.head g).direct = none then (s.head g).queue.tail else (s.head g).queue)
                  ∧ Filed s t g .duration (some ⟨c.origin, c.shot, some copy.kind⟩) s.frame
                  ∧ (∀ z : Fin 32, t.zoneTable[z.val] = settledZone s h m z)
                  ∧ Leaves (completeAreas h ++ [.cues g, .claims, .headFault g, .attn]) s t)))
  ∧ ∀ (s : State) (bk : Bank) (h : HeadId) (m m1 m2 : MoveRec) (j : PageJob) (rest : List PageJob) (q1 q2 : Claim),
    Finishes s (.pointerWrite h bk) h m j rest → s.mode = .running → Releases s h m → s.claims = [q1, q2] →
    q1.kind = .restore → q2.kind = .restore → q1.head ≠ q2.head → q1.head ≠ h → q2.head ≠ h →
    (s.head q1.head).move = some m1 → (s.head q2.head).move = some m2 →
    ∃ t, exec (.pointerWriteEnd false) s = .next t ∧ Completes s t h m
      ∧ (Grantable s h m q1 → q1.zones &&& q2.zones ≠ 0 → t.claims = [q2]
          ∧ (t.head q1.head).move = some { m1 with pending := false } ∧ (t.head q2.head).move = some m2)
      ∧ (¬ Grantable s h m q1 → Grantable s h m q2 → t.claims = [q1] ∧ (t.head q1.head).move = some m1
          ∧ (t.head q2.head).move = some { m2 with pending := false })

/-! ## Saves and restores -/

/-- The address of a save slot (R100). -/
def Sys2Proof.slotBase (h : HeadId) (l : Level) : Nat := 0x15000 + (h.val * 4 + l.num - 1) * 0x40

/-- The saver's last job, of a head with no cue, is all that keeps the part in DRAINING (R32). -/
def Sys2Proof.lastToDrain (s : State) (h : HeadId) (rest : List SaveJob) : Prop :=
  s.mode = .draining ∧ (s.head h).noCue ∧ rest = [] ∧ s.pageJobs = [] ∧ s.busy .pageWriter = false
    ∧ ∀ g : HeadId, (s.head g).state ≠ .moving ∧ (s.head g).state ≠ .restoring

/-- The areas of the end of a save or of an empty tag write. -/
def Sys2Proof.saveAreas (h : HeadId) : List Area := [.memory, .freeValues, .grant] ++ examAreas h

/-- A head whose slot and its level have just been lost, with the saver's list then (R102, R113). -/
def Sys2Proof.slotLost (s : State) (h : HeadId) (l : Level) (jobs : List SaveJob) : State :=
  { s.setHead h fun hd => { hd.setSlot l none with levels := levelDrop hd.levels l } with saver := jobs }

/-- The end of a save's transfer and of an empty tag write, in RUNNING and DRAINING (R101, R102, R103, R113). A save without ERR leaves its
sixteen words in the slot, which stays occupied; with ERR, or marked by STOP to be discarded, the slot and its level are lost, with
SAVE_LOST after an ERR alone, and an empty tag job is placed. An empty tag write leaves the tag word 0, or raises MEMORY. The save buffer
is free once no job of the head is left that writes it. The head's candidate, if any, is examined (R94, R103), so that its first failing
gate is recorded anew; where it then fails a gate of STAGING to SAVE, cues, slots and levels are exactly so; what a start does is
StagedCandidateStarts and StartPreemptsOrRetargets. In DRAINING the end of the last job
halts the part (R32). A save that a RESET command has let run is followed by the EMPTY tag of its slot, let run too, and neither raises a
fault (R17, R115). -/
def Obligations.SaverTransfersEnd : Prop :=
  (∀ (s : State) (h : HeadId) (m m' : SavedMove) (r : CueRef) (d : Bool) (rest : List SaveJob) (err : BitVec 16),
    SaverRuns s (.save h m) ⟨.save m', h, m.level, r, d⟩ rest →
    ∃ t, exec (.saveTransferEnd err) s = .next t
      ∧ (err = 0 → t.mem.readWords (slotBase h m.level) 16 = m.words)
      ∧ (∀ a : Nat, a < slotBase h m.level ∨ slotBase h m.level + 64 ≤ a → t.mem.read a = s.mem.read a)
      ∧ (if err = 0 ∧ d = false then
          (t.mode = s.mode ∨ (s.mode = .draining ∧ t.mode = .halted)) ∧ (lastToDrain s h rest → t.mode = .halted)
          ∧ (t.mode = s.mode → Examined t h ∧ rest <+: t.saver ∧ Leaves (saveAreas h) s t
              ∧ (({ s with saver := rest } : State).Held h → t.saver = rest ∧ (t.head h).slots = (s.head h).slots
                  ∧ (t.head h).levels = (s.head h).levels ∧ ((∀ i ∈ rest, i.head ≠ h) → (t.head h).saveBuffer = none)
                  ∧ (t.head h).queue = (s.head h).queue ∧ (t.head h).direct = (s.head h).direct
                  ∧ Leaves [.memory, .grant, .saver, .levels h, .cues h, .claims] s t))
         else
          Examined t h ∧ t.saver = rest ++ [⟨.emptyTag, h, m.level, r, false⟩] ∧ (t.head h).slotRef m.level = none
          ∧ (err ≠ 0 → Raised s t h .saveLost (some r) s.frame) ∧ Leaves (saveAreas h) s t
          ∧ ((slotLost s h m.level (rest ++ [⟨.emptyTag, h, m.level, r, false⟩])).Held h →
              (t.head h).levels = levelDrop (s.head h).levels m.level
              ∧ (∀ l, l ≠ m.level → (t.head h).slotRef l = (s.head h).slotRef l)
              ∧ (t.head h).queue = (s.head h).queue ∧ (t.head h).direct = (s.head h).direct
              ∧ (if err = 0 then t.status.headFaults[h.val] = s.status.headFaults[h.val]
                 else Filed s t h .saveLost (some r) s.frame)
              ∧ Leaves [.memory, .freeValues, .grant, .saver, .levels h, .cues h, .claims, .headFault h, .attn] s t)))
  ∧ (∀ (s : State) (h : HeadId) (l : Level) (r : CueRef) (d : Bool) (rest : List SaveJob) (err : Bool),
    SaverRuns s (.emptyTag h l) ⟨.emptyTag, h, l, r, d⟩ rest →
    ∃ t, exec (.emptyTagWriteEnd err) s = .next t
      ∧ (∀ a : Nat, a < slotBase h l + 60 ∨ slotBase h l + 64 ≤ a → t.mem.read a = s.mem.read a)
      ∧ (err = false → t.mem.readWord (slotBase h l + 60) = 0)
      ∧ (err = true → Raised s t h .memory (some r) s.frame)
      ∧ (t.mode = s.mode ∨ (s.mode = .draining ∧ t.mode = .halted)) ∧ (lastToDrain s h rest → t.mode = .halted)
      ∧ (t.mode = s.mode → Examined t h ∧ rest <+: t.saver ∧ Leaves (saveAreas h) s t
          ∧ (({ s with saver := rest } : State).Held h → t.saver = rest
              ∧ (t.head h).queue = (s.head h).queue ∧ (t.head h).direct = (s.head h).direct
              ∧ (if err then Filed s t h .memory (some r) s.frame
                 else t.status.headFaults[h.val] = s.status.headFaults[h.val])
              ∧ (t.head h).slots = (s.head h).slots ∧ (t.head h).levels = (s.head h).levels
              ∧ ((∀ i ∈ rest, i.head ≠ h) → (t.head h).saveBuffer = none)
              ∧ Leaves [.memory, .freeValues, .grant, .saver, .levels h, .cues h, .claims, .headFault h, .attn] s t)))
  ∧ (∀ (s : State) (h : HeadId) (m : SavedMove) (err : BitVec 16), LetRun s (.save h m) →
    ∃ t, exec (.saveTransferEnd err) s = .next t ∧ (err = 0 → t.mem.readWords (slotBase h m.level) 16 = m.words)
      ∧ (∀ a : Nat, a < slotBase h m.level ∨ slotBase h m.level + 64 ≤ a → t.mem.read a = s.mem.read a)
      ∧ (∃ q ∈ t.waiting, q.xfer = .emptyTag h m.level ∧ q.letRun = true) ∧ Leaves [.memory, .freeValues, .grant] s t)
  ∧ ∀ (s : State) (h : HeadId) (l : Level) (err : Bool), LetRun s (.emptyTag h l) →
    ∃ t, exec (.emptyTagWriteEnd err) s = .next t ∧ (err = false → t.mem.readWord (slotBase h l + 60) = 0)
      ∧ (∀ a : Nat, a < slotBase h l + 60 ∨ slotBase h l + 64 ≤ a → t.mem.read a = s.mem.read a)
      ∧ Leaves [.memory, .freeValues, .grant] s t

/-- The saved move that the sixteen words of a slot hold (section 11.5). -/
def Sys2Proof.savedAt (s : State) (h : HeadId) (l : Level) : SavedMove := SavedMove.ofWords l (s.mem.readWords (slotBase h l) 16)

/-- The target of a restored move (R109): a HEAD move keeps the X, Y and LIFT where the head stands. -/
def Sys2Proof.restoredTarget (s : State) (h : HeadId) (m : SavedMove) : Pose :=
  if m.ref.kind = some .head then
    { m.target with x := (s.head h).pose.x, y := (s.head h).pose.y, lift := (s.head h).pose.lift }
  else m.target

/-- The effective duration of a restored move (R109, R120): that of max(1, D − k) frames from the pose the head has now. -/
def Sys2Proof.restoredDuration (s : State) (h : HeadId) (m : SavedMove) : Nat :=
  effectiveDuration (s.headRec h) (s.levelRec m.level).scale (s.tables.curveOrZero m.curve).peak (max 1 (m.dur - m.k))
    (s.head h).pose (restoredTarget s h m)

/-- The record of a restored move replanned from the words of its slot (R109). -/
def Sys2Proof.replanned (s : State) (h : HeadId) (m : SavedMove) (pending : Bool) : MoveRec :=
  { origin := (s.head h).pose, target := restoredTarget s h m, curve := m.curve, dur := restoredDuration s h m, k := 0,
    level := m.level, ref := m.ref, stand := m.stand, path := m.path, pending := pending }

/-- The level of a lost move has left the set, and the next level down is restored if its slot is occupied; else the head is in REST
(R108, R110). -/
def Sys2Proof.NextLevelDown (s t : State) (h : HeadId) (l : Level) (rest : List SaveJob) (r : CueRef) : Prop :=
  (t.head h).levels = levelDrop (s.head h).levels l
    ∧ ((∀ l', highest (levelDrop (s.head h).levels l) = some l' → l' ≠ l ∧ (s.head h).slotRef l' = none) →
        (t.head h).state = .rest ∧ t.saver = rest ++ [⟨.emptyTag, h, l, r, false⟩])
    ∧ ∀ l' r', highest (levelDrop (s.head h).levels l) = some l' → l' ≠ l → (s.head h).slotRef l' = some r' →
        (t.head h).state = .restoring ∧ t.saver = rest ++ [⟨.emptyTag, h, l, r, false⟩, ⟨.restore, h, l', r', false⟩]

/-- The end of a restore read, in RUNNING and DRAINING (R108 to R110, R142). The slot is empty behind it, with an empty tag job. A failed
read, by ERR or by its tag word, loses the level with RESTORE_LOST, and a duration above 65535 the move with DURATION. Otherwise the head
is MOVING with the replanned record: pending and without a claim while the head is frozen, or on air at a level that may not start so;
started if its zones are FREE or its own; pending with a waiting claim if not, or lost with ZONE_TIMEOUT where the level's patience is 0.
After a loss the next level down is restored, or the head is in REST. That is for a head with no cue and no RESTORE claim; any head examines
its candidate. -/
def Obligations.RestoreReadEndsInMoveOrLoss : Prop :=
  ∀ (s : State) (h : HeadId) (l : Level) (r : CueRef) (d err : Bool) (order : List Recheck) (rest : List SaveJob),
    SaverRuns s (.restore h l) ⟨.restore, h, l, r, d⟩ rest → (s.head h).state = .restoring →
    ∃ t, exec (.restoreReadEnd err order) s = .next t
      ∧ t.saver.take (rest.length + 1) = rest ++ [⟨.emptyTag, h, l, r, false⟩] ∧ Examined t h
      ∧ Leaves ([.grant, .saver] ++ examAreas h) s t
      ∧ (err = true ∨ s.mem.readWord (slotBase h l + 60) ≠ BitVec.ofNat 32 (0x5A7E0000 + l.num) →
          (t.head h).slotRef l = none ∧ Raised s t h .restoreLost (some r) s.frame)
      ∧ ((s.head h).noCue → (t.head h).slotRef l = none
          ∧ (err = true ∨ s.mem.readWord (slotBase h l + 60) ≠ BitVec.ofNat 32 (0x5A7E0000 + l.num) →
              Filed s t h .restoreLost (some r) s.frame ∧ NextLevelDown s t h l rest r)
          ∧ (err = false → s.mem.readWord (slotBase h l + 60) = BitVec.ofNat 32 (0x5A7E0000 + l.num) →
              s.claimOf h .restore = none → ∀ m, m = savedAt s h l →
              if 65535 < restoredDuration s h m then
                Filed s t h .duration (some m.ref) s.frame ∧ NextLevelDown s t h l rest r
              else if (s.head h).freeze.any = true ∨ ((s.head h).onAir = true ∧ (s.levelRec l).mayStartOnAir = false) then
                (t.head h).state = .moving ∧ (t.head h).levels = (s.head h).levels
                ∧ (t.head h).move = some (replanned s h m true) ∧ t.claimOf h .restore = none
                ∧ (∀ z : Fin 32, t.zoneTable[z.val] = s.zoneTable[z.val])
              else if ∀ z : Fin 32, (m.stand ||| m.path).getLsbD z.val = true →
                  s.zoneTable[z.val] = none ∨ s.zoneTable[z.val] = some h then
                (t.head h).state = .moving ∧ (t.head h).levels = (s.head h).levels
                ∧ (t.head h).move = some (replanned s h m false)
                ∧ (∀ z : Fin 32, t.zoneTable[z.val] =
                    if (m.stand ||| m.path).getLsbD z.val then some h else s.zoneTable[z.val])
              else if (s.levelRec l).patience = 0 then
                Filed s t h .zoneTimeout (some m.ref) s.frame ∧ (t.head h).move = none ∧ NextLevelDown s t h l rest r
              else
                (t.head h).state = .moving ∧ (t.head h).levels = (s.head h).levels
                ∧ (t.head h).move = some (replanned s h m true)
                ∧ t.claimOf h .restore = some ⟨h, .restore, l, m.stand ||| m.path, (s.levelRec l).patience⟩
                ∧ (∀ z : Fin 32, t.zoneTable[z.val] = s.zoneTable[z.val])))

/-! ## Status transfers -/

/-- The end of a status transfer (R165, R169, R170), let run by a RESET command or not: the words of the copy are in the record without
ERR, and no byte outside the sixteen words of the transfer changes; after the first half of a head record the second is requested with the
same job, let run if the first was; after the last transfer the job is over, and a job with an ERR leaves its record owed. Update counts
and fault records are left. Whatever the command, a record whose fields differ before and after it, as the words that a write would carry
then, is owed afterwards (R166; that fields are compared before and after an event is the model's reading, log entry 23). -/
def Obligations.StatusTransfersEnd : Prop :=
  (∀ (c : Instr) (s t : State) (r : RecId), exec c s = .next t → t.image r 0 ≠ s.image r 0 → t.status.owed[r.val] = true)
  ∧ ∀ (s : State) (r : RecId) (half : Half) (copy : List Word) (failed l d : Bool) (err : BitVec 16), s.settled → s.memoryOk →
    s.grant = some ⟨.status r half, l, d⟩ → s.status.job = some ⟨r, copy, failed⟩ →
    copy.length = (if r.val = 0 then 16 else 32) → (r.val = 0 → half = .first) →
    ∃ t, exec (.statusTransferEnd err) s = .next t
      ∧ (err = 0 → t.mem.readWords (statusAddr r + (if half = .first then 0 else 64)) 16 =
          if half = .first then copy.take 16 else copy.drop 16)
      ∧ (∀ a : Nat, a < statusAddr r + (if half = .first then 0 else 64)
            ∨ statusAddr r + (if half = .first then 0 else 64) + 64 ≤ a → t.mem.read a = s.mem.read a)
      ∧ (half = .first → r.val ≠ 0 → t.status.job = some ⟨r, copy, failed || decide (err ≠ 0)⟩
          ∧ ∃ q ∈ t.waiting, q.xfer = .status r .second ∧ q.letRun = l)
      ∧ (half = .second ∨ r.val = 0 → (failed || decide (err ≠ 0)) = true → t.status.owed[r.val] = true)
      ∧ (half = .second ∨ r.val = 0 → ∀ j, t.status.job = some j → j.copy = [] ∧ s.inReset = false)
      ∧ Leaves [.memory, .freeValues, .grant, .statusJob] s t
end

