-- ==== Sys2Proof/Laws/State.lean ====
section
/-! SUPPORT. Laws/State.lean: for each named update of the state, the fields it leaves and the value it gives, one lemma per
field, and what a changed head reads. Every field lemma is true by rfl, so that no later proof unfolds a record update. -/
namespace Sys2Proof.Machine

/-! ## State.setNear changes near alone -/

@[simp] theorem setNear_pins (s : State) (f : NearPort → NearPort) : (s.setNear f).pins = s.pins := rfl
@[simp] theorem setNear_mem (s : State) (f : NearPort → NearPort) : (s.setNear f).mem = s.mem := rfl
@[simp] theorem setNear_grant (s : State) (f : NearPort → NearPort) : (s.setNear f).grant = s.grant := rfl
@[simp] theorem setNear_waiting (s : State) (f : NearPort → NearPort) : (s.setNear f).waiting = s.waiting := rfl
@[simp] theorem setNear_lastRefusal (s : State) (f : NearPort → NearPort) : (s.setNear f).lastRefusal = s.lastRefusal := rfl
@[simp] theorem setNear_mode (s : State) (f : NearPort → NearPort) : (s.setNear f).mode = s.mode := rfl
@[simp] theorem setNear_cause (s : State) (f : NearPort → NearPort) : (s.setNear f).cause = s.cause := rfl
@[simp] theorem setNear_startResult (s : State) (f : NearPort → NearPort) : (s.setNear f).startResult = s.startResult := rfl
@[simp] theorem setNear_tables (s : State) (f : NearPort → NearPort) : (s.setNear f).tables = s.tables := rfl
@[simp] theorem setNear_loader (s : State) (f : NearPort → NearPort) : (s.setNear f).loader = s.loader := rfl
@[simp] theorem setNear_fetcher (s : State) (f : NearPort → NearPort) : (s.setNear f).fetcher = s.fetcher := rfl
@[simp] theorem setNear_heads (s : State) (f : NearPort → NearPort) : (s.setNear f).heads = s.heads := rfl
@[simp] theorem setNear_stager (s : State) (f : NearPort → NearPort) : (s.setNear f).stager = s.stager := rfl
@[simp] theorem setNear_adopter (s : State) (f : NearPort → NearPort) : (s.setNear f).adopter = s.adopter := rfl
@[simp] theorem setNear_saver (s : State) (f : NearPort → NearPort) : (s.setNear f).saver = s.saver := rfl
@[simp] theorem setNear_pageJobs (s : State) (f : NearPort → NearPort) : (s.setNear f).pageJobs = s.pageJobs := rfl
@[simp] theorem setNear_frame (s : State) (f : NearPort → NearPort) : (s.setNear f).frame = s.frame := rfl
@[simp] theorem setNear_zoneTable (s : State) (f : NearPort → NearPort) : (s.setNear f).zoneTable = s.zoneTable := rfl
@[simp] theorem setNear_claims (s : State) (f : NearPort → NearPort) : (s.setNear f).claims = s.claims := rfl
@[simp] theorem setNear_floorStop (s : State) (f : NearPort → NearPort) : (s.setNear f).floorStop = s.floorStop := rfl
@[simp] theorem setNear_status (s : State) (f : NearPort → NearPort) : (s.setNear f).status = s.status := rfl
@[simp] theorem setNear_due (s : State) (f : NearPort → NearPort) : (s.setNear f).due = s.due := rfl
@[simp] theorem setNear_eventNo (s : State) (f : NearPort → NearPort) : (s.setNear f).eventNo = s.eventNo := rfl
@[simp] theorem setNear_freeCount (s : State) (f : NearPort → NearPort) : (s.setNear f).freeCount = s.freeCount := rfl
@[simp] theorem setNear_pending (s : State) (f : NearPort → NearPort) : (s.setNear f).pending = s.pending := rfl
@[simp] theorem setNear_near (s : State) (f : NearPort → NearPort) : (s.setNear f).near = f s.near := rfl

/-! ## State.setPins changes pins alone -/

@[simp] theorem setPins_near (s : State) (f : Pins → Pins) : (s.setPins f).near = s.near := rfl
@[simp] theorem setPins_mem (s : State) (f : Pins → Pins) : (s.setPins f).mem = s.mem := rfl
@[simp] theorem setPins_grant (s : State) (f : Pins → Pins) : (s.setPins f).grant = s.grant := rfl
@[simp] theorem setPins_waiting (s : State) (f : Pins → Pins) : (s.setPins f).waiting = s.waiting := rfl
@[simp] theorem setPins_lastRefusal (s : State) (f : Pins → Pins) : (s.setPins f).lastRefusal = s.lastRefusal := rfl
@[simp] theorem setPins_mode (s : State) (f : Pins → Pins) : (s.setPins f).mode = s.mode := rfl
@[simp] theorem setPins_cause (s : State) (f : Pins → Pins) : (s.setPins f).cause = s.cause := rfl
@[simp] theorem setPins_startResult (s : State) (f : Pins → Pins) : (s.setPins f).startResult = s.startResult := rfl
@[simp] theorem setPins_tables (s : State) (f : Pins → Pins) : (s.setPins f).tables = s.tables := rfl
@[simp] theorem setPins_loader (s : State) (f : Pins → Pins) : (s.setPins f).loader = s.loader := rfl
@[simp] theorem setPins_fetcher (s : State) (f : Pins → Pins) : (s.setPins f).fetcher = s.fetcher := rfl
@[simp] theorem setPins_heads (s : State) (f : Pins → Pins) : (s.setPins f).heads = s.heads := rfl
@[simp] theorem setPins_stager (s : State) (f : Pins → Pins) : (s.setPins f).stager = s.stager := rfl
@[simp] theorem setPins_adopter (s : State) (f : Pins → Pins) : (s.setPins f).adopter = s.adopter := rfl
@[simp] theorem setPins_saver (s : State) (f : Pins → Pins) : (s.setPins f).saver = s.saver := rfl
@[simp] theorem setPins_pageJobs (s : State) (f : Pins → Pins) : (s.setPins f).pageJobs = s.pageJobs := rfl
@[simp] theorem setPins_frame (s : State) (f : Pins → Pins) : (s.setPins f).frame = s.frame := rfl
@[simp] theorem setPins_zoneTable (s : State) (f : Pins → Pins) : (s.setPins f).zoneTable = s.zoneTable := rfl
@[simp] theorem setPins_claims (s : State) (f : Pins → Pins) : (s.setPins f).claims = s.claims := rfl
@[simp] theorem setPins_floorStop (s : State) (f : Pins → Pins) : (s.setPins f).floorStop = s.floorStop := rfl
@[simp] theorem setPins_status (s : State) (f : Pins → Pins) : (s.setPins f).status = s.status := rfl
@[simp] theorem setPins_due (s : State) (f : Pins → Pins) : (s.setPins f).due = s.due := rfl
@[simp] theorem setPins_eventNo (s : State) (f : Pins → Pins) : (s.setPins f).eventNo = s.eventNo := rfl
@[simp] theorem setPins_freeCount (s : State) (f : Pins → Pins) : (s.setPins f).freeCount = s.freeCount := rfl
@[simp] theorem setPins_pending (s : State) (f : Pins → Pins) : (s.setPins f).pending = s.pending := rfl
@[simp] theorem setPins_pins (s : State) (f : Pins → Pins) : (s.setPins f).pins = f s.pins := rfl

/-! ## State.setMode changes mode alone -/

@[simp] theorem setMode_near (s : State) (m : PartMode) : (s.setMode m).near = s.near := rfl
@[simp] theorem setMode_pins (s : State) (m : PartMode) : (s.setMode m).pins = s.pins := rfl
@[simp] theorem setMode_mem (s : State) (m : PartMode) : (s.setMode m).mem = s.mem := rfl
@[simp] theorem setMode_grant (s : State) (m : PartMode) : (s.setMode m).grant = s.grant := rfl
@[simp] theorem setMode_waiting (s : State) (m : PartMode) : (s.setMode m).waiting = s.waiting := rfl
@[simp] theorem setMode_lastRefusal (s : State) (m : PartMode) : (s.setMode m).lastRefusal = s.lastRefusal := rfl
@[simp] theorem setMode_cause (s : State) (m : PartMode) : (s.setMode m).cause = s.cause := rfl
@[simp] theorem setMode_startResult (s : State) (m : PartMode) : (s.setMode m).startResult = s.startResult := rfl
@[simp] theorem setMode_tables (s : State) (m : PartMode) : (s.setMode m).tables = s.tables := rfl
@[simp] theorem setMode_loader (s : State) (m : PartMode) : (s.setMode m).loader = s.loader := rfl
@[simp] theorem setMode_fetcher (s : State) (m : PartMode) : (s.setMode m).fetcher = s.fetcher := rfl
@[simp] theorem setMode_heads (s : State) (m : PartMode) : (s.setMode m).heads = s.heads := rfl
@[simp] theorem setMode_stager (s : State) (m : PartMode) : (s.setMode m).stager = s.stager := rfl
@[simp] theorem setMode_adopter (s : State) (m : PartMode) : (s.setMode m).adopter = s.adopter := rfl
@[simp] theorem setMode_saver (s : State) (m : PartMode) : (s.setMode m).saver = s.saver := rfl
@[simp] theorem setMode_pageJobs (s : State) (m : PartMode) : (s.setMode m).pageJobs = s.pageJobs := rfl
@[simp] theorem setMode_frame (s : State) (m : PartMode) : (s.setMode m).frame = s.frame := rfl
@[simp] theorem setMode_zoneTable (s : State) (m : PartMode) : (s.setMode m).zoneTable = s.zoneTable := rfl
@[simp] theorem setMode_claims (s : State) (m : PartMode) : (s.setMode m).claims = s.claims := rfl
@[simp] theorem setMode_floorStop (s : State) (m : PartMode) : (s.setMode m).floorStop = s.floorStop := rfl
@[simp] theorem setMode_status (s : State) (m : PartMode) : (s.setMode m).status = s.status := rfl
@[simp] theorem setMode_due (s : State) (m : PartMode) : (s.setMode m).due = s.due := rfl
@[simp] theorem setMode_eventNo (s : State) (m : PartMode) : (s.setMode m).eventNo = s.eventNo := rfl
@[simp] theorem setMode_freeCount (s : State) (m : PartMode) : (s.setMode m).freeCount = s.freeCount := rfl
@[simp] theorem setMode_pending (s : State) (m : PartMode) : (s.setMode m).pending = s.pending := rfl
@[simp] theorem setMode_mode (s : State) (m : PartMode) : (s.setMode m).mode = m := rfl

/-! ## State.setTables changes tables alone -/

@[simp] theorem setTables_near (s : State) (f : Tables → Tables) : (s.setTables f).near = s.near := rfl
@[simp] theorem setTables_pins (s : State) (f : Tables → Tables) : (s.setTables f).pins = s.pins := rfl
@[simp] theorem setTables_mem (s : State) (f : Tables → Tables) : (s.setTables f).mem = s.mem := rfl
@[simp] theorem setTables_grant (s : State) (f : Tables → Tables) : (s.setTables f).grant = s.grant := rfl
@[simp] theorem setTables_waiting (s : State) (f : Tables → Tables) : (s.setTables f).waiting = s.waiting := rfl
@[simp] theorem setTables_lastRefusal (s : State) (f : Tables → Tables) : (s.setTables f).lastRefusal = s.lastRefusal := rfl
@[simp] theorem setTables_mode (s : State) (f : Tables → Tables) : (s.setTables f).mode = s.mode := rfl
@[simp] theorem setTables_cause (s : State) (f : Tables → Tables) : (s.setTables f).cause = s.cause := rfl
@[simp] theorem setTables_startResult (s : State) (f : Tables → Tables) : (s.setTables f).startResult = s.startResult := rfl
@[simp] theorem setTables_loader (s : State) (f : Tables → Tables) : (s.setTables f).loader = s.loader := rfl
@[simp] theorem setTables_fetcher (s : State) (f : Tables → Tables) : (s.setTables f).fetcher = s.fetcher := rfl
@[simp] theorem setTables_heads (s : State) (f : Tables → Tables) : (s.setTables f).heads = s.heads := rfl
@[simp] theorem setTables_stager (s : State) (f : Tables → Tables) : (s.setTables f).stager = s.stager := rfl
@[simp] theorem setTables_adopter (s : State) (f : Tables → Tables) : (s.setTables f).adopter = s.adopter := rfl
@[simp] theorem setTables_saver (s : State) (f : Tables → Tables) : (s.setTables f).saver = s.saver := rfl
@[simp] theorem setTables_pageJobs (s : State) (f : Tables → Tables) : (s.setTables f).pageJobs = s.pageJobs := rfl
@[simp] theorem setTables_frame (s : State) (f : Tables → Tables) : (s.setTables f).frame = s.frame := rfl
@[simp] theorem setTables_zoneTable (s : State) (f : Tables → Tables) : (s.setTables f).zoneTable = s.zoneTable := rfl
@[simp] theorem setTables_claims (s : State) (f : Tables → Tables) : (s.setTables f).claims = s.claims := rfl
@[simp] theorem setTables_floorStop (s : State) (f : Tables → Tables) : (s.setTables f).floorStop = s.floorStop := rfl
@[simp] theorem setTables_status (s : State) (f : Tables → Tables) : (s.setTables f).status = s.status := rfl
@[simp] theorem setTables_due (s : State) (f : Tables → Tables) : (s.setTables f).due = s.due := rfl
@[simp] theorem setTables_eventNo (s : State) (f : Tables → Tables) : (s.setTables f).eventNo = s.eventNo := rfl
@[simp] theorem setTables_freeCount (s : State) (f : Tables → Tables) : (s.setTables f).freeCount = s.freeCount := rfl
@[simp] theorem setTables_pending (s : State) (f : Tables → Tables) : (s.setTables f).pending = s.pending := rfl
@[simp] theorem setTables_tables (s : State) (f : Tables → Tables) : (s.setTables f).tables = f s.tables := rfl

/-! ## State.setStager changes stager alone -/

@[simp] theorem setStager_near (s : State) (f : Stager → Stager) : (s.setStager f).near = s.near := rfl
@[simp] theorem setStager_pins (s : State) (f : Stager → Stager) : (s.setStager f).pins = s.pins := rfl
@[simp] theorem setStager_mem (s : State) (f : Stager → Stager) : (s.setStager f).mem = s.mem := rfl
@[simp] theorem setStager_grant (s : State) (f : Stager → Stager) : (s.setStager f).grant = s.grant := rfl
@[simp] theorem setStager_waiting (s : State) (f : Stager → Stager) : (s.setStager f).waiting = s.waiting := rfl
@[simp] theorem setStager_lastRefusal (s : State) (f : Stager → Stager) : (s.setStager f).lastRefusal = s.lastRefusal := rfl
@[simp] theorem setStager_mode (s : State) (f : Stager → Stager) : (s.setStager f).mode = s.mode := rfl
@[simp] theorem setStager_cause (s : State) (f : Stager → Stager) : (s.setStager f).cause = s.cause := rfl
@[simp] theorem setStager_startResult (s : State) (f : Stager → Stager) : (s.setStager f).startResult = s.startResult := rfl
@[simp] theorem setStager_tables (s : State) (f : Stager → Stager) : (s.setStager f).tables = s.tables := rfl
@[simp] theorem setStager_loader (s : State) (f : Stager → Stager) : (s.setStager f).loader = s.loader := rfl
@[simp] theorem setStager_fetcher (s : State) (f : Stager → Stager) : (s.setStager f).fetcher = s.fetcher := rfl
@[simp] theorem setStager_heads (s : State) (f : Stager → Stager) : (s.setStager f).heads = s.heads := rfl
@[simp] theorem setStager_adopter (s : State) (f : Stager → Stager) : (s.setStager f).adopter = s.adopter := rfl
@[simp] theorem setStager_saver (s : State) (f : Stager → Stager) : (s.setStager f).saver = s.saver := rfl
@[simp] theorem setStager_pageJobs (s : State) (f : Stager → Stager) : (s.setStager f).pageJobs = s.pageJobs := rfl
@[simp] theorem setStager_frame (s : State) (f : Stager → Stager) : (s.setStager f).frame = s.frame := rfl
@[simp] theorem setStager_zoneTable (s : State) (f : Stager → Stager) : (s.setStager f).zoneTable = s.zoneTable := rfl
@[simp] theorem setStager_claims (s : State) (f : Stager → Stager) : (s.setStager f).claims = s.claims := rfl
@[simp] theorem setStager_floorStop (s : State) (f : Stager → Stager) : (s.setStager f).floorStop = s.floorStop := rfl
@[simp] theorem setStager_status (s : State) (f : Stager → Stager) : (s.setStager f).status = s.status := rfl
@[simp] theorem setStager_due (s : State) (f : Stager → Stager) : (s.setStager f).due = s.due := rfl
@[simp] theorem setStager_eventNo (s : State) (f : Stager → Stager) : (s.setStager f).eventNo = s.eventNo := rfl
@[simp] theorem setStager_freeCount (s : State) (f : Stager → Stager) : (s.setStager f).freeCount = s.freeCount := rfl
@[simp] theorem setStager_pending (s : State) (f : Stager → Stager) : (s.setStager f).pending = s.pending := rfl
@[simp] theorem setStager_stager (s : State) (f : Stager → Stager) : (s.setStager f).stager = f s.stager := rfl

/-! ## State.setAdopter changes adopter alone -/

@[simp] theorem setAdopter_near (s : State) (f : Adopter → Adopter) : (s.setAdopter f).near = s.near := rfl
@[simp] theorem setAdopter_pins (s : State) (f : Adopter → Adopter) : (s.setAdopter f).pins = s.pins := rfl
@[simp] theorem setAdopter_mem (s : State) (f : Adopter → Adopter) : (s.setAdopter f).mem = s.mem := rfl
@[simp] theorem setAdopter_grant (s : State) (f : Adopter → Adopter) : (s.setAdopter f).grant = s.grant := rfl
@[simp] theorem setAdopter_waiting (s : State) (f : Adopter → Adopter) : (s.setAdopter f).waiting = s.waiting := rfl
@[simp] theorem setAdopter_lastRefusal (s : State) (f : Adopter → Adopter) : (s.setAdopter f).lastRefusal = s.lastRefusal := rfl
@[simp] theorem setAdopter_mode (s : State) (f : Adopter → Adopter) : (s.setAdopter f).mode = s.mode := rfl
@[simp] theorem setAdopter_cause (s : State) (f : Adopter → Adopter) : (s.setAdopter f).cause = s.cause := rfl
@[simp] theorem setAdopter_startResult (s : State) (f : Adopter → Adopter) : (s.setAdopter f).startResult = s.startResult := rfl
@[simp] theorem setAdopter_tables (s : State) (f : Adopter → Adopter) : (s.setAdopter f).tables = s.tables := rfl
@[simp] theorem setAdopter_loader (s : State) (f : Adopter → Adopter) : (s.setAdopter f).loader = s.loader := rfl
@[simp] theorem setAdopter_fetcher (s : State) (f : Adopter → Adopter) : (s.setAdopter f).fetcher = s.fetcher := rfl
@[simp] theorem setAdopter_heads (s : State) (f : Adopter → Adopter) : (s.setAdopter f).heads = s.heads := rfl
@[simp] theorem setAdopter_stager (s : State) (f : Adopter → Adopter) : (s.setAdopter f).stager = s.stager := rfl
@[simp] theorem setAdopter_saver (s : State) (f : Adopter → Adopter) : (s.setAdopter f).saver = s.saver := rfl
@[simp] theorem setAdopter_pageJobs (s : State) (f : Adopter → Adopter) : (s.setAdopter f).pageJobs = s.pageJobs := rfl
@[simp] theorem setAdopter_frame (s : State) (f : Adopter → Adopter) : (s.setAdopter f).frame = s.frame := rfl
@[simp] theorem setAdopter_zoneTable (s : State) (f : Adopter → Adopter) : (s.setAdopter f).zoneTable = s.zoneTable := rfl
@[simp] theorem setAdopter_claims (s : State) (f : Adopter → Adopter) : (s.setAdopter f).claims = s.claims := rfl
@[simp] theorem setAdopter_floorStop (s : State) (f : Adopter → Adopter) : (s.setAdopter f).floorStop = s.floorStop := rfl
@[simp] theorem setAdopter_status (s : State) (f : Adopter → Adopter) : (s.setAdopter f).status = s.status := rfl
@[simp] theorem setAdopter_due (s : State) (f : Adopter → Adopter) : (s.setAdopter f).due = s.due := rfl
@[simp] theorem setAdopter_eventNo (s : State) (f : Adopter → Adopter) : (s.setAdopter f).eventNo = s.eventNo := rfl
@[simp] theorem setAdopter_freeCount (s : State) (f : Adopter → Adopter) : (s.setAdopter f).freeCount = s.freeCount := rfl
@[simp] theorem setAdopter_pending (s : State) (f : Adopter → Adopter) : (s.setAdopter f).pending = s.pending := rfl
@[simp] theorem setAdopter_adopter (s : State) (f : Adopter → Adopter) : (s.setAdopter f).adopter = f s.adopter := rfl

/-! ## State.setSaver changes saver alone -/

@[simp] theorem setSaver_near (s : State) (f : List SaveJob → List SaveJob) : (s.setSaver f).near = s.near := rfl
@[simp] theorem setSaver_pins (s : State) (f : List SaveJob → List SaveJob) : (s.setSaver f).pins = s.pins := rfl
@[simp] theorem setSaver_mem (s : State) (f : List SaveJob → List SaveJob) : (s.setSaver f).mem = s.mem := rfl
@[simp] theorem setSaver_grant (s : State) (f : List SaveJob → List SaveJob) : (s.setSaver f).grant = s.grant := rfl
@[simp] theorem setSaver_waiting (s : State) (f : List SaveJob → List SaveJob) : (s.setSaver f).waiting = s.waiting := rfl
@[simp] theorem setSaver_lastRefusal (s : State) (f : List SaveJob → List SaveJob) : (s.setSaver f).lastRefusal = s.lastRefusal := rfl
@[simp] theorem setSaver_mode (s : State) (f : List SaveJob → List SaveJob) : (s.setSaver f).mode = s.mode := rfl
@[simp] theorem setSaver_cause (s : State) (f : List SaveJob → List SaveJob) : (s.setSaver f).cause = s.cause := rfl
@[simp] theorem setSaver_startResult (s : State) (f : List SaveJob → List SaveJob) : (s.setSaver f).startResult = s.startResult := rfl
@[simp] theorem setSaver_tables (s : State) (f : List SaveJob → List SaveJob) : (s.setSaver f).tables = s.tables := rfl
@[simp] theorem setSaver_loader (s : State) (f : List SaveJob → List SaveJob) : (s.setSaver f).loader = s.loader := rfl
@[simp] theorem setSaver_fetcher (s : State) (f : List SaveJob → List SaveJob) : (s.setSaver f).fetcher = s.fetcher := rfl
@[simp] theorem setSaver_heads (s : State) (f : List SaveJob → List SaveJob) : (s.setSaver f).heads = s.heads := rfl
@[simp] theorem setSaver_stager (s : State) (f : List SaveJob → List SaveJob) : (s.setSaver f).stager = s.stager := rfl
@[simp] theorem setSaver_adopter (s : State) (f : List SaveJob → List SaveJob) : (s.setSaver f).adopter = s.adopter := rfl
@[simp] theorem setSaver_pageJobs (s : State) (f : List SaveJob → List SaveJob) : (s.setSaver f).pageJobs = s.pageJobs := rfl
@[simp] theorem setSaver_frame (s : State) (f : List SaveJob → List SaveJob) : (s.setSaver f).frame = s.frame := rfl
@[simp] theorem setSaver_zoneTable (s : State) (f : List SaveJob → List SaveJob) : (s.setSaver f).zoneTable = s.zoneTable := rfl
@[simp] theorem setSaver_claims (s : State) (f : List SaveJob → List SaveJob) : (s.setSaver f).claims = s.claims := rfl
@[simp] theorem setSaver_floorStop (s : State) (f : List SaveJob → List SaveJob) : (s.setSaver f).floorStop = s.floorStop := rfl
@[simp] theorem setSaver_status (s : State) (f : List SaveJob → List SaveJob) : (s.setSaver f).status = s.status := rfl
@[simp] theorem setSaver_due (s : State) (f : List SaveJob → List SaveJob) : (s.setSaver f).due = s.due := rfl
@[simp] theorem setSaver_eventNo (s : State) (f : List SaveJob → List SaveJob) : (s.setSaver f).eventNo = s.eventNo := rfl
@[simp] theorem setSaver_freeCount (s : State) (f : List SaveJob → List SaveJob) : (s.setSaver f).freeCount = s.freeCount := rfl
@[simp] theorem setSaver_pending (s : State) (f : List SaveJob → List SaveJob) : (s.setSaver f).pending = s.pending := rfl
@[simp] theorem setSaver_saver (s : State) (f : List SaveJob → List SaveJob) : (s.setSaver f).saver = f s.saver := rfl

/-! ## State.setPageJobs changes pageJobs alone -/

@[simp] theorem setPageJobs_near (s : State) (f : List PageJob → List PageJob) : (s.setPageJobs f).near = s.near := rfl
@[simp] theorem setPageJobs_pins (s : State) (f : List PageJob → List PageJob) : (s.setPageJobs f).pins = s.pins := rfl
@[simp] theorem setPageJobs_mem (s : State) (f : List PageJob → List PageJob) : (s.setPageJobs f).mem = s.mem := rfl
@[simp] theorem setPageJobs_grant (s : State) (f : List PageJob → List PageJob) : (s.setPageJobs f).grant = s.grant := rfl
@[simp] theorem setPageJobs_waiting (s : State) (f : List PageJob → List PageJob) : (s.setPageJobs f).waiting = s.waiting := rfl
@[simp] theorem setPageJobs_lastRefusal (s : State) (f : List PageJob → List PageJob) : (s.setPageJobs f).lastRefusal = s.lastRefusal := rfl
@[simp] theorem setPageJobs_mode (s : State) (f : List PageJob → List PageJob) : (s.setPageJobs f).mode = s.mode := rfl
@[simp] theorem setPageJobs_cause (s : State) (f : List PageJob → List PageJob) : (s.setPageJobs f).cause = s.cause := rfl
@[simp] theorem setPageJobs_startResult (s : State) (f : List PageJob → List PageJob) : (s.setPageJobs f).startResult = s.startResult := rfl
@[simp] theorem setPageJobs_tables (s : State) (f : List PageJob → List PageJob) : (s.setPageJobs f).tables = s.tables := rfl
@[simp] theorem setPageJobs_loader (s : State) (f : List PageJob → List PageJob) : (s.setPageJobs f).loader = s.loader := rfl
@[simp] theorem setPageJobs_fetcher (s : State) (f : List PageJob → List PageJob) : (s.setPageJobs f).fetcher = s.fetcher := rfl
@[simp] theorem setPageJobs_heads (s : State) (f : List PageJob → List PageJob) : (s.setPageJobs f).heads = s.heads := rfl
@[simp] theorem setPageJobs_stager (s : State) (f : List PageJob → List PageJob) : (s.setPageJobs f).stager = s.stager := rfl
@[simp] theorem setPageJobs_adopter (s : State) (f : List PageJob → List PageJob) : (s.setPageJobs f).adopter = s.adopter := rfl
@[simp] theorem setPageJobs_saver (s : State) (f : List PageJob → List PageJob) : (s.setPageJobs f).saver = s.saver := rfl
@[simp] theorem setPageJobs_frame (s : State) (f : List PageJob → List PageJob) : (s.setPageJobs f).frame = s.frame := rfl
@[simp] theorem setPageJobs_zoneTable (s : State) (f : List PageJob → List PageJob) : (s.setPageJobs f).zoneTable = s.zoneTable := rfl
@[simp] theorem setPageJobs_claims (s : State) (f : List PageJob → List PageJob) : (s.setPageJobs f).claims = s.claims := rfl
@[simp] theorem setPageJobs_floorStop (s : State) (f : List PageJob → List PageJob) : (s.setPageJobs f).floorStop = s.floorStop := rfl
@[simp] theorem setPageJobs_status (s : State) (f : List PageJob → List PageJob) : (s.setPageJobs f).status = s.status := rfl
@[simp] theorem setPageJobs_due (s : State) (f : List PageJob → List PageJob) : (s.setPageJobs f).due = s.due := rfl
@[simp] theorem setPageJobs_eventNo (s : State) (f : List PageJob → List PageJob) : (s.setPageJobs f).eventNo = s.eventNo := rfl
@[simp] theorem setPageJobs_freeCount (s : State) (f : List PageJob → List PageJob) : (s.setPageJobs f).freeCount = s.freeCount := rfl
@[simp] theorem setPageJobs_pending (s : State) (f : List PageJob → List PageJob) : (s.setPageJobs f).pending = s.pending := rfl
@[simp] theorem setPageJobs_pageJobs (s : State) (f : List PageJob → List PageJob) : (s.setPageJobs f).pageJobs = f s.pageJobs := rfl

/-! ## State.setZoneTable changes zoneTable alone -/

@[simp] theorem setZoneTable_near (s : State) (t : Vector (Option HeadId) 32) : (s.setZoneTable t).near = s.near := rfl
@[simp] theorem setZoneTable_pins (s : State) (t : Vector (Option HeadId) 32) : (s.setZoneTable t).pins = s.pins := rfl
@[simp] theorem setZoneTable_mem (s : State) (t : Vector (Option HeadId) 32) : (s.setZoneTable t).mem = s.mem := rfl
@[simp] theorem setZoneTable_grant (s : State) (t : Vector (Option HeadId) 32) : (s.setZoneTable t).grant = s.grant := rfl
@[simp] theorem setZoneTable_waiting (s : State) (t : Vector (Option HeadId) 32) : (s.setZoneTable t).waiting = s.waiting := rfl
@[simp] theorem setZoneTable_lastRefusal (s : State) (t : Vector (Option HeadId) 32) : (s.setZoneTable t).lastRefusal = s.lastRefusal := rfl
@[simp] theorem setZoneTable_mode (s : State) (t : Vector (Option HeadId) 32) : (s.setZoneTable t).mode = s.mode := rfl
@[simp] theorem setZoneTable_cause (s : State) (t : Vector (Option HeadId) 32) : (s.setZoneTable t).cause = s.cause := rfl
@[simp] theorem setZoneTable_startResult (s : State) (t : Vector (Option HeadId) 32) : (s.setZoneTable t).startResult = s.startResult := rfl
@[simp] theorem setZoneTable_tables (s : State) (t : Vector (Option HeadId) 32) : (s.setZoneTable t).tables = s.tables := rfl
@[simp] theorem setZoneTable_loader (s : State) (t : Vector (Option HeadId) 32) : (s.setZoneTable t).loader = s.loader := rfl
@[simp] theorem setZoneTable_fetcher (s : State) (t : Vector (Option HeadId) 32) : (s.setZoneTable t).fetcher = s.fetcher := rfl
@[simp] theorem setZoneTable_heads (s : State) (t : Vector (Option HeadId) 32) : (s.setZoneTable t).heads = s.heads := rfl
@[simp] theorem setZoneTable_stager (s : State) (t : Vector (Option HeadId) 32) : (s.setZoneTable t).stager = s.stager := rfl
@[simp] theorem setZoneTable_adopter (s : State) (t : Vector (Option HeadId) 32) : (s.setZoneTable t).adopter = s.adopter := rfl
@[simp] theorem setZoneTable_saver (s : State) (t : Vector (Option HeadId) 32) : (s.setZoneTable t).saver = s.saver := rfl
@[simp] theorem setZoneTable_pageJobs (s : State) (t : Vector (Option HeadId) 32) : (s.setZoneTable t).pageJobs = s.pageJobs := rfl
@[simp] theorem setZoneTable_frame (s : State) (t : Vector (Option HeadId) 32) : (s.setZoneTable t).frame = s.frame := rfl
@[simp] theorem setZoneTable_claims (s : State) (t : Vector (Option HeadId) 32) : (s.setZoneTable t).claims = s.claims := rfl
@[simp] theorem setZoneTable_floorStop (s : State) (t : Vector (Option HeadId) 32) : (s.setZoneTable t).floorStop = s.floorStop := rfl
@[simp] theorem setZoneTable_status (s : State) (t : Vector (Option HeadId) 32) : (s.setZoneTable t).status = s.status := rfl
@[simp] theorem setZoneTable_due (s : State) (t : Vector (Option HeadId) 32) : (s.setZoneTable t).due = s.due := rfl
@[simp] theorem setZoneTable_eventNo (s : State) (t : Vector (Option HeadId) 32) : (s.setZoneTable t).eventNo = s.eventNo := rfl
@[simp] theorem setZoneTable_freeCount (s : State) (t : Vector (Option HeadId) 32) : (s.setZoneTable t).freeCount = s.freeCount := rfl
@[simp] theorem setZoneTable_pending (s : State) (t : Vector (Option HeadId) 32) : (s.setZoneTable t).pending = s.pending := rfl
@[simp] theorem setZoneTable_zoneTable (s : State) (t : Vector (Option HeadId) 32) : (s.setZoneTable t).zoneTable = t := rfl

/-! ## State.setClaims changes claims alone -/

@[simp] theorem setClaims_near (s : State) (f : List Claim → List Claim) : (s.setClaims f).near = s.near := rfl
@[simp] theorem setClaims_pins (s : State) (f : List Claim → List Claim) : (s.setClaims f).pins = s.pins := rfl
@[simp] theorem setClaims_mem (s : State) (f : List Claim → List Claim) : (s.setClaims f).mem = s.mem := rfl
@[simp] theorem setClaims_grant (s : State) (f : List Claim → List Claim) : (s.setClaims f).grant = s.grant := rfl
@[simp] theorem setClaims_waiting (s : State) (f : List Claim → List Claim) : (s.setClaims f).waiting = s.waiting := rfl
@[simp] theorem setClaims_lastRefusal (s : State) (f : List Claim → List Claim) : (s.setClaims f).lastRefusal = s.lastRefusal := rfl
@[simp] theorem setClaims_mode (s : State) (f : List Claim → List Claim) : (s.setClaims f).mode = s.mode := rfl
@[simp] theorem setClaims_cause (s : State) (f : List Claim → List Claim) : (s.setClaims f).cause = s.cause := rfl
@[simp] theorem setClaims_startResult (s : State) (f : List Claim → List Claim) : (s.setClaims f).startResult = s.startResult := rfl
@[simp] theorem setClaims_tables (s : State) (f : List Claim → List Claim) : (s.setClaims f).tables = s.tables := rfl
@[simp] theorem setClaims_loader (s : State) (f : List Claim → List Claim) : (s.setClaims f).loader = s.loader := rfl
@[simp] theorem setClaims_fetcher (s : State) (f : List Claim → List Claim) : (s.setClaims f).fetcher = s.fetcher := rfl
@[simp] theorem setClaims_heads (s : State) (f : List Claim → List Claim) : (s.setClaims f).heads = s.heads := rfl
@[simp] theorem setClaims_stager (s : State) (f : List Claim → List Claim) : (s.setClaims f).stager = s.stager := rfl
@[simp] theorem setClaims_adopter (s : State) (f : List Claim → List Claim) : (s.setClaims f).adopter = s.adopter := rfl
@[simp] theorem setClaims_saver (s : State) (f : List Claim → List Claim) : (s.setClaims f).saver = s.saver := rfl
@[simp] theorem setClaims_pageJobs (s : State) (f : List Claim → List Claim) : (s.setClaims f).pageJobs = s.pageJobs := rfl
@[simp] theorem setClaims_frame (s : State) (f : List Claim → List Claim) : (s.setClaims f).frame = s.frame := rfl
@[simp] theorem setClaims_zoneTable (s : State) (f : List Claim → List Claim) : (s.setClaims f).zoneTable = s.zoneTable := rfl
@[simp] theorem setClaims_floorStop (s : State) (f : List Claim → List Claim) : (s.setClaims f).floorStop = s.floorStop := rfl
@[simp] theorem setClaims_status (s : State) (f : List Claim → List Claim) : (s.setClaims f).status = s.status := rfl
@[simp] theorem setClaims_due (s : State) (f : List Claim → List Claim) : (s.setClaims f).due = s.due := rfl
@[simp] theorem setClaims_eventNo (s : State) (f : List Claim → List Claim) : (s.setClaims f).eventNo = s.eventNo := rfl
@[simp] theorem setClaims_freeCount (s : State) (f : List Claim → List Claim) : (s.setClaims f).freeCount = s.freeCount := rfl
@[simp] theorem setClaims_pending (s : State) (f : List Claim → List Claim) : (s.setClaims f).pending = s.pending := rfl
@[simp] theorem setClaims_claims (s : State) (f : List Claim → List Claim) : (s.setClaims f).claims = f s.claims := rfl

/-! ## State.setFloorStop changes floorStop alone -/

@[simp] theorem setFloorStop_near (s : State) (f : FloorStop) : (s.setFloorStop f).near = s.near := rfl
@[simp] theorem setFloorStop_pins (s : State) (f : FloorStop) : (s.setFloorStop f).pins = s.pins := rfl
@[simp] theorem setFloorStop_mem (s : State) (f : FloorStop) : (s.setFloorStop f).mem = s.mem := rfl
@[simp] theorem setFloorStop_grant (s : State) (f : FloorStop) : (s.setFloorStop f).grant = s.grant := rfl
@[simp] theorem setFloorStop_waiting (s : State) (f : FloorStop) : (s.setFloorStop f).waiting = s.waiting := rfl
@[simp] theorem setFloorStop_lastRefusal (s : State) (f : FloorStop) : (s.setFloorStop f).lastRefusal = s.lastRefusal := rfl
@[simp] theorem setFloorStop_mode (s : State) (f : FloorStop) : (s.setFloorStop f).mode = s.mode := rfl
@[simp] theorem setFloorStop_cause (s : State) (f : FloorStop) : (s.setFloorStop f).cause = s.cause := rfl
@[simp] theorem setFloorStop_startResult (s : State) (f : FloorStop) : (s.setFloorStop f).startResult = s.startResult := rfl
@[simp] theorem setFloorStop_tables (s : State) (f : FloorStop) : (s.setFloorStop f).tables = s.tables := rfl
@[simp] theorem setFloorStop_loader (s : State) (f : FloorStop) : (s.setFloorStop f).loader = s.loader := rfl
@[simp] theorem setFloorStop_fetcher (s : State) (f : FloorStop) : (s.setFloorStop f).fetcher = s.fetcher := rfl
@[simp] theorem setFloorStop_heads (s : State) (f : FloorStop) : (s.setFloorStop f).heads = s.heads := rfl
@[simp] theorem setFloorStop_stager (s : State) (f : FloorStop) : (s.setFloorStop f).stager = s.stager := rfl
@[simp] theorem setFloorStop_adopter (s : State) (f : FloorStop) : (s.setFloorStop f).adopter = s.adopter := rfl
@[simp] theorem setFloorStop_saver (s : State) (f : FloorStop) : (s.setFloorStop f).saver = s.saver := rfl
@[simp] theorem setFloorStop_pageJobs (s : State) (f : FloorStop) : (s.setFloorStop f).pageJobs = s.pageJobs := rfl
@[simp] theorem setFloorStop_frame (s : State) (f : FloorStop) : (s.setFloorStop f).frame = s.frame := rfl
@[simp] theorem setFloorStop_zoneTable (s : State) (f : FloorStop) : (s.setFloorStop f).zoneTable = s.zoneTable := rfl
@[simp] theorem setFloorStop_claims (s : State) (f : FloorStop) : (s.setFloorStop f).claims = s.claims := rfl
@[simp] theorem setFloorStop_status (s : State) (f : FloorStop) : (s.setFloorStop f).status = s.status := rfl
@[simp] theorem setFloorStop_due (s : State) (f : FloorStop) : (s.setFloorStop f).due = s.due := rfl
@[simp] theorem setFloorStop_eventNo (s : State) (f : FloorStop) : (s.setFloorStop f).eventNo = s.eventNo := rfl
@[simp] theorem setFloorStop_freeCount (s : State) (f : FloorStop) : (s.setFloorStop f).freeCount = s.freeCount := rfl
@[simp] theorem setFloorStop_pending (s : State) (f : FloorStop) : (s.setFloorStop f).pending = s.pending := rfl
@[simp] theorem setFloorStop_floorStop (s : State) (f : FloorStop) : (s.setFloorStop f).floorStop = f := rfl

/-! ## State.setStatus changes status alone -/

@[simp] theorem setStatus_near (s : State) (f : StatusWriter → StatusWriter) : (s.setStatus f).near = s.near := rfl
@[simp] theorem setStatus_pins (s : State) (f : StatusWriter → StatusWriter) : (s.setStatus f).pins = s.pins := rfl
@[simp] theorem setStatus_mem (s : State) (f : StatusWriter → StatusWriter) : (s.setStatus f).mem = s.mem := rfl
@[simp] theorem setStatus_grant (s : State) (f : StatusWriter → StatusWriter) : (s.setStatus f).grant = s.grant := rfl
@[simp] theorem setStatus_waiting (s : State) (f : StatusWriter → StatusWriter) : (s.setStatus f).waiting = s.waiting := rfl
@[simp] theorem setStatus_lastRefusal (s : State) (f : StatusWriter → StatusWriter) : (s.setStatus f).lastRefusal = s.lastRefusal := rfl
@[simp] theorem setStatus_mode (s : State) (f : StatusWriter → StatusWriter) : (s.setStatus f).mode = s.mode := rfl
@[simp] theorem setStatus_cause (s : State) (f : StatusWriter → StatusWriter) : (s.setStatus f).cause = s.cause := rfl
@[simp] theorem setStatus_startResult (s : State) (f : StatusWriter → StatusWriter) : (s.setStatus f).startResult = s.startResult := rfl
@[simp] theorem setStatus_tables (s : State) (f : StatusWriter → StatusWriter) : (s.setStatus f).tables = s.tables := rfl
@[simp] theorem setStatus_loader (s : State) (f : StatusWriter → StatusWriter) : (s.setStatus f).loader = s.loader := rfl
@[simp] theorem setStatus_fetcher (s : State) (f : StatusWriter → StatusWriter) : (s.setStatus f).fetcher = s.fetcher := rfl
@[simp] theorem setStatus_heads (s : State) (f : StatusWriter → StatusWriter) : (s.setStatus f).heads = s.heads := rfl
@[simp] theorem setStatus_stager (s : State) (f : StatusWriter → StatusWriter) : (s.setStatus f).stager = s.stager := rfl
@[simp] theorem setStatus_adopter (s : State) (f : StatusWriter → StatusWriter) : (s.setStatus f).adopter = s.adopter := rfl
@[simp] theorem setStatus_saver (s : State) (f : StatusWriter → StatusWriter) : (s.setStatus f).saver = s.saver := rfl
@[simp] theorem setStatus_pageJobs (s : State) (f : StatusWriter → StatusWriter) : (s.setStatus f).pageJobs = s.pageJobs := rfl
@[simp] theorem setStatus_frame (s : State) (f : StatusWriter → StatusWriter) : (s.setStatus f).frame = s.frame := rfl
@[simp] theorem setStatus_zoneTable (s : State) (f : StatusWriter → StatusWriter) : (s.setStatus f).zoneTable = s.zoneTable := rfl
@[simp] theorem setStatus_claims (s : State) (f : StatusWriter → StatusWriter) : (s.setStatus f).claims = s.claims := rfl
@[simp] theorem setStatus_floorStop (s : State) (f : StatusWriter → StatusWriter) : (s.setStatus f).floorStop = s.floorStop := rfl
@[simp] theorem setStatus_due (s : State) (f : StatusWriter → StatusWriter) : (s.setStatus f).due = s.due := rfl
@[simp] theorem setStatus_eventNo (s : State) (f : StatusWriter → StatusWriter) : (s.setStatus f).eventNo = s.eventNo := rfl
@[simp] theorem setStatus_freeCount (s : State) (f : StatusWriter → StatusWriter) : (s.setStatus f).freeCount = s.freeCount := rfl
@[simp] theorem setStatus_pending (s : State) (f : StatusWriter → StatusWriter) : (s.setStatus f).pending = s.pending := rfl
@[simp] theorem setStatus_status (s : State) (f : StatusWriter → StatusWriter) : (s.setStatus f).status = f s.status := rfl

/-! ## State.setFetcher changes fetcher alone -/

@[simp] theorem setFetcher_near (s : State) (f : Fetcher → Fetcher) : (s.setFetcher f).near = s.near := rfl
@[simp] theorem setFetcher_pins (s : State) (f : Fetcher → Fetcher) : (s.setFetcher f).pins = s.pins := rfl
@[simp] theorem setFetcher_mem (s : State) (f : Fetcher → Fetcher) : (s.setFetcher f).mem = s.mem := rfl
@[simp] theorem setFetcher_grant (s : State) (f : Fetcher → Fetcher) : (s.setFetcher f).grant = s.grant := rfl
@[simp] theorem setFetcher_waiting (s : State) (f : Fetcher → Fetcher) : (s.setFetcher f).waiting = s.waiting := rfl
@[simp] theorem setFetcher_lastRefusal (s : State) (f : Fetcher → Fetcher) : (s.setFetcher f).lastRefusal = s.lastRefusal := rfl
@[simp] theorem setFetcher_mode (s : State) (f : Fetcher → Fetcher) : (s.setFetcher f).mode = s.mode := rfl
@[simp] theorem setFetcher_cause (s : State) (f : Fetcher → Fetcher) : (s.setFetcher f).cause = s.cause := rfl
@[simp] theorem setFetcher_startResult (s : State) (f : Fetcher → Fetcher) : (s.setFetcher f).startResult = s.startResult := rfl
@[simp] theorem setFetcher_tables (s : State) (f : Fetcher → Fetcher) : (s.setFetcher f).tables = s.tables := rfl
@[simp] theorem setFetcher_loader (s : State) (f : Fetcher → Fetcher) : (s.setFetcher f).loader = s.loader := rfl
@[simp] theorem setFetcher_heads (s : State) (f : Fetcher → Fetcher) : (s.setFetcher f).heads = s.heads := rfl
@[simp] theorem setFetcher_stager (s : State) (f : Fetcher → Fetcher) : (s.setFetcher f).stager = s.stager := rfl
@[simp] theorem setFetcher_adopter (s : State) (f : Fetcher → Fetcher) : (s.setFetcher f).adopter = s.adopter := rfl
@[simp] theorem setFetcher_saver (s : State) (f : Fetcher → Fetcher) : (s.setFetcher f).saver = s.saver := rfl
@[simp] theorem setFetcher_pageJobs (s : State) (f : Fetcher → Fetcher) : (s.setFetcher f).pageJobs = s.pageJobs := rfl
@[simp] theorem setFetcher_frame (s : State) (f : Fetcher → Fetcher) : (s.setFetcher f).frame = s.frame := rfl
@[simp] theorem setFetcher_zoneTable (s : State) (f : Fetcher → Fetcher) : (s.setFetcher f).zoneTable = s.zoneTable := rfl
@[simp] theorem setFetcher_claims (s : State) (f : Fetcher → Fetcher) : (s.setFetcher f).claims = s.claims := rfl
@[simp] theorem setFetcher_floorStop (s : State) (f : Fetcher → Fetcher) : (s.setFetcher f).floorStop = s.floorStop := rfl
@[simp] theorem setFetcher_status (s : State) (f : Fetcher → Fetcher) : (s.setFetcher f).status = s.status := rfl
@[simp] theorem setFetcher_due (s : State) (f : Fetcher → Fetcher) : (s.setFetcher f).due = s.due := rfl
@[simp] theorem setFetcher_eventNo (s : State) (f : Fetcher → Fetcher) : (s.setFetcher f).eventNo = s.eventNo := rfl
@[simp] theorem setFetcher_freeCount (s : State) (f : Fetcher → Fetcher) : (s.setFetcher f).freeCount = s.freeCount := rfl
@[simp] theorem setFetcher_pending (s : State) (f : Fetcher → Fetcher) : (s.setFetcher f).pending = s.pending := rfl
@[simp] theorem setFetcher_fetcher (s : State) (f : Fetcher → Fetcher) : (s.setFetcher f).fetcher = f s.fetcher := rfl

/-! ## State.setLoader changes loader alone -/

@[simp] theorem setLoader_near (s : State) (f : Loader → Loader) : (s.setLoader f).near = s.near := rfl
@[simp] theorem setLoader_pins (s : State) (f : Loader → Loader) : (s.setLoader f).pins = s.pins := rfl
@[simp] theorem setLoader_mem (s : State) (f : Loader → Loader) : (s.setLoader f).mem = s.mem := rfl
@[simp] theorem setLoader_grant (s : State) (f : Loader → Loader) : (s.setLoader f).grant = s.grant := rfl
@[simp] theorem setLoader_waiting (s : State) (f : Loader → Loader) : (s.setLoader f).waiting = s.waiting := rfl
@[simp] theorem setLoader_lastRefusal (s : State) (f : Loader → Loader) : (s.setLoader f).lastRefusal = s.lastRefusal := rfl
@[simp] theorem setLoader_mode (s : State) (f : Loader → Loader) : (s.setLoader f).mode = s.mode := rfl
@[simp] theorem setLoader_cause (s : State) (f : Loader → Loader) : (s.setLoader f).cause = s.cause := rfl
@[simp] theorem setLoader_startResult (s : State) (f : Loader → Loader) : (s.setLoader f).startResult = s.startResult := rfl
@[simp] theorem setLoader_tables (s : State) (f : Loader → Loader) : (s.setLoader f).tables = s.tables := rfl
@[simp] theorem setLoader_fetcher (s : State) (f : Loader → Loader) : (s.setLoader f).fetcher = s.fetcher := rfl
@[simp] theorem setLoader_heads (s : State) (f : Loader → Loader) : (s.setLoader f).heads = s.heads := rfl
@[simp] theorem setLoader_stager (s : State) (f : Loader → Loader) : (s.setLoader f).stager = s.stager := rfl
@[simp] theorem setLoader_adopter (s : State) (f : Loader → Loader) : (s.setLoader f).adopter = s.adopter := rfl
@[simp] theorem setLoader_saver (s : State) (f : Loader → Loader) : (s.setLoader f).saver = s.saver := rfl
@[simp] theorem setLoader_pageJobs (s : State) (f : Loader → Loader) : (s.setLoader f).pageJobs = s.pageJobs := rfl
@[simp] theorem setLoader_frame (s : State) (f : Loader → Loader) : (s.setLoader f).frame = s.frame := rfl
@[simp] theorem setLoader_zoneTable (s : State) (f : Loader → Loader) : (s.setLoader f).zoneTable = s.zoneTable := rfl
@[simp] theorem setLoader_claims (s : State) (f : Loader → Loader) : (s.setLoader f).claims = s.claims := rfl
@[simp] theorem setLoader_floorStop (s : State) (f : Loader → Loader) : (s.setLoader f).floorStop = s.floorStop := rfl
@[simp] theorem setLoader_status (s : State) (f : Loader → Loader) : (s.setLoader f).status = s.status := rfl
@[simp] theorem setLoader_due (s : State) (f : Loader → Loader) : (s.setLoader f).due = s.due := rfl
@[simp] theorem setLoader_eventNo (s : State) (f : Loader → Loader) : (s.setLoader f).eventNo = s.eventNo := rfl
@[simp] theorem setLoader_freeCount (s : State) (f : Loader → Loader) : (s.setLoader f).freeCount = s.freeCount := rfl
@[simp] theorem setLoader_pending (s : State) (f : Loader → Loader) : (s.setLoader f).pending = s.pending := rfl
@[simp] theorem setLoader_loader (s : State) (f : Loader → Loader) : (s.setLoader f).loader = f s.loader := rfl

/-! ## State.setHead changes heads alone -/

@[simp] theorem setHead_near (s : State) (h : HeadId) (f : Head → Head) : (s.setHead h f).near = s.near := rfl
@[simp] theorem setHead_pins (s : State) (h : HeadId) (f : Head → Head) : (s.setHead h f).pins = s.pins := rfl
@[simp] theorem setHead_mem (s : State) (h : HeadId) (f : Head → Head) : (s.setHead h f).mem = s.mem := rfl
@[simp] theorem setHead_grant (s : State) (h : HeadId) (f : Head → Head) : (s.setHead h f).grant = s.grant := rfl
@[simp] theorem setHead_waiting (s : State) (h : HeadId) (f : Head → Head) : (s.setHead h f).waiting = s.waiting := rfl
@[simp] theorem setHead_lastRefusal (s : State) (h : HeadId) (f : Head → Head) : (s.setHead h f).lastRefusal = s.lastRefusal := rfl
@[simp] theorem setHead_mode (s : State) (h : HeadId) (f : Head → Head) : (s.setHead h f).mode = s.mode := rfl
@[simp] theorem setHead_cause (s : State) (h : HeadId) (f : Head → Head) : (s.setHead h f).cause = s.cause := rfl
@[simp] theorem setHead_startResult (s : State) (h : HeadId) (f : Head → Head) : (s.setHead h f).startResult = s.startResult := rfl
@[simp] theorem setHead_tables (s : State) (h : HeadId) (f : Head → Head) : (s.setHead h f).tables = s.tables := rfl
@[simp] theorem setHead_loader (s : State) (h : HeadId) (f : Head → Head) : (s.setHead h f).loader = s.loader := rfl
@[simp] theorem setHead_fetcher (s : State) (h : HeadId) (f : Head → Head) : (s.setHead h f).fetcher = s.fetcher := rfl
@[simp] theorem setHead_stager (s : State) (h : HeadId) (f : Head → Head) : (s.setHead h f).stager = s.stager := rfl
@[simp] theorem setHead_adopter (s : State) (h : HeadId) (f : Head → Head) : (s.setHead h f).adopter = s.adopter := rfl
@[simp] theorem setHead_saver (s : State) (h : HeadId) (f : Head → Head) : (s.setHead h f).saver = s.saver := rfl
@[simp] theorem setHead_pageJobs (s : State) (h : HeadId) (f : Head → Head) : (s.setHead h f).pageJobs = s.pageJobs := rfl
@[simp] theorem setHead_frame (s : State) (h : HeadId) (f : Head → Head) : (s.setHead h f).frame = s.frame := rfl
@[simp] theorem setHead_zoneTable (s : State) (h : HeadId) (f : Head → Head) : (s.setHead h f).zoneTable = s.zoneTable := rfl
@[simp] theorem setHead_claims (s : State) (h : HeadId) (f : Head → Head) : (s.setHead h f).claims = s.claims := rfl
@[simp] theorem setHead_floorStop (s : State) (h : HeadId) (f : Head → Head) : (s.setHead h f).floorStop = s.floorStop := rfl
@[simp] theorem setHead_status (s : State) (h : HeadId) (f : Head → Head) : (s.setHead h f).status = s.status := rfl
@[simp] theorem setHead_due (s : State) (h : HeadId) (f : Head → Head) : (s.setHead h f).due = s.due := rfl
@[simp] theorem setHead_eventNo (s : State) (h : HeadId) (f : Head → Head) : (s.setHead h f).eventNo = s.eventNo := rfl
@[simp] theorem setHead_freeCount (s : State) (h : HeadId) (f : Head → Head) : (s.setHead h f).freeCount = s.freeCount := rfl
@[simp] theorem setHead_pending (s : State) (h : HeadId) (f : Head → Head) : (s.setHead h f).pending = s.pending := rfl

/-! ## State.request changes waiting alone -/

@[simp] theorem request_near (s : State) (x : Xfer) : (s.request x).near = s.near := rfl
@[simp] theorem request_pins (s : State) (x : Xfer) : (s.request x).pins = s.pins := rfl
@[simp] theorem request_mem (s : State) (x : Xfer) : (s.request x).mem = s.mem := rfl
@[simp] theorem request_grant (s : State) (x : Xfer) : (s.request x).grant = s.grant := rfl
@[simp] theorem request_lastRefusal (s : State) (x : Xfer) : (s.request x).lastRefusal = s.lastRefusal := rfl
@[simp] theorem request_mode (s : State) (x : Xfer) : (s.request x).mode = s.mode := rfl
@[simp] theorem request_cause (s : State) (x : Xfer) : (s.request x).cause = s.cause := rfl
@[simp] theorem request_startResult (s : State) (x : Xfer) : (s.request x).startResult = s.startResult := rfl
@[simp] theorem request_tables (s : State) (x : Xfer) : (s.request x).tables = s.tables := rfl
@[simp] theorem request_loader (s : State) (x : Xfer) : (s.request x).loader = s.loader := rfl
@[simp] theorem request_fetcher (s : State) (x : Xfer) : (s.request x).fetcher = s.fetcher := rfl
@[simp] theorem request_heads (s : State) (x : Xfer) : (s.request x).heads = s.heads := rfl
@[simp] theorem request_stager (s : State) (x : Xfer) : (s.request x).stager = s.stager := rfl
@[simp] theorem request_adopter (s : State) (x : Xfer) : (s.request x).adopter = s.adopter := rfl
@[simp] theorem request_saver (s : State) (x : Xfer) : (s.request x).saver = s.saver := rfl
@[simp] theorem request_pageJobs (s : State) (x : Xfer) : (s.request x).pageJobs = s.pageJobs := rfl
@[simp] theorem request_frame (s : State) (x : Xfer) : (s.request x).frame = s.frame := rfl
@[simp] theorem request_zoneTable (s : State) (x : Xfer) : (s.request x).zoneTable = s.zoneTable := rfl
@[simp] theorem request_claims (s : State) (x : Xfer) : (s.request x).claims = s.claims := rfl
@[simp] theorem request_floorStop (s : State) (x : Xfer) : (s.request x).floorStop = s.floorStop := rfl
@[simp] theorem request_status (s : State) (x : Xfer) : (s.request x).status = s.status := rfl
@[simp] theorem request_due (s : State) (x : Xfer) : (s.request x).due = s.due := rfl
@[simp] theorem request_eventNo (s : State) (x : Xfer) : (s.request x).eventNo = s.eventNo := rfl
@[simp] theorem request_freeCount (s : State) (x : Xfer) : (s.request x).freeCount = s.freeCount := rfl
@[simp] theorem request_pending (s : State) (x : Xfer) : (s.request x).pending = s.pending := rfl
@[simp] theorem request_waiting (s : State) (x : Xfer) : (s.request x).waiting = s.waiting ++ [⟨x, false, s.eventNo⟩] := rfl

/-! ## State.requestLetRun changes waiting alone -/

@[simp] theorem requestLetRun_near (s : State) (x : Xfer) : (s.requestLetRun x).near = s.near := rfl
@[simp] theorem requestLetRun_pins (s : State) (x : Xfer) : (s.requestLetRun x).pins = s.pins := rfl
@[simp] theorem requestLetRun_mem (s : State) (x : Xfer) : (s.requestLetRun x).mem = s.mem := rfl
@[simp] theorem requestLetRun_grant (s : State) (x : Xfer) : (s.requestLetRun x).grant = s.grant := rfl
@[simp] theorem requestLetRun_lastRefusal (s : State) (x : Xfer) : (s.requestLetRun x).lastRefusal = s.lastRefusal := rfl
@[simp] theorem requestLetRun_mode (s : State) (x : Xfer) : (s.requestLetRun x).mode = s.mode := rfl
@[simp] theorem requestLetRun_cause (s : State) (x : Xfer) : (s.requestLetRun x).cause = s.cause := rfl
@[simp] theorem requestLetRun_startResult (s : State) (x : Xfer) : (s.requestLetRun x).startResult = s.startResult := rfl
@[simp] theorem requestLetRun_tables (s : State) (x : Xfer) : (s.requestLetRun x).tables = s.tables := rfl
@[simp] theorem requestLetRun_loader (s : State) (x : Xfer) : (s.requestLetRun x).loader = s.loader := rfl
@[simp] theorem requestLetRun_fetcher (s : State) (x : Xfer) : (s.requestLetRun x).fetcher = s.fetcher := rfl
@[simp] theorem requestLetRun_heads (s : State) (x : Xfer) : (s.requestLetRun x).heads = s.heads := rfl
@[simp] theorem requestLetRun_stager (s : State) (x : Xfer) : (s.requestLetRun x).stager = s.stager := rfl
@[simp] theorem requestLetRun_adopter (s : State) (x : Xfer) : (s.requestLetRun x).adopter = s.adopter := rfl
@[simp] theorem requestLetRun_saver (s : State) (x : Xfer) : (s.requestLetRun x).saver = s.saver := rfl
@[simp] theorem requestLetRun_pageJobs (s : State) (x : Xfer) : (s.requestLetRun x).pageJobs = s.pageJobs := rfl
@[simp] theorem requestLetRun_frame (s : State) (x : Xfer) : (s.requestLetRun x).frame = s.frame := rfl
@[simp] theorem requestLetRun_zoneTable (s : State) (x : Xfer) : (s.requestLetRun x).zoneTable = s.zoneTable := rfl
@[simp] theorem requestLetRun_claims (s : State) (x : Xfer) : (s.requestLetRun x).claims = s.claims := rfl
@[simp] theorem requestLetRun_floorStop (s : State) (x : Xfer) : (s.requestLetRun x).floorStop = s.floorStop := rfl
@[simp] theorem requestLetRun_status (s : State) (x : Xfer) : (s.requestLetRun x).status = s.status := rfl
@[simp] theorem requestLetRun_due (s : State) (x : Xfer) : (s.requestLetRun x).due = s.due := rfl
@[simp] theorem requestLetRun_eventNo (s : State) (x : Xfer) : (s.requestLetRun x).eventNo = s.eventNo := rfl
@[simp] theorem requestLetRun_freeCount (s : State) (x : Xfer) : (s.requestLetRun x).freeCount = s.freeCount := rfl
@[simp] theorem requestLetRun_pending (s : State) (x : Xfer) : (s.requestLetRun x).pending = s.pending := rfl
@[simp] theorem requestLetRun_waiting (s : State) (x : Xfer) : (s.requestLetRun x).waiting = s.waiting ++ [⟨x, true, s.eventNo⟩] := rfl

/-! ## State.withdraw changes waiting alone -/

@[simp] theorem withdraw_near (s : State) (c : Client) : (s.withdraw c).near = s.near := rfl
@[simp] theorem withdraw_pins (s : State) (c : Client) : (s.withdraw c).pins = s.pins := rfl
@[simp] theorem withdraw_mem (s : State) (c : Client) : (s.withdraw c).mem = s.mem := rfl
@[simp] theorem withdraw_grant (s : State) (c : Client) : (s.withdraw c).grant = s.grant := rfl
@[simp] theorem withdraw_lastRefusal (s : State) (c : Client) : (s.withdraw c).lastRefusal = s.lastRefusal := rfl
@[simp] theorem withdraw_mode (s : State) (c : Client) : (s.withdraw c).mode = s.mode := rfl
@[simp] theorem withdraw_cause (s : State) (c : Client) : (s.withdraw c).cause = s.cause := rfl
@[simp] theorem withdraw_startResult (s : State) (c : Client) : (s.withdraw c).startResult = s.startResult := rfl
@[simp] theorem withdraw_tables (s : State) (c : Client) : (s.withdraw c).tables = s.tables := rfl
@[simp] theorem withdraw_loader (s : State) (c : Client) : (s.withdraw c).loader = s.loader := rfl
@[simp] theorem withdraw_fetcher (s : State) (c : Client) : (s.withdraw c).fetcher = s.fetcher := rfl
@[simp] theorem withdraw_heads (s : State) (c : Client) : (s.withdraw c).heads = s.heads := rfl
@[simp] theorem withdraw_stager (s : State) (c : Client) : (s.withdraw c).stager = s.stager := rfl
@[simp] theorem withdraw_adopter (s : State) (c : Client) : (s.withdraw c).adopter = s.adopter := rfl
@[simp] theorem withdraw_saver (s : State) (c : Client) : (s.withdraw c).saver = s.saver := rfl
@[simp] theorem withdraw_pageJobs (s : State) (c : Client) : (s.withdraw c).pageJobs = s.pageJobs := rfl
@[simp] theorem withdraw_frame (s : State) (c : Client) : (s.withdraw c).frame = s.frame := rfl
@[simp] theorem withdraw_zoneTable (s : State) (c : Client) : (s.withdraw c).zoneTable = s.zoneTable := rfl
@[simp] theorem withdraw_claims (s : State) (c : Client) : (s.withdraw c).claims = s.claims := rfl
@[simp] theorem withdraw_floorStop (s : State) (c : Client) : (s.withdraw c).floorStop = s.floorStop := rfl
@[simp] theorem withdraw_status (s : State) (c : Client) : (s.withdraw c).status = s.status := rfl
@[simp] theorem withdraw_due (s : State) (c : Client) : (s.withdraw c).due = s.due := rfl
@[simp] theorem withdraw_eventNo (s : State) (c : Client) : (s.withdraw c).eventNo = s.eventNo := rfl
@[simp] theorem withdraw_freeCount (s : State) (c : Client) : (s.withdraw c).freeCount = s.freeCount := rfl
@[simp] theorem withdraw_pending (s : State) (c : Client) : (s.withdraw c).pending = s.pending := rfl

/-! ## State.endGrant changes grant alone -/

@[simp] theorem endGrant_near (s : State) : (s.endGrant).near = s.near := rfl
@[simp] theorem endGrant_pins (s : State) : (s.endGrant).pins = s.pins := rfl
@[simp] theorem endGrant_mem (s : State) : (s.endGrant).mem = s.mem := rfl
@[simp] theorem endGrant_waiting (s : State) : (s.endGrant).waiting = s.waiting := rfl
@[simp] theorem endGrant_lastRefusal (s : State) : (s.endGrant).lastRefusal = s.lastRefusal := rfl
@[simp] theorem endGrant_mode (s : State) : (s.endGrant).mode = s.mode := rfl
@[simp] theorem endGrant_cause (s : State) : (s.endGrant).cause = s.cause := rfl
@[simp] theorem endGrant_startResult (s : State) : (s.endGrant).startResult = s.startResult := rfl
@[simp] theorem endGrant_tables (s : State) : (s.endGrant).tables = s.tables := rfl
@[simp] theorem endGrant_loader (s : State) : (s.endGrant).loader = s.loader := rfl
@[simp] theorem endGrant_fetcher (s : State) : (s.endGrant).fetcher = s.fetcher := rfl
@[simp] theorem endGrant_heads (s : State) : (s.endGrant).heads = s.heads := rfl
@[simp] theorem endGrant_stager (s : State) : (s.endGrant).stager = s.stager := rfl
@[simp] theorem endGrant_adopter (s : State) : (s.endGrant).adopter = s.adopter := rfl
@[simp] theorem endGrant_saver (s : State) : (s.endGrant).saver = s.saver := rfl
@[simp] theorem endGrant_pageJobs (s : State) : (s.endGrant).pageJobs = s.pageJobs := rfl
@[simp] theorem endGrant_frame (s : State) : (s.endGrant).frame = s.frame := rfl
@[simp] theorem endGrant_zoneTable (s : State) : (s.endGrant).zoneTable = s.zoneTable := rfl
@[simp] theorem endGrant_claims (s : State) : (s.endGrant).claims = s.claims := rfl
@[simp] theorem endGrant_floorStop (s : State) : (s.endGrant).floorStop = s.floorStop := rfl
@[simp] theorem endGrant_status (s : State) : (s.endGrant).status = s.status := rfl
@[simp] theorem endGrant_due (s : State) : (s.endGrant).due = s.due := rfl
@[simp] theorem endGrant_eventNo (s : State) : (s.endGrant).eventNo = s.eventNo := rfl
@[simp] theorem endGrant_freeCount (s : State) : (s.endGrant).freeCount = s.freeCount := rfl
@[simp] theorem endGrant_pending (s : State) : (s.endGrant).pending = s.pending := rfl
@[simp] theorem endGrant_grant (s : State) : (s.endGrant).grant = none := rfl

/-! ## State.store changes mem and freeCount alone -/

@[simp] theorem store_near (s : State) (a : Nat) (ws : List Word) (e : Nat) : (s.store a ws e).near = s.near := rfl
@[simp] theorem store_pins (s : State) (a : Nat) (ws : List Word) (e : Nat) : (s.store a ws e).pins = s.pins := rfl
@[simp] theorem store_grant (s : State) (a : Nat) (ws : List Word) (e : Nat) : (s.store a ws e).grant = s.grant := rfl
@[simp] theorem store_waiting (s : State) (a : Nat) (ws : List Word) (e : Nat) : (s.store a ws e).waiting = s.waiting := rfl
@[simp] theorem store_lastRefusal (s : State) (a : Nat) (ws : List Word) (e : Nat) : (s.store a ws e).lastRefusal = s.lastRefusal := rfl
@[simp] theorem store_mode (s : State) (a : Nat) (ws : List Word) (e : Nat) : (s.store a ws e).mode = s.mode := rfl
@[simp] theorem store_cause (s : State) (a : Nat) (ws : List Word) (e : Nat) : (s.store a ws e).cause = s.cause := rfl
@[simp] theorem store_startResult (s : State) (a : Nat) (ws : List Word) (e : Nat) : (s.store a ws e).startResult = s.startResult := rfl
@[simp] theorem store_tables (s : State) (a : Nat) (ws : List Word) (e : Nat) : (s.store a ws e).tables = s.tables := rfl
@[simp] theorem store_loader (s : State) (a : Nat) (ws : List Word) (e : Nat) : (s.store a ws e).loader = s.loader := rfl
@[simp] theorem store_fetcher (s : State) (a : Nat) (ws : List Word) (e : Nat) : (s.store a ws e).fetcher = s.fetcher := rfl
@[simp] theorem store_heads (s : State) (a : Nat) (ws : List Word) (e : Nat) : (s.store a ws e).heads = s.heads := rfl
@[simp] theorem store_stager (s : State) (a : Nat) (ws : List Word) (e : Nat) : (s.store a ws e).stager = s.stager := rfl
@[simp] theorem store_adopter (s : State) (a : Nat) (ws : List Word) (e : Nat) : (s.store a ws e).adopter = s.adopter := rfl
@[simp] theorem store_saver (s : State) (a : Nat) (ws : List Word) (e : Nat) : (s.store a ws e).saver = s.saver := rfl
@[simp] theorem store_pageJobs (s : State) (a : Nat) (ws : List Word) (e : Nat) : (s.store a ws e).pageJobs = s.pageJobs := rfl
@[simp] theorem store_frame (s : State) (a : Nat) (ws : List Word) (e : Nat) : (s.store a ws e).frame = s.frame := rfl
@[simp] theorem store_zoneTable (s : State) (a : Nat) (ws : List Word) (e : Nat) : (s.store a ws e).zoneTable = s.zoneTable := rfl
@[simp] theorem store_claims (s : State) (a : Nat) (ws : List Word) (e : Nat) : (s.store a ws e).claims = s.claims := rfl
@[simp] theorem store_floorStop (s : State) (a : Nat) (ws : List Word) (e : Nat) : (s.store a ws e).floorStop = s.floorStop := rfl
@[simp] theorem store_status (s : State) (a : Nat) (ws : List Word) (e : Nat) : (s.store a ws e).status = s.status := rfl
@[simp] theorem store_due (s : State) (a : Nat) (ws : List Word) (e : Nat) : (s.store a ws e).due = s.due := rfl
@[simp] theorem store_eventNo (s : State) (a : Nat) (ws : List Word) (e : Nat) : (s.store a ws e).eventNo = s.eventNo := rfl
@[simp] theorem store_pending (s : State) (a : Nat) (ws : List Word) (e : Nat) : (s.store a ws e).pending = s.pending := rfl

/-! ## State.placeSave changes saver alone -/

@[simp] theorem placeSave_near (s : State) (j : SaveJob) : (s.placeSave j).near = s.near := rfl
@[simp] theorem placeSave_pins (s : State) (j : SaveJob) : (s.placeSave j).pins = s.pins := rfl
@[simp] theorem placeSave_mem (s : State) (j : SaveJob) : (s.placeSave j).mem = s.mem := rfl
@[simp] theorem placeSave_grant (s : State) (j : SaveJob) : (s.placeSave j).grant = s.grant := rfl
@[simp] theorem placeSave_waiting (s : State) (j : SaveJob) : (s.placeSave j).waiting = s.waiting := rfl
@[simp] theorem placeSave_lastRefusal (s : State) (j : SaveJob) : (s.placeSave j).lastRefusal = s.lastRefusal := rfl
@[simp] theorem placeSave_mode (s : State) (j : SaveJob) : (s.placeSave j).mode = s.mode := rfl
@[simp] theorem placeSave_cause (s : State) (j : SaveJob) : (s.placeSave j).cause = s.cause := rfl
@[simp] theorem placeSave_startResult (s : State) (j : SaveJob) : (s.placeSave j).startResult = s.startResult := rfl
@[simp] theorem placeSave_tables (s : State) (j : SaveJob) : (s.placeSave j).tables = s.tables := rfl
@[simp] theorem placeSave_loader (s : State) (j : SaveJob) : (s.placeSave j).loader = s.loader := rfl
@[simp] theorem placeSave_fetcher (s : State) (j : SaveJob) : (s.placeSave j).fetcher = s.fetcher := rfl
@[simp] theorem placeSave_heads (s : State) (j : SaveJob) : (s.placeSave j).heads = s.heads := rfl
@[simp] theorem placeSave_stager (s : State) (j : SaveJob) : (s.placeSave j).stager = s.stager := rfl
@[simp] theorem placeSave_adopter (s : State) (j : SaveJob) : (s.placeSave j).adopter = s.adopter := rfl
@[simp] theorem placeSave_pageJobs (s : State) (j : SaveJob) : (s.placeSave j).pageJobs = s.pageJobs := rfl
@[simp] theorem placeSave_frame (s : State) (j : SaveJob) : (s.placeSave j).frame = s.frame := rfl
@[simp] theorem placeSave_zoneTable (s : State) (j : SaveJob) : (s.placeSave j).zoneTable = s.zoneTable := rfl
@[simp] theorem placeSave_claims (s : State) (j : SaveJob) : (s.placeSave j).claims = s.claims := rfl
@[simp] theorem placeSave_floorStop (s : State) (j : SaveJob) : (s.placeSave j).floorStop = s.floorStop := rfl
@[simp] theorem placeSave_status (s : State) (j : SaveJob) : (s.placeSave j).status = s.status := rfl
@[simp] theorem placeSave_due (s : State) (j : SaveJob) : (s.placeSave j).due = s.due := rfl
@[simp] theorem placeSave_eventNo (s : State) (j : SaveJob) : (s.placeSave j).eventNo = s.eventNo := rfl
@[simp] theorem placeSave_freeCount (s : State) (j : SaveJob) : (s.placeSave j).freeCount = s.freeCount := rfl
@[simp] theorem placeSave_pending (s : State) (j : SaveJob) : (s.placeSave j).pending = s.pending := rfl
@[simp] theorem placeSave_saver (s : State) (j : SaveJob) : (s.placeSave j).saver = s.saver ++ [j] := rfl

/-! ## State.placePage changes pageJobs alone -/

@[simp] theorem placePage_near (s : State) (j : PageJob) : (s.placePage j).near = s.near := rfl
@[simp] theorem placePage_pins (s : State) (j : PageJob) : (s.placePage j).pins = s.pins := rfl
@[simp] theorem placePage_mem (s : State) (j : PageJob) : (s.placePage j).mem = s.mem := rfl
@[simp] theorem placePage_grant (s : State) (j : PageJob) : (s.placePage j).grant = s.grant := rfl
@[simp] theorem placePage_waiting (s : State) (j : PageJob) : (s.placePage j).waiting = s.waiting := rfl
@[simp] theorem placePage_lastRefusal (s : State) (j : PageJob) : (s.placePage j).lastRefusal = s.lastRefusal := rfl
@[simp] theorem placePage_mode (s : State) (j : PageJob) : (s.placePage j).mode = s.mode := rfl
@[simp] theorem placePage_cause (s : State) (j : PageJob) : (s.placePage j).cause = s.cause := rfl
@[simp] theorem placePage_startResult (s : State) (j : PageJob) : (s.placePage j).startResult = s.startResult := rfl
@[simp] theorem placePage_tables (s : State) (j : PageJob) : (s.placePage j).tables = s.tables := rfl
@[simp] theorem placePage_loader (s : State) (j : PageJob) : (s.placePage j).loader = s.loader := rfl
@[simp] theorem placePage_fetcher (s : State) (j : PageJob) : (s.placePage j).fetcher = s.fetcher := rfl
@[simp] theorem placePage_heads (s : State) (j : PageJob) : (s.placePage j).heads = s.heads := rfl
@[simp] theorem placePage_stager (s : State) (j : PageJob) : (s.placePage j).stager = s.stager := rfl
@[simp] theorem placePage_adopter (s : State) (j : PageJob) : (s.placePage j).adopter = s.adopter := rfl
@[simp] theorem placePage_saver (s : State) (j : PageJob) : (s.placePage j).saver = s.saver := rfl
@[simp] theorem placePage_frame (s : State) (j : PageJob) : (s.placePage j).frame = s.frame := rfl
@[simp] theorem placePage_zoneTable (s : State) (j : PageJob) : (s.placePage j).zoneTable = s.zoneTable := rfl
@[simp] theorem placePage_claims (s : State) (j : PageJob) : (s.placePage j).claims = s.claims := rfl
@[simp] theorem placePage_floorStop (s : State) (j : PageJob) : (s.placePage j).floorStop = s.floorStop := rfl
@[simp] theorem placePage_status (s : State) (j : PageJob) : (s.placePage j).status = s.status := rfl
@[simp] theorem placePage_due (s : State) (j : PageJob) : (s.placePage j).due = s.due := rfl
@[simp] theorem placePage_eventNo (s : State) (j : PageJob) : (s.placePage j).eventNo = s.eventNo := rfl
@[simp] theorem placePage_freeCount (s : State) (j : PageJob) : (s.placePage j).freeCount = s.freeCount := rfl
@[simp] theorem placePage_pending (s : State) (j : PageJob) : (s.placePage j).pending = s.pending := rfl
@[simp] theorem placePage_pageJobs (s : State) (j : PageJob) : (s.placePage j).pageJobs = s.pageJobs ++ [j] := rfl

/-! ## State.fileHead changes status alone -/

@[simp] theorem fileHead_near (s : State) (h : HeadId) (k : HeadFaultKind) (r : Option CueRef) (n : Word) : (s.fileHead h k r n).near = s.near := rfl
@[simp] theorem fileHead_pins (s : State) (h : HeadId) (k : HeadFaultKind) (r : Option CueRef) (n : Word) : (s.fileHead h k r n).pins = s.pins := rfl
@[simp] theorem fileHead_mem (s : State) (h : HeadId) (k : HeadFaultKind) (r : Option CueRef) (n : Word) : (s.fileHead h k r n).mem = s.mem := rfl
@[simp] theorem fileHead_grant (s : State) (h : HeadId) (k : HeadFaultKind) (r : Option CueRef) (n : Word) : (s.fileHead h k r n).grant = s.grant := rfl
@[simp] theorem fileHead_waiting (s : State) (h : HeadId) (k : HeadFaultKind) (r : Option CueRef) (n : Word) : (s.fileHead h k r n).waiting = s.waiting := rfl
@[simp] theorem fileHead_lastRefusal (s : State) (h : HeadId) (k : HeadFaultKind) (r : Option CueRef) (n : Word) : (s.fileHead h k r n).lastRefusal = s.lastRefusal := rfl
@[simp] theorem fileHead_mode (s : State) (h : HeadId) (k : HeadFaultKind) (r : Option CueRef) (n : Word) : (s.fileHead h k r n).mode = s.mode := rfl
@[simp] theorem fileHead_cause (s : State) (h : HeadId) (k : HeadFaultKind) (r : Option CueRef) (n : Word) : (s.fileHead h k r n).cause = s.cause := rfl
@[simp] theorem fileHead_startResult (s : State) (h : HeadId) (k : HeadFaultKind) (r : Option CueRef) (n : Word) : (s.fileHead h k r n).startResult = s.startResult := rfl
@[simp] theorem fileHead_tables (s : State) (h : HeadId) (k : HeadFaultKind) (r : Option CueRef) (n : Word) : (s.fileHead h k r n).tables = s.tables := rfl
@[simp] theorem fileHead_loader (s : State) (h : HeadId) (k : HeadFaultKind) (r : Option CueRef) (n : Word) : (s.fileHead h k r n).loader = s.loader := rfl
@[simp] theorem fileHead_fetcher (s : State) (h : HeadId) (k : HeadFaultKind) (r : Option CueRef) (n : Word) : (s.fileHead h k r n).fetcher = s.fetcher := rfl
@[simp] theorem fileHead_heads (s : State) (h : HeadId) (k : HeadFaultKind) (r : Option CueRef) (n : Word) : (s.fileHead h k r n).heads = s.heads := rfl
@[simp] theorem fileHead_stager (s : State) (h : HeadId) (k : HeadFaultKind) (r : Option CueRef) (n : Word) : (s.fileHead h k r n).stager = s.stager := rfl
@[simp] theorem fileHead_adopter (s : State) (h : HeadId) (k : HeadFaultKind) (r : Option CueRef) (n : Word) : (s.fileHead h k r n).adopter = s.adopter := rfl
@[simp] theorem fileHead_saver (s : State) (h : HeadId) (k : HeadFaultKind) (r : Option CueRef) (n : Word) : (s.fileHead h k r n).saver = s.saver := rfl
@[simp] theorem fileHead_pageJobs (s : State) (h : HeadId) (k : HeadFaultKind) (r : Option CueRef) (n : Word) : (s.fileHead h k r n).pageJobs = s.pageJobs := rfl
@[simp] theorem fileHead_frame (s : State) (h : HeadId) (k : HeadFaultKind) (r : Option CueRef) (n : Word) : (s.fileHead h k r n).frame = s.frame := rfl
@[simp] theorem fileHead_zoneTable (s : State) (h : HeadId) (k : HeadFaultKind) (r : Option CueRef) (n : Word) : (s.fileHead h k r n).zoneTable = s.zoneTable := rfl
@[simp] theorem fileHead_claims (s : State) (h : HeadId) (k : HeadFaultKind) (r : Option CueRef) (n : Word) : (s.fileHead h k r n).claims = s.claims := rfl
@[simp] theorem fileHead_floorStop (s : State) (h : HeadId) (k : HeadFaultKind) (r : Option CueRef) (n : Word) : (s.fileHead h k r n).floorStop = s.floorStop := rfl
@[simp] theorem fileHead_due (s : State) (h : HeadId) (k : HeadFaultKind) (r : Option CueRef) (n : Word) : (s.fileHead h k r n).due = s.due := rfl
@[simp] theorem fileHead_eventNo (s : State) (h : HeadId) (k : HeadFaultKind) (r : Option CueRef) (n : Word) : (s.fileHead h k r n).eventNo = s.eventNo := rfl
@[simp] theorem fileHead_freeCount (s : State) (h : HeadId) (k : HeadFaultKind) (r : Option CueRef) (n : Word) : (s.fileHead h k r n).freeCount = s.freeCount := rfl
@[simp] theorem fileHead_pending (s : State) (h : HeadId) (k : HeadFaultKind) (r : Option CueRef) (n : Word) : (s.fileHead h k r n).pending = s.pending := rfl

/-! ## State.filePart changes status alone -/

@[simp] theorem filePart_near (s : State) (k : PartFaultKind) (i : Nat) (n : Option (BitVec 8)) (r : Option StartResult) : (s.filePart k i n r).near = s.near := rfl
@[simp] theorem filePart_pins (s : State) (k : PartFaultKind) (i : Nat) (n : Option (BitVec 8)) (r : Option StartResult) : (s.filePart k i n r).pins = s.pins := rfl
@[simp] theorem filePart_mem (s : State) (k : PartFaultKind) (i : Nat) (n : Option (BitVec 8)) (r : Option StartResult) : (s.filePart k i n r).mem = s.mem := rfl
@[simp] theorem filePart_grant (s : State) (k : PartFaultKind) (i : Nat) (n : Option (BitVec 8)) (r : Option StartResult) : (s.filePart k i n r).grant = s.grant := rfl
@[simp] theorem filePart_waiting (s : State) (k : PartFaultKind) (i : Nat) (n : Option (BitVec 8)) (r : Option StartResult) : (s.filePart k i n r).waiting = s.waiting := rfl
@[simp] theorem filePart_lastRefusal (s : State) (k : PartFaultKind) (i : Nat) (n : Option (BitVec 8)) (r : Option StartResult) : (s.filePart k i n r).lastRefusal = s.lastRefusal := rfl
@[simp] theorem filePart_mode (s : State) (k : PartFaultKind) (i : Nat) (n : Option (BitVec 8)) (r : Option StartResult) : (s.filePart k i n r).mode = s.mode := rfl
@[simp] theorem filePart_cause (s : State) (k : PartFaultKind) (i : Nat) (n : Option (BitVec 8)) (r : Option StartResult) : (s.filePart k i n r).cause = s.cause := rfl
@[simp] theorem filePart_startResult (s : State) (k : PartFaultKind) (i : Nat) (n : Option (BitVec 8)) (r : Option StartResult) : (s.filePart k i n r).startResult = s.startResult := rfl
@[simp] theorem filePart_tables (s : State) (k : PartFaultKind) (i : Nat) (n : Option (BitVec 8)) (r : Option StartResult) : (s.filePart k i n r).tables = s.tables := rfl
@[simp] theorem filePart_loader (s : State) (k : PartFaultKind) (i : Nat) (n : Option (BitVec 8)) (r : Option StartResult) : (s.filePart k i n r).loader = s.loader := rfl
@[simp] theorem filePart_fetcher (s : State) (k : PartFaultKind) (i : Nat) (n : Option (BitVec 8)) (r : Option StartResult) : (s.filePart k i n r).fetcher = s.fetcher := rfl
@[simp] theorem filePart_heads (s : State) (k : PartFaultKind) (i : Nat) (n : Option (BitVec 8)) (r : Option StartResult) : (s.filePart k i n r).heads = s.heads := rfl
@[simp] theorem filePart_stager (s : State) (k : PartFaultKind) (i : Nat) (n : Option (BitVec 8)) (r : Option StartResult) : (s.filePart k i n r).stager = s.stager := rfl
@[simp] theorem filePart_adopter (s : State) (k : PartFaultKind) (i : Nat) (n : Option (BitVec 8)) (r : Option StartResult) : (s.filePart k i n r).adopter = s.adopter := rfl
@[simp] theorem filePart_saver (s : State) (k : PartFaultKind) (i : Nat) (n : Option (BitVec 8)) (r : Option StartResult) : (s.filePart k i n r).saver = s.saver := rfl
@[simp] theorem filePart_pageJobs (s : State) (k : PartFaultKind) (i : Nat) (n : Option (BitVec 8)) (r : Option StartResult) : (s.filePart k i n r).pageJobs = s.pageJobs := rfl
@[simp] theorem filePart_frame (s : State) (k : PartFaultKind) (i : Nat) (n : Option (BitVec 8)) (r : Option StartResult) : (s.filePart k i n r).frame = s.frame := rfl
@[simp] theorem filePart_zoneTable (s : State) (k : PartFaultKind) (i : Nat) (n : Option (BitVec 8)) (r : Option StartResult) : (s.filePart k i n r).zoneTable = s.zoneTable := rfl
@[simp] theorem filePart_claims (s : State) (k : PartFaultKind) (i : Nat) (n : Option (BitVec 8)) (r : Option StartResult) : (s.filePart k i n r).claims = s.claims := rfl
@[simp] theorem filePart_floorStop (s : State) (k : PartFaultKind) (i : Nat) (n : Option (BitVec 8)) (r : Option StartResult) : (s.filePart k i n r).floorStop = s.floorStop := rfl
@[simp] theorem filePart_due (s : State) (k : PartFaultKind) (i : Nat) (n : Option (BitVec 8)) (r : Option StartResult) : (s.filePart k i n r).due = s.due := rfl
@[simp] theorem filePart_eventNo (s : State) (k : PartFaultKind) (i : Nat) (n : Option (BitVec 8)) (r : Option StartResult) : (s.filePart k i n r).eventNo = s.eventNo := rfl
@[simp] theorem filePart_freeCount (s : State) (k : PartFaultKind) (i : Nat) (n : Option (BitVec 8)) (r : Option StartResult) : (s.filePart k i n r).freeCount = s.freeCount := rfl
@[simp] theorem filePart_pending (s : State) (k : PartFaultKind) (i : Nat) (n : Option (BitVec 8)) (r : Option StartResult) : (s.filePart k i n r).pending = s.pending := rfl

/-! ## State.owe changes status alone -/

@[simp] theorem owe_near (s : State) (r : RecId) : (s.owe r).near = s.near := rfl
@[simp] theorem owe_pins (s : State) (r : RecId) : (s.owe r).pins = s.pins := rfl
@[simp] theorem owe_mem (s : State) (r : RecId) : (s.owe r).mem = s.mem := rfl
@[simp] theorem owe_grant (s : State) (r : RecId) : (s.owe r).grant = s.grant := rfl
@[simp] theorem owe_waiting (s : State) (r : RecId) : (s.owe r).waiting = s.waiting := rfl
@[simp] theorem owe_lastRefusal (s : State) (r : RecId) : (s.owe r).lastRefusal = s.lastRefusal := rfl
@[simp] theorem owe_mode (s : State) (r : RecId) : (s.owe r).mode = s.mode := rfl
@[simp] theorem owe_cause (s : State) (r : RecId) : (s.owe r).cause = s.cause := rfl
@[simp] theorem owe_startResult (s : State) (r : RecId) : (s.owe r).startResult = s.startResult := rfl
@[simp] theorem owe_tables (s : State) (r : RecId) : (s.owe r).tables = s.tables := rfl
@[simp] theorem owe_loader (s : State) (r : RecId) : (s.owe r).loader = s.loader := rfl
@[simp] theorem owe_fetcher (s : State) (r : RecId) : (s.owe r).fetcher = s.fetcher := rfl
@[simp] theorem owe_heads (s : State) (r : RecId) : (s.owe r).heads = s.heads := rfl
@[simp] theorem owe_stager (s : State) (r : RecId) : (s.owe r).stager = s.stager := rfl
@[simp] theorem owe_adopter (s : State) (r : RecId) : (s.owe r).adopter = s.adopter := rfl
@[simp] theorem owe_saver (s : State) (r : RecId) : (s.owe r).saver = s.saver := rfl
@[simp] theorem owe_pageJobs (s : State) (r : RecId) : (s.owe r).pageJobs = s.pageJobs := rfl
@[simp] theorem owe_frame (s : State) (r : RecId) : (s.owe r).frame = s.frame := rfl
@[simp] theorem owe_zoneTable (s : State) (r : RecId) : (s.owe r).zoneTable = s.zoneTable := rfl
@[simp] theorem owe_claims (s : State) (r : RecId) : (s.owe r).claims = s.claims := rfl
@[simp] theorem owe_floorStop (s : State) (r : RecId) : (s.owe r).floorStop = s.floorStop := rfl
@[simp] theorem owe_due (s : State) (r : RecId) : (s.owe r).due = s.due := rfl
@[simp] theorem owe_eventNo (s : State) (r : RecId) : (s.owe r).eventNo = s.eventNo := rfl
@[simp] theorem owe_freeCount (s : State) (r : RecId) : (s.owe r).freeCount = s.freeCount := rfl
@[simp] theorem owe_pending (s : State) (r : RecId) : (s.owe r).pending = s.pending := rfl

/-! ## State.oweChanged changes status alone -/

@[simp] theorem oweChanged_near (s0 s : State) : (State.oweChanged s0 s).near = s.near := rfl
@[simp] theorem oweChanged_pins (s0 s : State) : (State.oweChanged s0 s).pins = s.pins := rfl
@[simp] theorem oweChanged_mem (s0 s : State) : (State.oweChanged s0 s).mem = s.mem := rfl
@[simp] theorem oweChanged_grant (s0 s : State) : (State.oweChanged s0 s).grant = s.grant := rfl
@[simp] theorem oweChanged_waiting (s0 s : State) : (State.oweChanged s0 s).waiting = s.waiting := rfl
@[simp] theorem oweChanged_lastRefusal (s0 s : State) : (State.oweChanged s0 s).lastRefusal = s.lastRefusal := rfl
@[simp] theorem oweChanged_mode (s0 s : State) : (State.oweChanged s0 s).mode = s.mode := rfl
@[simp] theorem oweChanged_cause (s0 s : State) : (State.oweChanged s0 s).cause = s.cause := rfl
@[simp] theorem oweChanged_startResult (s0 s : State) : (State.oweChanged s0 s).startResult = s.startResult := rfl
@[simp] theorem oweChanged_tables (s0 s : State) : (State.oweChanged s0 s).tables = s.tables := rfl
@[simp] theorem oweChanged_loader (s0 s : State) : (State.oweChanged s0 s).loader = s.loader := rfl
@[simp] theorem oweChanged_fetcher (s0 s : State) : (State.oweChanged s0 s).fetcher = s.fetcher := rfl
@[simp] theorem oweChanged_heads (s0 s : State) : (State.oweChanged s0 s).heads = s.heads := rfl
@[simp] theorem oweChanged_stager (s0 s : State) : (State.oweChanged s0 s).stager = s.stager := rfl
@[simp] theorem oweChanged_adopter (s0 s : State) : (State.oweChanged s0 s).adopter = s.adopter := rfl
@[simp] theorem oweChanged_saver (s0 s : State) : (State.oweChanged s0 s).saver = s.saver := rfl
@[simp] theorem oweChanged_pageJobs (s0 s : State) : (State.oweChanged s0 s).pageJobs = s.pageJobs := rfl
@[simp] theorem oweChanged_frame (s0 s : State) : (State.oweChanged s0 s).frame = s.frame := rfl
@[simp] theorem oweChanged_zoneTable (s0 s : State) : (State.oweChanged s0 s).zoneTable = s.zoneTable := rfl
@[simp] theorem oweChanged_claims (s0 s : State) : (State.oweChanged s0 s).claims = s.claims := rfl
@[simp] theorem oweChanged_floorStop (s0 s : State) : (State.oweChanged s0 s).floorStop = s.floorStop := rfl
@[simp] theorem oweChanged_due (s0 s : State) : (State.oweChanged s0 s).due = s.due := rfl
@[simp] theorem oweChanged_eventNo (s0 s : State) : (State.oweChanged s0 s).eventNo = s.eventNo := rfl
@[simp] theorem oweChanged_freeCount (s0 s : State) : (State.oweChanged s0 s).freeCount = s.freeCount := rfl
@[simp] theorem oweChanged_pending (s0 s : State) : (State.oweChanged s0 s).pending = s.pending := rfl

/-! ## State.enterClaim changes zoneTable alone -/

@[simp] theorem enterClaim_near (s : State) (h : HeadId) (z : Zones) : (s.enterClaim h z).near = s.near := rfl
@[simp] theorem enterClaim_pins (s : State) (h : HeadId) (z : Zones) : (s.enterClaim h z).pins = s.pins := rfl
@[simp] theorem enterClaim_mem (s : State) (h : HeadId) (z : Zones) : (s.enterClaim h z).mem = s.mem := rfl
@[simp] theorem enterClaim_grant (s : State) (h : HeadId) (z : Zones) : (s.enterClaim h z).grant = s.grant := rfl
@[simp] theorem enterClaim_waiting (s : State) (h : HeadId) (z : Zones) : (s.enterClaim h z).waiting = s.waiting := rfl
@[simp] theorem enterClaim_lastRefusal (s : State) (h : HeadId) (z : Zones) : (s.enterClaim h z).lastRefusal = s.lastRefusal := rfl
@[simp] theorem enterClaim_mode (s : State) (h : HeadId) (z : Zones) : (s.enterClaim h z).mode = s.mode := rfl
@[simp] theorem enterClaim_cause (s : State) (h : HeadId) (z : Zones) : (s.enterClaim h z).cause = s.cause := rfl
@[simp] theorem enterClaim_startResult (s : State) (h : HeadId) (z : Zones) : (s.enterClaim h z).startResult = s.startResult := rfl
@[simp] theorem enterClaim_tables (s : State) (h : HeadId) (z : Zones) : (s.enterClaim h z).tables = s.tables := rfl
@[simp] theorem enterClaim_loader (s : State) (h : HeadId) (z : Zones) : (s.enterClaim h z).loader = s.loader := rfl
@[simp] theorem enterClaim_fetcher (s : State) (h : HeadId) (z : Zones) : (s.enterClaim h z).fetcher = s.fetcher := rfl
@[simp] theorem enterClaim_heads (s : State) (h : HeadId) (z : Zones) : (s.enterClaim h z).heads = s.heads := rfl
@[simp] theorem enterClaim_stager (s : State) (h : HeadId) (z : Zones) : (s.enterClaim h z).stager = s.stager := rfl
@[simp] theorem enterClaim_adopter (s : State) (h : HeadId) (z : Zones) : (s.enterClaim h z).adopter = s.adopter := rfl
@[simp] theorem enterClaim_saver (s : State) (h : HeadId) (z : Zones) : (s.enterClaim h z).saver = s.saver := rfl
@[simp] theorem enterClaim_pageJobs (s : State) (h : HeadId) (z : Zones) : (s.enterClaim h z).pageJobs = s.pageJobs := rfl
@[simp] theorem enterClaim_frame (s : State) (h : HeadId) (z : Zones) : (s.enterClaim h z).frame = s.frame := rfl
@[simp] theorem enterClaim_claims (s : State) (h : HeadId) (z : Zones) : (s.enterClaim h z).claims = s.claims := rfl
@[simp] theorem enterClaim_floorStop (s : State) (h : HeadId) (z : Zones) : (s.enterClaim h z).floorStop = s.floorStop := rfl
@[simp] theorem enterClaim_status (s : State) (h : HeadId) (z : Zones) : (s.enterClaim h z).status = s.status := rfl
@[simp] theorem enterClaim_due (s : State) (h : HeadId) (z : Zones) : (s.enterClaim h z).due = s.due := rfl
@[simp] theorem enterClaim_eventNo (s : State) (h : HeadId) (z : Zones) : (s.enterClaim h z).eventNo = s.eventNo := rfl
@[simp] theorem enterClaim_freeCount (s : State) (h : HeadId) (z : Zones) : (s.enterClaim h z).freeCount = s.freeCount := rfl
@[simp] theorem enterClaim_pending (s : State) (h : HeadId) (z : Zones) : (s.enterClaim h z).pending = s.pending := rfl
@[simp] theorem enterClaim_zoneTable (s : State) (h : HeadId) (z : Zones) : (s.enterClaim h z).zoneTable = enterZones s.zoneTable h z := rfl

/-! ## State.withdrawClaim changes claims alone -/

@[simp] theorem withdrawClaim_near (s : State) (h : HeadId) (k : ClaimKind) : (s.withdrawClaim h k).near = s.near := rfl
@[simp] theorem withdrawClaim_pins (s : State) (h : HeadId) (k : ClaimKind) : (s.withdrawClaim h k).pins = s.pins := rfl
@[simp] theorem withdrawClaim_mem (s : State) (h : HeadId) (k : ClaimKind) : (s.withdrawClaim h k).mem = s.mem := rfl
@[simp] theorem withdrawClaim_grant (s : State) (h : HeadId) (k : ClaimKind) : (s.withdrawClaim h k).grant = s.grant := rfl
@[simp] theorem withdrawClaim_waiting (s : State) (h : HeadId) (k : ClaimKind) : (s.withdrawClaim h k).waiting = s.waiting := rfl
@[simp] theorem withdrawClaim_lastRefusal (s : State) (h : HeadId) (k : ClaimKind) : (s.withdrawClaim h k).lastRefusal = s.lastRefusal := rfl
@[simp] theorem withdrawClaim_mode (s : State) (h : HeadId) (k : ClaimKind) : (s.withdrawClaim h k).mode = s.mode := rfl
@[simp] theorem withdrawClaim_cause (s : State) (h : HeadId) (k : ClaimKind) : (s.withdrawClaim h k).cause = s.cause := rfl
@[simp] theorem withdrawClaim_startResult (s : State) (h : HeadId) (k : ClaimKind) : (s.withdrawClaim h k).startResult = s.startResult := rfl
@[simp] theorem withdrawClaim_tables (s : State) (h : HeadId) (k : ClaimKind) : (s.withdrawClaim h k).tables = s.tables := rfl
@[simp] theorem withdrawClaim_loader (s : State) (h : HeadId) (k : ClaimKind) : (s.withdrawClaim h k).loader = s.loader := rfl
@[simp] theorem withdrawClaim_fetcher (s : State) (h : HeadId) (k : ClaimKind) : (s.withdrawClaim h k).fetcher = s.fetcher := rfl
@[simp] theorem withdrawClaim_heads (s : State) (h : HeadId) (k : ClaimKind) : (s.withdrawClaim h k).heads = s.heads := rfl
@[simp] theorem withdrawClaim_stager (s : State) (h : HeadId) (k : ClaimKind) : (s.withdrawClaim h k).stager = s.stager := rfl
@[simp] theorem withdrawClaim_adopter (s : State) (h : HeadId) (k : ClaimKind) : (s.withdrawClaim h k).adopter = s.adopter := rfl
@[simp] theorem withdrawClaim_saver (s : State) (h : HeadId) (k : ClaimKind) : (s.withdrawClaim h k).saver = s.saver := rfl
@[simp] theorem withdrawClaim_pageJobs (s : State) (h : HeadId) (k : ClaimKind) : (s.withdrawClaim h k).pageJobs = s.pageJobs := rfl
@[simp] theorem withdrawClaim_frame (s : State) (h : HeadId) (k : ClaimKind) : (s.withdrawClaim h k).frame = s.frame := rfl
@[simp] theorem withdrawClaim_zoneTable (s : State) (h : HeadId) (k : ClaimKind) : (s.withdrawClaim h k).zoneTable = s.zoneTable := rfl
@[simp] theorem withdrawClaim_floorStop (s : State) (h : HeadId) (k : ClaimKind) : (s.withdrawClaim h k).floorStop = s.floorStop := rfl
@[simp] theorem withdrawClaim_status (s : State) (h : HeadId) (k : ClaimKind) : (s.withdrawClaim h k).status = s.status := rfl
@[simp] theorem withdrawClaim_due (s : State) (h : HeadId) (k : ClaimKind) : (s.withdrawClaim h k).due = s.due := rfl
@[simp] theorem withdrawClaim_eventNo (s : State) (h : HeadId) (k : ClaimKind) : (s.withdrawClaim h k).eventNo = s.eventNo := rfl
@[simp] theorem withdrawClaim_freeCount (s : State) (h : HeadId) (k : ClaimKind) : (s.withdrawClaim h k).freeCount = s.freeCount := rfl
@[simp] theorem withdrawClaim_pending (s : State) (h : HeadId) (k : ClaimKind) : (s.withdrawClaim h k).pending = s.pending := rfl

/-! ## State.putClaim changes claims alone -/

@[simp] theorem putClaim_near (s : State) (c : Claim) : (s.putClaim c).near = s.near := rfl
@[simp] theorem putClaim_pins (s : State) (c : Claim) : (s.putClaim c).pins = s.pins := rfl
@[simp] theorem putClaim_mem (s : State) (c : Claim) : (s.putClaim c).mem = s.mem := rfl
@[simp] theorem putClaim_grant (s : State) (c : Claim) : (s.putClaim c).grant = s.grant := rfl
@[simp] theorem putClaim_waiting (s : State) (c : Claim) : (s.putClaim c).waiting = s.waiting := rfl
@[simp] theorem putClaim_lastRefusal (s : State) (c : Claim) : (s.putClaim c).lastRefusal = s.lastRefusal := rfl
@[simp] theorem putClaim_mode (s : State) (c : Claim) : (s.putClaim c).mode = s.mode := rfl
@[simp] theorem putClaim_cause (s : State) (c : Claim) : (s.putClaim c).cause = s.cause := rfl
@[simp] theorem putClaim_startResult (s : State) (c : Claim) : (s.putClaim c).startResult = s.startResult := rfl
@[simp] theorem putClaim_tables (s : State) (c : Claim) : (s.putClaim c).tables = s.tables := rfl
@[simp] theorem putClaim_loader (s : State) (c : Claim) : (s.putClaim c).loader = s.loader := rfl
@[simp] theorem putClaim_fetcher (s : State) (c : Claim) : (s.putClaim c).fetcher = s.fetcher := rfl
@[simp] theorem putClaim_heads (s : State) (c : Claim) : (s.putClaim c).heads = s.heads := rfl
@[simp] theorem putClaim_stager (s : State) (c : Claim) : (s.putClaim c).stager = s.stager := rfl
@[simp] theorem putClaim_adopter (s : State) (c : Claim) : (s.putClaim c).adopter = s.adopter := rfl
@[simp] theorem putClaim_saver (s : State) (c : Claim) : (s.putClaim c).saver = s.saver := rfl
@[simp] theorem putClaim_pageJobs (s : State) (c : Claim) : (s.putClaim c).pageJobs = s.pageJobs := rfl
@[simp] theorem putClaim_frame (s : State) (c : Claim) : (s.putClaim c).frame = s.frame := rfl
@[simp] theorem putClaim_zoneTable (s : State) (c : Claim) : (s.putClaim c).zoneTable = s.zoneTable := rfl
@[simp] theorem putClaim_floorStop (s : State) (c : Claim) : (s.putClaim c).floorStop = s.floorStop := rfl
@[simp] theorem putClaim_status (s : State) (c : Claim) : (s.putClaim c).status = s.status := rfl
@[simp] theorem putClaim_due (s : State) (c : Claim) : (s.putClaim c).due = s.due := rfl
@[simp] theorem putClaim_eventNo (s : State) (c : Claim) : (s.putClaim c).eventNo = s.eventNo := rfl
@[simp] theorem putClaim_freeCount (s : State) (c : Claim) : (s.putClaim c).freeCount = s.freeCount := rfl
@[simp] theorem putClaim_pending (s : State) (c : Claim) : (s.putClaim c).pending = s.pending := rfl
@[simp] theorem putClaim_claims (s : State) (c : Claim) : (s.putClaim c).claims = insertClaim c s.claims := rfl

/-! ## State.answerHost changes near alone -/

@[simp] theorem answerHost_pins (s : State) (a : Answer) : (s.answerHost a).pins = s.pins := rfl
@[simp] theorem answerHost_mem (s : State) (a : Answer) : (s.answerHost a).mem = s.mem := rfl
@[simp] theorem answerHost_grant (s : State) (a : Answer) : (s.answerHost a).grant = s.grant := rfl
@[simp] theorem answerHost_waiting (s : State) (a : Answer) : (s.answerHost a).waiting = s.waiting := rfl
@[simp] theorem answerHost_lastRefusal (s : State) (a : Answer) : (s.answerHost a).lastRefusal = s.lastRefusal := rfl
@[simp] theorem answerHost_mode (s : State) (a : Answer) : (s.answerHost a).mode = s.mode := rfl
@[simp] theorem answerHost_cause (s : State) (a : Answer) : (s.answerHost a).cause = s.cause := rfl
@[simp] theorem answerHost_startResult (s : State) (a : Answer) : (s.answerHost a).startResult = s.startResult := rfl
@[simp] theorem answerHost_tables (s : State) (a : Answer) : (s.answerHost a).tables = s.tables := rfl
@[simp] theorem answerHost_loader (s : State) (a : Answer) : (s.answerHost a).loader = s.loader := rfl
@[simp] theorem answerHost_fetcher (s : State) (a : Answer) : (s.answerHost a).fetcher = s.fetcher := rfl
@[simp] theorem answerHost_heads (s : State) (a : Answer) : (s.answerHost a).heads = s.heads := rfl
@[simp] theorem answerHost_stager (s : State) (a : Answer) : (s.answerHost a).stager = s.stager := rfl
@[simp] theorem answerHost_adopter (s : State) (a : Answer) : (s.answerHost a).adopter = s.adopter := rfl
@[simp] theorem answerHost_saver (s : State) (a : Answer) : (s.answerHost a).saver = s.saver := rfl
@[simp] theorem answerHost_pageJobs (s : State) (a : Answer) : (s.answerHost a).pageJobs = s.pageJobs := rfl
@[simp] theorem answerHost_frame (s : State) (a : Answer) : (s.answerHost a).frame = s.frame := rfl
@[simp] theorem answerHost_zoneTable (s : State) (a : Answer) : (s.answerHost a).zoneTable = s.zoneTable := rfl
@[simp] theorem answerHost_claims (s : State) (a : Answer) : (s.answerHost a).claims = s.claims := rfl
@[simp] theorem answerHost_floorStop (s : State) (a : Answer) : (s.answerHost a).floorStop = s.floorStop := rfl
@[simp] theorem answerHost_status (s : State) (a : Answer) : (s.answerHost a).status = s.status := rfl
@[simp] theorem answerHost_due (s : State) (a : Answer) : (s.answerHost a).due = s.due := rfl
@[simp] theorem answerHost_eventNo (s : State) (a : Answer) : (s.answerHost a).eventNo = s.eventNo := rfl
@[simp] theorem answerHost_freeCount (s : State) (a : Answer) : (s.answerHost a).freeCount = s.freeCount := rfl
@[simp] theorem answerHost_pending (s : State) (a : Answer) : (s.answerHost a).pending = s.pending := rfl
@[simp] theorem answerHost_near (s : State) (a : Answer) : (s.answerHost a).near = { s.near with op := none, answer := some a } := rfl

/-! ## Heads -/

/-- A changed head reads as changed. -/
@[simp] theorem head_setHead_same (s : State) (h : HeadId) (f : Head → Head) : (s.setHead h f).head h = f (s.head h) := by
  simp [State.head, State.setHead]

/-- Another head reads as before. -/
theorem head_setHead_ne (s : State) (h g : HeadId) (f : Head → Head) (hne : h ≠ g) : (s.setHead h f).head g = s.head g := by
  have hv : h.val ≠ g.val := fun e => hne (Fin.ext e)
  simp [State.head, State.setHead, hv]

/-- What any head reads after one head is changed. -/
theorem head_setHead (s : State) (h g : HeadId) (f : Head → Head) :
    (s.setHead h f).head g = if h = g then f (s.head g) else s.head g := by
  by_cases e : h = g
  · subst e; simp
  · simp [e, head_setHead_ne s h g f e]

/-- A head reads from the heads field alone. -/
theorem head_congr (s t : State) (h : HeadId) (e : t.heads = s.heads) : t.head h = s.head h := by
  simp [State.head, e]

end Sys2Proof.Machine
end

