-- ==== Sys2Proof/Laws/Memory.lean ====
section
/-! SUPPORT. Laws/Memory.lean: the head memory's canonical form is kept by every write, and what a write leaves. -/
namespace Sys2Proof.Machine

/-- Every listed address lies above a bound. -/
def Memory.above (b : Nat) (m : Memory) : Prop := ∀ c ∈ m, b < c.1

/-- The canonical form of a list with a first entry. -/
theorem wf_cons (k : Nat) (v : Byte) (m : Memory) :
    Memory.wf ((k, v) :: m) = true ↔ v ≠ unlistedByte ∧ Memory.above k m ∧ Memory.wf m = true := by
  induction m generalizing k v with
  | nil => simp [Memory.wf, Memory.above]
  | cons c m ih =>
    obtain ⟨k', v'⟩ := c
    have h := ih k' v'
    constructor
    · intro w
      simp only [Memory.wf, Bool.and_eq_true, decide_eq_true_eq] at w
      obtain ⟨⟨hlt, hv⟩, w'⟩ := w
      have hab := (h.mp w').2.1
      refine ⟨hv, ?_, w'⟩
      intro c hc
      rcases List.mem_cons.mp hc with e | hc
      · subst e; exact hlt
      · exact Nat.lt_trans hlt (hab c hc)
    · rintro ⟨hv, hab, w'⟩
      have := hab (k', v') (List.mem_cons_self ..)
      simp [Memory.wf, hv, w', this]

/-- What is listed after a write was listed before, or is the byte written. -/
theorem mem_write (m : Memory) (a : Nat) (v : Byte) (c : Host.Cell) (h : c ∈ m.write a v) : c ∈ m ∨ c = (a, v) := by
  induction m with
  | nil =>
    simp only [Memory.write] at h
    split at h <;> simp_all
  | cons d m ih =>
    obtain ⟨k, w⟩ := d
    simp only [Memory.write] at h
    split at h
    · split at h <;> simp_all
      rcases h with h | h | h <;> simp_all
    · split at h
      · split at h <;> simp_all
        rcases h with h | h <;> simp_all
      · rcases List.mem_cons.mp h with h | h
        · simp [h]
        · rcases ih h with h | h
          · exact Or.inl (List.mem_cons_of_mem _ h)
          · exact Or.inr h

/-- A write of a byte keeps the canonical form. -/
theorem write_wf (m : Memory) (a : Nat) (v : Byte) (h : Memory.wf m = true) : Memory.wf (m.write a v) = true := by
  induction m with
  | nil =>
    by_cases hv : v = unlistedByte <;> simp [Memory.write, Memory.wf, hv]
  | cons c m ih =>
    obtain ⟨k, w⟩ := c
    obtain ⟨hw, hab, hm⟩ := (wf_cons k w m).mp h
    simp only [Memory.write]
    split
    · rename_i hlt
      split
      · exact h
      · rename_i hv
        refine (wf_cons a v _).mpr ⟨hv, ?_, h⟩
        intro c hc
        rcases List.mem_cons.mp hc with e | hc
        · subst e; exact hlt
        · exact Nat.lt_trans hlt (hab c hc)
    · rename_i hge
      split
      · rename_i heq
        split
        · exact hm
        · rename_i hv
          exact (wf_cons a v m).mpr ⟨hv, heq ▸ hab, hm⟩
      · rename_i hne
        refine (wf_cons k w _).mpr ⟨hw, ?_, ih hm⟩
        intro c hc
        rcases mem_write m a v c hc with hc | e
        · exact hab c hc
        · subst e; exact Nat.lt_of_le_of_ne (Nat.le_of_not_lt hge) (fun e => hne e.symm)

/-- An address below every listed one reads as unlisted. -/
theorem read_above (m : Memory) (a b : Nat) (h : Memory.above b m) (hab : a ≤ b) : m.read a = unlistedByte := by
  induction m with
  | nil => rfl
  | cons c m ih =>
    obtain ⟨k, w⟩ := c
    have hk : b < k := h (k, w) (List.mem_cons_self ..)
    have hne : k ≠ a := fun e => by omega
    simp [Memory.read, hne, ih (fun c hc => h c (List.mem_cons_of_mem _ hc))]

/-- Writing an address leaves every other address. -/
theorem read_write_ne (m : Memory) (a b : Nat) (v : Byte) (h : b ≠ a) : (m.write a v).read b = m.read b := by
  have h' : a ≠ b := fun e => h e.symm
  induction m with
  | nil =>
    by_cases hv : v = unlistedByte <;> simp [Memory.write, Memory.read, hv, h']
  | cons c m ih =>
    obtain ⟨k, w⟩ := c
    simp only [Memory.write]
    split
    · split <;> simp [Memory.read, h']
    · split
      · rename_i hk
        have hkb : k ≠ b := fun e => h' (hk.trans e)
        split <;> simp [Memory.read, h', hkb]
      · by_cases hkb : k = b <;> simp [Memory.read, hkb, ih]

/-- In a canonical memory an address written reads as written. -/
theorem read_write_same (m : Memory) (a : Nat) (v : Byte) (h : Memory.wf m = true) : (m.write a v).read a = v := by
  induction m with
  | nil => by_cases hv : v = unlistedByte <;> simp [Memory.write, Memory.read, hv]
  | cons c m ih =>
    obtain ⟨k, w⟩ := c
    obtain ⟨_, hab, hm⟩ := (wf_cons k w m).mp h
    simp only [Memory.write]
    split
    · rename_i hlt
      split
      · rename_i hv
        have hne : k ≠ a := fun e => by omega
        simp [Memory.read, hne, hv, read_above m a k hab (Nat.le_of_lt hlt)]
      · simp [Memory.read]
    · split
      · rename_i hk
        split
        · rename_i hv
          rw [hv]; exact read_above m a k hab (by omega)
        · simp [Memory.read]
      · rename_i hk
        have hne : k ≠ a := fun e => hk e.symm
        simp [Memory.read, hne, ih hm]

/-- A write of the enabled lanes of a word keeps the canonical form. -/
theorem writeLanes_wf (m : Memory) (a : Nat) (l : BitVec 4) (w : Word) (h : Memory.wf m = true) :
    Memory.wf (m.writeLanes a l w) = true := by
  unfold Memory.writeLanes
  repeat' first
    | exact h
    | apply write_wf
    | split

/-- A write of a word leaves every byte outside the word. -/
theorem read_writeLanes_outside (m : Memory) (a b : Nat) (l : BitVec 4) (w : Word) (h : b < a ∨ a + 4 ≤ b) :
    (m.writeLanes a l w).read b = m.read b := by
  have h0 : b ≠ a := by omega
  have h1 : b ≠ a + 1 := by omega
  have h2 : b ≠ a + 2 := by omega
  have h3 : b ≠ a + 3 := by omega
  unfold Memory.writeLanes
  dsimp only
  split <;> split <;> split <;> split <;> simp [read_write_ne, h0, h1, h2, h3]

/-- A write of a word leaves the byte of a lane that is not enabled. -/
theorem read_writeLanes_disabled (m : Memory) (a j : Nat) (l : BitVec 4) (w : Word) (hj : j < 4)
    (h : l.getLsbD j = false) : (m.writeLanes a l w).read (a + j) = m.read (a + j) := by
  have hc : j = 0 ∨ j = 1 ∨ j = 2 ∨ j = 3 := by omega
  unfold Memory.writeLanes
  dsimp only
  rcases hc with e | e | e | e <;> subst e <;> rw [h] <;>
    simp only [Bool.false_eq_true, if_false, Nat.add_zero] <;>
    (repeat' split) <;> first | rfl | simp [read_write_ne]

/-- In a canonical memory the byte of an enabled lane reads as written. -/
theorem read_writeLanes_enabled (m : Memory) (a j : Nat) (l : BitVec 4) (w : Word) (hj : j < 4)
    (h : l.getLsbD j = true) (hm : Memory.wf m = true) : (m.writeLanes a l w).read (a + j) = byteOf w j := by
  have hc : j = 0 ∨ j = 1 ∨ j = 2 ∨ j = 3 := by omega
  unfold Memory.writeLanes
  dsimp only
  rcases hc with e | e | e | e <;> subst e <;> rw [h] <;> simp only [if_true, Nat.add_zero] <;>
    (repeat' split) <;> simp (maxDischargeDepth := 6) [read_write_ne, read_write_same, write_wf, hm]

/-- A write of consecutive words keeps the canonical form. -/
theorem writeWords_wf (ws : List Word) (m : Memory) (a : Nat) (h : Memory.wf m = true) :
    Memory.wf (m.writeWords a ws) = true := by
  induction ws generalizing m a with
  | nil => exact h
  | cons w ws ih => exact ih _ _ (writeLanes_wf _ _ _ _ h)

/-- A write of consecutive words leaves every byte outside them. -/
theorem read_writeWords_outside (ws : List Word) (m : Memory) (a b : Nat) (h : b < a ∨ a + 4 * ws.length ≤ b) :
    (m.writeWords a ws).read b = m.read b := by
  induction ws generalizing m a with
  | nil => rfl
  | cons w ws ih =>
    simp only [List.length_cons] at h
    simp only [Memory.writeWords]
    rw [ih _ _ (by omega)]
    exact read_writeLanes_outside _ _ _ _ _ (by omega)

/-- As many words are answered as were sent. -/
theorem answeredWords_length (e f j : Nat) (ws : List Word) : (answeredWords e f j ws).length = ws.length := by
  induction ws generalizing j with
  | nil => rfl
  | cons w ws ih => simp [answeredWords, ih]

/-- Without ERR the words answered are those sent (R12). -/
theorem answeredWords_zero (f j : Nat) (ws : List Word) : answeredWords 0 f j ws = ws := by
  induction ws generalizing j with
  | nil => rfl
  | cons w ws ih => simp [answeredWords, ih]

/-- A stored transfer keeps the canonical form. -/
theorem store_wf (s : State) (a : Nat) (ws : List Word) (e : Nat) (h : Memory.wf s.mem = true) :
    Memory.wf (s.store a ws e).mem = true := writeWords_wf _ _ _ h

/-- A stored transfer leaves every byte outside its words (R12). -/
theorem store_read_outside (s : State) (a b : Nat) (ws : List Word) (e : Nat) (h : b < a ∨ a + 4 * ws.length ≤ b) :
    (s.store a ws e).mem.read b = s.mem.read b :=
  read_writeWords_outside _ _ _ _ (by rw [answeredWords_length]; exact h)

/-- A stored transfer of no word changes nothing. -/
theorem store_nil (s : State) (a e : Nat) (he : e = 0) : s.store a [] e = s := by
  subst he; rfl

/-- A canonical memory reads back a whole word written. -/
theorem readWord_writeWord (m : Memory) (a : Nat) (w : Word) (hm : Memory.wf m = true) :
    (m.writeWord a w).readWord a = w := by
  have h0 := read_writeLanes_enabled m a 0 15 w (by omega) rfl hm
  have h1 := read_writeLanes_enabled m a 1 15 w (by omega) rfl hm
  have h2 := read_writeLanes_enabled m a 2 15 w (by omega) rfl hm
  have h3 := read_writeLanes_enabled m a 3 15 w (by omega) rfl hm
  rw [Nat.add_zero] at h0
  unfold Memory.readWord Memory.writeWord
  rw [h0, h1, h2, h3]
  apply BitVec.eq_of_toNat_eq
  have hw := w.isLt
  simp only [byteOf, BitVec.toNat_ofNat]
  omega

/-- A word reads the same when its four bytes do. -/
theorem readWord_congr (m n : Memory) (a : Nat) (h : ∀ b, a ≤ b → b < a + 4 → m.read b = n.read b) :
    m.readWord a = n.readWord a := by
  unfold Memory.readWord
  rw [h a (by omega) (by omega), h (a + 1) (by omega) (by omega), h (a + 2) (by omega) (by omega), h (a + 3) (by omega) (by omega)]

/-- Consecutive words read the same when their bytes do. -/
theorem readWords_congr (k : Nat) (m n : Memory) (a : Nat) (h : ∀ b, a ≤ b → b < a + 4 * k → m.read b = n.read b) :
    m.readWords a k = n.readWords a k := by
  induction k generalizing a with
  | zero => rfl
  | succ k ih =>
    simp only [Memory.readWords]
    rw [readWord_congr m n a fun b h1 h2 => h b h1 (by omega), ih (a + 4) fun b h1 h2 => h b (by omega) (by omega)]

/-- A canonical memory reads back consecutive words written. -/
theorem readWords_writeWords (ws : List Word) (m : Memory) (a : Nat) (hm : Memory.wf m = true) :
    (m.writeWords a ws).readWords a ws.length = ws := by
  induction ws generalizing m a with
  | nil => rfl
  | cons w ws ih =>
    simp only [Memory.writeWords, Memory.readWords, List.length_cons]
    have hw : Memory.wf (m.writeWord a w) = true := writeLanes_wf _ _ _ _ hm
    rw [ih (m.writeWord a w) (a + 4) hw, readWord_congr _ (m.writeWord a w) a fun b h1 h2 =>
      read_writeWords_outside _ _ _ _ (Or.inl (by omega)), readWord_writeWord m a w hm]

/-- A transfer stored without ERR reads back (R12). -/
theorem store_readWords (s : State) (a : Nat) (ws : List Word) (hm : Memory.wf s.mem = true) :
    (s.store a ws 0).mem.readWords a ws.length = ws := by
  simp only [State.store, answeredWords_zero]
  exact readWords_writeWords ws s.mem a hm

end Sys2Proof.Machine
end

