-- ==== Sys2Proof/Laws/Keeps.lean ====
section
/-! SUPPORT. Laws/Keeps.lean: what the blocks' own operations leave alone. `Keeps s t` says that t has the near port, lines,
memory, frame number, queue of commands and the other listed fields of s, and the laws of Safety.lean if s has them. Each
shared operation has one lemma; the meanings' lemmas follow from these without unfolding an operation again. -/
namespace Sys2Proof.Machine

/-- A head's move record is within R116. -/
def Head.moveOk (hd : Head) : Prop := ∀ m : MoveRec, hd.move = some m → 1 ≤ m.dur ∧ m.dur ≤ 65535 ∧ m.k ≤ m.dur

/-- What every change of a head keeps: at most four cues, and a move record within R116. -/
structure Head.Keeps (a b : Head) : Prop where
  queue : a.queue.length ≤ 4 → b.queue.length ≤ 4
  move : a.moveOk → b.moveOk

theorem Head.Keeps.refl (a : Head) : Head.Keeps a a := ⟨id, id⟩

/-- A change that shortens the queue, or keeps its length, and keeps or drops the move record. -/
theorem Head.Keeps.of (a b : Head) (hq : b.queue.length ≤ a.queue.length) (hm : b.move = a.move ∨ b.move = none) :
    Head.Keeps a b := by
  refine ⟨fun h => Nat.le_trans hq h, fun h m e => ?_⟩
  rcases hm with hm | hm
  · exact h m (hm ▸ e)
  · rw [hm] at e; cases e

/-- What a block's own operation leaves of the state, and the laws it keeps. -/
structure Keeps (s t : State) : Prop where
  near : t.near = s.near
  pins : t.pins = s.pins
  mem : t.mem = s.mem
  lastRefusal : t.lastRefusal = s.lastRefusal
  cause : t.cause = s.cause
  floorStop : t.floorStop = s.floorStop
  frame : t.frame = s.frame
  eventNo : t.eventNo = s.eventNo
  freeCount : t.freeCount = s.freeCount
  pending : t.pending = s.pending
  attn : s.attnOk → t.attnOk
  heads : ∀ h, Head.Keeps (s.head h) (t.head h)

namespace Keeps

theorem refl (s : State) : Keeps s s :=
  ⟨rfl, rfl, rfl, rfl, rfl, rfl, rfl, rfl, rfl, rfl, id, fun _ => Head.Keeps.refl _⟩

theorem trans {s t u : State} (a : Keeps s t) (b : Keeps t u) : Keeps s u :=
  ⟨b.near.trans a.near, b.pins.trans a.pins, b.mem.trans a.mem, b.lastRefusal.trans a.lastRefusal, b.cause.trans a.cause,
    b.floorStop.trans a.floorStop, b.frame.trans a.frame, b.eventNo.trans a.eventNo, b.freeCount.trans a.freeCount,
    b.pending.trans a.pending, fun h => b.attn (a.attn h),
    fun h => ⟨fun q => (b.heads h).queue ((a.heads h).queue q), fun q => (b.heads h).move ((a.heads h).move q)⟩⟩

/-- The same, the later change first: a proof is then read from the outermost operation inwards. -/
theorem after {s t u : State} (b : Keeps t u) (a : Keeps s t) : Keeps s u := trans a b

/-- The queue bound is kept. -/
theorem queuesOk {s t : State} (k : Keeps s t) (h : s.queuesOk) : t.queuesOk := fun x => (k.heads x).queue (h x)

/-- The law of move records is kept. -/
theorem movesOk {s t : State} (k : Keeps s t) (h : s.movesOk) : t.movesOk :=
  fun x m e => (k.heads x).move (fun m' e' => h x m' e') m e

/-- A repeated change keeps what one change keeps. -/
theorem forEach {α : Type} (f : α → State → State) (hf : ∀ x u, Keeps u (f x u)) (l : List α) (s : State) :
    Keeps s (s.forEach l f) := by
  induction l generalizing s with
  | nil => exact refl s
  | cons x l ih => exact trans (hf x s) (ih (f x s))

/-- A change of fields that no head, no fault record and none of the listed fields is in. -/
theorem plain {s t : State} (near : t.near = s.near) (pins : t.pins = s.pins) (mem : t.mem = s.mem)
    (lr : t.lastRefusal = s.lastRefusal) (cause : t.cause = s.cause) (fl : t.floorStop = s.floorStop)
    (frame : t.frame = s.frame) (ev : t.eventNo = s.eventNo) (free : t.freeCount = s.freeCount)
    (pend : t.pending = s.pending) (heads : t.heads = s.heads) (attn : s.attnOk → t.attnOk) : Keeps s t :=
  ⟨near, pins, mem, lr, cause, fl, frame, ev, free, pend, attn,
    fun h => by rw [head_congr s t h heads]; exact Head.Keeps.refl _⟩

/-- One head is changed. -/
theorem setHead (s : State) (h : HeadId) (f : Head → Head) (hk : Head.Keeps (s.head h) (f (s.head h))) :
    Keeps s (s.setHead h f) :=
  ⟨rfl, rfl, rfl, rfl, rfl, rfl, rfl, rfl, rfl, rfl, id, fun g => by
    by_cases e : h = g
    · subst e; rw [head_setHead_same]; exact hk
    · rw [head_setHead_ne s h g f e]; exact Head.Keeps.refl _⟩

/-- One head is changed, and its queue and move record are not. -/
theorem setHead' (s : State) (h : HeadId) (f : Head → Head) (hq : ∀ hd, (f hd).queue = hd.queue)
    (hm : ∀ hd, (f hd).move = hd.move) : Keeps s (s.setHead h f) :=
  setHead s h f (Head.Keeps.of _ _ (Nat.le_of_eq (congrArg List.length (hq _))) (Or.inl (hm _)))

end Keeps

/-! ## Fault records -/

/-- A vector with an occupied place has an occupied place. -/
theorem any_isSome_set (v : Vector (Option HeadFault) 12) (h : HeadId) (f : HeadFault) :
    (v.set h.val (some f)).toList.any (fun x => x.isSome) = true := by
  rw [List.any_eq_true]
  refine ⟨some f, ?_, rfl⟩
  rw [Vector.mem_toList_iff, Vector.mem_iff_getElem]
  exact ⟨h.val, h.isLt, by simp⟩

theorem keeps_fileHead (s : State) (h : HeadId) (k : HeadFaultKind) (r : Option CueRef) (n : Word) :
    Keeps s (s.fileHead h k r n) := by
  refine Keeps.plain rfl rfl rfl rfl rfl rfl rfl rfl rfl rfl rfl (fun _ => ?_)
  simp only [State.attnOk, State.fileHead, StatusWriter.anyFault, setStatus_status]
  rw [any_isSome_set, Bool.or_true]

theorem keeps_filePart (s : State) (k : PartFaultKind) (i : Nat) (n : Option (BitVec 8)) (r : Option StartResult) :
    Keeps s (s.filePart k i n r) := by
  refine Keeps.plain rfl rfl rfl rfl rfl rfl rfl rfl rfl rfl rfl (fun _ => ?_)
  simp only [State.attnOk, State.filePart, StatusWriter.anyFault, setStatus_status, Option.isSome_some, Bool.true_or]

/-! ## Plain updates -/

theorem keeps_request (s : State) (x : Xfer) : Keeps s (s.request x) :=
  Keeps.plain rfl rfl rfl rfl rfl rfl rfl rfl rfl rfl rfl id

theorem keeps_requestLetRun (s : State) (x : Xfer) : Keeps s (s.requestLetRun x) :=
  Keeps.plain rfl rfl rfl rfl rfl rfl rfl rfl rfl rfl rfl id

theorem keeps_withdraw (s : State) (c : Client) : Keeps s (s.withdraw c) :=
  Keeps.plain rfl rfl rfl rfl rfl rfl rfl rfl rfl rfl rfl id

theorem keeps_abandon (s : State) (c : Client) : Keeps s (s.abandon c) :=
  Keeps.plain rfl rfl rfl rfl rfl rfl rfl rfl rfl rfl rfl id

theorem keeps_endGrant (s : State) : Keeps s (s.endGrant) :=
  Keeps.plain rfl rfl rfl rfl rfl rfl rfl rfl rfl rfl rfl id

theorem keeps_owe (s : State) (r : RecId) : Keeps s (s.owe r) :=
  Keeps.plain rfl rfl rfl rfl rfl rfl rfl rfl rfl rfl rfl id

theorem keeps_placeSave (s : State) (j : SaveJob) : Keeps s (s.placeSave j) :=
  Keeps.plain rfl rfl rfl rfl rfl rfl rfl rfl rfl rfl rfl id

theorem keeps_placePage (s : State) (j : PageJob) : Keeps s (s.placePage j) :=
  Keeps.plain rfl rfl rfl rfl rfl rfl rfl rfl rfl rfl rfl id

theorem keeps_enterClaim (s : State) (h : HeadId) (z : Zones) : Keeps s (s.enterClaim h z) :=
  Keeps.plain rfl rfl rfl rfl rfl rfl rfl rfl rfl rfl rfl id

theorem keeps_withdrawClaim (s : State) (h : HeadId) (k : ClaimKind) : Keeps s (s.withdrawClaim h k) :=
  Keeps.plain rfl rfl rfl rfl rfl rfl rfl rfl rfl rfl rfl id

theorem keeps_putClaim (s : State) (c : Claim) : Keeps s (s.putClaim c) :=
  Keeps.plain rfl rfl rfl rfl rfl rfl rfl rfl rfl rfl rfl id

theorem keeps_setFetcher (s : State) (f : Fetcher → Fetcher) : Keeps s (s.setFetcher f) :=
  Keeps.plain rfl rfl rfl rfl rfl rfl rfl rfl rfl rfl rfl id

theorem keeps_setLoader (s : State) (f : Loader → Loader) : Keeps s (s.setLoader f) :=
  Keeps.plain rfl rfl rfl rfl rfl rfl rfl rfl rfl rfl rfl id

theorem keeps_setStager (s : State) (f : Stager → Stager) : Keeps s (s.setStager f) :=
  Keeps.plain rfl rfl rfl rfl rfl rfl rfl rfl rfl rfl rfl id

theorem keeps_setAdopter (s : State) (f : Adopter → Adopter) : Keeps s (s.setAdopter f) :=
  Keeps.plain rfl rfl rfl rfl rfl rfl rfl rfl rfl rfl rfl id

theorem keeps_setSaver (s : State) (f : List SaveJob → List SaveJob) : Keeps s (s.setSaver f) :=
  Keeps.plain rfl rfl rfl rfl rfl rfl rfl rfl rfl rfl rfl id

theorem keeps_setPageJobs (s : State) (f : List PageJob → List PageJob) : Keeps s (s.setPageJobs f) :=
  Keeps.plain rfl rfl rfl rfl rfl rfl rfl rfl rfl rfl rfl id

theorem keeps_setZoneTable (s : State) (t : Vector (Option HeadId) 32) : Keeps s (s.setZoneTable t) :=
  Keeps.plain rfl rfl rfl rfl rfl rfl rfl rfl rfl rfl rfl id

theorem keeps_setClaims (s : State) (f : List Claim → List Claim) : Keeps s (s.setClaims f) :=
  Keeps.plain rfl rfl rfl rfl rfl rfl rfl rfl rfl rfl rfl id

theorem keeps_setMode (s : State) (m : PartMode) : Keeps s (s.setMode m) :=
  Keeps.plain rfl rfl rfl rfl rfl rfl rfl rfl rfl rfl rfl id

theorem keeps_setTables (s : State) (f : Tables → Tables) : Keeps s (s.setTables f) :=
  Keeps.plain rfl rfl rfl rfl rfl rfl rfl rfl rfl rfl rfl id

theorem keeps_oweChanged (s0 s : State) : Keeps s (State.oweChanged s0 s) :=
  Keeps.plain rfl rfl rfl rfl rfl rfl rfl rfl rfl rfl rfl id

theorem keeps_setGate (s : State) (h : HeadId) (g : Option Gate) : Keeps s (s.setGate h g) :=
  Keeps.setHead' s h _ (fun _ => rfl) (fun _ => rfl)

theorem keeps_setFreeze (s : State) (h : HeadId) (f : Freeze → Freeze) : Keeps s (s.setFreeze h f) :=
  Keeps.setHead' s h _ (fun _ => rfl) (fun _ => rfl)

/-! ## Starts, losses, examinations -/

theorem endMove_queue (hd : Head) : hd.endMove.queue = hd.queue := by
  unfold Head.endMove; split <;> rfl

theorem endMove_move (hd : Head) : hd.endMove.move = none := by
  unfold Head.endMove; split
  · rfl
  · assumption

/-- A change that ends the move record and keeps the queue. -/
theorem Head.Keeps.ended (a b : Head) (hq : b.queue = a.endMove.queue) (hm : b.move = a.endMove.move) : Head.Keeps a b :=
  Head.Keeps.of a b (Nat.le_of_eq (by rw [hq, endMove_queue])) (Or.inr (hm.trans (endMove_move a)))

theorem dropCandidate_queue (hd : Head) : hd.dropCandidate.queue.length ≤ hd.queue.length := by
  unfold Head.dropCandidate; split
  · exact Nat.le_refl _
  · simp

theorem dropCandidate_move (hd : Head) : hd.dropCandidate.move = hd.move := by
  unfold Head.dropCandidate; split <;> rfl

theorem foldl_max_le (l : List Nat) (a : Nat) : a ≤ l.foldl max a := by
  induction l generalizing a with
  | nil => exact Nat.le_refl a
  | cons x l ih => exact Nat.le_trans (Nat.le_max_left a x) (ih (max a x))

/-- D is at least 1 (R120). -/
theorem effectiveDuration_pos (r : HeadRec) (sc pk rq : Nat) (o t : Pose) : 1 ≤ effectiveDuration r sc pk rq o t :=
  Nat.le_trans (Nat.le_max_left 1 rq) (foldl_max_le _ _)

theorem keeps_preempt (s : State) (h : HeadId) (m : MoveRec) : Keeps s (s.preempt h m) :=
  Keeps.after (keeps_withdrawClaim _ _ _) (Keeps.after (keeps_placeSave _ _)
    (Keeps.setHead s h _ (Head.Keeps.ended _ _ rfl rfl)))

theorem keeps_retireMove (s : State) (h : HeadId) (l : Level) : Keeps s (s.retireMove h l) := by
  unfold State.retireMove
  split
  · split
    · split
      · exact keeps_preempt _ _ _
      · exact Keeps.after (keeps_withdrawClaim _ _ _) (Keeps.setHead s h _ (Head.Keeps.ended _ _ rfl rfl))
    · exact Keeps.refl s
  · exact Keeps.refl s

theorem keeps_beginMove (s : State) (h : HeadId) (c : Cue) (copy : ShotCopy) (dur : Nat) (h1 : 1 ≤ dur)
    (h2 : dur ≤ 65535) : Keeps s (s.beginMove h c copy dur) := by
  refine Keeps.setHead s h _ ⟨fun q => Nat.le_trans (dropCandidate_queue _) q, fun _ m e => ?_⟩
  simp only [Option.some.injEq] at e
  subst e
  exact ⟨h1, h2, Nat.zero_le _⟩

theorem keeps_rejectCandidate (s : State) (h : HeadId) (c : Cue) (k : HeadFaultKind) :
    Keeps s (s.rejectCandidate h c k) :=
  Keeps.after (Keeps.setHead _ h _ (Head.Keeps.of _ _ (dropCandidate_queue _) (Or.inl (dropCandidate_move _))))
    (keeps_fileHead _ _ _ _ _)

theorem keeps_startCandidate (s : State) (h : HeadId) (c : Cue) (copy : ShotCopy) :
    Keeps s (s.startCandidate h c copy) := by
  unfold State.startCandidate
  split
  · exact keeps_rejectCandidate _ _ _ _
  · exact Keeps.after (keeps_beginMove _ _ _ _ _ (effectiveDuration_pos _ _ _ _ _ _) (by omega))
      (Keeps.after (keeps_retireMove _ _ _) (keeps_enterClaim _ _ _))

theorem keeps_examineUpTo (n : Nat) (h : HeadId) (s : State) : Keeps s (State.examineUpTo n h s) := by
  induction n generalizing s with
  | zero => exact Keeps.refl s
  | succ n ih =>
    unfold State.examineUpTo
    split
    · exact Keeps.after (keeps_setGate _ _ _) (keeps_withdrawClaim _ _ _)
    · split
      · exact Keeps.after (keeps_setGate _ _ _) (keeps_withdrawClaim _ _ _)
      · exact keeps_setGate _ _ _
      · split
        · exact keeps_setGate _ _ _
        · split
          · exact Keeps.after (ih _) (keeps_startCandidate _ _ _ _)
          · split
            · exact Keeps.after (ih _) (keeps_rejectCandidate _ _ _ _)
            · exact Keeps.after (keeps_setGate _ _ _) (keeps_putClaim _ _)

theorem keeps_examine (s : State) (h : HeadId) : Keeps s (s.examine h) := keeps_examineUpTo _ _ _

theorem keeps_revealLevel (s : State) (h : HeadId) : Keeps s (s.revealLevel h) := by
  unfold State.revealLevel
  split
  · exact Keeps.setHead' s h _ (fun _ => rfl) (fun _ => rfl)
  · split
    · exact Keeps.setHead' s h _ (fun _ => rfl) (fun _ => rfl)
    · exact Keeps.after (keeps_placeSave _ _) (Keeps.setHead' s h _ (fun _ => rfl) (fun _ => rfl))

theorem keeps_losePending (s : State) (h : HeadId) : Keeps s (s.losePending h) := by
  unfold State.losePending
  split
  · exact Keeps.refl s
  · split
    · exact Keeps.after (keeps_revealLevel _ _) (Keeps.after (Keeps.setHead _ h _ (Head.Keeps.ended _ _ rfl rfl))
        (keeps_fileHead _ _ _ _ _))
    · exact Keeps.refl s

theorem keeps_grantPending (s : State) (h : HeadId) (z : Zones) : Keeps s (s.grantPending h z) := by
  refine Keeps.after (Keeps.setHead _ h _ ⟨id, fun hm m e => ?_⟩) (keeps_enterClaim _ _ _)
  simp only [Option.map_eq_some_iff] at e
  obtain ⟨m', e', e⟩ := e
  subst e
  exact hm m' e'

theorem keeps_testPending (s : State) (h : HeadId) : Keeps s (s.testPending h) := by
  unfold State.testPending
  split
  · exact Keeps.refl s
  · split
    · split
      · exact keeps_withdrawClaim _ _ _
      · split
        · exact keeps_withdrawClaim _ _ _
        · split
          · exact Keeps.refl s
          · split
            · exact keeps_grantPending _ _ _
            · split
              · exact Keeps.after (keeps_examine _ _) (keeps_losePending _ _)
              · exact keeps_putClaim _ _
    · exact Keeps.refl s

theorem keeps_recheck (r : Recheck) (s : State) : Keeps s (State.recheck r s) := by
  cases r with
  | candidate h => exact keeps_examine _ _
  | pendingMove h => exact keeps_testPending _ _

theorem keeps_recheckAll (s : State) (order items : List Recheck) : Keeps s (s.recheckAll order items) :=
  Keeps.forEach _ keeps_recheck _ _

/-! ## Flushes, releases, completion -/

theorem keeps_unstage (k : StageKey) (s : State) : Keeps s (State.unstage k s) := by
  unfold State.unstage
  dsimp only
  split
  · exact Keeps.after (keeps_abandon _ _) (Keeps.after (keeps_setStager _ _) (keeps_setStager _ _))
  · exact keeps_setStager _ _

theorem keeps_flushHead (gone : Cue → Bool) (slot : Bool) (h : HeadId) (s : State) :
    Keeps s (State.flushHead gone slot h s) := by
  unfold State.flushHead
  dsimp only
  have k2 := fun u : State => Keeps.setHead u h
    (fun hd => { hd with queue := hd.queue.filter (fun c => !gone c), direct := if slot then none else hd.direct })
    (Head.Keeps.of _ _ (List.length_filter_le _ _) (Or.inl rfl))
  generalize (List.filter gone (s.head h).queue ++ if slot = true then (s.head h).direct.toList else []) = l
  have k1 := Keeps.after (k2 _) (Keeps.forEach State.unstage keeps_unstage (l.map fun c => c.key h) s)
  split
  · exact Keeps.after (keeps_examine _ _) (Keeps.after (keeps_withdrawClaim _ _ _) k1)
  · exact k1

theorem keeps_flushAll (s : State) (gone : Cue → Bool) (slot : Bool) : Keeps s (s.flushAll gone slot) :=
  Keeps.forEach _ (keeps_flushHead gone slot) _ _

theorem keeps_releaseBelow (s : State) (next : Nat) (order : List Recheck) : Keeps s (s.releaseBelow next order) := by
  unfold State.releaseBelow
  refine Keeps.after (keeps_recheckAll _ _ _) (Keeps.forEach _ (fun h u => Keeps.setHead u h _ ?_) _ _)
  exact Head.Keeps.of _ _ (by simp) (Or.inl rfl)

theorem keeps_scanClaim (c : Claim) (s : State) : Keeps s (State.scanClaim c s) := by
  unfold State.scanClaim
  split
  · split
    · exact Keeps.after (keeps_grantPending _ _ _) (keeps_withdrawClaim _ _ _)
    · split
      · exact keeps_withdrawClaim _ _ _
      · split
        · exact keeps_withdrawClaim _ _ _
        · exact Keeps.after (keeps_startCandidate _ _ _ _) (keeps_withdrawClaim _ _ _)
  · exact Keeps.refl s

theorem keeps_scan (s : State) : Keeps s s.scan := Keeps.forEach _ keeps_scanClaim _ _

theorem keeps_settle (s : State) (h : HeadId) (t : Vector (Option HeadId) 32) : Keeps s (s.settle h t) := by
  unfold State.settle
  split
  · exact keeps_examine _ _
  · exact Keeps.after (Keeps.forEach _ (fun x y => keeps_examine y x) _ _) (Keeps.after (keeps_scan _)
      (keeps_setZoneTable _ _))

theorem keeps_complete (s : State) (h : HeadId) (m : MoveRec) : Keeps s (s.complete h m) :=
  Keeps.after (keeps_settle _ _ _) (Keeps.setHead s h _ (Head.Keeps.ended _ _ rfl rfl))

theorem keeps_checkComplete (s : State) (h : HeadId) : Keeps s (s.checkComplete h) := by
  unfold State.checkComplete
  split
  · exact Keeps.refl s
  · split
    · exact keeps_complete _ _ _
    · exact Keeps.refl s

end Sys2Proof.Machine
end

