-- ==== Sys2Proof/Laws/Blocks.lean ====
section
/-! SUPPORT. Laws/Blocks.lean: what the operations of the fetcher, the level unit, the adoption client, the page writer and
the end of every event leave alone (`Keeps`), one lemma for each. -/
namespace Sys2Proof.Machine

/-- A kept state is as safe as the state it came from. -/
theorem Keeps.safe {s t : State} (k : Keeps s t) (h : s.Safe) : t.Safe :=
  ⟨by have := h.memory; unfold State.memoryOk at this ⊢; rw [k.mem]; exact this, k.attn h.attn, k.queuesOk h.queues,
    k.movesOk h.moves⟩

/-! ## The rundown fetcher -/

theorem keeps_passEntry (s : State) (b : Bool) : Keeps s (s.passEntry b) := keeps_setFetcher _ _

/-- A hand-on keeps the bound of the queue where there is a free place (R84). -/
theorem keeps_handOn (s : State) (e : HeldEntry) (room : (s.head e.head).queue.length < 4) : Keeps s (s.handOn e) := by
  unfold State.handOn
  have k1 := fun q => Keeps.setHead s e.head (fun hd => { hd with queue := hd.queue ++ [q] })
    ⟨fun _ => by simp; omega, fun m => m⟩
  dsimp only
  split
  · exact Keeps.after (keeps_examine _ _) (Keeps.after (keeps_setStager _ _) (Keeps.after (keeps_setFetcher _ _) (k1 _)))
  · exact Keeps.after (keeps_setStager _ _) (Keeps.after (keeps_setFetcher _ _) (k1 _))

theorem keeps_dispatchEntry (s : State) (e : HeldEntry) : Keeps s (s.dispatchEntry e) := by
  have pass := Keeps.after (keeps_passEntry _ e.cue.stepEnd)
    (keeps_fileHead s e.head .headMode (some e.cue.ref) s.frame)
  have hold := keeps_setFetcher s fun f => { f with state := .holding e }
  have place : Keeps s (if (s.head e.head).queue.length < 4 then s.handOn e
      else s.setFetcher fun f => { f with state := .holding e }) := by
    split
    · exact keeps_handOn s e (by assumption)
    · exact hold
  unfold State.dispatchEntry
  dsimp only
  cases (s.head e.head).state
  · exact hold
  · exact pass
  · exact pass
  · exact hold
  · exact place
  · exact place
  · exact place

theorem keeps_judgeEntry (s : State) (w0 w1 : Word) : Keeps s (s.judgeEntry w0 w1) := by
  unfold State.judgeEntry
  split
  · exact keeps_dispatchEntry _ _
  · exact Keeps.after (keeps_passEntry _ _) (keeps_filePart _ _ _ _ _)

theorem keeps_latchHeader (s : State) (w : Word) : Keeps s (s.latchHeader w) := by
  unfold State.latchHeader
  dsimp only
  refine Keeps.after (keeps_flushAll _ _ _) (Keeps.after (keeps_setFetcher _ _) ?_)
  split
  · exact Keeps.refl s
  · exact keeps_filePart _ _ _ _ _

theorem keeps_fire (s : State) (order : List Recheck) : Keeps s (s.fire order) :=
  Keeps.after (keeps_releaseBelow _ _ _) (keeps_setFetcher _ _)

theorem keeps_abandonFetch (s : State) : Keeps s s.abandonFetch := by
  unfold State.abandonFetch
  split
  · exact Keeps.refl s
  · exact keeps_abandon _ _

theorem keeps_cutTo (s : State) (j : Nat) : Keeps s (s.cutTo j) :=
  Keeps.after (keeps_setFetcher _ _) (Keeps.after (keeps_flushAll _ _ _) (keeps_abandonFetch s))

theorem keeps_swapTo (s : State) (i : Nat) : Keeps s (s.swapTo i) := by
  unfold State.swapTo
  exact Keeps.after (keeps_setFetcher _ _) (Keeps.after (keeps_abandon _ _) (keeps_flushAll _ _ _))

theorem keeps_stopFetcher (s : State) : Keeps s s.stopFetcher :=
  Keeps.after (keeps_setFetcher _ _) (keeps_abandon _ _)

theorem keeps_takeBack (s : State) (st : FetchState) : Keeps s (s.takeBack st) := by
  unfold State.takeBack
  exact Keeps.after (keeps_setFetcher _ _) (keeps_flushAll _ _ _)

theorem keeps_entryNotice (s : State) (i : Nat) : Keeps s (s.entryNotice i) := by
  unfold State.entryNotice
  dsimp only
  split
  · exact Keeps.after (keeps_takeBack _ _) (keeps_abandonFetch s)
  · split
    · exact keeps_setFetcher _ _
    · exact Keeps.refl s

theorem keeps_headerNotice (s : State) : Keeps s s.headerNotice :=
  Keeps.after (keeps_takeBack _ _) (keeps_abandonFetch s)

theorem keeps_fetcherMark (s : State) : Keeps s s.fetcherMark := by
  unfold State.fetcherMark
  split
  · split <;> first | exact keeps_setFetcher _ _ | exact Keeps.refl s
  · exact Keeps.refl s

/-! ## The level unit -/

theorem keeps_setSlot (s : State) (h : HeadId) (l : Level) (r : Option CueRef) :
    Keeps s (s.setHead h fun hd => hd.setSlot l r) :=
  Keeps.setHead' s h _ (fun _ => rfl) (fun _ => rfl)

theorem keeps_levelEnd (s : State) (h : HeadId) : Keeps s (s.levelEnd h) := by
  unfold State.levelEnd
  split
  · exact Keeps.refl s
  · exact Keeps.after (keeps_examine _ _) (Keeps.after (keeps_revealLevel _ _)
      (Keeps.setHead' s h _ (fun _ => rfl) (fun _ => rfl)))

theorem keeps_dropSaveJob (s : State) : Keeps s s.dropSaveJob := keeps_setSaver _ _

theorem keeps_loseSlot (s : State) (h : HeadId) (l : Level) : Keeps s (s.loseSlot h l) :=
  Keeps.setHead' s h _ (fun _ => rfl) (fun _ => rfl)

theorem keeps_freeBuffer (s : State) (h : HeadId) : Keeps s (s.freeBuffer h) := by
  unfold State.freeBuffer
  split
  · exact Keeps.refl s
  · exact Keeps.setHead' s h _ (fun _ => rfl) (fun _ => rfl)

theorem keeps_saveEnded (s : State) (j : SaveJob) (ok : Bool) : Keeps s (s.saveEnded j ok) := by
  unfold State.saveEnded
  dsimp only
  split
  · exact Keeps.after (keeps_examine _ _) (Keeps.after (keeps_freeBuffer _ _) (keeps_dropSaveJob _))
  · refine Keeps.after (keeps_examine _ _) (Keeps.after (keeps_placeSave _ _) ?_)
    split
    · exact Keeps.after (keeps_loseSlot _ _ _) (keeps_dropSaveJob _)
    · exact Keeps.after (keeps_fileHead _ _ _ _ _) (Keeps.after (keeps_loseSlot _ _ _) (keeps_dropSaveJob _))

theorem keeps_emptyTagEnded (s : State) (j : SaveJob) (ok : Bool) : Keeps s (s.emptyTagEnded j ok) := by
  unfold State.emptyTagEnded
  refine Keeps.after (keeps_examine _ _) (Keeps.after (keeps_freeBuffer _ _) ?_)
  split
  · exact keeps_dropSaveJob _
  · exact Keeps.after (keeps_fileHead _ _ _ _ _) (keeps_dropSaveJob _)

theorem keeps_restoreFailed (s : State) (j : SaveJob) : Keeps s (s.restoreFailed j) :=
  Keeps.after (keeps_examine _ _) (Keeps.after (keeps_revealLevel _ _)
    (Keeps.after (Keeps.setHead' _ _ _ (fun _ => rfl) (fun _ => rfl)) (Keeps.after (keeps_placeSave _ _)
      (Keeps.after (keeps_fileHead _ _ _ _ _) (keeps_loseSlot _ _ _)))))

theorem keeps_restoreReplan (s : State) (j : SaveJob) (m : SavedMove) (order : List Recheck) :
    Keeps s (s.restoreReplan j m order) := by
  unfold State.restoreReplan
  dsimp only
  have k1 := Keeps.after (keeps_placeSave _ (emptyTagJob j.head j.level j.ref)) (keeps_setSlot s j.head j.level none)
  split
  · exact Keeps.after (keeps_examine _ _) (Keeps.after (keeps_revealLevel _ _)
      (Keeps.after (Keeps.setHead' _ _ _ (fun _ => rfl) (fun _ => rfl)) (Keeps.after (keeps_fileHead _ _ _ _ _) k1)))
  · refine Keeps.after (keeps_recheckAll _ _ _) (Keeps.after (Keeps.setHead _ _ _ ⟨id, fun _ r e => ?_⟩) k1)
    simp only [Option.some.injEq] at e
    subst e
    exact ⟨effectiveDuration_pos _ _ _ _ _ _, by simp only [SavedMove.pendingRec]; omega, Nat.zero_le _⟩

theorem keeps_restoreEnded (s : State) (j : SaveJob) (err : Bool) (ws : List Word) (order : List Recheck) :
    Keeps s (s.restoreEnded j err ws order) := by
  unfold State.restoreEnded
  dsimp only
  split
  · exact Keeps.after (keeps_restoreFailed _ _) (keeps_dropSaveJob _)
  · exact Keeps.after (keeps_restoreReplan _ _ _ _) (keeps_dropSaveJob _)

theorem keeps_discardForMode (h : HeadId) (l : Level) (s : State) : Keeps s (State.discardForMode h l s) := by
  unfold State.discardForMode
  split
  · exact Keeps.refl s
  · exact Keeps.after (keeps_placeSave _ _) (keeps_setSlot _ _ _ _)

theorem keeps_discardForStop (h : HeadId) (l : Level) (s : State) : Keeps s (State.discardForStop h l s) := by
  unfold State.discardForStop
  split
  · exact Keeps.refl s
  · split
    · exact Keeps.refl s
    · split
      · exact keeps_setSaver _ _
      · refine Keeps.after (keeps_placeSave _ _) (Keeps.after (keeps_loseSlot _ _ _) (Keeps.after (keeps_setSaver _ _) ?_))
        split
        · exact keeps_withdraw _ _
        · exact Keeps.refl s

theorem keeps_discardAllForStop (s : State) : Keeps s s.discardAllForStop :=
  Keeps.forEach _ (fun h t => Keeps.forEach _ (fun l u => keeps_discardForStop h l u) _ t) _ s

/-! ## The table loader and the adoption client -/

theorem keeps_nextAdoption (s : State) (n : Nat) : Keeps s (s.nextAdoption n) := keeps_setLoader _ _

theorem keeps_setPose (s : State) (h : HeadId) (p : Pose) : Keeps s (s.setHead h fun hd => { hd with pose := p }) :=
  Keeps.setHead' s h _ (fun _ => rfl) (fun _ => rfl)

theorem keeps_beginAdoption (s : State) : Keeps s s.beginAdoption := by
  refine Keeps.after (keeps_nextAdoption _ _) (Keeps.forEach _ (fun h t => ?_) _ s)
  split
  · exact Keeps.refl t
  · exact keeps_setPose _ _ _

theorem keeps_adoptionFault (s : State) (h : HeadId) (k : HeadFaultKind) : Keeps s (s.adoptionFault h k) :=
  Keeps.after (keeps_setLoader _ _) (Keeps.after (keeps_setPose _ _ _) (keeps_fileHead _ _ _ _ _))

theorem keeps_markAdopted (s : State) (h : HeadId) : Keeps s (s.markAdopted h) := keeps_setLoader _ _

theorem keeps_adoptPointerRead (s : State) (h : HeadId) (w : Word) : Keeps s (s.adoptPointerRead h w) := by
  unfold State.adoptPointerRead
  split
  · exact keeps_setLoader _ _
  · exact Keeps.after (keeps_nextAdoption _ _) (Keeps.after (keeps_markAdopted _ _)
      (Keeps.after (keeps_placePage _ _) (keeps_setPose _ _ _)))

theorem keeps_adoptPageRead (s : State) (h : HeadId) (bk : Bank) (p : Pose) : Keeps s (s.adoptPageRead h bk p) := by
  unfold State.adoptPageRead
  split
  · exact Keeps.after (keeps_nextAdoption _ _) (Keeps.after (keeps_markAdopted _ _)
      (Keeps.setHead' _ _ _ (fun _ => rfl) (fun _ => rfl)))
  · exact Keeps.after (keeps_nextAdoption _ _) (keeps_adoptionFault _ _ _)

theorem keeps_failStart (s : State) (r : StartResult) (i : Nat) : Keeps s (s.failStart r i) := by
  refine Keeps.after (keeps_filePart _ _ _ _ _) ?_
  refine ⟨rfl, rfl, rfl, rfl, rfl, rfl, rfl, rfl, rfl, rfl, id, fun h => ?_⟩
  refine Head.Keeps.of _ _ ?_ (Or.inl ?_) <;> simp [State.head, State.abandon, State.withdraw]

theorem keeps_headRecordRead (s : State) (h : HeadId) (ws : List Word) : Keeps s (s.headRecordRead h ws) := by
  unfold State.headRecordRead
  split
  · exact keeps_failStart _ _ _
  · dsimp only
    split
    · exact Keeps.after (keeps_setLoader _ _) (keeps_setTables _ _)
    · split
      · exact Keeps.after (keeps_failStart _ _ _) (keeps_setTables _ _)
      · exact Keeps.after (keeps_setLoader _ _) (keeps_setTables _ _)

theorem keeps_levelTableRead (s : State) (ws : List Word) : Keeps s (s.levelTableRead ws) := by
  unfold State.levelTableRead
  split
  · exact keeps_failStart _ _ _
  · exact keeps_failStart _ _ _
  · exact keeps_failStart _ _ _
  · exact keeps_failStart _ _ _
  · exact Keeps.after (keeps_setLoader _ _) (keeps_setTables _ _)

theorem keeps_curveRead (s : State) (c : Fin 15) (ws : List Word) : Keeps s (s.curveRead c ws) := by
  unfold State.curveRead
  dsimp only
  split
  · exact keeps_failStart _ _ _
  · exact Keeps.after (keeps_setLoader _ _) (keeps_setTables _ _)
  · exact Keeps.after (keeps_setLoader _ _) (keeps_setTables _ _)

theorem keeps_headerRead (s : State) (w : Word) : Keeps s (s.headerRead w) := by
  unfold State.headerRead
  split
  · exact keeps_failStart _ _ _
  · dsimp only
    split
    · exact Keeps.after (keeps_beginAdoption _) (keeps_setLoader _ _)
    · exact keeps_setLoader _ _

theorem keeps_tableRead (s : State) (r : TableRead) (ws : List Word) (err : BitVec 16) :
    Keeps s (s.tableRead r ws err) := by
  unfold State.tableRead
  have af := fun h : HeadId => Keeps.after (keeps_nextAdoption _ (h.val + 1)) (keeps_adoptionFault s h .memory)
  split <;> split
  · exact keeps_adoptPointerRead _ _ _
  · exact af _
  · exact keeps_adoptPageRead _ _ _ _
  · exact af _
  · exact keeps_setLoader _ _
  · exact keeps_failStart _ _ _
  · exact keeps_headRecordRead _ _ _
  · exact keeps_failStart _ _ _
  · exact keeps_levelTableRead _ _
  · exact keeps_failStart _ _ _
  · exact keeps_setLoader _ _
  · exact keeps_failStart _ _ _
  · exact keeps_curveRead _ _ _
  · exact keeps_failStart _ _ _
  · exact keeps_headerRead _ _
  · exact keeps_failStart _ _ _

theorem keeps_loaderNotice (s : State) : Keeps s s.loaderNotice := by
  unfold State.loaderNotice
  split
  · exact keeps_setLoader _ _
  · exact Keeps.refl s

theorem keeps_enterRunning (s : State) (n : Nat) : Keeps s (s.enterRunning n) := by
  refine ⟨rfl, rfl, rfl, rfl, rfl, rfl, rfl, rfl, rfl, rfl, id, fun h => Head.Keeps.of _ _ ?_ (Or.inr ?_)⟩ <;>
    simp [State.head, State.enterRunning, Head.enter]

theorem keeps_adopted (s : State) (h : HeadId) (p : Pose) : Keeps s (s.adopted h p) :=
  Keeps.after (keeps_examine _ _) (Keeps.setHead' _ _ _ (fun _ => rfl) (fun _ => rfl))

theorem keeps_adoptFailed (s : State) (h : HeadId) (k : HeadFaultKind) : Keeps s (s.adoptFailed h k) :=
  Keeps.after (Keeps.setHead' _ _ _ (fun _ => rfl) (fun _ => rfl)) (keeps_fileHead _ _ _ _ _)

theorem keeps_nextAdopter (s : State) : Keeps s s.nextAdopter := keeps_setAdopter _ _

theorem keeps_adopterPointer (s : State) (h : HeadId) (err : Bool) (w : Word) : Keeps s (s.adopterPointer h err w) := by
  unfold State.adopterPointer
  split
  · exact Keeps.after (keeps_adoptFailed _ _ _) (keeps_nextAdopter _)
  · split
    · exact keeps_setAdopter _ _
    · exact Keeps.after (keeps_placePage _ _) (keeps_nextAdopter _)

theorem keeps_adopterPage (s : State) (h : HeadId) (bk : Bank) (err : Bool) (p : Pose) :
    Keeps s (s.adopterPage h bk err p) := by
  unfold State.adopterPage
  split
  · exact Keeps.after (keeps_adoptFailed _ _ _) (keeps_nextAdopter _)
  · split
    · exact Keeps.after (keeps_adopted _ _ _) (Keeps.after (Keeps.setHead' _ _ _ (fun _ => rfl) (fun _ => rfl))
        (keeps_nextAdopter _))
    · exact Keeps.after (keeps_adoptFailed _ _ _) (keeps_nextAdopter _)

theorem keeps_reportHome (s : State) (j : PageJob) (ok : Bool) : Keeps s (s.reportHome j ok) := by
  unfold State.reportHome
  split
  · exact Keeps.refl s
  · split
    · exact Keeps.refl s
    · exact keeps_fileHead _ _ _ _ _
  · split
    · exact Keeps.refl s
    · exact keeps_adoptionFault _ _ _
  · split
    · exact keeps_adopted _ _ _
    · exact keeps_adoptFailed _ _ _

/-! ## The end of every event -/

theorem keeps_endDraining (s : State) : Keeps s s.endDraining := by
  refine ⟨rfl, rfl, rfl, rfl, rfl, rfl, rfl, rfl, rfl, rfl, id, fun h => Head.Keeps.of _ _ ?_ (Or.inr ?_)⟩ <;>
    simp [State.head, State.endDraining, Head.halt, State.abandon, State.withdraw, endMove_move]

theorem keeps_settleMode (s : State) : Keeps s s.settleMode := by
  unfold State.settleMode
  split
  · exact keeps_enterRunning _ _
  · split
    · exact keeps_endDraining _
    · exact Keeps.refl s

theorem keeps_pumpPage (s : State) : Keeps s s.pumpPage := by
  unfold State.pumpPage
  split
  · exact Keeps.refl s
  · split
    · exact Keeps.refl s
    · exact Keeps.after (keeps_request _ _) (keeps_setPageJobs _ _)

theorem keeps_pumpSaver (s : State) : Keeps s s.pumpSaver := by
  unfold State.pumpSaver
  split
  · exact Keeps.refl s
  · split
    · exact Keeps.refl s
    · exact keeps_request _ _

theorem keeps_pumpLoader (s : State) : Keeps s s.pumpLoader := by
  unfold State.pumpLoader
  split
  · exact Keeps.refl s
  · split
    · exact Keeps.after (keeps_request _ _) (keeps_setLoader _ _)
    · split
      · exact keeps_request _ _
      · exact Keeps.refl s

theorem keeps_pumpAdopter (s : State) : Keeps s s.pumpAdopter := by
  unfold State.pumpAdopter
  split
  · exact Keeps.refl s
  · split
    · exact Keeps.refl s
    · split <;> exact keeps_request _ _

theorem keeps_requestStage (s : State) (k : StageKey) : Keeps s (s.requestStage k) := by
  unfold State.requestStage
  split
  · exact keeps_request _ _
  · exact Keeps.refl s

theorem keeps_pumpStager (s : State) : Keeps s s.pumpStager := by
  unfold State.pumpStager
  split
  · exact Keeps.refl s
  · split
    · exact keeps_requestStage _ _
    · split
      · exact Keeps.refl s
      · exact Keeps.after (keeps_requestStage _ _) (keeps_setStager _ _)

theorem keeps_pumpFetcher (s : State) : Keeps s s.pumpFetcher := by
  unfold State.pumpFetcher
  split
  · exact Keeps.refl s
  · split
    · split
      · exact Keeps.after (keeps_request _ _) (keeps_setFetcher _ _)
      · exact Keeps.refl s
    · exact keeps_request _ _
    · exact keeps_request _ _
    · exact keeps_request _ _
    · exact Keeps.refl s
    · exact Keeps.refl s
    · exact Keeps.refl s
    · exact Keeps.refl s

theorem keeps_pumpStatus (s : State) : Keeps s s.pumpStatus := by
  unfold State.pumpStatus
  split
  · exact Keeps.refl s
  · split
    · exact Keeps.after (keeps_request _ _) (Keeps.plain rfl rfl rfl rfl rfl rfl rfl rfl rfl rfl rfl id)
    · exact Keeps.refl s
    · exact Keeps.refl s

theorem keeps_pump (s : State) : Keeps s s.pump := by
  unfold State.pump
  split
  · exact Keeps.refl s
  · exact Keeps.after (keeps_pumpStatus _) (Keeps.after (keeps_pumpFetcher _) (Keeps.after (keeps_pumpStager _)
      (Keeps.after (keeps_pumpAdopter _) (Keeps.after (keeps_pumpLoader _) (Keeps.after (keeps_pumpSaver _)
        (keeps_pumpPage _))))))

/-- What ends an event keeps the listed fields and the laws. -/
theorem keeps_finish (s0 s : State) : Keeps s (State.finish s0 s) :=
  Keeps.after (keeps_pump _) (Keeps.after (keeps_oweChanged _ _) (keeps_settleMode _))

end Sys2Proof.Machine
end

