-- ==== Sys2Proof/Laws/Commands.lean ====
section
/-! SUPPORT. Laws/Commands.lean: what the operations behind the commands leave alone (`Keeps`): of the cue port, of an FMARK at
each block, of the lines, and of the ends of transfers. Where an operation changes one of the listed fields itself, its lemma
compares with the state in which that field is changed. At the end, the reasons for a LEVEL END outside managed operation. -/
namespace Sys2Proof.Machine

/-! ## Accepted commands of the cue port -/

theorem keeps_stopPart (s : State) : Keeps s s.stopPart := by
  unfold State.stopPart
  exact Keeps.after (keeps_discardAllForStop _) (Keeps.after (keeps_flushAll _ _ _) (Keeps.after (keeps_stopFetcher _)
    (keeps_setMode _ _)))

theorem keeps_placeDirect (s : State) (h : HeadId) (p : Word) : Keeps s (s.placeDirect h p) := by
  unfold State.placeDirect
  refine Keeps.after (keeps_examine _ _) (Keeps.after (keeps_setStager _ _)
    (Keeps.after (Keeps.setHead' _ _ _ (fun _ => rfl) (fun _ => rfl)) (Keeps.after (keeps_withdrawClaim _ _ _) ?_)))
  split
  · exact keeps_unstage _ _
  · exact Keeps.refl s

theorem keeps_holdHeads (s : State) (p : Word) : Keeps s (s.holdHeads p) := by
  unfold State.holdHeads
  exact Keeps.after (keeps_recheckAll _ _ _) (Keeps.forEach _ (fun h t => keeps_setFreeze t h _) _ s)

theorem keeps_thawHeads (s : State) (p : Word) (order : List Recheck) : Keeps s (s.thawHeads p order) := by
  unfold State.thawHeads
  exact Keeps.after (keeps_recheckAll _ _ _) (Keeps.forEach _ (fun h t => keeps_setFreeze t h _) _ s)

/-- RESUME changes the floor-stop state from LATCHED to CLEAR, and no other listed field. -/
theorem keeps_resumeFloor (s : State) (order : List Recheck) :
    Keeps (if s.floorStop = .latched then s.setFloorStop .clear else s) (s.resumeFloor order) := by
  unfold State.resumeFloor
  split
  · exact Keeps.after (keeps_recheckAll _ _ _) (Keeps.forEach _ (fun h t => keeps_setFreeze t h _) _ _)
  · exact Keeps.refl s

theorem keeps_leaveTo (s : State) (h : HeadId) (m : HeadMode) : Keeps s (s.leaveTo h m) := by
  unfold State.leaveTo
  refine Keeps.after (keeps_examine _ _) (Keeps.after (Keeps.setHead' _ _ _ (fun _ => rfl) (fun _ => rfl))
    (Keeps.after (keeps_setFreeze _ _ _) ?_))
  split
  · exact Keeps.after (Keeps.setHead' _ _ _ (fun _ => rfl) (fun _ => rfl))
      (Keeps.after (Keeps.forEach _ (fun l t => keeps_discardForMode h l t) _ _) (keeps_flushHead _ _ _ _))
  · exact Keeps.refl s

theorem keeps_beginAdopting (s : State) (h : HeadId) : Keeps s (s.beginAdopting h) := by
  unfold State.beginAdopting
  exact Keeps.after (keeps_setAdopter _ _) (Keeps.after (Keeps.setHead' _ _ _ (fun _ => rfl) (fun _ => rfl))
    (keeps_setFreeze _ _ _))

theorem keeps_changeMode (s : State) (h : HeadId) (m : HeadMode) : Keeps s (s.changeMode h m) := by
  unfold State.changeMode
  split
  · exact Keeps.refl s
  · cases m
    · exact keeps_beginAdopting _ _
    · exact keeps_leaveTo _ _ _
    · exact keeps_leaveTo _ _ _

/-- Emptying a fault record keeps the law of ATTN (R175). -/
theorem keeps_emptyFault (s : State) (h : Option HeadId) : Keeps s (s.setStatus fun w => w.clearFault h) := by
  refine Keeps.plain rfl rfl rfl rfl rfl rfl rfl rfl rfl rfl rfl (fun _ => ?_)
  cases h <;> rfl

theorem keeps_clearFaultRecord (s : State) (p : Word) : Keeps s (s.clearFaultRecord p) := by
  unfold State.clearFaultRecord
  split
  · split
    · exact keeps_emptyFault _ _
    · exact Keeps.refl s
  · split
    · exact keeps_emptyFault _ _
    · exact Keeps.refl s

/-! ## Snoop notices -/

theorem keeps_shotNoticeAt (n : BitVec 8) (h : HeadId) (s : State) : Keeps s (State.shotNoticeAt n h s) := by
  unfold State.shotNoticeAt
  dsimp only
  have k1 := fun mark : Cue → Cue => Keeps.setHead s h
    (fun hd => { hd with queue := hd.queue.map mark, direct := hd.direct.map mark })
    (Head.Keeps.of _ _ (by simp) (Or.inl rfl))
  split
  · exact Keeps.after (keeps_examine _ _) (Keeps.after (keeps_setStager _ _) (k1 _))
  · exact Keeps.after (keeps_setStager _ _) (k1 _)

theorem keeps_shotNotice (s : State) (n : BitVec 8) : Keeps s (s.shotNotice n) :=
  Keeps.forEach _ (keeps_shotNoticeAt n) _ s

theorem keeps_deliver (s : State) (n : Notice) : Keeps s (s.deliver n) := by
  unfold State.deliver
  split
  · exact keeps_shotNotice _ _
  · split
    · exact keeps_loaderNotice _
    · exact keeps_headerNotice _
    · exact Keeps.refl s
    · exact Keeps.refl s
  · split
    · exact keeps_entryNotice _ _
    · exact Keeps.refl s
    · exact Keeps.refl s
    · exact Keeps.refl s

/-! ## FMARK at each block -/

/-- An advance keeps k ≤ D (R116, R124): it is made below D only. -/
theorem keeps_advanceHead (s : State) (h : HeadId) (m : MoveRec) (hm : (s.head h).move = some m) (hk : m.k < m.dur) :
    Keeps s (s.advanceHead h m) := by
  unfold State.advanceHead
  refine Keeps.after (keeps_placePage _ _) (Keeps.setHead s h _ ⟨id, fun ok r e => ?_⟩)
  simp only [Option.some.injEq] at e
  subst e
  exact ⟨(ok m hm).1, (ok m hm).2.1, hk⟩

theorem keeps_engineMark (h : HeadId) (s : State) : Keeps s (State.engineMark h s) := by
  unfold State.engineMark
  split
  · exact Keeps.refl s
  · split
    · exact Keeps.refl s
    · split
      · exact keeps_fileHead _ _ _ _ _
      · exact keeps_advanceHead _ _ _ (by assumption) (by omega)

theorem keeps_headMark (h : HeadId) (s : State) : Keeps s (State.headMark h s) := by
  unfold State.headMark
  have k1 := Keeps.setHead s h (fun hd => { hd with queue := hd.queue.map Cue.countDown })
    (Head.Keeps.of _ _ (by simp) (Or.inl rfl))
  split
  · dsimp only
    split
    · exact Keeps.after (keeps_examine _ _) k1
    · exact k1
  · exact Keeps.refl s

theorem keeps_timeOut (r : Recheck) (s : State) : Keeps s (State.timeOut r s) := by
  unfold State.timeOut
  split
  · split
    · exact keeps_rejectCandidate _ _ _ _
    · exact Keeps.refl s
  · exact keeps_losePending _ _

theorem keeps_arbiterMark (losses : List Recheck) (s : State) : Keeps s (s.arbiterMark losses) := by
  unfold State.arbiterMark
  split
  · exact Keeps.after (Keeps.forEach _ (fun r t => keeps_examine t _) _ _)
      (Keeps.after (Keeps.forEach _ keeps_timeOut _ _) (keeps_setClaims _ _))
  · exact Keeps.refl s

theorem keeps_blockMark (losses : List Recheck) (b : FmarkBlock) (s : State) : Keeps s (State.blockMark losses b s) := by
  unfold State.blockMark
  split
  · split
    · exact Keeps.forEach _ keeps_engineMark _ s
    · exact Keeps.refl s
  · exact keeps_headMark _ _
  · exact keeps_arbiterMark _ _
  · exact keeps_fetcherMark _
  · split
    · exact keeps_owe _ _
    · exact Keeps.refl s

theorem keeps_markEvent (losses : List Recheck) (b : FmarkBlock) (s : State) : Keeps s (State.markEvent losses b s) :=
  Keeps.after (keeps_finish _ _) (keeps_blockMark _ _ _)

/-! ## The lines -/

theorem keeps_tallyFreeze (s : State) (h : HeadId) (on : Bool) : Keeps s (s.tallyFreeze h on) := by
  unfold State.tallyFreeze
  split
  · split
    · exact keeps_setFreeze _ _ _
    · exact Keeps.refl s
  · exact keeps_setFreeze _ _ _

/-- A tally change changes the line, and no other listed field. -/
theorem keeps_tallyChanged (s : State) (h : HeadId) (on : Bool) (order : List Recheck) :
    Keeps (s.setPins fun p => { p with tally := setLine p.tally h on }) (s.tallyChanged h on order) := by
  unfold State.tallyChanged
  dsimp only
  have k1 := Keeps.setHead' (s.setPins fun p => { p with tally := setLine p.tally h on }) h
    (fun hd => { hd with onAir := on }) (fun _ => rfl) (fun _ => rfl)
  split
  · exact Keeps.after (keeps_recheckAll _ _ _) (Keeps.after (keeps_tallyFreeze _ _ _) k1)
  · exact k1

theorem keeps_freezeFloor (s : State) : Keeps s s.freezeFloor := by
  unfold State.freezeFloor
  exact Keeps.after (keeps_recheckAll _ _ _) (Keeps.forEach _ (fun h t => keeps_setFreeze t h _) _ s)

/-- An assertion of FLOOR changes the line and the floor-stop state, and no other listed field. -/
theorem keeps_floorOn (s : State) :
    Keeps ((s.setPins fun p => { p with floor := true }).setFloorStop .active) s.floorOn := by
  unfold State.floorOn
  dsimp only
  split
  · exact keeps_freezeFloor _
  · exact Keeps.refl _

/-! ## Ends of reads -/

theorem keeps_entryRead (s : State) (ws : List Word) (err : Bool) : Keeps s (s.entryRead ws err) := by
  unfold State.entryRead
  split
  · exact Keeps.after (keeps_setFetcher _ _) (keeps_filePart _ _ _ _ _)
  · exact keeps_judgeEntry _ _ _

theorem keeps_headerReadBack (s : State) (ws : List Word) (err : Bool) : Keeps s (s.headerReadBack ws err) := by
  unfold State.headerReadBack
  split
  · exact Keeps.after (keeps_setFetcher _ _) (keeps_filePart _ _ _ _ _)
  · exact keeps_latchHeader _ _

theorem keeps_stageDone (s : State) : Keeps s s.stageDone := keeps_setStager _ _

theorem keeps_mapCue (s : State) (h : HeadId) (k : StageKey) (f : Cue → Cue) :
    Keeps s (s.setHead h fun hd => hd.mapCue h k f) :=
  Keeps.setHead s h _ (Head.Keeps.of _ _ (by simp [Head.mapCue]) (Or.inl rfl))

theorem keeps_stageReject (s : State) (k : StageKey) (c : Cue) (kind : HeadFaultKind) (sk : Option ShotKind) :
    Keeps s (s.stageReject k c kind sk) := by
  unfold State.stageReject
  have k1 := Keeps.after (Keeps.setHead (s.fileHead k.head kind (some ⟨c.origin, c.shot, sk⟩) s.frame) k.head
    (fun hd => hd.removeCue k.head k) (Head.Keeps.of _ _ (List.length_filter_le _ _) (Or.inl rfl)))
    (keeps_fileHead _ _ _ _ _)
  dsimp only
  split
  · exact Keeps.after (keeps_examine _ _) k1
  · exact k1

theorem keeps_stageAccept (s : State) (k : StageKey) (copy : ShotCopy) : Keeps s (s.stageAccept k copy) := by
  unfold State.stageAccept
  dsimp only
  split
  · exact Keeps.after (keeps_examine _ _) (keeps_mapCue _ _ _ _)
  · exact keeps_mapCue _ _ _ _

theorem keeps_stageEnded (s : State) (k : StageKey) (c : Cue) (ws : List Word) (err : Bool) :
    Keeps s (s.stageEnded k c ws err) := by
  unfold State.stageEnded
  split
  · exact keeps_mapCue _ _ _ _
  · split
    · exact Keeps.after (keeps_stageReject _ _ _ _ _) (keeps_stageDone _)
    · split
      · exact Keeps.after (keeps_stageAccept _ _ _) (keeps_stageDone _)
      · exact Keeps.after (keeps_stageReject _ _ _ _ _) (keeps_stageDone _)

theorem keeps_stageRead (s : State) (ws : List Word) (err : Bool) : Keeps s (s.stageRead ws err) := by
  unfold State.stageRead
  split
  · exact Keeps.refl s
  · split
    · exact keeps_stageEnded _ _ _ _ _
    · exact keeps_stageDone _

/-! ## Ends of page transfers -/

theorem keeps_endPageJob (s : State) (j : PageJob) (ok : Bool) : Keeps s (s.endPageJob j ok) := by
  unfold State.endPageJob
  dsimp only
  split
  · refine Keeps.after (keeps_checkComplete _ _) (Keeps.after (keeps_owe _ _) ?_)
    split
    · exact keeps_setPageJobs _ _
    · exact Keeps.after (keeps_fileHead _ _ _ _ _) (keeps_setPageJobs _ _)
  · exact Keeps.after (keeps_reportHome _ _ _) (keeps_setPageJobs _ _)
  · exact Keeps.after (keeps_reportHome _ _ _) (keeps_setPageJobs _ _)
  · exact Keeps.after (keeps_reportHome _ _ _) (keeps_setPageJobs _ _)

theorem keeps_setPagePhase (s : State) (p : PagePhase) : Keeps s (s.setPagePhase p) := by
  unfold State.setPagePhase
  split
  · exact Keeps.refl s
  · exact keeps_setPageJobs _ _

theorem keeps_setPointer (s : State) (h : HeadId) (c : PointerCopy) : Keeps s (s.setPointer h c) :=
  Keeps.setHead' s h _ (fun _ => rfl) (fun _ => rfl)

theorem keeps_pageWritten (s : State) (h : HeadId) (bk : Bank) (letRun ok : Bool) :
    Keeps s (s.pageWritten h bk letRun ok) := by
  unfold State.pageWritten
  split
  · split
    · exact keeps_requestLetRun _ _
    · exact Keeps.refl s
  · split
    · exact keeps_setPagePhase _ _
    · split
      · exact Keeps.refl s
      · exact keeps_endPageJob _ _ _

theorem keeps_pointerWritten (s : State) (h : HeadId) (bk : Bank) (letRun ok : Bool) :
    Keeps s (s.pointerWritten h bk letRun ok) := by
  unfold State.pointerWritten
  split
  · exact Keeps.refl s
  · dsimp only
    split
    · exact keeps_setPointer _ _ _
    · exact Keeps.after (keeps_endPageJob _ _ _) (keeps_setPointer _ _ _)

theorem keeps_pointerChecked (s : State) (h : HeadId) (w : Word) (err : Bool) :
    Keeps s (s.pointerChecked h w err) := by
  unfold State.pointerChecked
  split
  · split
    · exact Keeps.refl s
    · exact keeps_endPageJob _ _ _
  · split
    · exact Keeps.after (keeps_setPagePhase _ _) (keeps_setPointer _ _ _)
    · exact keeps_setPagePhase _ _

/-! ## Ends of the saver's and the status writer's transfers -/

theorem keeps_saverEnd (s : State) (act : SaveJob → State → State) (k : ∀ j u, Keeps u (act j u)) :
    Keeps s (s.saverEnd act) := by
  unfold State.saverEnd
  split
  · exact Keeps.refl s
  · exact k _ _

theorem keeps_statusFailed (s : State) (b : Bool) : Keeps s (s.statusFailed b) :=
  Keeps.plain rfl rfl rfl rfl rfl rfl rfl rfl rfl rfl rfl id

theorem keeps_requestSecond (s : State) (r : RecId) (b : Bool) : Keeps s (s.requestSecond r b) := by
  unfold State.requestSecond
  split
  · exact keeps_requestLetRun _ _
  · exact keeps_request _ _

theorem keeps_endStatusJob (s : State) (r : RecId) : Keeps s (s.endStatusJob r) := by
  unfold State.endStatusJob
  dsimp only
  have k1 : Keeps s (s.setStatus fun w => { w with job := none }) :=
    Keeps.plain rfl rfl rfl rfl rfl rfl rfl rfl rfl rfl rfl id
  split
  · exact Keeps.after (keeps_owe _ _) k1
  · exact k1

theorem keeps_statusWritten (s : State) (r : RecId) (half : Half) (letRun failed : Bool) :
    Keeps s (s.statusWritten r half letRun failed) := by
  unfold State.statusWritten
  dsimp only
  split
  · split
    · exact Keeps.after (keeps_endStatusJob _ _) (keeps_statusFailed _ _)
    · exact Keeps.after (keeps_requestSecond _ _ _) (keeps_statusFailed _ _)
  · exact Keeps.after (keeps_endStatusJob _ _) (keeps_statusFailed _ _)

/-- The start of a status record's write changes the status writer alone. -/
theorem keeps_startStatusWrite (s : State) (r : RecId) : Keeps s (s.startStatusWrite r) :=
  Keeps.plain rfl rfl rfl rfl rfl rfl rfl rfl rfl rfl rfl id

/-! ## Memory -/

/-- A stored transfer changes the memory and the counter of free values alone. -/
theorem store_plain (s : State) (a : Nat) (ws : List Word) (err : Nat) :
    Keeps { s with mem := (s.store a ws err).mem, freeCount := (s.store a ws err).freeCount } (s.store a ws err) :=
  Keeps.refl _

/-! ## The reason for a LEVEL END outside managed operation -/

/-- With no tag being written the reason is HEAD (R48). -/
theorem outsideReason_free {s : State} {h : HeadId} (hw : s.saveWriting h = false) : s.outsideReason h = .head := by
  unfold State.outsideReason
  rw [hw, if_neg Bool.false_ne_true]

/-- While a tag is being written the reason is BUSY (R103, R112). -/
theorem outsideReason_writing {s : State} {h : HeadId} (hw : s.saveWriting h = true) : s.outsideReason h = .busy := by
  unfold State.outsideReason
  rw [if_pos hw]

end Sys2Proof.Machine
end

