-- ==== Sys2Proof/Laws/Discards.lean ====
section
/-! SUPPORT. Laws/Discards.lean: what STOP's discard of one save slot does (R113): one lemma for each case, so that proofs need not
unfold State.discardForStop. -/
namespace Sys2Proof.Machine

/-- An empty slot is left. -/
theorem discardForStop_empty {s : State} {h : HeadId} {l : Level} (he : (s.head h).slotRef l = none) :
    State.discardForStop h l s = s := by
  unfold State.discardForStop
  rw [he]

/-- A slot that its RESTORING head is reading is left. -/
theorem discardForStop_reading {s : State} {h : HeadId} {l : Level}
    (hr : (s.head h).state = .restoring ∧ highest (s.head h).levels = some l) : State.discardForStop h l s = s := by
  unfold State.discardForStop
  split
  · rfl
  · rw [if_pos hr]

/-- The job of a granted save is marked to be discarded at its end, and nothing else changes. -/
theorem discardForStop_granted {s : State} {h : HeadId} {l : Level} {r : CueRef} (ho : (s.head h).slotRef l = some r)
    (hr : ¬ ((s.head h).state = .restoring ∧ highest (s.head h).levels = some l))
    (hg : (s.grant.any fun g => g.xfer.savesSlot h l && !g.letRun) = true) :
    State.discardForStop h l s = s.setSaver fun js => js.map fun j => if j.savesSlot h l then { j with discard := true } else j := by
  unfold State.discardForStop
  rw [ho]
  dsimp only
  rw [if_neg hr, if_pos hg]

/-- Any other slot is discarded at once: its waiting save request and its save jobs are gone, slot and level are lost, and an EMPTY tag
job is placed. -/
theorem discardForStop_now {s : State} {h : HeadId} {l : Level} {r : CueRef} (ho : (s.head h).slotRef l = some r)
    (hr : ¬ ((s.head h).state = .restoring ∧ highest (s.head h).levels = some l))
    (hg : (s.grant.any fun g => g.xfer.savesSlot h l && !g.letRun) = false) :
    State.discardForStop h l s
      = ((((if (s.waiting.any fun q => q.xfer.savesSlot h l) then s.withdraw .saver else s).setSaver fun js =>
          js.filter fun j => !j.savesSlot h l).loseSlot h l).placeSave (emptyTagJob h l r)) := by
  unfold State.discardForStop
  rw [ho]
  dsimp only
  rw [if_neg hr, hg, if_neg Bool.false_ne_true]

end Sys2Proof.Machine
end

