-- ==== Sys2Proof/Laws/Examine.lean ====
section
/-! SUPPORT. Laws/Examine.lean: the outcomes of the examination of a candidate, and when a flush leads to one: one lemma for each
case, so that proofs need not unfold State.examineUpTo or State.flushHead. -/
namespace Sys2Proof.Machine

/-- At any depth: an examination without a candidate records no gate, and no CUE claim is left. -/
theorem examineUpTo_noCandidate {s : State} {h : HeadId} (n : Nat) (hc : (s.head h).candidate = none) :
    State.examineUpTo (n + 1) h s = (s.withdrawClaim h .cue).setGate h none := by
  unfold State.examineUpTo
  rw [hc]

/-- At any depth: a candidate that fails a gate of STAGING to SAVE waits there, and no CUE claim is left. -/
theorem examineUpTo_fails {s : State} {h : HeadId} {c : Cue} {g : Gate} (n : Nat) (hc : (s.head h).candidate = some c)
    (hg : s.gateOf h c = some g) : State.examineUpTo (n + 1) h s = (s.withdrawClaim h .cue).setGate h (some g) := by
  unfold State.examineUpTo
  rw [hc]
  dsimp only
  rw [hg]

/-- An examination without a candidate records no gate, and no CUE claim is left. -/
theorem examine_noCandidate {s : State} {h : HeadId} (hc : (s.head h).candidate = none) :
    s.examine h = (s.withdrawClaim h .cue).setGate h none := examineUpTo_noCandidate _ hc

/-- A candidate that fails a gate of STAGING to SAVE waits there, and no CUE claim is left. -/
theorem examine_fails {s : State} {h : HeadId} {c : Cue} {g : Gate} (hc : (s.head h).candidate = some c)
    (hg : s.gateOf h c = some g) : s.examine h = (s.withdrawClaim h .cue).setGate h (some g) := examineUpTo_fails _ hc hg

/-- A candidate that passes the gates and whose claim is granted starts, or is rejected with DURATION, and the examination goes on. -/
theorem examine_starts {s : State} {h : HeadId} {c : Cue} {copy : ShotCopy} (hc : (s.head h).candidate = some c)
    (hg : s.gateOf h c = none) (hy : c.copy = some copy) (hw : s.claimWaits h .cue = false)
    (hz : grantable s.zoneTable h copy.claim = true) :
    s.examine h = State.examineUpTo ((s.head h).queue.length + 1) h (s.startCandidate h c copy) := by
  rw [State.examine, State.examineUpTo, hc]
  dsimp only
  rw [hg, hy]
  dsimp only
  rw [hw, hz, if_neg Bool.false_ne_true, if_pos rfl]

/-- With a duration within 65535 the start enters the zones, retires the old move and begins the new one. -/
theorem startCandidate_within {s : State} {h : HeadId} {c : Cue} {copy : ShotCopy} (hd : s.cueDuration h c copy ≤ 65535) :
    s.startCandidate h c copy
      = ((s.enterClaim h copy.claim).retireMove h c.level).beginMove h c copy (s.cueDuration h c copy) := by
  unfold State.startCandidate
  rw [if_neg (Nat.not_lt.mpr hd)]

/-- With a longer duration the cue is rejected with DURATION. -/
theorem startCandidate_beyond {s : State} {h : HeadId} {c : Cue} {copy : ShotCopy} (hd : 65535 < s.cueDuration h c copy) :
    s.startCandidate h c copy = s.rejectCandidate h c .duration := by
  unfold State.startCandidate
  rw [if_pos hd]

/-- A candidate that passes the gates while its claim waits stays at ZONE. -/
theorem examine_waits {s : State} {h : HeadId} {c : Cue} {copy : ShotCopy} (hc : (s.head h).candidate = some c)
    (hg : s.gateOf h c = none) (hy : c.copy = some copy) (hw : s.claimWaits h .cue = true) :
    s.examine h = s.setGate h (some .zone) := by
  unfold State.examine State.examineUpTo
  rw [hc]
  dsimp only
  rw [hg, hy]
  dsimp only
  rw [if_pos hw]

/-- A candidate whose claim is not granted takes a place in the list, if its level's patience is not 0. -/
theorem examine_claims {s : State} {h : HeadId} {c : Cue} {copy : ShotCopy} (hc : (s.head h).candidate = some c)
    (hg : s.gateOf h c = none) (hy : c.copy = some copy) (hw : s.claimWaits h .cue = false)
    (hz : grantable s.zoneTable h copy.claim = false) (hp : (s.levelRec c.level).patience ≠ 0) :
    s.examine h
      = (s.putClaim ⟨h, .cue, c.level, copy.claim, (s.levelRec c.level).patience⟩).setGate h (some .zone) := by
  unfold State.examine State.examineUpTo
  rw [hc]
  dsimp only
  rw [hg, hy]
  dsimp only
  rw [hw, hz, if_neg Bool.false_ne_true, if_neg Bool.false_ne_true, if_neg hp]

/-- With patience 0 such a candidate is rejected with ZONE_TIMEOUT, and the examination goes on. -/
theorem examine_timesOut {s : State} {h : HeadId} {c : Cue} {copy : ShotCopy} (hc : (s.head h).candidate = some c)
    (hg : s.gateOf h c = none) (hy : c.copy = some copy) (hw : s.claimWaits h .cue = false)
    (hz : grantable s.zoneTable h copy.claim = false) (hp : (s.levelRec c.level).patience = 0) :
    s.examine h = State.examineUpTo ((s.head h).queue.length + 1) h (s.rejectCandidate h c .zoneTimeout) := by
  rw [State.examine, State.examineUpTo, hc]
  dsimp only
  rw [hg, hy]
  dsimp only
  rw [hw, hz, if_neg Bool.false_ne_true, if_neg Bool.false_ne_true, if_pos hp]

/-- A claim joins the list behind the claims that rank before it, and in front of the first that does not (R143). -/
theorem insertClaim_place (c : Claim) (l : List Claim) :
    ∃ before after, l = before ++ after ∧ insertClaim c l = before ++ c :: after ∧ (∀ d ∈ before, d.before c = true)
      ∧ ∀ d, after.head? = some d → d.before c = false := by
  induction l with
  | nil => exact ⟨[], [], rfl, rfl, fun d hd => (List.not_mem_nil hd).elim, fun d hd => (Option.some_ne_none _ hd.symm).elim⟩
  | cons e es ih =>
    by_cases he : e.before c = true
    · obtain ⟨b, a, hl, hi, hb, ha⟩ := ih
      refine ⟨e :: b, a, by rw [hl]; rfl, ?_, fun d hd => ?_, ha⟩
      · rw [insertClaim, if_pos he, hi]; rfl
      · rcases List.mem_cons.mp hd with rfl | hd
        · exact he
        · exact hb d hd
    · refine ⟨[], e :: es, rfl, by rw [insertClaim, if_neg he]; rfl, fun d hd => (List.not_mem_nil hd).elim, fun d hd => ?_⟩
      cases hd
      exact Bool.eq_false_iff.mpr he

/-- With the slot occupied, the candidate is the direct cue: a flush takes it exactly if it takes the slot. -/
theorem flushesCandidate_direct {hd : Head} {q : Cue} (gone : Cue → Bool) (slot : Bool) (hq : hd.direct = some q) :
    hd.flushesCandidate gone slot = (hd.candidate.isSome && slot) := by
  unfold Head.flushesCandidate
  rw [hq]

/-- With the slot empty, the candidate is the head of the queue. -/
theorem flushesCandidate_queue {hd : Head} (gone : Cue → Bool) (slot : Bool) (hq : hd.direct = none) :
    hd.flushesCandidate gone slot = (hd.candidate.isSome && hd.queue.head?.any gone) := by
  unfold Head.flushesCandidate
  rw [hq]

/-- A flush of queued cues beneath a direct cue takes them from the queue and the stager, and examines nothing. -/
theorem flushHead_beneathDirect {s : State} {h : HeadId} {q : Cue} (gone : Cue → Bool) (hq : (s.head h).direct = some q) :
    State.flushHead gone false h s
      = (s.forEach (((s.head h).queue.filter gone).map fun c => c.key h) State.unstage).setHead h fun hd =>
          { hd with queue := hd.queue.filter (fun c => !gone c), direct := hd.direct } := by
  unfold State.flushHead
  dsimp only
  rw [flushesCandidate_direct gone false hq, Bool.and_false, if_neg Bool.false_ne_true, if_neg Bool.false_ne_true,
    List.append_nil]
  rfl

end Sys2Proof.Machine
end

