-- ==== Sys2Proof/Laws/Fetcher.lean ====
section
/-! SUPPORT. Laws/Fetcher.lean: which header reads go on at a CUT or a bank notice, and what becomes of a fetch that does not (R67,
R70 to R72), so that proofs need not unfold the fetcher's operations. -/
namespace Sys2Proof.Machine

/-- A header read of a SWAP or of a header notice goes on (R67, R71). -/
theorem headerGoesOn_header {s : State} (h : s.fetcher.state = .header) : s.headerGoesOn = true := by
  unfold State.headerGoesOn
  rw [h]

/-- A header request made again in RETRY goes on exactly if it waits no longer (R72). -/
theorem headerGoesOn_retried {s : State} (h : s.fetcher.state = .headerRetried) : s.headerGoesOn = !s.waits .fetcher := by
  unfold State.headerGoesOn
  rw [h]

/-- A header read goes on in these cases alone. -/
theorem headerGoesOn_iff (s : State) : s.headerGoesOn = true ↔
    s.fetcher.state = .header ∨ (s.fetcher.state = .headerRetried ∧ s.waits .fetcher = false) := by
  unfold State.headerGoesOn
  split <;> simp_all

/-- A header read that goes on keeps its request, its grant and its state. -/
theorem abandonFetch_goesOn {s : State} (h : s.headerGoesOn = true) : s.abandonFetch = s := if_pos h

/-- Any other fetch is abandoned (R14). -/
theorem abandonFetch_abandons {s : State} (h : s.headerGoesOn = false) : s.abandonFetch = s.abandon .fetcher := by
  unfold State.abandonFetch
  rw [h, if_neg Bool.false_ne_true]

theorem fetchStateOr_goesOn {s : State} (st : FetchState) (h : s.headerGoesOn = true) : s.fetchStateOr st = s.fetcher.state :=
  if_pos h

theorem fetchStateOr_abandons {s : State} (st : FetchState) (h : s.headerGoesOn = false) : s.fetchStateOr st = st := by
  unfold State.fetchStateOr
  rw [h, if_neg Bool.false_ne_true]

/-- Abandoning the fetch changes the waiting requests and the grant alone. -/
theorem abandonFetch_changes (s : State) :
    s.abandonFetch = { s with waiting := s.abandonFetch.waiting, grant := s.abandonFetch.grant } := by
  unfold State.abandonFetch
  split <;> rfl

@[simp] theorem abandonFetch_fetcher (s : State) : s.abandonFetch.fetcher = s.fetcher := by rw [abandonFetch_changes]
@[simp] theorem abandonFetch_heads (s : State) : s.abandonFetch.heads = s.heads := by rw [abandonFetch_changes]
@[simp] theorem abandonFetch_stager (s : State) : s.abandonFetch.stager = s.stager := by rw [abandonFetch_changes]
@[simp] theorem abandonFetch_claims (s : State) : s.abandonFetch.claims = s.claims := by rw [abandonFetch_changes]
@[simp] theorem abandonFetch_mode (s : State) : s.abandonFetch.mode = s.mode := by rw [abandonFetch_changes]
@[simp] theorem abandonFetch_near (s : State) : s.abandonFetch.near = s.near := by rw [abandonFetch_changes]
@[simp] theorem abandonFetch_mem (s : State) : s.abandonFetch.mem = s.mem := by rw [abandonFetch_changes]

end Sys2Proof.Machine
end

