-- ==== Sys2Proof/Laws/Leaves.lean ====
section
/-! SUPPORT. Laws/Leaves.lean: the areas that the shared operations may change, one lemma for each operation; every other area
is left (`Leaves`). -/
namespace Sys2Proof.Machine

/-- An area is the same in a state as in itself. -/
theorem sameArea_refl (s : State) (a : Area) : sameArea s s a := by
  cases a <;> simp [sameArea]

/-- Sameness of an area is transitive. -/
theorem sameArea_trans {s t u : State} {a : Area} (x : sameArea s t a) (y : sameArea t u a) : sameArea s u a := by
  cases a <;> simp only [sameArea] at x y ⊢
  case memory => exact fun b => (y b).trans (x b)
  case requests => exact fun q m => y q (x q m)
  case statusJob => exact fun j e => y j (x j e)
  case owed => exact fun r e => y r (x r e)
  case fetchState =>
    rcases x with x | x <;> rcases y with y | y
    · exact Or.inl (y.trans x)
    · exact Or.inr ⟨x ▸ y.1, y.2⟩
    · exact Or.inr ⟨x.1, y.trans x.2⟩
    · exact Or.inr ⟨x.1, y.2⟩
  all_goals simp_all

namespace Leaves

theorem refl (c : List Area) (s : State) : Leaves c s s := fun a _ => sameArea_refl s a

/-- Two changes one after the other; the later first. -/
theorem after {c : List Area} {s t u : State} (y : Leaves c t u) (x : Leaves c s t) : Leaves c s u :=
  fun a n => sameArea_trans (x a n) (y a n)

/-- A change of fewer areas is a change of more. -/
theorem mono {c d : List Area} {s t : State} (x : Leaves c s t) (h : c ⊆ d) : Leaves d s t :=
  fun a n => x a (fun m => n (h m))

/-- A repeated change leaves what one change leaves. -/
theorem forEach {α : Type} {c : List Area} (f : α → State → State) (l : List α) (s : State)
    (hf : ∀ x ∈ l, ∀ u, Leaves c u (f x u)) : Leaves c s (s.forEach l f) := by
  induction l generalizing s with
  | nil => exact refl c s
  | cons x l ih => exact after (ih _ (fun y m => hf y (List.mem_cons_of_mem _ m))) (hf x List.mem_cons_self s)

end Leaves

/-! ## Plain updates -/

/-- A change of one head: each group of its fields is either named as changed or kept. -/
theorem leaves_setHead {c : List Area} (s : State) (h : HeadId) (f : Head → Head)
    (cues : .cues h ∈ c ∨ ((f (s.head h)).queue = (s.head h).queue ∧ (f (s.head h)).direct = (s.head h).direct
      ∧ (f (s.head h)).gate = (s.head h).gate))
    (levels : .levels h ∈ c ∨ ((f (s.head h)).levels = (s.head h).levels ∧ (f (s.head h)).slots = (s.head h).slots
      ∧ (f (s.head h)).saveBuffer = (s.head h).saveBuffer))
    (move : .move h ∈ c ∨ ((f (s.head h)).state = (s.head h).state ∧ (f (s.head h)).move = (s.head h).move
      ∧ (f (s.head h)).lastK = (s.head h).lastK ∧ (f (s.head h)).lastD = (s.head h).lastD))
    (pose : .pose h ∈ c ∨ (f (s.head h)).pose = (s.head h).pose)
    (pointer : .pointer h ∈ c ∨ (f (s.head h)).pointer = (s.head h).pointer)
    (freeze : .freeze h ∈ c ∨ (f (s.head h)).freeze = (s.head h).freeze)
    (tally : .tally h ∈ c ∨ (f (s.head h)).onAir = (s.head h).onAir) : Leaves c s (s.setHead h f) := by
  intro a n
  cases a
  case cues g =>
    by_cases e : h = g
    · subst e; simp only [sameArea, head_setHead_same]; exact cues.resolve_left n
    · simp [sameArea, head_setHead_ne s h g f e]
  case levels g =>
    by_cases e : h = g
    · subst e; simp only [sameArea, head_setHead_same]; exact levels.resolve_left n
    · simp [sameArea, head_setHead_ne s h g f e]
  case move g =>
    by_cases e : h = g
    · subst e; simp only [sameArea, head_setHead_same]; exact move.resolve_left n
    · simp [sameArea, head_setHead_ne s h g f e]
  case pose g =>
    by_cases e : h = g
    · subst e; simp only [sameArea, head_setHead_same]; exact pose.resolve_left n
    · simp [sameArea, head_setHead_ne s h g f e]
  case pointer g =>
    by_cases e : h = g
    · subst e; simp only [sameArea, head_setHead_same]; exact pointer.resolve_left n
    · simp [sameArea, head_setHead_ne s h g f e]
  case freeze g =>
    by_cases e : h = g
    · subst e; simp only [sameArea, head_setHead_same]; exact freeze.resolve_left n
    · simp [sameArea, head_setHead_ne s h g f e]
  case tally g =>
    by_cases e : h = g
    · subst e; simp only [sameArea, head_setHead_same]; exact tally.resolve_left n
    · simp [sameArea, head_setHead_ne s h g f e]
  all_goals simp [sameArea]

/-- A change that touches no head: the areas of the heads are left, and the others are named or kept. -/
theorem leaves_of {c : List Area} {s t : State} (heads : t.heads = s.heads)
    (others : ∀ a, a ∉ c → (∀ h, a ∉ headAreas h) → sameArea s t a) : Leaves c s t := by
  intro a n
  have hh := fun h => head_congr s t h heads
  cases a
  case cues g => simp [sameArea, hh]
  case levels g => simp [sameArea, hh]
  case move g => simp [sameArea, hh]
  case pose g => simp [sameArea, hh]
  case pointer g => simp [sameArea, hh]
  case freeze g => simp [sameArea, hh]
  case tally g => simp [sameArea, hh]
  all_goals exact others _ n (by simp [headAreas])

/-! Each lemma below names the areas its operation may change: they are among those of the list c. -/

theorem leaves_setNear {c : List Area} (s : State) (f : NearPort → NearPort) (h0 : .nearPort ∈ c := by simp [examAreas, headAreas, allHeads]) : Leaves c s (s.setNear f) :=
  leaves_of rfl fun a n _ => by cases a <;> simp_all [sameArea, headAreas]

theorem leaves_setPins {c : List Area} (s : State) (f : Pins → Pins) (h0 : .lines ∈ c := by simp [examAreas, headAreas, allHeads]) : Leaves c s (s.setPins f) :=
  leaves_of rfl fun a n _ => by cases a <;> simp_all [sameArea, headAreas]

theorem leaves_setMode {c : List Area} (s : State) (m : PartMode) (h0 : .partMode ∈ c := by simp [examAreas, headAreas, allHeads]) : Leaves c s (s.setMode m) :=
  leaves_of rfl fun a n _ => by cases a <;> simp_all [sameArea, headAreas]

theorem leaves_setTables {c : List Area} (s : State) (f : Tables → Tables) (h0 : .tables ∈ c := by simp [examAreas, headAreas, allHeads]) : Leaves c s (s.setTables f) :=
  leaves_of rfl fun a n _ => by cases a <;> simp_all [sameArea, headAreas]

theorem leaves_setStager {c : List Area} (s : State) (f : Stager → Stager) (h0 : .stager ∈ c := by simp [examAreas, headAreas, allHeads]) : Leaves c s (s.setStager f) :=
  leaves_of rfl fun a n _ => by cases a <;> simp_all [sameArea, headAreas]

theorem leaves_setAdopter {c : List Area} (s : State) (f : Adopter → Adopter) (h0 : .adopter ∈ c := by simp [examAreas, headAreas, allHeads]) : Leaves c s (s.setAdopter f) :=
  leaves_of rfl fun a n _ => by cases a <;> simp_all [sameArea, headAreas]

theorem leaves_setSaver {c : List Area} (s : State) (f : List SaveJob → List SaveJob) (h0 : .saver ∈ c := by simp [examAreas, headAreas, allHeads]) : Leaves c s (s.setSaver f) :=
  leaves_of rfl fun a n _ => by cases a <;> simp_all [sameArea, headAreas]

theorem leaves_setPageJobs {c : List Area} (s : State) (f : List PageJob → List PageJob) (h0 : .pageJobs ∈ c := by simp [examAreas, headAreas, allHeads]) : Leaves c s (s.setPageJobs f) :=
  leaves_of rfl fun a n _ => by cases a <;> simp_all [sameArea, headAreas]

theorem leaves_setZoneTable {c : List Area} (s : State) (t : Vector (Option HeadId) 32) (h0 : .zones ∈ c := by simp [examAreas, headAreas, allHeads]) : Leaves c s (s.setZoneTable t) :=
  leaves_of rfl fun a n _ => by cases a <;> simp_all [sameArea, headAreas]

theorem leaves_setClaims {c : List Area} (s : State) (f : List Claim → List Claim) (h0 : .claims ∈ c := by simp [examAreas, headAreas, allHeads]) : Leaves c s (s.setClaims f) :=
  leaves_of rfl fun a n _ => by cases a <;> simp_all [sameArea, headAreas]

theorem leaves_setFloorStop {c : List Area} (s : State) (f : FloorStop) (h0 : .floorStop ∈ c := by simp [examAreas, headAreas, allHeads]) : Leaves c s (s.setFloorStop f) :=
  leaves_of rfl fun a n _ => by cases a <;> simp_all [sameArea, headAreas]

theorem leaves_setFetcher {c : List Area} (s : State) (f : Fetcher → Fetcher) (h0 : .rundown ∈ c := by simp [examAreas, headAreas, allHeads]) (h1 : .fetchState ∈ c := by simp [examAreas, headAreas, allHeads]) : Leaves c s (s.setFetcher f) :=
  leaves_of rfl fun a n _ => by cases a <;> simp_all [sameArea, headAreas]

theorem leaves_setLoader {c : List Area} (s : State) (f : Loader → Loader) (h0 : .loader ∈ c := by simp [examAreas, headAreas, allHeads]) : Leaves c s (s.setLoader f) :=
  leaves_of rfl fun a n _ => by cases a <;> simp_all [sameArea, headAreas]

theorem leaves_endGrant {c : List Area} (s : State) (h0 : .grant ∈ c := by simp [examAreas, headAreas, allHeads]) : Leaves c s (s.endGrant) :=
  leaves_of rfl fun a n _ => by cases a <;> simp_all [sameArea, headAreas]

theorem leaves_withdraw {c : List Area} (s : State) (k : Client) (h0 : .requests ∈ c := by simp [examAreas, headAreas, allHeads]) : Leaves c s (s.withdraw k) :=
  leaves_of rfl fun a n _ => by cases a <;> simp_all [sameArea, headAreas]

theorem leaves_abandon {c : List Area} (s : State) (k : Client) (h0 : .requests ∈ c := by simp [examAreas, headAreas, allHeads]) (h1 : .grant ∈ c := by simp [examAreas, headAreas, allHeads]) : Leaves c s (s.abandon k) :=
  leaves_of rfl fun a n _ => by cases a <;> simp_all [sameArea, headAreas, State.abandon]

theorem leaves_enterClaim {c : List Area} (s : State) (h : HeadId) (z : Zones) (h0 : .zones ∈ c := by simp [examAreas, headAreas, allHeads]) : Leaves c s (s.enterClaim h z) :=
  leaves_of rfl fun a n _ => by cases a <;> simp_all [sameArea, headAreas]

theorem leaves_withdrawClaim {c : List Area} (s : State) (h : HeadId) (k : ClaimKind) (h0 : .claims ∈ c := by simp [examAreas, headAreas, allHeads]) : Leaves c s (s.withdrawClaim h k) :=
  leaves_of rfl fun a n _ => by cases a <;> simp_all [sameArea, headAreas]

theorem leaves_putClaim {c : List Area} (s : State) (k : Claim) (h0 : .claims ∈ c := by simp [examAreas, headAreas, allHeads]) : Leaves c s (s.putClaim k) :=
  leaves_of rfl fun a n _ => by cases a <;> simp_all [sameArea, headAreas]

theorem leaves_placeSave {c : List Area} (s : State) (j : SaveJob) (h0 : .saver ∈ c := by simp [examAreas, headAreas, allHeads]) : Leaves c s (s.placeSave j) :=
  leaves_of rfl fun a n _ => by cases a <;> simp_all [sameArea, headAreas]

theorem leaves_placePage {c : List Area} (s : State) (j : PageJob) (h0 : .pageJobs ∈ c := by simp [examAreas, headAreas, allHeads]) : Leaves c s (s.placePage j) :=
  leaves_of rfl fun a n _ => by cases a <;> simp_all [sameArea, headAreas]

/-- A request is added behind those that wait (R13). -/
theorem leaves_request {c : List Area} (s : State) (x : Xfer) : Leaves c s (s.request x) :=
  leaves_of rfl fun a n _ => by cases a <;> simp_all [sameArea, headAreas, State.request]

theorem leaves_requestLetRun {c : List Area} (s : State) (x : Xfer) : Leaves c s (s.requestLetRun x) :=
  leaves_of rfl fun a n _ => by cases a <;> simp_all [sameArea, headAreas, State.requestLetRun]

theorem leaves_fileHead {c : List Area} (s : State) (h : HeadId) (k : HeadFaultKind) (r : Option CueRef) (w : Word)
    (h0 : .headFault h ∈ c := by simp [examAreas, headAreas, allHeads])
    (h1 : .attn ∈ c := by simp [examAreas, headAreas, allHeads]) : Leaves c s (s.fileHead h k r w) := by
  refine leaves_of rfl fun a n _ => ?_
  cases a
  case headFault g _ =>
    have e : h.val ≠ g.val := fun e => n (Fin.ext e ▸ h0)
    simp [sameArea, State.fileHead, Vector.getElem_set_ne _ _ e]
  all_goals simp_all [sameArea, headAreas, State.fileHead]

theorem leaves_filePart {c : List Area} (s : State) (k : PartFaultKind) (i : Nat) (w : Option (BitVec 8))
    (r : Option StartResult) (h0 : .partFault ∈ c := by simp [examAreas, headAreas, allHeads])
    (h1 : .attn ∈ c := by simp [examAreas, headAreas, allHeads]) : Leaves c s (s.filePart k i w r) :=
  leaves_of rfl fun a n _ => by cases a <;> simp_all [sameArea, headAreas, State.filePart]

/-- An owed mark is added (R166). -/
theorem leaves_owe {c : List Area} (s : State) (r : RecId) : Leaves c s (s.owe r) := by
  refine leaves_of rfl fun a n _ => ?_
  cases a
  case owed =>
    intro g e
    by_cases eq : r.val = g.val
    · simp [State.owe, eq]
    · simp [State.owe, Vector.getElem_set_ne _ _ eq, e]
  all_goals simp_all [sameArea, headAreas, State.owe]

theorem leaves_oweChanged {c : List Area} (s0 s : State) : Leaves c s (State.oweChanged s0 s) := by
  refine leaves_of rfl fun a n _ => ?_
  cases a
  case owed =>
    intro g e
    simp [State.oweChanged, e]
  all_goals simp_all [sameArea, headAreas, State.oweChanged]

/-! ## Starts, losses, examinations -/

theorem leaves_setGate {c : List Area} (s : State) (h : HeadId) (g : Option Gate)
    (h0 : .cues h ∈ c := by simp [examAreas, headAreas, allHeads]) : Leaves c s (s.setGate h g) :=
  leaves_setHead s h _ (.inl h0) (.inr ⟨rfl, rfl, rfl⟩) (.inr ⟨rfl, rfl, rfl, rfl⟩) (.inr rfl) (.inr rfl) (.inr rfl)
    (.inr rfl)

theorem leaves_setFreeze {c : List Area} (s : State) (h : HeadId) (f : Freeze → Freeze)
    (h0 : .freeze h ∈ c := by simp [examAreas, headAreas, allHeads]) : Leaves c s (s.setFreeze h f) :=
  leaves_setHead s h _ (.inr ⟨rfl, rfl, rfl⟩) (.inr ⟨rfl, rfl, rfl⟩) (.inr ⟨rfl, rfl, rfl, rfl⟩) (.inr rfl) (.inr rfl)
    (.inl h0) (.inr rfl)

/-- The other fields of a head whose move record ends. -/
theorem endMove_rest (hd : Head) : hd.endMove.queue = hd.queue ∧ hd.endMove.direct = hd.direct ∧ hd.endMove.gate = hd.gate
    ∧ hd.endMove.levels = hd.levels ∧ hd.endMove.slots = hd.slots ∧ hd.endMove.saveBuffer = hd.saveBuffer
    ∧ hd.endMove.state = hd.state ∧ hd.endMove.pose = hd.pose ∧ hd.endMove.pointer = hd.pointer
    ∧ hd.endMove.freeze = hd.freeze ∧ hd.endMove.onAir = hd.onAir := by
  unfold Head.endMove; split <;> simp

/-- The other fields of a head that drops its candidate. -/
theorem dropCandidate_rest (hd : Head) : hd.dropCandidate.gate = hd.gate
    ∧ hd.dropCandidate.levels = hd.levels ∧ hd.dropCandidate.slots = hd.slots
    ∧ hd.dropCandidate.saveBuffer = hd.saveBuffer ∧ hd.dropCandidate.state = hd.state
    ∧ hd.dropCandidate.move = hd.move ∧ hd.dropCandidate.lastK = hd.lastK ∧ hd.dropCandidate.lastD = hd.lastD
    ∧ hd.dropCandidate.pose = hd.pose ∧ hd.dropCandidate.pointer = hd.pointer
    ∧ hd.dropCandidate.freeze = hd.freeze ∧ hd.dropCandidate.onAir = hd.onAir := by
  unfold Head.dropCandidate; split <;> simp

/-- The areas of an examination are among those of the list. -/
theorem exam_mem {c : List Area} {h : HeadId} (s : examAreas h ⊆ c) : .cues h ∈ c ∧ .levels h ∈ c ∧ .move h ∈ c ∧ .claims ∈ c
    ∧ .zones ∈ c ∧ .saver ∈ c ∧ .headFault h ∈ c ∧ .attn ∈ c := by
  simpa [examAreas, List.cons_subset] using s

theorem leaves_endMove {c : List Area} (s : State) (h : HeadId)
    (h0 : .move h ∈ c := by simp [examAreas, headAreas, allHeads]) : Leaves c s (s.setHead h Head.endMove) := by
  have e := endMove_rest (s.head h)
  exact leaves_setHead s h _ (.inr ⟨e.1, e.2.1, e.2.2.1⟩) (.inr ⟨e.2.2.2.1, e.2.2.2.2.1, e.2.2.2.2.2.1⟩) (.inl h0)
    (.inr e.2.2.2.2.2.2.2.1) (.inr e.2.2.2.2.2.2.2.2.1) (.inr e.2.2.2.2.2.2.2.2.2.1) (.inr e.2.2.2.2.2.2.2.2.2.2)

theorem leaves_preempt {c : List Area} (s : State) (h : HeadId) (m : MoveRec) (x : examAreas h ⊆ c) :
    Leaves c s (s.preempt h m) := by
  obtain ⟨_, lv, mv, cl, _, sv, _, _⟩ := exam_mem x
  have e := endMove_rest (s.head h)
  refine Leaves.after (leaves_withdrawClaim _ _ _ cl) (Leaves.after (leaves_placeSave _ _ sv) ?_)
  exact leaves_setHead s h _ (.inr ⟨e.1, e.2.1, e.2.2.1⟩) (.inl lv) (.inl mv)
    (.inr e.2.2.2.2.2.2.2.1) (.inr e.2.2.2.2.2.2.2.2.1) (.inr e.2.2.2.2.2.2.2.2.2.1) (.inr e.2.2.2.2.2.2.2.2.2.2)

theorem leaves_retireMove {c : List Area} (s : State) (h : HeadId) (l : Level) (x : examAreas h ⊆ c) :
    Leaves c s (s.retireMove h l) := by
  obtain ⟨_, lv, mv, cl, _, sv, _, _⟩ := exam_mem x
  unfold State.retireMove
  split
  · split
    · split
      · exact leaves_preempt _ _ _ x
      · exact Leaves.after (leaves_withdrawClaim _ _ _ cl) (leaves_endMove _ _ mv)
    · exact Leaves.refl _ _
  · exact Leaves.refl _ _

theorem leaves_beginMove {c : List Area} (s : State) (h : HeadId) (q : Cue) (copy : ShotCopy) (dur : Nat)
    (x : examAreas h ⊆ c) : Leaves c s (s.beginMove h q copy dur) := by
  obtain ⟨cu, lv, mv, _⟩ := exam_mem x
  have e := dropCandidate_rest (s.head h)
  exact leaves_setHead s h _ (.inl cu) (.inl lv) (.inl mv) (.inr e.2.2.2.2.2.2.2.2.1) (.inr e.2.2.2.2.2.2.2.2.2.1)
    (.inr e.2.2.2.2.2.2.2.2.2.2.1) (.inr e.2.2.2.2.2.2.2.2.2.2.2)

theorem leaves_dropCandidate {c : List Area} (s : State) (h : HeadId)
    (h0 : .cues h ∈ c := by simp [examAreas, headAreas, allHeads]) : Leaves c s (s.setHead h Head.dropCandidate) := by
  have e := dropCandidate_rest (s.head h)
  exact leaves_setHead s h _ (.inl h0) (.inr ⟨e.2.1, e.2.2.1, e.2.2.2.1⟩)
    (.inr ⟨e.2.2.2.2.1, e.2.2.2.2.2.1, e.2.2.2.2.2.2.1, e.2.2.2.2.2.2.2.1⟩) (.inr e.2.2.2.2.2.2.2.2.1)
    (.inr e.2.2.2.2.2.2.2.2.2.1) (.inr e.2.2.2.2.2.2.2.2.2.2.1) (.inr e.2.2.2.2.2.2.2.2.2.2.2)

theorem leaves_rejectCandidate {c : List Area} (s : State) (h : HeadId) (q : Cue) (k : HeadFaultKind)
    (x : examAreas h ⊆ c) : Leaves c s (s.rejectCandidate h q k) := by
  obtain ⟨cu, _, _, _, _, _, hf, at'⟩ := exam_mem x
  exact Leaves.after (leaves_dropCandidate _ _ cu) (leaves_fileHead _ _ _ _ _ hf at')

theorem leaves_startCandidate {c : List Area} (s : State) (h : HeadId) (q : Cue) (copy : ShotCopy)
    (x : examAreas h ⊆ c) : Leaves c s (s.startCandidate h q copy) := by
  unfold State.startCandidate
  split
  · exact leaves_rejectCandidate _ _ _ _ x
  · exact Leaves.after (leaves_beginMove _ _ _ _ _ x) (Leaves.after (leaves_retireMove _ _ _ x)
      (leaves_enterClaim _ _ _ (exam_mem x).2.2.2.2.1))

theorem leaves_examineUpTo {c : List Area} (n : Nat) (h : HeadId) (s : State) (x : examAreas h ⊆ c) :
    Leaves c s (State.examineUpTo n h s) := by
  obtain ⟨cu, _, _, cl, _, _, _, _⟩ := exam_mem x
  induction n generalizing s with
  | zero => exact Leaves.refl _ s
  | succ n ih =>
    unfold State.examineUpTo
    split
    · exact Leaves.after (leaves_setGate _ _ _ cu) (leaves_withdrawClaim _ _ _ cl)
    · split
      · exact Leaves.after (leaves_setGate _ _ _ cu) (leaves_withdrawClaim _ _ _ cl)
      · exact leaves_setGate _ _ _ cu
      · split
        · exact leaves_setGate _ _ _ cu
        · split
          · exact Leaves.after (ih _) (leaves_startCandidate _ _ _ _ x)
          · split
            · exact Leaves.after (ih _) (leaves_rejectCandidate _ _ _ _ x)
            · exact Leaves.after (leaves_setGate _ _ _ cu) (leaves_putClaim _ _ cl)

/-- An examination of a head's candidate. -/
theorem leaves_examine {c : List Area} (s : State) (h : HeadId)
    (x : examAreas h ⊆ c := by simp [examAreas, headAreas, allHeads, List.cons_subset]) : Leaves c s (s.examine h) :=
  leaves_examineUpTo _ _ _ x

theorem leaves_revealLevel {c : List Area} (s : State) (h : HeadId) (x : examAreas h ⊆ c) :
    Leaves c s (s.revealLevel h) := by
  obtain ⟨_, _, mv, _, _, sv, _, _⟩ := exam_mem x
  have k := fun st : HeadState => leaves_setHead (c := c) s h (fun hd => { hd with state := st }) (.inr ⟨rfl, rfl, rfl⟩)
    (.inr ⟨rfl, rfl, rfl⟩) (.inl mv) (.inr rfl) (.inr rfl) (.inr rfl) (.inr rfl)
  unfold State.revealLevel
  split
  · exact k _
  · split
    · exact k _
    · exact Leaves.after (leaves_placeSave _ _ sv) (k _)

/-- A move record ends and a level leaves the set. -/
theorem leaves_dropMove {c : List Area} (s : State) (h : HeadId) (l : Level)
    (h0 : .levels h ∈ c := by simp [examAreas, headAreas, allHeads])
    (h1 : .move h ∈ c := by simp [examAreas, headAreas, allHeads]) :
    Leaves c s (s.setHead h fun hd => { hd.endMove with levels := levelDrop hd.levels l }) := by
  have e := endMove_rest (s.head h)
  exact leaves_setHead s h _ (.inr ⟨e.1, e.2.1, e.2.2.1⟩) (.inl h0) (.inl h1)
    (.inr e.2.2.2.2.2.2.2.1) (.inr e.2.2.2.2.2.2.2.2.1) (.inr e.2.2.2.2.2.2.2.2.2.1) (.inr e.2.2.2.2.2.2.2.2.2.2)

theorem leaves_losePending {c : List Area} (s : State) (h : HeadId) (x : examAreas h ⊆ c) :
    Leaves c s (s.losePending h) := by
  obtain ⟨_, lv, mv, _, _, _, hf, at'⟩ := exam_mem x
  unfold State.losePending
  split
  · exact Leaves.refl _ s
  · split
    · exact Leaves.after (leaves_revealLevel _ _ x) (Leaves.after (leaves_dropMove _ _ _ lv mv)
        (leaves_fileHead _ _ _ _ _ hf at'))
    · exact Leaves.refl _ s

theorem leaves_grantPending {c : List Area} (s : State) (h : HeadId) (z : Zones) (x : examAreas h ⊆ c) :
    Leaves c s (s.grantPending h z) := by
  obtain ⟨_, _, mv, _, zn, _⟩ := exam_mem x
  exact Leaves.after (leaves_setHead _ h _ (.inr ⟨rfl, rfl, rfl⟩) (.inr ⟨rfl, rfl, rfl⟩) (.inl mv) (.inr rfl) (.inr rfl)
    (.inr rfl) (.inr rfl)) (leaves_enterClaim _ _ _ zn)

/-- The tests of a pending restored move. -/
theorem leaves_testPending {c : List Area} (s : State) (h : HeadId)
    (x : examAreas h ⊆ c := by simp [examAreas, headAreas, allHeads, List.cons_subset]) :
    Leaves c s (s.testPending h) := by
  have cl := (exam_mem x).2.2.2.1
  unfold State.testPending
  split
  · exact Leaves.refl _ s
  · split
    · split
      · exact leaves_withdrawClaim _ _ _ cl
      · split
        · exact leaves_withdrawClaim _ _ _ cl
        · split
          · exact Leaves.refl _ s
          · split
            · exact leaves_grantPending _ _ _ x
            · split
              · exact Leaves.after (leaves_examine _ _ x) (leaves_losePending _ _ x)
              · exact leaves_putClaim _ _ cl
    · exact Leaves.refl _ s

theorem leaves_recheck {c : List Area} (r : Recheck) (s : State) (x : examAreas (recheckHead r) ⊆ c) :
    Leaves c s (State.recheck r s) := by
  cases r with
  | candidate h => exact leaves_examine _ _ x
  | pendingMove h => exact leaves_testPending _ _ x

/-- An arrangement holds the same items. -/
theorem mem_arrange {α : Type} [DecidableEq α] (order items : List α) (x : α) : x ∈ arrange order items ↔ x ∈ items := by
  simp only [arrange, List.mem_append, List.mem_filter, decide_eq_true_eq, List.mem_eraseDups]
  constructor
  · rintro (⟨_, h⟩ | ⟨h, _⟩) <;> exact h
  · intro h
    by_cases o : x ∈ order
    · exact Or.inl ⟨o, h⟩
    · exact Or.inr ⟨h, o⟩

/-- The re-examinations of one event. -/
theorem leaves_recheckAll {c : List Area} (s : State) (order items : List Recheck)
    (x : ∀ r ∈ items, examAreas (recheckHead r) ⊆ c) : Leaves c s (s.recheckAll order items) :=
  Leaves.forEach _ _ s fun r m u => leaves_recheck r u (x r ((mem_arrange _ _ _).mp m))

/-- Both re-examinations of each head of a list. -/
theorem leaves_recheckBoth {c : List Area} (s : State) (order : List Recheck) (hs : List HeadId)
    (x : ∀ h ∈ hs, examAreas h ⊆ c) : Leaves c s (s.recheckAll order (bothRechecks hs)) := by
  refine leaves_recheckAll s order _ fun r m => ?_
  simp only [bothRechecks, List.mem_flatMap, List.mem_cons, List.not_mem_nil, or_false] at m
  obtain ⟨h, hm, e | e⟩ := m <;> subst e <;> exact x h hm

end Sys2Proof.Machine
end

