-- ==== Sys2Proof/Laws/LeavesBlocks.lean ====
section
/-! SUPPORT. Laws/LeavesBlocks.lean: the areas that the blocks' operations, the accepted commands and the end of every event may
change (`Leaves`), one lemma for each. -/
namespace Sys2Proof.Machine

/-! ## Flushes, releases, completion -/

/-- The areas that a flush of cues of a head may change (R86). -/
def flushAreas (h : HeadId) : List Area := examAreas h ++ [.stager, .requests, .grant]

theorem leaves_unstage {c : List Area} (k : StageKey) (s : State)
    (h0 : .stager ∈ c := by simp [flushAreas, examAreas, headAreas, allHeads])
    (h1 : .requests ∈ c := by simp [flushAreas, examAreas, headAreas, allHeads])
    (h2 : .grant ∈ c := by simp [flushAreas, examAreas, headAreas, allHeads]) : Leaves c s (State.unstage k s) := by
  unfold State.unstage
  dsimp only
  split
  · exact Leaves.after (leaves_abandon _ _ h1 h2) (Leaves.after (leaves_setStager _ _ h0) (leaves_setStager _ _ h0))
  · exact leaves_setStager _ _ h0

theorem leaves_flushHead {c : List Area} (gone : Cue → Bool) (slot : Bool) (h : HeadId) (s : State)
    (x : flushAreas h ⊆ c) : Leaves c s (State.flushHead gone slot h s) := by
  have xe : examAreas h ⊆ c := fun a m => x (List.mem_append_left _ m)
  have h0 : .stager ∈ c := x (by simp [flushAreas])
  have h1 : .requests ∈ c := x (by simp [flushAreas])
  have h2 : .grant ∈ c := x (by simp [flushAreas])
  obtain ⟨cu, _, _, cl, _⟩ := exam_mem xe
  unfold State.flushHead
  dsimp only
  generalize (List.filter gone (s.head h).queue ++ if slot = true then (s.head h).direct.toList else []) = l
  have k1 := Leaves.forEach (c := c) State.unstage (l.map fun q => q.key h) s
    fun k _ u => leaves_unstage k u h0 h1 h2
  have k2 := fun u : State => leaves_setHead (c := c) u h
    (fun hd => { hd with queue := hd.queue.filter (fun q => !gone q), direct := if slot then none else hd.direct })
    (.inl cu) (.inr ⟨rfl, rfl, rfl⟩) (.inr ⟨rfl, rfl, rfl, rfl⟩) (.inr rfl) (.inr rfl) (.inr rfl) (.inr rfl)
  split
  · exact Leaves.after (leaves_examine _ _ xe) (Leaves.after (leaves_withdrawClaim _ _ _ cl) (Leaves.after (k2 _) k1))
  · exact Leaves.after (k2 _) k1

theorem leaves_flushAll {c : List Area} (s : State) (gone : Cue → Bool) (slot : Bool)
    (x : allHeads.flatMap flushAreas ⊆ c) : Leaves c s (s.flushAll gone slot) :=
  Leaves.forEach _ _ s fun h m u => leaves_flushHead gone slot h u
    fun _ ma => x (List.mem_flatMap.mpr ⟨h, m, ma⟩)

theorem leaves_releaseBelow {c : List Area} (s : State) (next : Nat) (order : List Recheck)
    (x : allHeads.flatMap examAreas ⊆ c) : Leaves c s (s.releaseBelow next order) := by
  have xe : ∀ h, examAreas h ⊆ c := fun h a ma =>
    x (List.mem_flatMap.mpr ⟨h, List.mem_finRange h, ma⟩)
  unfold State.releaseBelow
  refine Leaves.after (leaves_recheckAll _ _ _ fun r _ => xe _) (Leaves.forEach _ _ s fun h _ u => ?_)
  exact leaves_setHead u h _ (.inl (exam_mem (xe h)).1) (.inr ⟨rfl, rfl, rfl⟩) (.inr ⟨rfl, rfl, rfl, rfl⟩) (.inr rfl)
    (.inr rfl) (.inr rfl) (.inr rfl)

theorem leaves_scanClaim {c : List Area} (q : Claim) (s : State) (x : examAreas q.head ⊆ c) :
    Leaves c s (State.scanClaim q s) := by
  have cl := (exam_mem x).2.2.2.1
  unfold State.scanClaim
  split
  · split
    · exact Leaves.after (leaves_grantPending _ _ _ x) (leaves_withdrawClaim _ _ _ cl)
    · split
      · exact leaves_withdrawClaim _ _ _ cl
      · split
        · exact leaves_withdrawClaim _ _ _ cl
        · exact Leaves.after (leaves_startCandidate _ _ _ _ x) (leaves_withdrawClaim _ _ _ cl)
  · exact Leaves.refl _ s

/-- The grant scan may start the moves of every head whose claim waits. -/
theorem leaves_scan {c : List Area} (s : State) (x : ∀ q ∈ s.claims, examAreas q.head ⊆ c) : Leaves c s s.scan :=
  Leaves.forEach _ _ s fun q m u => leaves_scanClaim q u (x q m)

theorem leaves_settle {c : List Area} (s : State) (h : HeadId) (t : Vector (Option HeadId) 32)
    (x : ∀ g, examAreas g ⊆ c) : Leaves c s (s.settle h t) := by
  have zn := (exam_mem (x h)).2.2.2.2.1
  unfold State.settle
  split
  · exact leaves_examine _ _ (x h)
  · exact Leaves.after (Leaves.forEach _ _ _ fun y _ u => leaves_examine u y (x y)) (Leaves.after (leaves_scan _ fun q _ => x _)
      (leaves_setZoneTable _ _ zn))

theorem leaves_complete {c : List Area} (s : State) (h : HeadId) (m : MoveRec) (x : ∀ g, examAreas g ⊆ c)
    (fr : .freeze h ∈ c) : Leaves c s (s.complete h m) := by
  have e := endMove_rest (s.head h)
  exact Leaves.after (leaves_settle _ _ _ x) (leaves_setHead s h _ (.inr ⟨e.1, e.2.1, e.2.2.1⟩)
    (.inr ⟨e.2.2.2.1, e.2.2.2.2.1, e.2.2.2.2.2.1⟩) (.inl (exam_mem (x h)).2.2.1)
    (.inr e.2.2.2.2.2.2.2.1) (.inr e.2.2.2.2.2.2.2.2.1) (.inl fr) (.inr e.2.2.2.2.2.2.2.2.2.2))

theorem leaves_checkComplete {c : List Area} (s : State) (h : HeadId) (x : ∀ g, examAreas g ⊆ c)
    (fr : .freeze h ∈ c) : Leaves c s (s.checkComplete h) := by
  unfold State.checkComplete
  split
  · exact Leaves.refl _ s
  · split
    · exact leaves_complete _ _ _ x fr
    · exact Leaves.refl _ s

/-! ## The rundown fetcher -/

/-- A change of the fetcher's state and of no pointer. -/
theorem leaves_setFetchState {c : List Area} (s : State) (st : FetchState) (h0 : .fetchState ∈ c) :
    Leaves c s (s.setFetcher fun f => { f with state := st }) :=
  leaves_of rfl fun a n _ => by cases a <;> simp_all [sameArea, headAreas]

theorem leaves_passEntry {c : List Area} (s : State) (b : Bool) (h0 : .rundown ∈ c) (h1 : .fetchState ∈ c) :
    Leaves c s (s.passEntry b) := leaves_setFetcher _ _ h0 h1

theorem leaves_handOn {c : List Area} (s : State) (e : HeldEntry) (x : examAreas e.head ⊆ c) (h0 : .rundown ∈ c)
    (h1 : .fetchState ∈ c) (h2 : .stager ∈ c) : Leaves c s (s.handOn e) := by
  have cu := (exam_mem x).1
  unfold State.handOn
  have k1 := fun q => leaves_setHead (c := c) s e.head (fun hd => { hd with queue := hd.queue ++ [q] })
    (.inl cu) (.inr ⟨rfl, rfl, rfl⟩) (.inr ⟨rfl, rfl, rfl, rfl⟩) (.inr rfl) (.inr rfl) (.inr rfl) (.inr rfl)
  dsimp only
  split
  · exact Leaves.after (leaves_examine _ _ x) (Leaves.after (leaves_setStager _ _ h2)
      (Leaves.after (leaves_setFetcher _ _ h0 h1) (k1 _)))
  · exact Leaves.after (leaves_setStager _ _ h2) (Leaves.after (leaves_setFetcher _ _ h0 h1) (k1 _))

/-! ## The end of every event -/

/-- A settled part stays in its mode. -/
theorem settleMode_of_settled (s : State) (h : s.settled) : s.settleMode = s := by
  unfold State.settleMode
  rw [h.1, if_neg h.2]

/-- A RUNNING part is settled. -/
theorem settled_of_running (s : State) (h : s.mode = .running) : s.settled := by
  simp [State.settled, State.loaded, h]

/-- A HALTED part is settled. -/
theorem settled_of_halted (s : State) (h : s.mode = .halted) : s.settled := by
  simp [State.settled, State.loaded, h]

theorem leaves_pumpPage {c : List Area} (s : State) : Leaves c s s.pumpPage := by
  unfold State.pumpPage
  split
  · exact Leaves.refl _ s
  · split
    · exact Leaves.refl _ s
    · rename_i j rest e
      refine Leaves.after (leaves_request _ _) (leaves_of rfl fun a n _ => ?_)
      cases a
      case pageJobs =>
        simp only [sameArea, setPageJobs_pageJobs, e, List.map_cons, PageJob.begin]
        congr 1
        split
        · split
          · split <;> rfl
          · rfl
        · rfl
        · rfl
        · rfl
      all_goals simp_all [sameArea, headAreas]

theorem leaves_pumpSaver {c : List Area} (s : State) : Leaves c s s.pumpSaver := by
  unfold State.pumpSaver
  split
  · exact Leaves.refl _ s
  · split
    · exact Leaves.refl _ s
    · exact leaves_request _ _

theorem leaves_pumpLoader {c : List Area} (s : State) : Leaves c s s.pumpLoader := by
  unfold State.pumpLoader
  split
  · exact Leaves.refl _ s
  · split
    · refine Leaves.after (leaves_request _ _) (leaves_of rfl fun a n _ => ?_)
      cases a <;> simp_all [sameArea, headAreas]
    · split
      · exact leaves_request _ _
      · exact Leaves.refl _ s

theorem leaves_pumpAdopter {c : List Area} (s : State) : Leaves c s s.pumpAdopter := by
  unfold State.pumpAdopter
  split
  · exact Leaves.refl _ s
  · split
    · exact Leaves.refl _ s
    · split <;> exact leaves_request _ _

theorem leaves_requestStage {c : List Area} (s : State) (k : StageKey) : Leaves c s (s.requestStage k) := by
  unfold State.requestStage
  split
  · exact leaves_request _ _
  · exact Leaves.refl _ s

theorem leaves_pumpStager {c : List Area} (s : State) : Leaves c s s.pumpStager := by
  unfold State.pumpStager
  split
  · exact Leaves.refl _ s
  · split
    · exact leaves_requestStage _ _
    · split
      · exact Leaves.refl _ s
      · refine Leaves.after (leaves_requestStage _ _) (leaves_of rfl fun a n _ => ?_)
        cases a <;> simp_all [sameArea, headAreas]

theorem leaves_pumpFetcher {c : List Area} (s : State) : Leaves c s s.pumpFetcher := by
  unfold State.pumpFetcher
  split
  · exact Leaves.refl _ s
  · split
    · split
      · refine Leaves.after (leaves_request _ _) (leaves_of rfl fun a n _ => ?_)
        cases a <;> simp_all [sameArea, headAreas]
      · exact Leaves.refl _ s
    · exact leaves_request _ _
    · exact leaves_request _ _
    · exact leaves_request _ _
    · exact Leaves.refl _ s
    · exact Leaves.refl _ s
    · exact Leaves.refl _ s
    · exact Leaves.refl _ s

theorem leaves_pumpStatus {c : List Area} (s : State) : Leaves c s s.pumpStatus := by
  unfold State.pumpStatus
  split
  · exact Leaves.refl _ s
  · split
    · refine Leaves.after (leaves_request _ _) (leaves_of rfl fun a n _ => ?_)
      cases a <;> simp_all [sameArea, headAreas]
    · exact Leaves.refl _ s
    · exact Leaves.refl _ s

/-- The clients' next requests leave every area. -/
theorem leaves_pump {c : List Area} (s : State) : Leaves c s s.pump := by
  unfold State.pump
  split
  · exact Leaves.refl _ s
  · exact Leaves.after (leaves_pumpStatus _) (Leaves.after (leaves_pumpFetcher _) (Leaves.after (leaves_pumpStager _)
      (Leaves.after (leaves_pumpAdopter _) (Leaves.after (leaves_pumpLoader _) (Leaves.after (leaves_pumpSaver _)
        (leaves_pumpPage _))))))

/-- The end of an event leaves every area of a settled part. -/
theorem leaves_finish {c : List Area} (s0 s : State) (h : s.settled) : Leaves c s (State.finish s0 s) := by
  unfold State.finish
  rw [settleMode_of_settled s h]
  exact Leaves.after (leaves_pump _) (leaves_oweChanged _ _)

/-- The number of events is of no area. -/
theorem leaves_nextEvent {c : List Area} (s : State) : Leaves c s { s with eventNo := s.eventNo + 1 } :=
  leaves_of rfl fun a n k => by cases a <;> simp_all [sameArea, headAreas]

/-- What is left of an event whose change leaves a settled part. -/
theorem leaves_event {c : List Area} (s : State) (f : State → State)
    (hs : (f { s with eventNo := s.eventNo + 1 }).settled)
    (hf : Leaves c { s with eventNo := s.eventNo + 1 } (f { s with eventNo := s.eventNo + 1 })) :
    Leaves c s (s.event f) := by
  exact Leaves.after (leaves_finish _ _ hs) (Leaves.after hf (leaves_nextEvent s))

/-! ## The near port -/

theorem leaves_answerHost {c : List Area} (s : State) (a : Answer) (h0 : .nearPort ∈ c) : Leaves c s (s.answerHost a) :=
  leaves_setNear _ _ h0

theorem leaves_forward {c : List Area} (s : State) (op : HostOp) (h0 : .nearPort ∈ c) : Leaves c s (s.forward op) :=
  Leaves.after (leaves_request _ _) (leaves_setNear _ _ h0)

theorem leaves_refuse {c : List Area} (s : State) (slot : Nat) (r : Reason) (p : Word) (h0 : .nearPort ∈ c)
    (h1 : .lastRefusal ∈ c) : Leaves c s (s.refuse slot r p) := by
  refine Leaves.after (leaves_answerHost _ _ h0) (leaves_of rfl fun a n k => ?_)
  cases a <;> simp_all [sameArea, headAreas]

/-! ## Levels and adoption -/

theorem leaves_levelEnd {c : List Area} (s : State) (h : HeadId) (x : examAreas h ⊆ c) : Leaves c s (s.levelEnd h) := by
  unfold State.levelEnd
  split
  · exact Leaves.refl _ s
  · refine Leaves.after (leaves_examine _ _ x) (Leaves.after (leaves_revealLevel _ _ x) ?_)
    exact leaves_setHead s h _ (.inr ⟨rfl, rfl, rfl⟩) (.inl (exam_mem x).2.1) (.inr ⟨rfl, rfl, rfl, rfl⟩) (.inr rfl)
      (.inr rfl) (.inr rfl) (.inr rfl)

theorem leaves_placeDirect {c : List Area} (s : State) (h : HeadId) (p : Word) (x : flushAreas h ⊆ c) :
    Leaves c s (s.placeDirect h p) := by
  have xe : examAreas h ⊆ c := fun a m => x (List.mem_append_left _ m)
  have h0 : .stager ∈ c := x (by simp [flushAreas])
  have h1 : .requests ∈ c := x (by simp [flushAreas])
  have h2 : .grant ∈ c := x (by simp [flushAreas])
  obtain ⟨cu, _, _, cl, _⟩ := exam_mem xe
  unfold State.placeDirect
  refine Leaves.after (leaves_examine _ _ xe) (Leaves.after (leaves_setStager _ _ h0) (Leaves.after
    (leaves_setHead _ h _ (.inl cu) (.inr ⟨rfl, rfl, rfl⟩) (.inr ⟨rfl, rfl, rfl, rfl⟩) (.inr rfl) (.inr rfl) (.inr rfl)
      (.inr rfl)) (Leaves.after (leaves_withdrawClaim _ _ _ cl) ?_)))
  split
  · exact leaves_unstage _ _ h0 h1 h2
  · exact Leaves.refl _ s

theorem leaves_holdHeads {c : List Area} (s : State) (p : Word) (x : ∀ h ∈ headSet p, examAreas h ⊆ c)
    (y : ∀ h ∈ headSet p, .freeze h ∈ c) : Leaves c s (s.holdHeads p) := by
  unfold State.holdHeads
  exact Leaves.after (leaves_recheckBoth _ _ _ fun h m => x h (List.mem_filter.mp m).1)
    (Leaves.forEach _ _ s fun h m u => leaves_setFreeze u h _ (y h (List.mem_filter.mp m).1))

theorem leaves_thawHeads {c : List Area} (s : State) (p : Word) (order : List Recheck)
    (x : ∀ h ∈ headSet p, examAreas h ⊆ c) (y : ∀ h ∈ headSet p, .freeze h ∈ c) :
    Leaves c s (s.thawHeads p order) := by
  unfold State.thawHeads
  exact Leaves.after (leaves_recheckBoth _ _ _ fun h m => x h (List.mem_filter.mp (List.mem_filter.mp m).1).1)
    (Leaves.forEach _ _ s fun h m u => leaves_setFreeze u h _ (y h (List.mem_filter.mp m).1))

end Sys2Proof.Machine
end

