-- ==== Sys2Proof/Tests/Slice0.lean ====
section
/-! SUPPORT. Tests/Slice0.lean: the model's own tests, each of one step on a small state, and for every statement of the obligations
with hypotheses a theorem witness_<Name> that meets them, at the ends of their ranges. -/
namespace Sys2Proof.Tests
set_option Elab.async false
open Sys2Proof Sys2Proof.Machine

/-! ## Well-formedness: an ill-formed command for each check, refused -/

theorem test_wf_order_hostWrite :
    Instr.wf (.hostWrite 0x13000 15 0 [.candidate 0, .candidate 0]) = false := by decide
theorem test_wf_order_fire : Instr.wf (.fire 0 [.pendingMove 1, .pendingMove 1]) = false := by decide
theorem test_wf_order_thaw : Instr.wf (.thaw 0 [.candidate 1, .candidate 1]) = false := by decide
theorem test_wf_order_resume : Instr.wf (.resume 0 [.candidate 1, .candidate 1]) = false := by decide
theorem test_wf_order_tally : Instr.wf (.tallyChange 0 true [.candidate 0, .candidate 0]) = false := by decide
theorem test_wf_order_restore : Instr.wf (.restoreReadEnd false [.candidate 0, .candidate 0]) = false := by decide
theorem test_wf_order_timeout : Instr.wf (.zoneTimeout [.candidate 0, .candidate 0]) = false := by decide
theorem test_wf_fmark_order : Instr.wf (.fmark [.fetcher, .fetcher] [] []) = false := by decide
theorem test_wf_fmark_later_twice : Instr.wf (.fmark [] [.headUnit 0, .headUnit 0] []) = false := by decide
theorem test_wf_fmark_not_deferrable : Instr.wf (.fmark [] [.moveEngine] []) = false := by decide
theorem test_wf_fmark_losses : Instr.wf (.fmark [] [] [.candidate 2, .candidate 2]) = false := by decide
theorem test_wf_cut_too_long : Instr.wf (.resetNAsserted ⟨16, 0⟩) = false := by decide
theorem test_wf_cut_err_unanswered : Instr.wf (.powerOn ⟨3, 8⟩ 0 false) = false := by decide
theorem test_wf_good :
    Instr.wf (.fmark [.fetcher] [.headUnit 0, .zoneArbiter] [.candidate 2]) && Instr.wf (.powerOn ⟨15, 0x4000⟩ 0 true) = true := by
  decide

/-! ## Small states -/

/-- The state after one command. -/
def after (c : Instr) (s : State) : State :=
  match exec c s with
  | .next t => t
  | .fault _ => s
  | .refused _ => s

/-- A pose with one value on every axis. -/
def flat (w : Word) : Pose := ⟨w, w, w, w, w, w, w⟩

/-- Head 0 is a PED head, every other head FIXED; every head MANAGED; limits -1000 to 1000. -/
def tables : Tables :=
  { valid := true,
    heads := (Vector.replicate 12 (⟨.fixed, .managed, flat (-1000), flat 1000, flat 10, flat 5, 0⟩ : HeadRec)).set 0
      ⟨.ped, .managed, flat (-1000), flat 1000, flat 10, flat 5, 1⟩,
    levels := Vector.replicate 4 ⟨100, 50, true, true⟩, curves := Vector.replicate 15 none }

/-- RUNNING, every head in REST, nothing queued, no request. -/
def live : State :=
  { State.reset with mode := .running, waiting := [], status := StatusWriter.reset, tables := tables,
                     heads := Vector.replicate 12 { Head.reset false with state := .rest } }

/-- A change of head 0. -/
def at0 (s : State) (f : Head → Head) : State := s.setHead 0 f

/-- A wanted transfer in progress. -/
def granted (s : State) (x : Xfer) : State := { s with grant := some ⟨x, false, false⟩ }

/-- Memory with some words written. -/
def withWords (s : State) (a : Nat) (ws : List Word) : State := { s with mem := s.mem.writeWords a ws }

/-- The reference of the direct cue of shot 3. -/
def ref3 : CueRef := ⟨.direct, 3, some .ped⟩

/-- A move of head 0 at level SET, one of four frames done, with stand zone 1 and path zone 2. -/
def mv : MoveRec := ⟨flat 0, flat 40, 0, 4, 1, .set, ref3, 2, 4, false⟩

/-- Head 0 is MOVING. -/
def moving : State := at0 live fun hd => { hd with state := .moving, move := some mv, levels := 2 }

/-- DRAINING, with the move of head 0. -/
def draining : State := { moving with mode := .draining }

/-- LOADING before its first read has ended. -/
def loading : State := { live with mode := .loading, loader := { Loader.idle with next := some (.headLow 0) } }

/-- A direct cue of shot 1 at level LIVE. -/
def dcue : Cue := moveCue (BitVec.ofNat 32 (0 + 2 * 16 + 1 * 1024 + 20 * 2 ^ 18))

/-- A staged rundown cue of index i, of a kind. -/
def rcue (i : Nat) (k : StartKind) (released : Bool) : Cue :=
  { origin := .rundown .a i, shot := 1, level := .set, curve := 0, dur := 9, kind := k, stepEnd := false,
    stage := .staged (.head 1 1 1 1), released := released, countdown := if released then some 1 else none }

/-- Head 0 with a released, staged cue of its queue, and an unreleased one behind it. -/
def ready0 (s : State) (k : StartKind) (f : Freeze) : State :=
  at0 s fun hd => { hd with queue := [rcue 0 k true, rcue 1 .step false], freeze := f }

/-- A rundown of four entries of which two have been fetched; head 0 has them queued. -/
def rundown : State :=
  at0 { live with fetcher := ⟨.idle, .a, 4, 2, 0, none, false, [], none⟩ } fun hd =>
    { hd with queue := [rcue 0 .step false, rcue 1 .chain false], gate := some .fire }

/-- The head's cues only, to be flushed. -/
def queued : State := { rundown with stager := ⟨[⟨0, some 1⟩], some ⟨0, some 0⟩⟩ }

/-! ## Tests of single commands -/

theorem test_hostWrite_tables_refused : (after (.hostWrite 0x10800 15 1 []) live).near.answer = some .err := by decide +kernel
theorem test_hostWrite_plain_passes :
    ((after (.hostWrite 0x20000 15 1 []) live).waiting.map fun q => q.xfer) = [.host, .status 0 .first] := by decide +kernel
theorem test_hostRead : (after (.hostRead 0x14000) live).near.op = some ⟨false, 0x14000, 15, 0, none⟩ := by decide +kernel
theorem test_hostTransferEnd_lanes :
    (after (.hostTransferEnd false)
      { granted live .host with near := ⟨some ⟨true, 0x20002, 5, 0x44332211, none⟩, false, none, none⟩ }).mem
      = [(0x20000, 0x11), (0x20002, 0x33)] := by decide +kernel
theorem test_farPortGrant_class :
    (after (.farPortGrant none) { live with waiting := [⟨.stage 1, false, 0⟩, ⟨.host, false, 3⟩] }).grant
      = some ⟨.host, false, false⟩ := by decide +kernel
theorem test_farPortGrant_first :
    (after (.farPortGrant (some .fetcher)) { live with waiting := [⟨.stage 1, false, 0⟩, ⟨.entry .a 0, false, 0⟩] }).grant
      = some ⟨.entry .a 0, false, false⟩ := by decide +kernel
theorem test_start : (after (.start 0) State.reset).mode = .loading := by decide +kernel
theorem test_stop : (after (.stop 0) live).mode = .halted := by decide +kernel
theorem test_reset : (after (.reset 0) moving).cause = .command := by decide +kernel
theorem test_fire : (after (.fire 0xFFFF []) rundown).fetcher = ⟨.reading, .a, 4, 2, 2, some 0, true, [], none⟩ := by decide +kernel
theorem test_cut_flushes : ((after (.cut 3) rundown).head 0).queue = [] := by decide +kernel
theorem test_swap : (after (.swap 2) rundown).fetcher.startIndex = some 2 := by decide +kernel
theorem test_move : ((after (.move 0x00500420) live).head 0).direct.map Cue.dur = some 20 := by decide +kernel
theorem test_hold : ((after (.hold 1) moving).head 0).freeze = ⟨true, false, false⟩ := by decide +kernel
theorem test_thaw :
    ((after (.thaw 1 []) (at0 moving fun hd => { hd with freeze := ⟨true, false, true⟩ })).head 0).freeze = ⟨false, false, true⟩ := by
  decide +kernel
theorem test_resume : (after (.resume 0 []) { live with floorStop := .latched }).floorStop = .clear := by decide +kernel
theorem test_levelEnd : ((after (.levelEnd 0) (at0 live fun hd => { hd with levels := 6 })).head 0).levels = 2 := by decide +kernel
theorem test_clearFault :
    (after (.clearFault 31) { live with status := { live.status with partFault := some ⟨.memory, 3, none, none, 0, false⟩,
                                                                     attn := true } }).status.attn = false := by decide +kernel
theorem test_mode_off : ((after (.mode 0x20) live).head 0).state = .off := by decide +kernel
theorem test_fmark_advances : ((after (.fmark [] [] []) moving).head 0).move.map MoveRec.k = some 2 := by decide +kernel
theorem test_fmark_pose : ((after (.fmark [] [] []) moving).head 0).pose = flat 20 := by decide +kernel
theorem test_offsetCountdownExpiry :
    ((after (.offsetCountdownExpiry 0)
      (at0 { live with due := [.headUnit 0] } fun hd => { hd with queue := [rcue 0 (.offset 1) true] })).head 0).state = .moving := by decide +kernel
theorem test_zoneTimeout :
    (after (.zoneTimeout []) { live with due := [.zoneArbiter], claims := [⟨0, .cue, .set, 2, 2⟩] }).claims
      = [⟨0, .cue, .set, 2, 1⟩] := by decide +kernel
theorem test_tallyChange : ((after (.tallyChange 0 true []) moving).head 0).freeze.air = true := by decide +kernel
theorem test_floorAsserted_ped : ((after .floorAsserted moving).head 0).freeze.floor = true := by decide +kernel
theorem test_floorAsserted_fixed : ((after .floorAsserted moving).head 1).freeze.floor = false := by decide +kernel
theorem test_floorReleased :
    (after .floorReleased { live with pins := { live.pins with floor := true }, floorStop := .active }).floorStop = .latched := by
  decide +kernel
theorem test_powerOn_cut :
    ((after (.powerOn ⟨1, 0⟩ 0 true) (granted moving (.pageWrite 0 .a 7 (flat 9)))).mem, (after (.powerOn ⟨1, 0⟩ 0 true) moving).floorStop)
      = ([(0x16020, 7)], .active) := by decide +kernel
theorem test_resetNAsserted : (after (.resetNAsserted ⟨0, 0⟩) moving).cause = .line := by decide +kernel
theorem test_resetNReleased_cut_op :
    (after .resetNReleased { State.reset with pins := { State.reset.pins with resetN := true },
                                              near := ⟨some ⟨true, 4, 15, 1, none⟩, true, none, none⟩ }).near.answer = some .err := by
  decide +kernel
theorem test_powerOnResetEnd :
    ((after .powerOnResetEnd { State.reset with
      pins := { State.reset.pins with powerReset := true }, waiting := [], status := StatusWriter.reset }).waiting.map fun q => q.xfer) = [.status 0 .first] := by decide +kernel
theorem test_tableReadEnd_bad_head :
    (after (.tableReadEnd 0) (granted loading (.table (.headHigh 0)))).startResult = .headTable := by decide +kernel
theorem test_entryReadEnd_hand_on :
    ((after (.entryReadEnd false) (withWords (granted rundown (.entry .a 2)) 0x11030 [0x00010221, 0x00030009])).head 1).queue
      = [{ rcue 2 (.offset 3) false with stage := .staging }] := by decide +kernel
theorem test_heldEntryExamination :
    (after .heldEntryExamination { rundown with fetcher := { rundown.fetcher with
      state := .holding ⟨1, { rcue 2 .step false with stage := .staging }⟩ } }).fetcher.fetch = 3 := by decide +kernel
theorem test_headerReadEnd_count :
    (after (.headerReadEnd false) (withWords (granted rundown (.header .a)) 0x11000 [1])).fetcher.count = 1 := by decide +kernel
theorem test_stageReadEnd_blank :
    ((after (.stageReadEnd false) { granted (at0 live fun hd => { hd with direct := some dcue }) (.stage 1) with
      stager := ⟨[], some ⟨0, none⟩⟩ }).status.headFaults[0]).map HeadFault.kind = some .blankShot := by decide +kernel
theorem test_adoptionReadEnd :
    (after (.adoptionReadEnd false) { granted (at0 live fun hd => { hd with state := .adopting }) (.adoptPointer 0) with
      adopter := ⟨[0], none⟩ }).adopter.page = some .a := by decide +kernel
theorem test_pageWriteEnd :
    (after (.pageWriteEnd 0) { granted moving (.pageWrite 0 .b 2 (flat 1)) with
      pageJobs := [⟨0, 2, flat 1, .frame, .page .b⟩] }).mem.readWords 0x16040 3 = [2, 1, 1] := by decide +kernel
theorem test_pointerWriteEnd :
    ((after (.pointerWriteEnd false) { granted moving (.pointerWrite 0 .b) with
      pageJobs := [⟨0, 2, flat 1, .frame, .pointer .b⟩] }).head 0).pointer = .known .b := by decide +kernel
theorem test_pointerCheckReadEnd :
    ((after (.pointerCheckReadEnd false) (withWords { granted moving (.pageCheck 0) with
      pageJobs := [⟨0, 2, flat 1, .frame, .check⟩] } 0x16000 [1])).head 0).pointer = .known .b := by decide +kernel
theorem test_saveTransferEnd_tag :
    (after (.saveTransferEnd 0) { granted live (.save 0 mv.saved) with
      saver := [⟨.save mv.saved, 0, .set, ref3, false⟩] }).mem.readWord 0x1507C = 0x5A7E0002 := by decide +kernel
theorem test_restoreReadEnd_lost :
    ((after (.restoreReadEnd false []) { granted (at0 live fun hd => { hd with state := .restoring, levels := 2 }) (.restore 0 .set) with
      saver := [⟨.restore, 0, .set, ref3, false⟩] }).head 0).levels = 0 := by decide +kernel
theorem test_emptyTagWriteEnd :
    (after (.emptyTagWriteEnd false) (withWords { granted live (.emptyTag 0 .set) with
      saver := [⟨.emptyTag, 0, .set, ref3, false⟩] } 0x1507C [0x5A7E0002])).mem = [] := by decide +kernel
theorem test_statusTransferEnd :
    (after (.statusTransferEnd 0) { granted live (.status 0 .first) with
      status := { live.status with job := some ⟨0, List.replicate 16 3, false⟩ } }).mem.readWord 0x1403C = 3 := by decide +kernel

/-! ## Witnesses of the hypotheses of the obligations -/

/-- No change of part mode is due, as a test. -/
def settledTest (s : State) : Bool := s.loaded.isNone && !(decide (s.mode = .draining) && s.drained)

/-- The premises of an arrival, as a test. -/
def readyTest (s : State) : Bool := s.near.op.isNone && s.near.held.isNone && !s.inReset && settledTest s

theorem settled_of {s : State} (h : settledTest s = true) : s.settled := by
  unfold settledTest at h
  simp only [Bool.and_eq_true, Option.isNone_iff_eq_none, Bool.not_eq_true', Bool.and_eq_false_iff, decide_eq_false_iff_not] at h
  refine ⟨h.1, fun hd => ?_⟩
  rcases h.2 with h2 | h2
  · exact h2 hd.1
  · rw [hd.2] at h2; cases h2

theorem ready_of {s : State} (h : readyTest s = true) : s.Ready := by
  unfold readyTest at h
  simp only [Bool.and_eq_true, Option.isNone_iff_eq_none, Bool.not_eq_true'] at h
  exact ⟨h.1.1.1, h.1.1.2, h.1.2, settled_of h.2⟩

/-- The gates of a candidate, as a test. -/
def gatesTest (u : State) (h : HeadId) (c : Cue) (copy : ShotCopy) : Bool :=
  decide ((u.head h).candidate = some c)
    && decide (c.stage = .staged copy) && c.released && decide (c.kind = .chain → (u.head h).state = .rest)
    && (decide (c.kind = .step) || decide (c.kind = .chain) || decide (c.countdown = some 0))
    && decide ((u.head h).freeze.any = false)
    && decide ((u.head h).onAir = false ∨ (u.levelRec c.level).mayStartOnAir = true) && decide (u.claimOf h .cue = none)

theorem gates_of {u : State} {h : HeadId} {c : Cue} {copy : ShotCopy} (t : gatesTest u h c copy = true) :
    PassesGates u h c copy := by
  unfold gatesTest at t
  simp only [Bool.and_eq_true, Bool.or_eq_true, decide_eq_true_eq] at t
  obtain ⟨⟨⟨⟨⟨⟨⟨h1, h3⟩, h4⟩, h5⟩, h6⟩, h7⟩, h8⟩, h9⟩ := t
  refine ⟨h1, h3, h4, h5, fun n hn => ?_, h7, h8, h9⟩
  rcases h6 with (h6 | h6) | h6
  · rw [hn] at h6; cases h6
  · rw [hn] at h6; cases h6
  · exact h6

/-- The cue behind the candidate, if any, waits at STAGING or FIRE, as a test. -/
def behindTest (hd : Head) : Bool := (cuesInOrder hd)[1]?.all fun q => decide (q.copy = none) || decide (q.released = false)

theorem behind_of {hd : Head} (t : behindTest hd = true) : ∀ q, (cuesInOrder hd)[1]? = some q → early q := by
  intro q hq
  unfold behindTest at t
  rw [hq] at t
  simpa only [Option.all_some, Bool.or_eq_true, decide_eq_true_eq, early] using t

theorem witness_StepTakesFrontCommand : State.reset.pending = [] := by decide

/-- Whether the candidate of a head, if any, fails a gate of STAGING to SAVE. -/
def heldTest (u : State) (h : HeadId) : Bool :=
  match (u.head h).candidate with
  | none => true
  | some q => (u.gateOf h q).isSome

theorem held_of {u : State} {h : HeadId} (ht : heldTest u h = true) : u.Held h := by
  intro q hq hg
  simp only [heldTest, hq, hg, Option.isSome_none, Bool.false_eq_true] at ht

/-- A step with an effect from a state that keeps each law: head 0 advances in an FMARK. -/
def stepping : State := { moving with pending := [.fmark [] [] []] }

/-- A step that raises a fault: a MOVING head with a page job left, in an FMARK. -/
def overrunning : State := { stepping with pageJobs := [⟨0, 0, flat 1, .frame, .notBegun⟩] }

theorem witness_StepKeepsMemoryCanonical :
    ({ granted live (.pointerWrite 0 .b) with pending := [.pointerWriteEnd false] } : State).memoryOk
    ∧ ∃ t, step { granted live (.pointerWrite 0 .b) with pending := [.pointerWriteEnd false] } = .next t
      ∧ t.mem = [(0x16000, 1)] := ⟨by unfold State.memoryOk; decide +kernel, _, rfl, by decide +kernel⟩

theorem witness_StepKeepsAttnLaw :
    live.pins.resetN = false ∧ live.near.op = none ∧ live.near.held = none ∧ live.inReset = false ∧ overrunning.attnOk ∧ ∃ t, step overrunning = .next t ∧ t.status.attn = true :=
  ⟨by decide +kernel, by decide +kernel, by decide +kernel, by decide +kernel, by unfold State.attnOk; decide +kernel, _, rfl,
    by decide +kernel⟩

theorem movesOk_stepping : stepping.movesOk := by
  intro h m hm
  have key : ∀ h : HeadId, (stepping.head h).move = none ∨ (stepping.head h).move = some mv := by decide +kernel
  rcases key h with hk | hk
  · rw [hk] at hm; cases hm
  · rw [hk] at hm; cases hm; decide

theorem witness_StepKeepsMoveRecordLaw :
    stepping.movesOk ∧ ∃ t, step stepping = .next t ∧ (t.head 0).move.map MoveRec.k = some 2 :=
  ⟨movesOk_stepping, _, rfl, by decide +kernel⟩

/-- Head 1 has four cues, and the entry read that ends gives it a fifth. -/
def full : State :=
  { withWords (granted (rundown.setHead 1 fun hd =>
      { hd with queue := [rcue 4 .step false, rcue 5 .step false, rcue 6 .step false, rcue 7 .step false] }) (.entry .a 2)) 0x11030
      [0x00010021, 9] with
    pending := [.entryReadEnd false] }

theorem witness_StepKeepsQueueBound :
    full.queuesOk ∧ ∃ t, step full = .next t ∧ (t.head 1).queue.length = 4 ∧ t.fetcher.isHolding = true :=
  ⟨by unfold State.queuesOk; decide +kernel, _, rfl, by decide +kernel, by decide +kernel⟩

theorem witness_StepLeavesNoChangeDue :
    ({ live with pending := [.stop 0] } : State).settled
    ∧ ∃ t, step { live with pending := [.stop 0] } = .next t ∧ t.mode = .halted :=
  ⟨settled_of (by decide +kernel), _, rfl, by decide +kernel⟩

/-- A host read in progress. -/
def reading : State := { granted live .host with near := ⟨some ⟨false, 0x14000, 15, 0, none⟩, false, none, none⟩ }

theorem witness_HostReadPasses :
    live.Ready ∧ reading.grants .host ∧ reading.near.op = some ⟨false, 0x14000, 15, 0, none⟩ ∧ reading.settled :=
  ⟨ready_of (by decide +kernel), by unfold State.grants; decide +kernel, by decide +kernel, settled_of (by decide +kernel)⟩

theorem witness_HostWritesAreRefusedOrForwarded :
    live.Ready ∧ State.reset.Ready ∧ loading.Ready
    ∧ windowRefuses State.reset 0x14000 ∧ windowRefuses State.reset 0x146FC ∧ ¬ windowRefuses State.reset 0x14700
    ∧ windowRefuses State.reset 0x15000 ∧ windowRefuses State.reset 0x15BFC ∧ ¬ windowRefuses State.reset 0x15C00
    ∧ windowRefuses live 0x10000 ∧ windowRefuses live 0x10E3C ∧ ¬ windowRefuses live 0x10E40 ∧ ¬ windowRefuses State.reset 0x10000
    ∧ windowRefuses loading 0x16000 ∧ windowRefuses loading 0x165FC ∧ ¬ windowRefuses loading 0x16600
    ∧ windowRefuses live 0x16000 ∧ windowRefuses live 0x165FC ∧ ¬ windowRefuses live 0x16600
    ∧ ¬ windowRefuses (at0 live fun hd => { hd with state := .direct }) 0x1607C :=
  ⟨ready_of (by decide +kernel), ready_of (by decide +kernel), ready_of (by decide +kernel), by
    refine ⟨?_, ?_, ?_, ?_, ?_, ?_, ?_, ?_, ?_, ?_, ?_, ?_, ?_, ?_, ?_, ?_, ?_⟩ <;> (unfold windowRefuses; decide +kernel)⟩

theorem witness_BusyNearPortTakesNoNotice :
    reading.near.op ≠ none ∧ ({ State.reset with near := ⟨none, false, some ⟨false, 0, 15, 0, none⟩, none⟩ } : State).near.held ≠ none
    ∧ commandOf 0 5 [] = some (.start 5) ∧ commandOf 12 5 [] = some (.mode 5) := by decide +kernel

/-- A host write in progress, without a snoop notice. -/
def writing : State := { granted live .host with near := ⟨some ⟨true, 0xFFFFF, 6, 0x44332211, none⟩, false, none, none⟩ }

theorem witness_HostWriteEnds :
    writing.grants .host ∧ (∃ op, writing.near.op = some op ∧ op.write = true ∧ op.notice = none) ∧ writing.memoryOk
    ∧ writing.settled :=
  ⟨by unfold State.grants; decide +kernel, ⟨_, rfl, by decide, by decide⟩, by unfold State.memoryOk; decide +kernel,
    settled_of (by decide +kernel)⟩

/-- A host write in progress, with a snoop notice. -/
def noticing (s : State) (n : Notice) : State :=
  { granted s .host with near := ⟨some ⟨true, 0x100, 15, 0x44332211, some n⟩, false, none, none⟩ }

/-- Head 0 waits for a zone with a staged direct cue of shot 1. -/
def zoneWaiting : State :=
  at0 { live with claims := [⟨0, .cue, .live, 2, 9⟩] } fun hd =>
    { hd with direct := some { dcue with stage := .staged (.head 1 1 1 1) }, gate := some .zone }

theorem witness_HostWriteEnds_shot :
    (∀ (s : State) (n : Notice), (noticing s n).grants .host) ∧ (noticing zoneWaiting (.shot 1)).memoryOk
    ∧ (noticing zoneWaiting (.shot 1)).settled
    ∧ (zoneWaiting.head 0).candidate = some { dcue with stage := .staged (.head 1 1 1 1) } ∧ dcue.shot = 1
    ∧ zoneWaiting.claimOf 0 .cue ≠ none ∧ ((after (.hostTransferEnd true) (noticing zoneWaiting (.shot 1))).head 0).gate = some .staging :=
  ⟨fun _ _ => rfl, by unfold State.memoryOk; decide +kernel, settled_of (by decide +kernel), by decide +kernel⟩

/-- The fetcher reads the header. -/
def headerOut : State :=
  { queued with fetcher := { queued.fetcher with state := .header }, waiting := [⟨.header .a, false, 0⟩] }

/-- An FMARK has made the fetcher's failed header request again (R64), and it waits. -/
def headerAgain : State :=
  { queued with fetcher := { queued.fetcher with state := .headerRetried }, waiting := [⟨.header .a, false, 0⟩] }

/-- The header request made again has been granted. -/
def headerAgainGranted : State :=
  { granted queued (.header .a) with fetcher := { queued.fetcher with state := .headerRetried } }

/-- R72, last row: the CUT withdraws the retry request, and entry 3 is asked for. -/
theorem test_cut_withdraws_retry :
    ((after (.cut 3) headerAgain).waiting.map Request.xfer).filter (fun x => decide (x.client = .fetcher)) = [.entry .a 3] := by
  decide +kernel

/-- R67: a header read that has been granted goes on. -/
theorem test_cut_keeps_granted_header :
    (after (.cut 3) headerAgainGranted).grant = some ⟨.header .a, false, false⟩ := by decide +kernel

/-- R72, last row: a header notice withdraws the retry request and makes its own (R64). -/
theorem test_headerNotice_withdraws_retry :
    (after (.hostTransferEnd false) (noticing headerAgain .header)).fetcher.state = .header
    ∧ ((after (.hostTransferEnd false) (noticing headerAgain .header)).waiting.map Request.xfer).filter
        (fun x => decide (x.client = .fetcher)) = [.header .a] := by decide +kernel

/-- LOADING with a count held, and the table loader's reads of step 6 going on. -/
def counted : State := { loading with loader := { Loader.idle with next := some (.adoptPointer 0), count := some 4 } }

theorem witness_HostWriteEnds_header :
    (noticing queued .header).settled ∧ queued.mode = .running ∧ ¬ headerStands (noticing queued .header) ∧ queued.inReset = false
    ∧ (∀ q ∈ queued.waiting, q.letRun = false) ∧ (noticing headerOut .header).settled ∧ headerStands (noticing headerOut .header)
    ∧ (noticing counted .header).settled ∧ counted.mode = .loading ∧ counted.loader.count ≠ none ∧ counted.headerReadOut = false
    ∧ (noticing State.reset .header).settled ∧ (noticing draining .header).settled :=
  ⟨settled_of (by decide +kernel), by decide +kernel, by unfold headerStands; decide +kernel, by decide +kernel, by decide +kernel,
    settled_of (by decide +kernel), by unfold headerStands; decide +kernel, settled_of (by decide +kernel), by decide +kernel,
    by decide +kernel, by decide +kernel, settled_of (by decide +kernel), settled_of (by decide +kernel)⟩

/-- A retry request that waits does not stand against a header notice or an entry notice, and nothing else keeps the fetcher. -/
theorem witness_HostWriteEnds_retry :
    (noticing headerAgain .header).settled ∧ (noticing headerAgain (.entry 1)).settled ∧ headerAgain.mode = .running
    ∧ ¬ headerStands (noticing headerAgain .header) ∧ ¬ headerStands (noticing headerAgain (.entry 1))
    ∧ fetcherFree (noticing headerAgain .header) ∧ headerAgain.fetcher.next ≤ 1 ∧ 1 < headerAgain.fetcher.fetch
    ∧ headerAgain.fetcher.next < headerAgain.fetcher.count :=
  ⟨settled_of (by decide +kernel), settled_of (by decide +kernel), by decide +kernel, by unfold headerStands; decide +kernel,
    by unfold headerStands; decide +kernel, by unfold fetcherFree; decide +kernel, by decide +kernel⟩

/-- The fetcher holds entry 2, and the queue of its head has room. -/
def heldBack : State :=
  { rundown with fetcher := { rundown.fetcher with state := .holding ⟨0, { rcue 2 .step false with stage := .staging }⟩ } }

theorem witness_HostWriteEnds_entry :
    (noticing queued (.entry 0)).settled ∧ queued.mode = .running ∧ queued.fetcher.next ≤ 0 ∧ 0 < queued.fetcher.fetch
    ∧ queued.fetcher.next ≤ 1 ∧ 1 < queued.fetcher.fetch ∧ ¬ headerStands (noticing queued (.entry 0))
    ∧ queued.fetcher.next < queued.fetcher.count ∧ (noticing headerOut (.entry 1)).settled
    ∧ (noticing heldBack (.entry 2)).settled ∧ 2 = heldBack.fetcher.fetch ∧ heldBack.fetcher.isHolding = true
    ∧ heldBack.inReset = false ∧ heldBack.busy .fetcher = false ∧ 2 < heldBack.fetcher.count
    ∧ (noticing rundown (.entry 2)).settled ∧ rundown.fetcher.isHolding = false ∧ keptCues queued 0 0 = []
    ∧ keptCues queued 1 0 = [rcue 0 .step false] :=
  ⟨settled_of (by decide +kernel), by decide +kernel, by decide +kernel, by decide +kernel, by decide +kernel, by decide +kernel,
    by unfold headerStands; decide +kernel, by decide +kernel, settled_of (by decide +kernel), settled_of (by decide +kernel), by decide +kernel,
    by decide +kernel, by decide +kernel, by decide +kernel, by decide +kernel, settled_of (by decide +kernel), by decide +kernel,
    by decide +kernel, by decide +kernel⟩

theorem witness_GrantGoesToLowestClass :
    State.reset.grant = none ∧ State.reset.inReset = false ∧ State.reset.waiting ≠ [] ∧ State.reset.settled
    ∧ State.reset.waiting = [⟨.status 0 .first, false, 0⟩] :=
  ⟨by decide, by decide +kernel, by decide, settled_of (by decide +kernel), by decide⟩

theorem witness_CommandIsItsSlotWrite :
    commandOf 0 1 [] = some (.start 1) ∧ commandOf 3 1 [.candidate 0] = some (.fire 1 [.candidate 0])
    ∧ commandOf 12 1 [] = some (.mode 1) := by decide

theorem witness_PartialAndUnnamedSlotsAreRefused :
    live.Ready ∧ ((14 : BitVec 4) ≠ 15 ∨ 13 ≤ (0 : Fin 16).val) ∧ ((15 : BitVec 4) ≠ 15 ∨ 13 ≤ (13 : Fin 16).val)
    ∧ ((15 : BitVec 4) ≠ 15 ∨ 13 ≤ (15 : Fin 16).val) := ⟨ready_of (by decide +kernel), by decide⟩

theorem witness_CommandsAreRefusedByMode :
    State.reset.Ready ∧ State.reset.mode ∉ modesOf 1 ∧ State.reset.mode ∉ modesOf 12 ∧ live.Ready ∧ live.mode ∉ modesOf 0
    ∧ loading.Ready ∧ loading.mode ∉ modesOf 7 ∧ draining.Ready ∧ draining.mode ∉ modesOf 6 :=
  ⟨ready_of (by decide +kernel), by decide, by decide, ready_of (by decide +kernel), by decide, ready_of (by decide +kernel), by decide,
    ready_of (by decide +kernel), by decide +kernel⟩

/-- FIRE_OPEN is set. -/
def opened : State := { rundown with fetcher := ⟨.idle, .a, 4, 2, 2, none, true, [], none⟩ }

/-- NEXT is at the count. -/
def ended : State := { rundown with fetcher := ⟨.idle, .a, 4, 4, 4, none, false, [], none⟩ }

theorem witness_FireIsJudged :
    rundown.Ready ∧ rundown.mode = .running ∧ opened.Ready ∧ opened.mode = .running ∧ opened.fetcher.fireOpen = true
    ∧ ended.Ready ∧ ended.mode = .running ∧ ended.fetcher.fireOpen = false ∧ ended.fetcher.next = ended.fetcher.count
    ∧ rundown.fetcher.fireOpen = false ∧ rundown.fetcher.next ≠ rundown.fetcher.count
    ∧ ((1 : Word).toNat % 65536 ≠ 0xFFFF ∧ (1 : Word).toNat % 65536 ≠ rundown.fetcher.next)
    ∧ (0x10000 : Word).toNat % 65536 = rundown.fetcher.next ∧ (0xFFFF : Word).toNat % 65536 = 0xFFFF :=
  ⟨ready_of (by decide +kernel), by decide +kernel, ready_of (by decide +kernel), by decide +kernel, by decide +kernel,
    ready_of (by decide +kernel), by decide +kernel⟩

/-- Head 0 has left managed operation, and the EMPTY tag of its discarded SET move is being written. -/
def discarding (st : HeadState) : State :=
  { granted (at0 live fun hd => { hd with state := st }) (.emptyTag 0 .set) with saver := [⟨.emptyTag, 0, .set, ref3, false⟩] }

theorem witness_CommandsAreJudged :
    rundown.Ready ∧ (∀ k ∈ [1, 2, 4, 5, 6, 7, 8, 9, 10, 11, 12], rundown.mode ∈ modesOf k) ∧ State.reset.mode ∈ modesOf 0
    ∧ refusalOf rundown 4 4 = none ∧ refusalOf rundown 4 5 = some .range
    ∧ refusalOf rundown 6 11 = none ∧ refusalOf rundown 6 12 = some .range
    ∧ refusalOf rundown 9 0 = none ∧ refusalOf { rundown with floorStop := .active } 9 0 = some .floor
    ∧ refusalOf rundown 10 0 = some .range ∧ refusalOf moving 10 0 = some .busy ∧ refusalOf rundown 10 12 = some .range
    ∧ refusalOf rundown 11 11 = none ∧ refusalOf rundown 11 12 = some .range ∧ refusalOf rundown 11 30 = some .range
    ∧ refusalOf rundown 11 31 = none
    ∧ refusalOf rundown 12 0x20 = none ∧ refusalOf rundown 12 0x30 = some .range ∧ refusalOf moving 12 0x20 = some .busy
    ∧ refusalOf (discarding .off) 10 0 = some .busy ∧ refusalOf (discarding .direct) 10 0 = some .busy
    ∧ refusalOf { discarding .off with saver := [] } 10 0 = some .head :=
  ⟨ready_of (by decide +kernel), by decide +kernel⟩

theorem test_levelEnd_once_tags_are_written :
    (after (.levelEnd 0) { discarding .off with saver := [] }).lastRefusal = some ⟨10, .head, 0⟩ := by decide +kernel

theorem test_levelEnd_while_tags_are_written :
    (after (.levelEnd 0) (discarding .off)).lastRefusal = some ⟨10, .busy, 0⟩ := by decide +kernel

theorem witness_StartBeginsLoading :
    State.reset.Ready ∧ State.reset.mode = .halted ∧ State.reset.busy .loader = false ∧ State.reset.letRunActive = false :=
  ⟨ready_of (by decide +kernel), by decide +kernel⟩

/-- Head 0 MOVING at LIVE over a SET move whose save is being written. -/
def saving : State :=
  { granted (at0 moving fun hd => ({ hd with levels := 6 } : Head).setSlot .set (some ref3)) (.save 0 mv.saved) with
    saver := [⟨.save mv.saved, 0, .set, ref3, false⟩] }

theorem witness_StopDrains :
    moving.Ready ∧ moving.mode = .running ∧ (∃ h, (moving.head h).state = .moving) ∧ live.Ready ∧ live.mode = .running
    ∧ (∀ h, (live.head h).state ≠ .moving ∧ (live.head h).state ≠ .restoring ∧ ∀ l, (live.head h).slotRef l = none)
    ∧ live.saver = [] ∧ live.pageJobs = [] ∧ live.busy .pageWriter = false ∧ (after (.stop 0) live).mode = .halted
    ∧ saving.Ready ∧ saving.mode = .running ∧ (after (.stop 0) saving).mode = .draining
    ∧ ((after (.stop 0) saving).head 0).slotRef .set ≠ none := by
  have hl : ∀ h : HeadId, (live.head h).state ≠ .moving ∧ (live.head h).state ≠ .restoring
      ∧ ∀ l ∈ Level.all, (live.head h).slotRef l = none := by decide +kernel
  exact ⟨ready_of (by decide +kernel), by decide +kernel, ⟨0, by decide +kernel⟩, ready_of (by decide +kernel), by decide +kernel,
    fun h => ⟨(hl h).1, (hl h).2.1, fun l => (hl h).2.2 l (by cases l <;> decide)⟩, by decide +kernel, by decide +kernel,
    by decide +kernel, by decide +kernel, ready_of (by decide +kernel), by decide +kernel, by decide +kernel, by decide +kernel⟩

/-- Head 0 MOVING over saved moves: the PARK slot rests, the SET slot is being saved; head 1 has a candidate and a claim at ZONE, and a
pending restored move of head 2 waits for its claim. -/
def layered : State :=
  { ((at0 saving fun hd => ({ hd with levels := 7 } : Head).setSlot .park (some ref3)).setHead 1 fun hd =>
      { hd with direct := some { dcue with stage := .staged (.head 1 1 1 1) }, gate := some .zone }).setHead 2 fun hd =>
      { hd with state := .moving, move := some { mv with pending := true }, levels := 2 } with
    claims := [⟨1, .cue, .live, 2, 9⟩, ⟨2, .restore, .set, 2, 9⟩] }

theorem witness_StopDrains_saves :
    layered.Ready ∧ layered.mode = .running ∧ (after (.stop 0) layered).mode = .draining
    ∧ stopDiscards layered 0 .park = some ref3 ∧ stopDiscards layered 0 .set = none ∧ saveGranted layered 0 .set = true
    ∧ stopTags layered = [⟨.emptyTag, 0, .park, ref3, false⟩]
    ∧ (∀ j ∈ layered.saver, ∀ m, j.kind = .save m → m.level = j.level) ∧ (layered.head 1).candidate ≠ none
    ∧ (after (.stop 0) layered).claims = [⟨2, .restore, .set, 2, 9⟩]
    ∧ (after (.stop 0) layered).saver = [⟨.save mv.saved, 0, .set, ref3, true⟩, ⟨.emptyTag, 0, .park, ref3, false⟩]
    ∧ ((after (.stop 0) layered).head 0).levels = 6
    ∧ ((after (.stop 0) layered).head 2).move = some { mv with pending := true } := by
  refine ⟨ready_of (by decide +kernel), by decide +kernel, by decide +kernel, by decide +kernel, by decide +kernel, by decide +kernel,
    by decide +kernel, fun j hj m hm => ?_, by decide +kernel⟩
  rcases List.mem_singleton.mp hj with rfl
  cases hm; rfl

/-- Head 0 RESTORING at SET, over a saved PARK move. -/
def rereading : State :=
  at0 live fun hd => (({ hd with state := .restoring, levels := 3 } : Head).setSlot .set (some ref3)).setSlot .park (some ref3)

theorem witness_StopDrains_read :
    beingRead rereading 0 .set = true ∧ stopDiscards rereading 0 .set = none ∧ stopDiscards rereading 0 .park = some ref3
    ∧ rereading.Ready ∧ rereading.mode = .running ∧ (after (.stop 0) rereading).mode = .draining
    ∧ ((after (.stop 0) rereading).head 0).slotRef .set = some ref3 ∧ ((after (.stop 0) rereading).head 0).levels = 2 :=
  ⟨by decide +kernel, by decide +kernel, by decide +kernel, ready_of (by decide +kernel), by decide +kernel, by decide +kernel,
    by decide +kernel, by decide +kernel⟩

theorem witness_ResetCommandTakesEffect :
    saving.near.op = none ∧ saving.near.held = none ∧ saving.inReset = false ∧ saving.grant ≠ none := by decide +kernel

theorem witness_FireReleases :
    rundown.Ready ∧ rundown.mode = .running ∧ rundown.fetcher.fireOpen = false ∧ rundown.fetcher.next ≠ rundown.fetcher.count
    ∧ rundown.fetcher.stepEnds = [] ∧ (after (.fire 0xFFFF []) rundown).fetcher.next = 2
    ∧ (rundown.head 0).queue.map (releasedCue 2) ≠ (rundown.head 0).queue
    ∧ (rundown.head 1).queue.map (releasedCue 2) = (rundown.head 1).queue :=
  ⟨ready_of (by decide +kernel), by decide +kernel⟩

/-- The rundown with a step end at its first entry. -/
def stepped : State := { rundown with fetcher := ⟨.idle, .a, 4, 2, 0, none, false, [0], none⟩ }

theorem witness_FireReleases_step :
    stepped.Ready ∧ stepped.mode = .running ∧ stepped.fetcher.fireOpen = false ∧ stepped.fetcher.next ≠ stepped.fetcher.count
    ∧ ((after (.fire 0 []) stepped).head 0).queue = [rcue 1 .chain false] := ⟨ready_of (by decide +kernel), by decide +kernel⟩

theorem witness_CutFlushesAndSetsPointers :
    queued.Ready ∧ queued.mode = .running ∧ (0 : Word).toNat % 65536 ≤ queued.fetcher.count
    ∧ (4 : Word).toNat % 65536 ≤ queued.fetcher.count ∧ (4 : Word).toNat % 65536 = queued.fetcher.count
    ∧ ¬ headerStands queued ∧ queued.granted .fetcher = false ∧ (∀ q ∈ queued.waiting, q.letRun = false)
    ∧ (3 : Word).toNat % 65536 < queued.fetcher.count ∧ (queued.head 0).queue ≠ [] :=
  ⟨ready_of (by decide +kernel), by decide +kernel, by decide +kernel, by decide +kernel, by decide +kernel,
    by unfold headerStands; decide +kernel, by decide +kernel⟩

theorem witness_CutFlushesAndSetsPointers_header :
    headerOut.Ready ∧ headerStands headerOut ∧ headerAgainGranted.Ready ∧ headerStands headerAgainGranted
    ∧ headerAgainGranted.granted .fetcher = true ∧ headerAgain.Ready ∧ ¬ headerStands headerAgain
    ∧ headerAgain.granted .fetcher = false ∧ ∀ q ∈ headerAgain.waiting, q.letRun = false :=
  ⟨ready_of (by decide +kernel), by unfold headerStands; decide +kernel, ready_of (by decide +kernel),
    by unfold headerStands; decide +kernel, by decide +kernel, ready_of (by decide +kernel), by unfold headerStands; decide +kernel,
    by decide +kernel⟩

theorem witness_SwapChangesBank :
    queued.Ready ∧ queued.mode = .running ∧ queued.granted .fetcher = false ∧ ∀ q ∈ queued.waiting, q.letRun = false :=
  ⟨ready_of (by decide +kernel), by decide +kernel⟩

theorem witness_MovePlacesDirectCue :
    live.Ready ∧ live.mode = .running ∧ (0 : Word).toNat % 16 = (0 : HeadId).val ∧ (0xFB : Word).toNat % 16 = (11 : HeadId).val
    ∧ (live.head 0).state = .rest ∧ (live.head 0).direct = none ∧ moving.Ready ∧ (moving.head 0).state = .moving
    ∧ (at0 live fun hd => { hd with state := .restoring, direct := some dcue }).Ready
    ∧ ((at0 live fun hd => { hd with state := .restoring, direct := some dcue }).head 0).direct ≠ none :=
  ⟨ready_of (by decide +kernel), by decide +kernel, by decide, by decide, by decide +kernel, by decide +kernel,
    ready_of (by decide +kernel), by decide +kernel, ready_of (by decide +kernel), by decide +kernel⟩

/-- Head 0 waits for a zone, and its restored move waits too. -/
def claiming : State :=
  at0 { live with claims := [⟨0, .cue, .live, 2, 9⟩, ⟨0, .restore, .set, 6, 9⟩] } fun hd =>
    { hd with state := .moving, move := some { mv with pending := true }, levels := 2 }

theorem witness_HoldFreezes :
    claiming.Ready ∧ claiming.mode = .running ∧ draining.Ready ∧ draining.mode = .draining
    ∧ (1 : Word).getLsbD (0 : HeadId).val = true ∧ (claiming.head 0).freeze.hold = false ∧ claiming.claimOf 0 .cue ≠ none
    ∧ (claiming.head 0).move.any MoveRec.pending = true :=
  ⟨ready_of (by decide +kernel), by decide +kernel, ready_of (by decide +kernel), by decide +kernel⟩

/-- Head 0 has a pending restored move, frozen, that no zone and no tally holds back. -/
def frozenPending (f : Freeze) : State :=
  at0 live fun hd => { hd with state := .moving, move := some { mv with pending := true }, levels := 2, freeze := f }

theorem witness_ThawRemovesHold :
    (at0 moving fun hd => { hd with freeze := ⟨true, true, false⟩ }).Ready
    ∧ (at0 moving fun hd => { hd with freeze := ⟨true, true, false⟩ }).mode = .running ∧ draining.Ready ∧ draining.mode = .draining
    ∧ (after (.thaw 1 []) (at0 moving fun hd => { hd with freeze := ⟨true, true, false⟩ })).mode = .running :=
  ⟨ready_of (by decide +kernel), by decide +kernel, ready_of (by decide +kernel), by decide +kernel⟩

theorem witness_ThawRemovesHold_pending :
    (frozenPending ⟨true, false, false⟩).Ready ∧ (frozenPending ⟨true, false, false⟩).mode = .running
    ∧ (1 : Word).getLsbD (0 : HeadId).val = true ∧ PendingReady (frozenPending ⟨true, false, false⟩) 0 { mv with pending := true }
    ∧ (∀ g : HeadId, (1 : Word).getLsbD g.val = true → g = 0) ∧ ((frozenPending ⟨true, false, false⟩).head 0).onAir = false
    ∧ (after (.thaw 1 []) (frozenPending ⟨true, false, false⟩)).mode = .running := by
  refine ⟨ready_of (by decide +kernel), ?_, ?_, ⟨?_, ?_, ⟨?_, ?_⟩, ?_, ?_⟩, ?_, ?_, ?_⟩ <;> decide +kernel

theorem witness_FloorStopFollowsItsTable :
    live.pins.floor = false ∧ ({ live with pins := { live.pins with floor := true } } : State).pins.floor = true
    ∧ ({ live with pins := { live.pins with floor := true } } : State).settled
    ∧ live.Ready ∧ live.mode = .running ∧ ({ live with floorStop := .active } : State).Ready
    ∧ ({ live with floorStop := .latched } : State).Ready :=
  ⟨by decide +kernel, by decide +kernel, settled_of (by decide +kernel), ready_of (by decide +kernel), by decide +kernel,
    ready_of (by decide +kernel), ready_of (by decide +kernel)⟩

/-- The floor stop is LATCHED and head 0 frozen by it. -/
def latched : State := at0 { moving with floorStop := .latched } fun hd => { hd with freeze := ⟨true, true, true⟩ }

theorem witness_ResumeRemovesFloor :
    live.Ready ∧ live.floorStop = .clear ∧ latched.Ready ∧ latched.mode = .running ∧ latched.floorStop = .latched
    ∧ (after (.resume 0 []) latched).mode = latched.mode :=
  ⟨ready_of (by decide +kernel), by decide +kernel, ready_of (by decide +kernel), by decide +kernel⟩

theorem witness_ResumeRemovesFloor_pending :
    ({ frozenPending ⟨false, true, false⟩ with floorStop := .latched } : State).Ready
    ∧ PendingReady { frozenPending ⟨false, true, false⟩ with floorStop := .latched } 0 { mv with pending := true }
    ∧ (∀ g : HeadId, ((frozenPending ⟨false, true, false⟩).head g).freeze.floor = true → g = 0)
    ∧ ((frozenPending ⟨false, true, false⟩).levelRec mv.level).mayStartOnAir = true
    ∧ (after (.resume 0 []) { frozenPending ⟨false, true, false⟩ with floorStop := .latched }).mode = .running := by
  refine ⟨ready_of (by decide +kernel), ⟨?_, ?_, ⟨?_, ?_⟩, ?_, ?_⟩, ?_, ?_, ?_⟩ <;> decide +kernel

/-- Head 0 in REST at LIVE over an occupied slot of SET. -/
def overSaved : State := at0 live fun hd => ({ hd with levels := 6 } : Head).setSlot .set (some ref3)

theorem witness_LevelEndRevealsTheNextLevel :
    overSaved.Ready ∧ overSaved.mode = .running ∧ (overSaved.head 0).state = .rest ∧ overSaved.saveWriting 0 = false
    ∧ highest (overSaved.head 0).levels = some .live ∧ highest (levelDrop (overSaved.head 0).levels .live) = some .set
    ∧ (overSaved.head 0).slotRef .set = some ref3
    ∧ (at0 live fun hd => { hd with levels := 1 }).Ready
    ∧ highest ((at0 live fun hd => { hd with levels := 1 }).head 0).levels = some .park
    ∧ highest (levelDrop ((at0 live fun hd => { hd with levels := 1 }).head 0).levels .park) = none
    ∧ ((at0 live fun hd => { hd with levels := 1 }).head 0).queue = []
    ∧ ((at0 live fun hd => { hd with levels := 1 }).head 0).direct = none :=
  ⟨ready_of (by decide +kernel), by decide +kernel, by decide +kernel, by decide +kernel, by decide +kernel, by decide +kernel,
    by decide +kernel, ready_of (by decide +kernel), by decide +kernel⟩

theorem witness_LevelEndRevealsTheNextLevel_cue :
    (at0 overSaved fun hd => { hd with direct := some dcue }).Ready
    ∧ highest ((at0 overSaved fun hd => { hd with direct := some dcue }).head 0).levels = some .live
    ∧ ((at0 overSaved fun hd => { hd with direct := some dcue }).head 0).candidate = some dcue :=
  ⟨ready_of (by decide +kernel), by decide +kernel⟩

/-- Head 0 in REST at PARK alone, with an unreleased cue that waits at FIRE. -/
def waitingAtFire : State := at0 live fun hd => { hd with levels := 1, queue := [rcue 0 .step false], gate := some .fire }

theorem witness_LevelEndRevealsTheNextLevel_held :
    waitingAtFire.Ready ∧ highest (waitingAtFire.head 0).levels = some .park
    ∧ heldTest (waitingAtFire.setHead 0 fun hd => { hd with levels := levelDrop hd.levels .park }) 0 = true
    ∧ (waitingAtFire.head 0).candidate = some (rcue 0 .step false) ∧ highest (levelDrop (waitingAtFire.head 0).levels .park) = none
    ∧ ((after (.levelEnd 0) waitingAtFire).head 0).levels = 0 := ⟨ready_of (by decide +kernel), by decide +kernel⟩

/-- A head fault of head 11 and a part fault stand. -/
def faulty : State :=
  { live with status := { live.status with
      partFault := some ⟨.memory, 3, none, none, 0, false⟩, headFaults := live.status.headFaults.set 11 (some ⟨.limit, none, 0, true⟩),
      attn := true } }

theorem witness_ClearFaultEmptiesTheRecord :
    faulty.Ready ∧ (11 : Word).toNat % 32 = (11 : HeadId).val ∧ (0 : Word).toNat % 32 = (0 : HeadId).val
    ∧ faulty.status.headFaults[(11 : HeadId).val] ≠ none ∧ faulty.status.headFaults[(0 : HeadId).val] = none
    ∧ (31 : Word).toNat % 32 = 31 ∧ faulty.status.partFault ≠ none ∧ live.Ready ∧ live.status.partFault = none :=
  ⟨ready_of (by decide +kernel), by decide, by decide, by decide +kernel, by decide +kernel, by decide, by decide +kernel,
    ready_of (by decide +kernel), by decide +kernel⟩

/-- Head 0 in OFF, and head 1 in DIRECT. -/
def outside : State := (at0 live fun hd => { hd with state := .off }).setHead 1 fun hd => { hd with state := .direct }

theorem witness_ModeChangesHeadMode :
    overSaved.Ready ∧ overSaved.mode = .running ∧ (0x20 : Word).toNat % 16 = (0 : HeadId).val ∧ overSaved.saveWriting 0 = false
    ∧ (overSaved.head 0).state = .rest ∧ (0x20 : Word).toNat / 16 % 4 = 2 ∧ (0x10 : Word).toNat / 16 % 4 = 1
    ∧ (0x40 : Word).toNat / 16 % 4 = 0
    ∧ outside.Ready ∧ outside.mode = .running ∧ outside.saveWriting 0 = false ∧ (outside.head 0).state = .off
    ∧ (outside.head 1).state = .direct ∧ outside.adopter = ⟨[], none⟩ ∧ outside.busy .adopter = false :=
  ⟨ready_of (by decide +kernel), by decide +kernel, by decide, by decide +kernel, by decide +kernel, by decide, by decide, by decide,
    ready_of (by decide +kernel), by decide +kernel⟩

theorem witness_FmarkRaisesTheFrameNumber :
    State.reset.mode = .halted ∧ loading.mode = .loading ∧ moving.mode = .running ∧ draining.mode = .draining ∧ draining.due = []
    ∧ ({ moving with due := [.zoneArbiter] } : State).mode = .running := by decide +kernel

theorem witness_FmarkRaisesTheFrameNumber_retry :
    (∀ st ∈ [FetchState.retryEntry, .retryHeader],
      ({ rundown with fetcher := { rundown.fetcher with state := st } } : State).busy .fetcher = false)
    ∧ rundown.mode = .running ∧ rundown.inReset = false := by decide +kernel

theorem witness_MovingHeadsAdvance :
    moving.mode = .running ∧ moving.due = [] ∧ (moving.head 0).state = .moving ∧ (moving.head 0).move = some mv
    ∧ (moving.head 0).candidate.any Cue.expires = false ∧ mv.pending = false ∧ ¬ mv.dur ≤ mv.k
    ∧ (moving.head 0).freeze.any = false ∧ moving.pageJobs.any (fun j => decide (j.head = 0)) = false
    ∧ overrunning.pageJobs.any (fun j => decide (j.head = 0)) = true ∧ (overrunning.head 0).move = some mv
    ∧ (latched.head 0).freeze.any = true ∧ (latched.head 0).move = some mv
    ∧ ({ mv with k := 4 } : MoveRec).dur ≤ ({ mv with k := 4 } : MoveRec).k := by decide +kernel

/-- Head 0 MOVING, with a queued OFFSET cue at countdown 2 and a CUE claim with patience 2. -/
def movingQueued : State :=
  at0 { moving with claims := [⟨0, .cue, .set, 2, 2⟩] } fun hd =>
    { hd with queue := [{ rcue 0 (.offset 5) true with countdown := some 2 }] }

theorem witness_MovingHeadsAdvance_cues :
    movingQueued.mode = .running ∧ movingQueued.due = [] ∧ (movingQueued.head 0).state = .moving
    ∧ (movingQueued.head 0).move = some mv ∧ (movingQueued.head 0).candidate.any Cue.expires = false
    ∧ (∀ c ∈ movingQueued.claims, c.head = 0 → 1 < c.count) ∧ (movingQueued.head 0).freeze.any = false
    ∧ (movingQueued.head 0).queue.map Cue.countDown ≠ (movingQueued.head 0).queue
    ∧ (claiming.head 0).move = some { mv with pending := true } ∧ (claiming.head 0).state = .moving
    ∧ (claiming.head 0).candidate.any Cue.expires = false ∧ ∀ c ∈ claiming.claims, c.head = 0 → 1 < c.count := by decide +kernel

theorem witness_LastFrameReachesTarget : 1 ≤ ({ mv with dur := 1 } : MoveRec).dur := by decide

/-- Head 0 with an OFFSET cue at countdown 1 and level below its holding level, owing the FMARK. -/
def counting : State :=
  at0 { live with due := [.headUnit 0] } fun hd => { hd with queue := [rcue 0 (.offset 1) true], levels := 4 }

theorem witness_OffsetCountdownsFall :
    counting.mode = .running ∧ .headUnit 0 ∈ counting.due ∧ (counting.head 0).freeze.any = false
    ∧ (counting.head 0).queue = [rcue 0 (.offset 1) true] ∧ (counting.head 0).direct = none ∧ (rcue 0 (.offset 1) true).expires = true
    ∧ (rcue 0 (.offset 1) true).copy ≠ none ∧ (counting.head 0).state = .rest
    ∧ (rcue 0 (.offset 1) true).level.num < holdingLevel (counting.head 0).levels
    ∧ ((at0 counting fun hd => { hd with freeze := ⟨true, false, false⟩ }).head 0).freeze.any = true
    ∧ ((at0 counting fun hd => { hd with queue := [] }).head 0).candidate.any Cue.expires = false := by decide +kernel

theorem witness_OffsetCountdownsFall_examined :
    (counting.head 0).candidate.any Cue.expires = true
    ∧ ((at0 counting fun hd => { hd with levels := 0 }).head 0).candidate.any Cue.expires = true
    ∧ ((after (.offsetCountdownExpiry 0) (at0 counting fun hd => { hd with levels := 0 })).head 0).queue = [] := by decide +kernel

/-- The arbiter owes its FMARK, and the claims given wait. -/
def owing (cs : List Claim) (s : State) : State := { s with due := [.zoneArbiter], claims := cs }

theorem witness_PatienceCountsFall :
    (∀ md ∈ [PartMode.running, .draining], (owing [⟨0, .restore, .set, 2, 2⟩] { moving with mode := md }).mode = md
      ∧ settledTest (owing [⟨0, .restore, .set, 2, 2⟩] { moving with mode := md }) = true
      ∧ .zoneArbiter ∈ (owing [⟨0, .restore, .set, 2, 2⟩] { moving with mode := md }).due
      ∧ ∀ c ∈ (owing [⟨0, .restore, .set, 2, 2⟩] { moving with mode := md }).claims, 1 < c.count) := by decide +kernel

/-- Head 0, in a state, with a cue of its queue and an unreleased one behind it, and a claim of the first at its last frame. -/
def timing (st : HeadState) : State :=
  owing [⟨0, .cue, .live, 2, 1⟩] (ready0 (at0 moving fun hd => { hd with state := st }) .step ⟨false, false, false⟩)

theorem witness_PatienceCountsFall_cue :
    (∀ st ∈ [HeadState.rest, .moving, .restoring], (timing st).mode = .running ∧ .zoneArbiter ∈ (timing st).due
      ∧ (timing st).claims = [⟨0, .cue, .live, 2, 1⟩] ∧ losing (timing st) 0 = [⟨0, .cue, .live, 2, 1⟩]
      ∧ settledTest (timing st) = true ∧ ((timing st).head 0).candidate = some (rcue 0 .step true)
      ∧ behindTest ((timing st).head 0) = true ∧ (after (.zoneTimeout []) (timing st)).claims = []
      ∧ ((after (.zoneTimeout []) (timing st)).head 0).queue = [rcue 1 .step false])
    ∧ (owing [⟨0, .cue, .live, 2, 1⟩] zoneWaiting).mode = .running
    ∧ ((owing [⟨0, .cue, .live, 2, 1⟩] zoneWaiting).head 0).candidate = some { dcue with stage := .staged (.head 1 1 1 1) } := by
  decide +kernel

/-- Head 0 has a pending restored move at LIVE over a level of SET, whose slot is occupied or empty; its claim is at its last frame. -/
def pendingOver (md : PartMode) (r : Option CueRef) : State :=
  owing [⟨0, .restore, .live, 2, 1⟩] (at0 { live with mode := md } fun hd =>
    ({ hd with state := .moving, move := some { mv with level := .live, pending := true }, levels := 6 } : Head).setSlot .set r)

theorem witness_PatienceCountsFall_restore :
    (∀ md ∈ [PartMode.running, .draining], ∀ r ∈ [none, some ref3], settledTest (pendingOver md r) = true
      ∧ (pendingOver md r).mode = md ∧ .zoneArbiter ∈ (pendingOver md r).due
      ∧ (pendingOver md r).claims = [⟨0, .restore, .live, 2, 1⟩]
      ∧ losing (pendingOver md r) 0 = [⟨0, .restore, .live, 2, 1⟩] ∧ ((pendingOver md r).head 0).state = .moving
      ∧ ((pendingOver md r).head 0).move = some { mv with level := .live, pending := true }
      ∧ ((pendingOver md r).head 0).candidate = none
      ∧ highest (levelDrop ((pendingOver md r).head 0).levels .live) = some .set ∧ ((pendingOver md r).head 0).slotRef .set = r
      ∧ (pendingOver md r).saver = [] ∧ (pendingOver md r).pageJobs = [] ∧ (pendingOver md r).busy .pageWriter = false
      ∧ ∀ g : HeadId, g ≠ 0 → ((pendingOver md r).head g).state ≠ .moving ∧ ((pendingOver md r).head g).state ≠ .restoring)
    ∧ (after (.zoneTimeout []) (pendingOver .draining none)).mode = .halted
    ∧ (after (.zoneTimeout []) (pendingOver .draining (some ref3))).mode = .draining := by decide +kernel

/-- Claims of three heads: those of heads 0 and 1 reach 0, and that of head 2 stays. -/
def several : State :=
  owing [⟨1, .cue, .live, 2, 1⟩, ⟨0, .restore, .live, 2, 1⟩, ⟨2, .cue, .set, 2, 2⟩]
    (((pendingOver .running none).setHead 1 fun hd => { hd with queue := [rcue 0 .step true] }).setHead 2 fun hd =>
      { hd with direct := some { dcue with stage := .staged (.head 1 1 1 1) }, gate := some .zone })

theorem witness_PatienceCountsFall_several :
    several.mode = .running ∧ settledTest several = true ∧ .zoneArbiter ∈ several.due ∧ losing several 2 = []
    ∧ losing several 0 = [⟨0, .restore, .live, 2, 1⟩] ∧ losing several 1 = [⟨1, .cue, .live, 2, 1⟩]
    ∧ (several.head 1).candidate = some (rcue 0 .step true)
    ∧ (after (.zoneTimeout []) several).claims = [⟨2, .cue, .set, 2, 1⟩] ∧ ((after (.zoneTimeout []) several).head 1).queue = []
    ∧ ((after (.zoneTimeout []) several).head 0).move = none := by decide +kernel

theorem witness_TallyFollowsItsLine :
    moving.settled ∧ moving.pins.tally.getLsbD (0 : HeadId).val = !true ∧ moving.mode = .running
    ∧ (after (.tallyChange 0 true []) moving).mode = moving.mode ∧ State.reset.settled
    ∧ ({ State.reset with pins := { State.reset.pins with tally := 0x800 } } : State).pins.tally.getLsbD (11 : HeadId).val = !false
    ∧ draining.settled :=
  ⟨settled_of (by decide +kernel), by decide +kernel, by decide +kernel, by decide +kernel, settled_of (by decide +kernel),
    by decide +kernel, settled_of (by decide +kernel)⟩

/-- The line of head 0 is ON AIR, and its pending restored move waits for OFF AIR. -/
def pendingOnAir : State :=
  at0 { frozenPending ⟨false, false, true⟩ with pins := { live.pins with tally := 1 } } fun hd => { hd with onAir := true }

/-- The part with no level that may start on air. -/
def cautious (s : State) : State :=
  { s with tables := { s.tables with levels := Vector.replicate 4 ⟨100, 50, false, true⟩ } }

/-- Head 0's queued OFFSET cue comes to countdown 0 with the next FMARK, which no block owes yet. -/
def marking : State := { counting with due := [] }

/-- The head of that cue is on air, where its level may not start. -/
def markingOnAir : State := cautious (at0 marking fun hd => { hd with onAir := true, levels := 1 })

theorem witness_FmarkRaisesTheFrameNumber_taken :
    marking.due = [] ∧ settledTest marking = true ∧ counts marking [] 0 ∧ ¬ counts marking [.headUnit 0] 0 ∧ expiring marking [] 0
    ∧ markingOnAir.due = [] ∧ settledTest markingOnAir = true ∧ expiring markingOnAir [] 0 ∧ losing markingOnAir 0 = []
    ∧ heldTest (markingOnAir.setHead 0 fun hd => { hd with queue := hd.queue.map Cue.countDown }) 0 = true
    ∧ (after (.fmark [] [] []) markingOnAir).mode = .running
    ∧ (after (.fmark [] [] []) marking).mode = .running ∧ losing marking 0 = []
    ∧ (after (.fmark [] [.headUnit 0, .fetcher] []) marking).due = [.headUnit 0]
    ∧ settledTest { several with due := [] } = true ∧ (after (.fmark [] [] []) { several with due := [] }).mode = .running
    ∧ (∀ h : HeadId, ¬ expiring { several with due := [] } [] h) ∧ (several.head 1).state ≠ .moving ∧ (several.head 0).state = .moving
    ∧ losing { several with due := [] } 1 = [⟨1, .cue, .live, 2, 1⟩] ∧ losing { several with due := [] } 0 = [⟨0, .restore, .live, 2, 1⟩]
    ∧ (several.head 0).queue = [] ∧ (several.head 0).direct = none
    ∧ (after (.fmark [] [] []) { several with due := [] }).claims = [⟨2, .cue, .set, 2, 1⟩]
    ∧ (after (.fmark [] [.zoneArbiter] []) { several with due := [] }).claims = several.claims := by
  unfold expiring counts
  decide +kernel

theorem witness_TallyFollowsItsLine_pending :
    pendingOnAir.settled ∧ pendingOnAir.mode = .running ∧ pendingOnAir.pins.tally.getLsbD (0 : HeadId).val = !false
    ∧ (pendingOnAir.head 0).freeze.hold = false ∧ (pendingOnAir.head 0).freeze.floor = false
    ∧ PendingReady pendingOnAir 0 { mv with pending := true } ∧ (after (.tallyChange 0 false []) pendingOnAir).mode = .running
    ∧ (cautious claiming).settled ∧ (cautious claiming).pins.tally.getLsbD (0 : HeadId).val = !true
    ∧ ((cautious claiming).head 0).move = some { mv with pending := true } ∧ ((cautious claiming).head 0).queue = []
    ∧ ((cautious claiming).head 0).direct = none ∧ ((cautious claiming).levelRec mv.level).mayStartOnAir = false
    ∧ (cautious claiming).claimOf 0 .restore ≠ none := by
  refine ⟨settled_of (by decide +kernel), ?_, ?_, ?_, ?_, ⟨?_, ?_, ⟨?_, ?_⟩, ?_, ?_⟩, ?_, settled_of (by decide +kernel), ?_, ?_, ?_,
    ?_, ?_, ?_⟩ <;> decide +kernel

theorem witness_FloorFreezesPedestals :
    claiming.settled ∧ claiming.mode = .running ∧ claiming.pins.floor = false ∧ claiming.floorStop = .clear
    ∧ (claiming.headRec 0).type = .ped ∧ (claiming.headRec 1).type = .fixed ∧ latched.settled ∧ latched.floorStop ≠ .clear :=
  ⟨settled_of (by decide +kernel), by decide +kernel, by decide +kernel, by decide +kernel, by decide +kernel, by decide +kernel,
    settled_of (by decide +kernel), by decide +kernel⟩

theorem witness_HardResetsTakeEffect :
    saving.pins.resetN = false ∧ saving.grant = some ⟨.save 0 mv.saved, false, false⟩
    ∧ outsideCut saving ⟨15, 0⟩ (0x15040 + 60) ∧ ¬ outsideCut saving ⟨15, 0⟩ (0x15040 + 59) := by
  refine ⟨by decide +kernel, by decide +kernel, ?_, ?_⟩
  · intro g hg; cases hg; decide +kernel
  · intro h; revert h; unfold outsideCut; intro h; exact absurd (h _ rfl) (by decide +kernel)

/-- RESET_N is asserted. -/
def inLineReset : State := { State.reset with pins := { State.reset.pins with resetN := true } }

theorem witness_ResetsEnd :
    inLineReset.mode = .halted ∧ inLineReset.pins.resetN = true ∧ inLineReset.pins.powerReset = false ∧ inLineReset.near.held = none
    ∧ ({ inLineReset with pins := ⟨0, false, true, true⟩ } : State).pins.powerReset = true
    ∧ ({ inLineReset with near := ⟨some ⟨true, 4, 15, 1, none⟩, true, none, none⟩ } : State).near.cut = true
    ∧ ({ inLineReset with near := ⟨none, false, some ⟨false, 4, 15, 0, none⟩, none⟩ } : State).near.held
        = some ⟨false, 4, 15, 0, none⟩
    ∧ ({ inLineReset with waiting := [], status := StatusWriter.reset } : State).busy .status = false := by decide +kernel

theorem witness_ResetsEnd_held :
    inLineReset.inReset = true ∧ inLineReset.near.op = none ∧ inLineReset.near.held = none ∧ inLineReset.settled
    ∧ commandOf 12 7 [] = some (.mode 7) ∧ slotOp 12 7 = ⟨true, 0x13030, 15, 7, none⟩
    ∧ (after (.start 0) inLineReset).near.held = some (slotOp 0 0)
    ∧ (after .resetNReleased (after (.start 0) inLineReset)).mode = .loading
    ∧ ({ inLineReset with near := ⟨none, false, some ⟨true, 0x14000, 15, 0, none⟩, none⟩ } : State).near.held
        = some ⟨true, 0x14000, 15, 0, none⟩
    ∧ (after .resetNReleased
        { inLineReset with near := ⟨none, false, some ⟨true, 0x14000, 15, 0, none⟩, none⟩ }).near.answer = some .err :=
  ⟨by decide +kernel, by decide +kernel, by decide +kernel, settled_of (by decide +kernel), by decide +kernel⟩

theorem loaderReads_of {s : State} {r : TableRead} (hm : s.mode = .loading) (hg : s.grant = some ⟨.table r, false, false⟩)
    (hw : s.waits .loader = false) (hl : s.letRunActive = false) (hs : s.loader.stale = false) (hi : s.inReset = false) :
    LoaderReads s r := ⟨hm, hg, hw, hl, hs, hi⟩

/-- The words of a good head record. -/
def headWords : List Word :=
  [0x0102, 0, 0, 9, 1, 5, 0, 9, 1, 5, 0, 9, 1, 5, 0, 9, 1, 5, 0, 9, 1, 5, 0, 9, 1, 5, 0, 9, 1, 5, 0, 0]

/-- LOADING, at the read of the second half of a head's record. -/
def recordRead (h : HeadId) : State :=
  withWords { granted loading (.table (.headHigh h)) with loader := { loading.loader with half := headWords.take 16 } }
    (0x10800 + h.val * 0x80 + 64) (headWords.drop 16)

/-- LOADING, at the first read of the bank A header, with a count word. -/
def bankRead (count : Word) : State :=
  withWords { granted loading (.table .header) with loader := { loading.loader with next := some .header } } 0x11000 [count]

theorem witness_TableReadsGoOn :
    LoaderReads (granted loading (.table (.headLow 0))) (.headLow 0) ∧ LoaderReads (granted loading (.table (.headLow 11))) (.headLow 11)
    ∧ LoaderReads (recordRead 0) (.headHigh 0) ∧ LoaderReads (recordRead 10) (.headHigh 10)
    ∧ (∃ r, parseHead (headRecord (recordRead 10) 10) = some r)
    ∧ LoaderReads (bankRead 128) .header ∧ (bankRead 128).loader.next = some .header
    ∧ ((bankRead 128).mem.readWord 0x11000).toNat ≤ 128 ∧ (bankRead 128).tables.heads[(0 : HeadId).val].initMode = .managed := by
  refine ⟨loaderReads_of ?_ ?_ ?_ ?_ ?_ ?_, loaderReads_of ?_ ?_ ?_ ?_ ?_ ?_, loaderReads_of ?_ ?_ ?_ ?_ ?_ ?_,
    loaderReads_of ?_ ?_ ?_ ?_ ?_ ?_, Option.isSome_iff_exists.mp ?_, loaderReads_of ?_ ?_ ?_ ?_ ?_ ?_, ?_, ?_, ?_⟩ <;> decide +kernel

/-- LOADING, at a re-read of the bank A header, before a read of step 6 or none. -/
def reread (count : Word) (next : Option TableRead) : State :=
  withWords { granted loading (.table .header) with loader := { Loader.idle with next := next, count := some 3 } } 0x11000 [count]

theorem witness_TableReadsGoOn_reread :
    LoaderReads (reread 128 (some (.adoptPage 11 .b))) .header ∧ (reread 128 (some (.adoptPage 11 .b))).loader.next ≠ some .header
    ∧ ((reread 128 (some (.adoptPage 11 .b))).mem.readWord 0x11000).toNat ≤ 128
    ∧ LoaderReads { reread 0 none with pageJobs := [⟨0, 0, flat 1, .homeLoader, .page .a⟩] } .header
    ∧ ({ reread 0 none with pageJobs := [⟨0, 0, flat 1, .homeLoader, .page .a⟩] } : State).loader.next = none
    ∧ (∃ j ∈ ({ reread 0 none with pageJobs := [⟨0, 0, flat 1, .homeLoader, .page .a⟩] } : State).pageJobs, j.origin = .homeLoader) := by
  refine ⟨loaderReads_of ?_ ?_ ?_ ?_ ?_ ?_, ?_, ?_, loaderReads_of ?_ ?_ ?_ ?_ ?_ ?_, ?_, ?_⟩ <;> decide +kernel

/-- The head record of those words, of a FIXED head. -/
def fixedRec : HeadRec := ⟨.fixed, .managed, (flat 0).noFloor, (flat 9).noFloor, (flat 1).noFloor, (flat 5).noFloor, 0⟩

/-- The head record of a PED head with zone 0, which head 0 has too. -/
def pedRec : HeadRec := ⟨.ped, .managed, flat 0, flat 9, flat 1, flat 5, 1⟩

theorem witness_TableReadsGoOn_zones :
    LoaderReads (recordRead 11) (.headHigh 11) ∧ parseHead (headRecord (recordRead 11) 11) = some fixedRec
    ∧ ∀ h g : HeadId, g < h → startZones (recordRead 11) fixedRec g &&& startZones (recordRead 11) fixedRec h = 0 := by
  refine ⟨loaderReads_of ?_ ?_ ?_ ?_ ?_ ?_, ?_, ?_⟩ <;> decide +kernel

/-- LOADING, at the read of the level table, with the speed scale of level 4 and the ends of the other ranges. -/
def levelsRead (scale : Word) : State :=
  withWords (granted loading (.table .levels)) 0x10E00 [1, 0xFFFF, 0, 1, 100, 0, 1, 0, 50, 7, 1, 1, scale, 7, 0, 0]

theorem witness_TableReadsGoOn_levels :
    LoaderReads (levelsRead 100) .levels ∧ ∀ l, levelGood (levelsRead 100) l := by
  refine ⟨loaderReads_of ?_ ?_ ?_ ?_ ?_ ?_, ?_⟩ <;> (try unfold levelGood) <;> decide +kernel

/-- The words of a curve record: present, with its points, or with the given first word alone. -/
def curveWords (good : Bool) (present : Word) : List Word :=
  present :: (if good then (List.range 16).map (fun i => BitVec.ofNat 32 (4096 * i + (4096 * i + 2048) * 65536)) ++ [65535]
    else List.replicate 17 0) ++ List.replicate 14 0

/-- LOADING, at the read of the second half of the record of a curve. -/
def curveReading (c : Fin 15) (ws : List Word) : State :=
  withWords { granted loading (.table (.curveHigh c)) with loader := { loading.loader with half := ws.take 16 } }
    (0x10000 + (c.val + 1) * 0x80 + 64) (ws.drop 16)

theorem witness_TableReadsGoOn_curves :
    LoaderReads (granted loading (.table (.curveLow 14))) (.curveLow 14)
    ∧ LoaderReads (curveReading 14 (curveWords true 1)) (.curveHigh 14)
    ∧ (curveRecord (curveReading 14 (curveWords true 1)) 14).getD 0 0 = 1
    ∧ curveGood (curveRecord (curveReading 14 (curveWords true 1)) 14)
    ∧ LoaderReads (curveReading 0 (curveWords false 2)) (.curveHigh 0)
    ∧ (curveRecord (curveReading 0 (curveWords false 2)) 0).getD 0 0 ≠ 1 := by
  refine ⟨loaderReads_of ?_ ?_ ?_ ?_ ?_ ?_, loaderReads_of ?_ ?_ ?_ ?_ ?_ ?_, ?_, ?_, loaderReads_of ?_ ?_ ?_ ?_ ?_ ?_, ?_⟩ <;>
    (try unfold curveGood) <;> decide +kernel

/-- LOADING, at a read of the adoption of head h, with words in memory. -/
def adoptionRead (r : TableRead) (a : Nat) (ws : List Word) : State := withWords (granted loading (.table r)) a ws

theorem witness_TableReadsGoOn_adoption :
    LoaderReads (adoptionRead (.adoptPointer 0) 0x16000 [1]) (.adoptPointer 0)
    ∧ (adoptionRead (.adoptPointer 0) 0x16000 [1]).mem.readWord 0x16000 = 1
    ∧ LoaderReads (adoptionRead (.adoptPointer 0) 0x16000 [2]) (.adoptPointer 0)
    ∧ (adoptionRead (.adoptPointer 0) 0x16000 [2]).mem.readWord 0x16000 = 2
    ∧ NextManaged loading 0 1 ∧ LoaderReads (adoptionRead (.adoptPage 0 .b) 0x16044 [1000]) (.adoptPage 0 .b)
    ∧ pageWithin loading.tables.heads[(0 : HeadId).val]
        (Pose.ofWords (((adoptionRead (.adoptPage 0 .b) 0x16044 [1000]).mem.readWords (pageAddr 0 .b) 8).drop 1)) = true
    ∧ pageWithin loading.tables.heads[(0 : HeadId).val]
        (Pose.ofWords (((adoptionRead (.adoptPage 0 .b) 0x16044 [1001]).mem.readWords (pageAddr 0 .b) 8).drop 1)) = false
    ∧ LoaderReads (adoptionRead (.adoptPage 0 .b) 0x16044 [1001]) (.adoptPage 0 .b)
    ∧ (0x80 : BitVec 16).getLsbD (7 : Fin 8).val = true ∧ (1 : BitVec 16).getLsbD 0 = true := by
  refine ⟨loaderReads_of ?_ ?_ ?_ ?_ ?_ ?_, ?_, loaderReads_of ?_ ?_ ?_ ?_ ?_ ?_, ?_, ⟨?_, ?_, ?_⟩, loaderReads_of ?_ ?_ ?_ ?_ ?_ ?_,
    ?_, ?_, loaderReads_of ?_ ?_ ?_ ?_ ?_ ?_, ?_, ?_⟩ <;> decide +kernel

theorem witness_FailedTableReadHalts :
    LoaderReads (bankRead 129) .header ∧ 128 < ((bankRead 129).mem.readWord 0x11000).toNat
    ∧ LoaderReads (granted loading (.table (.headHigh 11))) (.headHigh 11)
    ∧ parseHead (headRecord (granted loading (.table (.headHigh 11))) 11) = none
    ∧ LoaderReads (granted loading (.table (.curveHigh 14))) (.curveHigh 14) ∧ (0x8000 : BitVec 16) ≠ 0
    ∧ (1 : BitVec 16).getLsbD 0 = true := by
  refine ⟨loaderReads_of ?_ ?_ ?_ ?_ ?_ ?_, ?_, loaderReads_of ?_ ?_ ?_ ?_ ?_ ?_, ?_, loaderReads_of ?_ ?_ ?_ ?_ ?_ ?_, ?_, ?_⟩
    <;> decide +kernel

/-- LOADING, at the read of the second half of head 11's record, with zone 0 in its start zone set. -/
def overlapRead : State :=
  withWords { granted loading (.table (.headHigh 11)) with
    loader := { loading.loader with half := [0x0101, 1] ++ (headWords.take 16).drop 2 } } (0x10800 + 11 * 0x80 + 64) (headWords.drop 16)

theorem witness_FailedTableReadHalts_zones :
    LoaderReads overlapRead (.headHigh 11) ∧ parseHead (headRecord overlapRead 11) = some pedRec
    ∧ (0 : HeadId) < 11 ∧ startZones overlapRead pedRec 0 &&& startZones overlapRead pedRec 11 ≠ 0
    ∧ ∀ h' g : HeadId, h' < 11 → g < h' → startZones overlapRead pedRec g &&& startZones overlapRead pedRec h' = 0 := by
  refine ⟨loaderReads_of ?_ ?_ ?_ ?_ ?_ ?_, ?_, ?_, ?_, ?_⟩ <;> decide +kernel

theorem witness_FailedTableReadHalts_levels :
    LoaderReads (levelsRead 101) .levels ∧ ¬ levelGood (levelsRead 101) 3 ∧ (∀ l' : Fin 4, l' < 3 → levelGood (levelsRead 101) l')
    ∧ (0x8000 : BitVec 16).getLsbD (15 : Fin 16).val = true ∧ ∀ i : Fin 16, i < 15 → (0x8000 : BitVec 16).getLsbD i.val = false := by
  refine ⟨loaderReads_of ?_ ?_ ?_ ?_ ?_ ?_, ?_, ?_, ?_, ?_⟩ <;> (try unfold levelGood) <;> decide +kernel

theorem witness_FailedTableReadHalts_curves :
    LoaderReads (curveReading 14 (curveWords false 1)) (.curveHigh 14)
    ∧ (curveRecord (curveReading 14 (curveWords false 1)) 14).getD 0 0 = 1
    ∧ ¬ curveGood (curveRecord (curveReading 14 (curveWords false 1)) 14) := by
  refine ⟨loaderReads_of ?_ ?_ ?_ ?_ ?_ ?_, ?_, ?_⟩ <;> (try unfold curveGood) <;> decide +kernel

/-- LOADING, at the page read of the last MANAGED head. -/
def lastPage : State := { granted loading (.table (.adoptPage 11 .b)) with loader := { loading.loader with count := some 128 } }

theorem witness_LastAdoptionEntersRunning :
    LoaderReads lastPage (.adoptPage 11 .b) ∧ lastPage.loader.count = some 128
    ∧ lastPage.tables.heads[(11 : HeadId).val].initMode = .managed
    ∧ (∀ g : HeadId, 11 < g → lastPage.tables.heads[g.val].initMode ≠ .managed)
    ∧ (∀ j ∈ lastPage.pageJobs, j.origin ≠ .homeLoader)
    ∧ pageWithin lastPage.tables.heads[(11 : HeadId).val] (Pose.ofWords ((lastPage.mem.readWords (pageAddr 11 .b) 8).drop 1)) = true
    ∧ lastPage.fetcher.fetch = 0 ∧ lastPage.busy .fetcher = false := by
  refine ⟨loaderReads_of ?_ ?_ ?_ ?_ ?_ ?_, ?_, ?_, ?_, ?_, ?_, ?_, ?_⟩ <;> decide +kernel

/-- LOADING at the first header read, the tables naming no MANAGED head. -/
def unmanaged : State :=
  { bankRead 128 with tables := { tables with
      heads := (Vector.replicate 12 (⟨.fixed, .off, flat 0, flat 9, flat 1, flat 5, 0⟩ : HeadRec)).set 0
        ⟨.ped, .direct, flat 0, flat 9, flat 1, flat 5, 1⟩ } }

theorem witness_LastAdoptionEntersRunning_header :
    LoaderReads unmanaged .header ∧ unmanaged.loader.next = some .header ∧ (unmanaged.mem.readWord 0x11000).toNat ≤ 128
    ∧ (∀ g : HeadId, unmanaged.tables.heads[g.val].initMode ≠ .managed) ∧ (∀ j ∈ unmanaged.pageJobs, j.origin ≠ .homeLoader)
    ∧ LoaderReads (reread 128 none) .header ∧ (reread 128 none).loader.next = none
    ∧ ((reread 128 none).mem.readWord 0x11000).toNat ≤ 128 ∧ (∀ j ∈ (reread 128 none).pageJobs, j.origin ≠ .homeLoader) := by
  refine ⟨loaderReads_of ?_ ?_ ?_ ?_ ?_ ?_, ?_, ?_, ?_, ?_, loaderReads_of ?_ ?_ ?_ ?_ ?_ ?_, ?_, ?_, ?_⟩ <;> decide +kernel

/-- The fetcher reads an entry of head 0 whose words stand in memory. -/
def entryRead : State := withWords (granted rundown (.entry .a 2)) 0x11030 [0x00010220, 0x00030009]

/-- The entry of those words. -/
def entry2 : HeldEntry := ⟨0, { rcue 2 (.offset 3) false with stage := .staging }⟩

theorem witness_EntryIsDispatchedByHeadState :
    entryRead.mode = .running ∧ Presents entryRead (.entryReadEnd false) entry2 ∧ (entryRead.head 0).state = .rest
    ∧ (entryRead.head 0).queue.length < 4
    ∧ Presents { rundown with fetcher := { rundown.fetcher with state := .holding entry2 } } .heldEntryExamination entry2
    ∧ ((at0 entryRead fun hd => { hd with state := .off }).head 0).state = .off
    ∧ ((at0 entryRead fun hd => { hd with state := .adopting }).head 0).state = .adopting ∧ 4 ≤ (full.head 1).queue.length :=
  ⟨by decide +kernel, Or.inr ⟨rfl, .a, 2, rfl, by decide +kernel⟩, by decide +kernel, by decide +kernel,
    Or.inl ⟨rfl, rfl, by decide +kernel⟩, by decide +kernel⟩

theorem witness_BadEntriesArePassedOrRetried :
    rundown.mode = .running ∧ (granted rundown (.entry .a 2)).grants (.entry .a 2)
    ∧ entryCue .a 2 (entryWord (granted rundown (.entry .a 2)) .a 2 0) (entryWord (granted rundown (.entry .a 2)) .a 2 1) = none :=
  ⟨by decide +kernel, rfl, by decide +kernel⟩

theorem witness_HeaderReadLatchesTheCount :
    rundown.mode = .running ∧ (granted rundown (.header .b)).grants (.header .b)
    ∧ ((withWords (granted rundown (.header .b)) 0x12000 [128]).mem.readWord 0x12000).toNat = 128
    ∧ ((withWords (granted rundown (.header .b)) 0x12000 [129]).mem.readWord 0x12000).toNat = 129 :=
  ⟨by decide +kernel, rfl, by decide +kernel, by decide +kernel⟩

/-- The header of bank A is being read, with a count, over two queued cues up to NEXT. -/
def headerReading (count : Word) : State :=
  withWords (granted { queued with fetcher := ⟨.header, .a, 4, 2, 2, none, false, [], none⟩ } (.header .a)) 0x11000 [count]

theorem witness_HeaderReadLatchesTheCount_flush :
    (headerReading 4).mode = .running ∧ (headerReading 4).grants (.header .a)
    ∧ ((headerReading 4).mem.readWord 0x11000).toNat = 4 ∧ min 2 4 < 4 ∧ (headerReading 4).waits .fetcher = false
    ∧ (headerReading 4).inReset = false ∧ keptCues (headerReading 4) 2 0 = (queued.head 0).queue
    ∧ keptCues (headerReading 1) 1 0 = [rcue 0 .step false] ∧ keptCues (headerReading 0) 0 0 = []
    ∧ ((after (.headerReadEnd false) (headerReading 4)).head 0).queue = (queued.head 0).queue
    ∧ ((after (.headerReadEnd false) (headerReading 1)).head 0).queue = [rcue 0 .step false]
    ∧ ((after (.headerReadEnd false) (headerReading 1)).fetcher.state = .idle) :=
  ⟨by decide +kernel, rfl, by decide +kernel⟩

/-- The queue of head 0 begins at or above the index, with a cue below it behind (no run meets this). -/
def outOfOrder : State := at0 queued fun hd => { hd with queue := [rcue 1 .chain false, rcue 0 .step false] }

theorem witness_HeaderReadLatchesTheCount_examined :
    (outOfOrder.head 0).candidate ≠ none ∧ (outOfOrder.head 0).direct = none
    ∧ (keptCues outOfOrder 1 0).head? ≠ (outOfOrder.head 0).queue.head? := by decide +kernel

/-- The stage read of head 0's direct cue, with a good HEAD shot 1 in memory. -/
def staging (f : Head → Head) : State :=
  withWords { granted (at0 live fun hd => f { hd with direct := some dcue }) (.stage 1) with stager := ⟨[], some ⟨0, none⟩⟩ } 0x100
    [1, 20, 30, 40, 50]

/-- The stage read of a queued rundown cue of head 0, in a stage state, with a shot record of a tag. -/
def stagingQueued (st : Stage) (tag : Word) : State :=
  withWords { granted (at0 live fun hd => { hd with queue := [{ rcue 2 .step false with stage := st }] }) (.stage 1) with
    stager := ⟨[], some ⟨0, some 2⟩⟩ } 0x100 [tag]

theorem witness_StageReadIsJudged :
    Stages (stagingQueued .staging 1) ⟨0, some 2⟩ { rcue 2 .step false with stage := .staging }
    ∧ Stages (stagingQueued .restaging 1) ⟨0, some 2⟩ { rcue 2 .step false with stage := .restaging }
    ∧ verdict (stagingQueued .staging 1) ⟨0, some 2⟩ { rcue 2 .step false with stage := .staging } false = .staged (.head 0 0 0 0)
    ∧ verdict (stagingQueued .staging 0) ⟨0, some 2⟩ { rcue 2 .step false with stage := .staging } false = .rejected .blankShot none
    ∧ Stages (stagingQueued .staging 0) ⟨0, some 2⟩ { rcue 2 .step false with stage := .staging }
    ∧ ((stagingQueued .staging 1).head 0).candidate = some { rcue 2 .step false with stage := .staging } := by
  refine ⟨⟨?_, ?_, rfl, ?_, ?_⟩, ⟨?_, ?_, rfl, ?_, ?_⟩, ?_, ?_, ⟨?_, ?_, rfl, ?_, ?_⟩, ?_⟩ <;> decide +kernel

/-- The direct cue of head 0, its stage read ending well, on a head that a gate of it holds. -/
def stagingHeld (f : Head → Head) : State := cautious (staging f)

/-- What the stage read of head 0's direct cue leads to. -/
def stagedDirect : Cue := { dcue with stage := .staged (.head 20 30 40 50) }

theorem stages_staging {f : Head → Head} (hf : ((stagingHeld f).head 0).findCue 0 ⟨0, none⟩ = some dcue)
    (ho : ∀ q ∈ ((stagingHeld f).head 0).queue ++ ((stagingHeld f).head 0).direct.toList, q.key 0 = ⟨0, none⟩ → q = dcue) :
    Stages (stagingHeld f) ⟨0, none⟩ dcue := ⟨rfl, rfl, rfl, hf, ho⟩

theorem witness_StageReadIsJudged_released :
    dcue.released = true ∧ Stages (stagingHeld id) ⟨0, none⟩ dcue
    ∧ (∀ f ∈ [fun hd : Head => { hd with levels := 8 }, fun hd => { hd with freeze := ⟨true, false, false⟩ },
          fun hd => { hd with onAir := true }, fun hd => { hd with state := .restoring }],
        ((stagingHeld f).head 0).candidate = some dcue
        ∧ verdict (stagingHeld f) ⟨0, none⟩ dcue false = .staged (.head 20 30 40 50))
    ∧ (withStaged (stagingHeld fun hd => { hd with levels := 8 }) 0 dcue (.head 20 30 40 50)).gateOf 0 stagedDirect = some .level
    ∧ (withStaged (stagingHeld fun hd => { hd with freeze := ⟨true, false, false⟩ }) 0 dcue (.head 20 30 40 50)).gateOf 0
        stagedDirect = some .hold
    ∧ (withStaged (stagingHeld fun hd => { hd with onAir := true }) 0 dcue (.head 20 30 40 50)).gateOf 0 stagedDirect = some .air
    ∧ (withStaged (stagingHeld fun hd => { hd with state := .restoring }) 0 dcue (.head 20 30 40 50)).gateOf 0 stagedDirect
        = some .save
    ∧ ((after (.stageReadEnd false) (stagingHeld fun hd => { hd with onAir := true })).head 0).gate = some .air :=
  ⟨by decide, stages_staging (by decide +kernel) (by decide +kernel), by decide +kernel, by decide +kernel, by decide +kernel,
    by decide +kernel, by decide +kernel, by decide +kernel⟩

/-- The stage read of head 0's direct cue, a PED shot that needs zone 2 of head 1, with the patience of its level. -/
def stagingZone (patience : Nat) : State :=
  withWords { staging id with
    zoneTable := live.zoneTable.set 2 (some 1),
    tables := { tables with levels := Vector.replicate 4 ⟨100, patience, true, true⟩ } } 0x100
    [2, 20, 30, 40, 50, 1, 2, 3, 4, 0]

/-- The shot of stagingZone. -/
def pedCopy : ShotCopy := .ped ⟨1, 2, 3, 20, 30, 40, 50⟩ 4 0

theorem witness_StageReadIsJudged_zone :
    Stages (stagingZone 7) ⟨0, none⟩ dcue ∧ ((stagingZone 7).head 0).candidate = some dcue
    ∧ verdict (stagingZone 7) ⟨0, none⟩ dcue false = .staged pedCopy
    ∧ (withStaged (stagingZone 7) 0 dcue pedCopy).gateOf 0 { dcue with stage := .staged pedCopy } = none
    ∧ ¬ zonesFree (stagingZone 7) 0 pedCopy ∧ ((stagingZone 7).levelRec .live).patience = 7
    ∧ (after (.stageReadEnd false) (stagingZone 7)).claims = [⟨0, .cue, .live, 4, 7⟩]
    ∧ ((after (.stageReadEnd false) (stagingZone 0)).head 0).direct = none := by
  refine ⟨⟨rfl, rfl, rfl, by decide +kernel, by decide +kernel⟩, by decide +kernel, by decide +kernel, by decide +kernel, fun hz => ?_,
    by decide +kernel⟩
  have hz2 := hz 2 (by decide +kernel)
  revert hz2
  decide +kernel

/-- The premises of the claim clauses of StagedCandidateStarts for head 0. -/
def zoneReached (s : State) (i : Instr) (others : List Area) (c : Cue) (copy : ShotCopy) : Prop :=
  ∃ u, Examines s 0 i u others ∧ ReachesZone u 0 c copy ∧ (∀ q, (cuesInOrder (u.head 0))[1]? = some q → early q)

/-- Head 0 with a staged PED cue of its queue that wants zone 2, which head 1 owns, thawed. -/
def zoneHeld (patience dur : Nat) (owner : Option HeadId) (st : HeadState) : State :=
  { at0 (ready0 live .step ⟨true, false, false⟩) (fun hd =>
      { hd with
          queue := { rcue 0 .step true with stage := .staged pedCopy, dur := dur } :: [rcue 1 .step false], state := st, move := some mv,
          levels := 2 }) with
    zoneTable := live.zoneTable.set 2 owner, tables := { tables with levels := Vector.replicate 4 ⟨100, patience, true, true⟩ },
    claims := [⟨3, .restore, .live, 2, 9⟩, ⟨1, .cue, .park, 2, 9⟩] }

theorem reaches_zoneHeld {p d : Nat} {o : Option HeadId} {st : HeadState} {u : State} {c : Cue}
    (hu : u = (zoneHeld p d o st).setHead 0 fun hd => { hd with freeze := ⟨false, false, false⟩ })
    (hg : gatesTest u 0 c pedCopy = true) (hv : holdingLevel (u.head 0).levels ≤ c.level.num) (hl : c.level = .set)
    (hr : (u.head 0).state ≠ .restoring) : ReachesZone u 0 c pedCopy := by
  subst hu
  refine ⟨gates_of hg, hv, hr, fun m _ hm hlt => ?_⟩
  rw [hl] at hlt
  cases hm
  exact absurd hlt (by decide)

theorem witness_StagedCandidateStarts_zone :
    (∀ st, (st = .rest ∨ st = .moving) → ∀ p o, (p = 7 ∨ p = 0) → (o = some 1 ∨ o = none) → ∀ d, (d = 9 ∨ d = 65536) →
      zoneReached (zoneHeld p d o st) (.thaw 1 []) [.nearPort, .freeze 0] { rcue 0 .step true with stage := .staged pedCopy, dur := d }
        pedCopy)
    ∧ (after (.thaw 1 []) (zoneHeld 7 9 (some 1) .rest)).claims
        = [⟨3, .restore, .live, 2, 9⟩, ⟨0, .cue, .set, 4, 7⟩, ⟨1, .cue, .park, 2, 9⟩]
    ∧ ((after (.thaw 1 []) (zoneHeld 0 9 (some 1) .moving)).status.headFaults[0].map HeadFault.kind) = some .zoneTimeout
    ∧ ((after (.thaw 1 []) (zoneHeld 7 65536 none .rest)).status.headFaults[0].map HeadFault.kind) = some .duration := by
  refine ⟨?_, by decide +kernel, by decide +kernel, by decide +kernel⟩
  intro st hst p o hp ho d hd
  rcases hst with rfl | rfl <;> rcases hp with rfl | rfl <;> rcases ho with rfl | rfl <;> rcases hd with rfl | rfl <;>
    exact ⟨_, .thawed 0 1 [] (ready_of (by decide +kernel)) (by decide +kernel) (by decide +kernel) (by decide +kernel)
      (by decide +kernel) (by decide +kernel),
      reaches_zoneHeld rfl (by decide +kernel) (by decide +kernel) rfl (by decide +kernel), behind_of (by decide +kernel)⟩

/-- The conditions of a start, as a test. -/
def startableTest (u : State) (h : HeadId) (c : Cue) (copy : ShotCopy) : Bool :=
  gatesTest u h c copy && behindTest (u.head h)
    && decide (∀ z : Fin 32, copy.claim.getLsbD z.val = true → u.zoneTable[z.val] = none ∨ u.zoneTable[z.val] = some h)
    && decide (u.cueDuration h c copy ≤ 65535)

theorem startable_of {u : State} {h : HeadId} {c : Cue} {copy : ShotCopy} (t : startableTest u h c copy = true) :
    Startable u h c copy := by
  unfold startableTest at t
  simp only [Bool.and_eq_true, decide_eq_true_eq] at t
  obtain ⟨⟨⟨h1, h2⟩, h3⟩, h4⟩ := t
  exact ⟨gates_of h1, behind_of h2, h3, h4⟩

/-- The premises of StagedCandidateStarts for head 0. -/
def restStarts (s : State) (i : Instr) (others : List Area) (c : Cue) (copy : ShotCopy) : Prop :=
  ∃ u, Examines s 0 i u others ∧ Startable u 0 c copy ∧ (u.head 0).state = .rest ∧ holdingLevel (u.head 0).levels ≤ c.level.num

/-- The premises of StartPreemptsOrRetargets for head 0. -/
def movingStarts (s : State) (i : Instr) (others : List Area) (c : Cue) (copy : ShotCopy) (m : MoveRec) : Prop :=
  ∃ u, Examines s 0 i u others ∧ Startable u 0 c copy ∧ (u.head 0).state = .moving ∧ (u.head 0).move = some m
    ∧ holdingLevel (u.head 0).levels = m.level.num ∧ (m.level.num < c.level.num → u.saveWriting 0 = false)
    ∧ m.level.num ≤ c.level.num

theorem witness_StagedCandidateStarts :
    restStarts (staging id) (.stageReadEnd false) [.grant, .stager] { dcue with stage := .staged (.head 20 30 40 50) } (.head 20 30 40 50)
    ∧ restStarts stepped (.fire 0 []) [.nearPort, .rundown] { rcue 0 .step false with released := true } (.head 1 1 1 1)
    ∧ restStarts (at0 counting fun hd => { hd with levels := 0 }) (.offsetCountdownExpiry 0) [.due]
        { rcue 0 (.offset 1) true with countdown := some 0 } (.head 1 1 1 1) := by
  refine ⟨⟨_, .staged ⟨0, none⟩ dcue (.head 20 30 40 50) ⟨?_, ?_, rfl, ?_, ?_⟩ ?_ ?_ ?_, startable_of ?_, ?_, ?_⟩,
    ⟨_, .fired 0 0 [] (ready_of ?_) ?_ ?_ ?_ (Or.inr ?_) ?_ ?_, startable_of ?_, ?_, ?_⟩,
    ⟨_, .counted 0 ?_ ?_ ?_ ?_, startable_of ?_, ?_, ?_⟩⟩ <;> decide +kernel

theorem witness_StagedCandidateStarts_lines :
    restStarts (ready0 live .chain ⟨true, false, false⟩) (.thaw 1 []) [.nearPort, .freeze 0] (rcue 0 .chain true) (.head 1 1 1 1)
    ∧ restStarts { ready0 live .step ⟨false, true, false⟩ with floorStop := .latched } (.resume 0 []) [.nearPort, .floorStop, .freeze 0]
        (rcue 0 .step true) (.head 1 1 1 1)
    ∧ restStarts { ready0 live .step ⟨false, false, false⟩ with pins := { live.pins with tally := 1 } } (.tallyChange 0 false [])
        [.lines, .tally 0, .freeze 0] (rcue 0 .step true) (.head 1 1 1 1) := by
  refine ⟨⟨_, .thawed 0 1 [] (ready_of ?_) ?_ ?_ ?_ ?_ ?_, startable_of ?_, ?_, ?_⟩,
    ⟨_, .resumed 0 0 [] (ready_of ?_) ?_ ?_ ?_ ?_ ?_, startable_of ?_, ?_, ?_⟩,
    ⟨_, .offAir 0 [] ?_ ?_ ⟨?_, ?_⟩ ?_, startable_of ?_, ?_, ?_⟩⟩ <;> decide +kernel

/-- The move of head 0 at its last frame, with that frame's pointer write in progress; head 0 owns zones 1 and 2. -/
def finishing : State :=
  { at0 { granted moving (.pointerWrite 0 .b) with pageJobs := [⟨0, 2, flat 20, .frame, .check⟩] } (fun hd =>
      { hd with move := some { mv with k := 4 } }) with
    zoneTable := (live.zoneTable.set 1 (some 0)).set 2 (some 0) }

/-- Head 0 in REST with its save buffer written by its only save job, which ends. -/
def savingAtRest (k : StartKind) : State :=
  { granted (ready0 live k ⟨false, false, false⟩) (.save 0 mv.saved) with saver := [⟨.save mv.saved, 0, .set, ref3, false⟩] }

theorem noGrant_of {s : State} {h : HeadId} {m : MoveRec} (hc : s.claims = []) : noGrant s h m :=
  Or.inr fun q hq => by rw [hc] at hq; cases hq

theorem witness_StagedCandidateStarts_ends :
    restStarts (ready0 (at0 live fun hd => { hd with levels := 6 }) .step ⟨false, false, false⟩) (.levelEnd 0) [.nearPort]
        (rcue 0 .step true) (.head 1 1 1 1)
    ∧ restStarts (ready0 finishing .chain ⟨false, false, true⟩) (.pointerWriteEnd false)
        [.memory, .grant, .pageJobs, .pointer 0, .freeze 0] (rcue 0 .chain true) (.head 1 1 1 1)
    ∧ restStarts (savingAtRest .chain) (.saveTransferEnd 0) [.memory, .grant, .saver, .levels 0] (rcue 0 .chain true)
        (.head 1 1 1 1) := by
  refine ⟨⟨_, .revealed 0 .live 0 (ready_of ?_) ?_ ?_ ?_ ?_ ?_ (fun l' hl => ?_), startable_of ?_, ?_, ?_⟩,
    ⟨_, .completed 0 .b { mv with k := 4 } ⟨0, 2, flat 20, .frame, .check⟩ []
      ⟨Or.inl ?_, rfl, ?_, ?_, ⟨?_, ?_⟩, by unfold State.memoryOk; decide +kernel⟩ ?_ ?_ ?_ ?_ ⟨?_, ?_⟩ (noGrant_of ?_), startable_of ?_, ?_, ?_⟩,
    ⟨_, .saved 0 mv.saved mv.saved ref3 [] ⟨Or.inl ?_, rfl, ?_, settled_of ?_, by unfold State.memoryOk; decide +kernel⟩ ?_ ?_,
      startable_of ?_, ?_, ?_⟩⟩
  case refine_7 => revert hl; cases l' <;> decide +kernel
  all_goals decide +kernel

/-- Head 0 MOVING at a level, while its direct cue of LIVE is staged. -/
def stagingOver (l : Level) : State :=
  staging fun hd => { hd with state := .moving, move := some { mv with level := l }, levels := levelAdd 0 l }

theorem witness_StartPreemptsOrRetargets :
    movingStarts (stagingOver .set) (.stageReadEnd false) [.grant, .stager] { dcue with stage := .staged (.head 20 30 40 50) }
        (.head 20 30 40 50) { mv with level := .set }
    ∧ movingStarts (stagingOver .live) (.stageReadEnd false) [.grant, .stager] { dcue with stage := .staged (.head 20 30 40 50) }
        (.head 20 30 40 50) { mv with level := .live }
    ∧ movingStarts (ready0 moving .step ⟨true, false, false⟩) (.thaw 1 []) [.nearPort, .freeze 0] (rcue 0 .step true) (.head 1 1 1 1) mv := by
  refine ⟨⟨_, .staged ⟨0, none⟩ dcue (.head 20 30 40 50) ⟨?_, ?_, rfl, ?_, ?_⟩ ?_ ?_ ?_, startable_of ?_, ?_, ?_, ?_, ?_, ?_⟩,
    ⟨_, .staged ⟨0, none⟩ dcue (.head 20 30 40 50) ⟨?_, ?_, rfl, ?_, ?_⟩ ?_ ?_ ?_, startable_of ?_, ?_, ?_, ?_, ?_, ?_⟩,
    ⟨_, .thawed 0 1 [] (ready_of ?_) ?_ ?_ ?_ ?_ ?_, startable_of ?_, ?_, ?_, ?_, ?_, ?_⟩⟩ <;> decide +kernel

/-- Head 0 MOVING at SET, its staged cue of level LIVE waiting at SAVE for the empty tag of its PARK slot. -/
def tagging : State :=
  { granted (at0 moving fun hd => { hd with queue := [{ rcue 0 .step true with level := .live }], gate := some .save }) (.emptyTag 0 .park) with
    saver := [⟨.emptyTag, 0, .park, ref3, false⟩] }

theorem witness_StartPreemptsOrRetargets_save :
    movingStarts tagging (.emptyTagWriteEnd false) [.memory, .grant, .saver, .levels 0] { rcue 0 .step true with level := .live }
      (.head 1 1 1 1) mv ∧ tagging.gateOf 0 { rcue 0 .step true with level := .live } = some .save := by
  refine ⟨⟨_, .tagged 0 .park ref3 false [] ⟨Or.inl ?_, rfl, ?_, settled_of ?_, by unfold State.memoryOk; decide +kernel⟩ ?_ ?_,
    startable_of ?_, ?_, ?_, ?_, ?_, ?_⟩, ?_⟩ <;> decide +kernel

theorem witness_LevelGateFollowsItsTable :
    (live.head 0).state = .rest ∧ (moving.head 0).state = .moving
    ∧ (rcue 0 .chain true).level.num = holdingLevel (moving.head 0).levels := by decide +kernel

/-- Head 0 ADOPTING, at the front of the adoption client's list, with a pointer word. -/
def adopting (w : Word) (x : Xfer) : State :=
  withWords { granted (at0 live fun hd => { hd with state := .adopting }) x with adopter := ⟨[0, 1], none⟩ } 0x16000 [w]

theorem witness_AdoptionReadsEnd :
    (adopting 1 (.adoptPointer 0)).settled ∧ (adopting 1 (.adoptPointer 0)).mode = .running
    ∧ ((adopting 1 (.adoptPointer 0)).head 0).state = .adopting ∧ ((adopting 1 (.adoptPointer 0)).head 0).queue = []
    ∧ ((adopting 1 (.adoptPointer 0)).head 0).direct = none ∧ (adopting 1 (.adoptPointer 0)).adopter.list = [0, 1]
    ∧ (adopting 1 (.adoptPointer 0)).grants (.adoptPointer 0) ∧ (adopting 1 (.adoptPointer 0)).mem.readWord 0x16000 = 1
    ∧ (adopting 2 (.adoptPointer 0)).mem.readWord 0x16000 = 2 ∧ (adopting 1 (.adoptPage 0 .b)).grants (.adoptPage 0 .b)
    ∧ (adopting 1 (.adoptPage 0 .b)).settled
    ∧ pageWithin ((adopting 1 (.adoptPage 0 .b)).headRec 0) (flat 0) = true
    ∧ pageWithin ((adopting 1 (.adoptPage 0 .b)).headRec 0) (flat 1001) = false :=
  ⟨settled_of (by decide +kernel), by decide +kernel, by decide +kernel, by decide +kernel, by decide +kernel, by decide +kernel, rfl,
    by decide +kernel, by decide +kernel, rfl, settled_of (by decide +kernel), by decide +kernel, by decide +kernel⟩

/-- The page job of the move of head 0 is at the front, with a transfer of it in progress. -/
def paging (x : Xfer) : State := { granted moving x with pageJobs := [⟨0, 2, flat 20, .frame, .check⟩] }

theorem pageRuns_paging (x : Xfer) (hw : (paging x).waits .pageWriter = false) (hi : (paging x).inReset = false) (hm : (paging x).memoryOk) :
    PageRuns (paging x) x ⟨0, 2, flat 20, .frame, .check⟩ [] := ⟨Or.inl rfl, rfl, rfl, rfl, ⟨hw, hi⟩, hm⟩

theorem witness_PageTransfersEnd :
    MovesOn (paging (.pageCheck 0)) 0 mv ∧ PageRuns (paging (.pageCheck 0)) (.pageCheck 0) ⟨0, 2, flat 20, .frame, .check⟩ []
    ∧ (paging (.pageCheck 0)).mem.readWord 0x16000 = 0
    ∧ ((withWords (paging (.pageCheck 0)) 0x16000 [2]).mem.readWord 0x16000 = 2)
    ∧ MovesOn (paging (.pageWrite 0 .b 2 (flat 20))) 0 mv
    ∧ PageRuns (paging (.pageWrite 0 .b 2 (flat 20))) (.pageWrite 0 .b 2 (flat 20)) ⟨0, 2, flat 20, .frame, .check⟩ [] := by
  refine ⟨⟨?_, ?_, ?_⟩, pageRuns_paging _ ?_ ?_ (by unfold State.memoryOk; decide +kernel), ?_, ?_, ⟨?_, ?_, ?_⟩,
    pageRuns_paging _ ?_ ?_ (by unfold State.memoryOk; decide +kernel)⟩ <;> decide +kernel

/-- A home page job of head 0 is at the front of the page writer's list, with a transfer of it in progress. -/
def homing (s : State) (x : Xfer) (o : JobOrigin) : State := { granted s x with pageJobs := [⟨0, 0, flat 3, o, .page .a⟩] }

theorem homeRuns_of {s : State} {x : Xfer} {o : JobOrigin} (ho : o ≠ .frame) (hw : (homing s x o).waits .pageWriter = false)
    (hi : (homing s x o).inReset = false) (hm : Memory.wf (homing s x o).mem = true) (hs : settledTest (homing s x o) = true) :
    HomeRuns (homing s x o) x 0 ⟨0, 0, flat 3, o, .page .a⟩ [] :=
  ⟨rfl, rfl, rfl, ho, ⟨hw, hi⟩, hm, settled_of hs⟩

/-- LOADING with every read made and the count held. -/
def allRead : State := { loading with loader := { Loader.idle with count := some 4 } }

/-- The part HALTED, with no request waiting. -/
def halted : State := { live with mode := .halted }

/-- Head 0 is ADOPTING through MODE. -/
def adopting0 : State := at0 live fun hd => { hd with state := .adopting }

theorem witness_PageTransfersEnd_home :
    HomeRuns (homing loading (.pageWrite 0 .a 0 (flat 3)) .homeLoader) (.pageWrite 0 .a 0 (flat 3)) 0 ⟨0, 0, flat 3, .homeLoader, .page .a⟩ []
    ∧ loading.mode = .loading
    ∧ HomeRuns (homing halted (.pageWrite 0 .a 0 (flat 3)) .homeLeft) (.pageWrite 0 .a 0 (flat 3)) 0 ⟨0, 0, flat 3, .homeLeft, .page .a⟩ []
    ∧ halted.mode = .halted
    ∧ HomeRuns (homing adopting0 (.pageWrite 0 .a 0 (flat 3)) .homeHead) (.pageWrite 0 .a 0 (flat 3)) 0 ⟨0, 0, flat 3, .homeHead, .page .a⟩ []
    ∧ adopting0.mode = .running ∧ (adopting0.head 0).state = .adopting
    ∧ (after (.pageWriteEnd 0x80) (homing adopting0 (.pageWrite 0 .a 0 (flat 3)) .homeHead)).mode = .running
    ∧ (after (.pageWriteEnd 0x80) (homing loading (.pageWrite 0 .a 0 (flat 3)) .homeLoader)).mode = .loading := by
  refine ⟨homeRuns_of ?_ ?_ ?_ ?_ ?_, ?_, homeRuns_of ?_ ?_ ?_ ?_ ?_, ?_, homeRuns_of ?_ ?_ ?_ ?_ ?_, ?_, ?_, ?_, ?_⟩ <;> decide +kernel

/-- A write that a RESET command has let run, in HALTED. -/
def letRunning (x : Xfer) : State := { halted with grant := some ⟨x, true, true⟩ }

theorem letRun_of {x : Xfer} (hs : settledTest (letRunning x) = true) : LetRun (letRunning x) x :=
  ⟨⟨true, rfl⟩, Or.inl rfl, settled_of hs, rfl⟩

theorem witness_PageTransfersEnd_letRun :
    LetRun (letRunning (.pageWrite 0 .b 2 (flat 20))) (.pageWrite 0 .b 2 (flat 20))
    ∧ ({ halted with grant := some ⟨.pageCheck 11, false, true⟩ } : State).grant = some ⟨.pageCheck 11, false, true⟩
    ∧ ({ halted with grant := some ⟨.pageCheck 11, false, true⟩ } : State).mode ≠ .draining
    ∧ ({ halted with grant := some ⟨.pageCheck 11, false, true⟩ } : State).settled :=
  ⟨letRun_of (by decide +kernel), by decide +kernel, by decide +kernel, settled_of (by decide +kernel)⟩

theorem witness_PointerWriteEndsThePageJob :
    MovesOn (paging (.pointerWrite 0 .b)) 0 mv
    ∧ PageRuns (paging (.pointerWrite 0 .b)) (.pointerWrite 0 .b) ⟨0, 2, flat 20, .frame, .check⟩ [] := by
  refine ⟨⟨?_, ?_, ?_⟩, pageRuns_paging _ ?_ ?_ (by unfold State.memoryOk; decide +kernel)⟩ <;> decide +kernel

theorem witness_PointerWriteEndsThePageJob_home :
    HomeRuns (homing allRead (.pointerWrite 0 .a) .homeLoader) (.pointerWrite 0 .a) 0 ⟨0, 0, flat 3, .homeLoader, .page .a⟩ []
    ∧ (after (.pointerWriteEnd false) (homing allRead (.pointerWrite 0 .a) .homeLoader)).mode = .running
    ∧ allRead.loader.next = none ∧ allRead.loader.count ≠ none ∧ allRead.loader.stale = false ∧ allRead.busy .loader = false
    ∧ (after (.pointerWriteEnd false) (homing loading (.pointerWrite 0 .a) .homeLoader)).mode = .loading
    ∧ HomeRuns (homing loading (.pointerWrite 0 .a) .homeLoader) (.pointerWrite 0 .a) 0 ⟨0, 0, flat 3, .homeLoader, .page .a⟩ []
    ∧ HomeRuns (homing halted (.pointerWrite 0 .a) .homeLeft) (.pointerWrite 0 .a) 0 ⟨0, 0, flat 3, .homeLeft, .page .a⟩ []
    ∧ HomeRuns (homing adopting0 (.pointerWrite 0 .a) .homeHead) (.pointerWrite 0 .a) 0 ⟨0, 0, flat 3, .homeHead, .page .a⟩ []
    ∧ (adopting0.head 0).state = .adopting ∧ (adopting0.head 0).queue = [] ∧ (adopting0.head 0).direct = none
    ∧ (after (.pointerWriteEnd false) (homing adopting0 (.pointerWrite 0 .a) .homeHead)).mode = .running := by
  refine ⟨homeRuns_of ?_ ?_ ?_ ?_ ?_, ?_, ?_, ?_, ?_, ?_, ?_, homeRuns_of ?_ ?_ ?_ ?_ ?_, homeRuns_of ?_ ?_ ?_ ?_ ?_,
    homeRuns_of ?_ ?_ ?_ ?_ ?_, ?_, ?_, ?_, ?_⟩ <;> decide +kernel

theorem witness_PointerWriteEndsThePageJob_letRun :
    LetRun (letRunning (.pointerWrite 0 .b)) (.pointerWrite 0 .b) ∧ LetRun (letRunning (.pointerWrite 11 .a)) (.pointerWrite 11 .a) :=
  ⟨letRun_of (by decide +kernel), letRun_of (by decide +kernel)⟩

/-- A home page left behind by a failed START raises its head fault in HALTED (R28, R29; log entry 14). -/
theorem test_homeLeft_fault :
    (after (.pointerWriteEnd true) (homing halted (.pointerWrite 0 .a) .homeLeft)).status.headFaults[0]
      = some ⟨.memory, none, 0, false⟩ := by decide +kernel

/-- The transfer in progress is the last of head 0's page job, its move at the last frame. -/
def finishingBy (x : Xfer) : State := { finishing with grant := some ⟨x, false, false⟩ }

theorem finishes_of {s : State} {x : Xfer} {m : MoveRec} (hl : s.mode = .running ∨ s.mode = .draining) (hg : s.grant = some ⟨x, false, false⟩)
    (hj : s.pageJobs = [⟨0, 2, flat 20, .frame, .check⟩]) (hw : s.waits .pageWriter = false) (hi : s.inReset = false)
    (hm : Memory.wf s.mem = true) (hs : (s.head 0).state = .moving) (hv : (s.head 0).move = some m)
    (hp : m.pending = false) (hk : m.k = m.dur) (hh : heldTest (completedState s 0 m) 0 = true) (hc : s.claimOf 0 .cue = none) :
    Finishes s x 0 m ⟨0, 2, flat 20, .frame, .check⟩ [] :=
  ⟨⟨hl, hg, hj, rfl, ⟨hw, hi⟩, hm⟩, rfl, hs, hv, ⟨hp, hk⟩, held_of hh, hc⟩

theorem witness_LastPageCompletesTheMove :
    Finishes finishing (.pointerWrite 0 .b) 0 { mv with k := 4 } ⟨0, 2, flat 20, .frame, .check⟩ []
    ∧ endsJob (.pointerWriteEnd false) (.pointerWrite 0 .b) 0 false ∧ endsJob (.pointerWriteEnd true) (.pointerWrite 0 .b) 0 true
    ∧ finishing.claims = [] ∧ (after (.pointerWriteEnd false) finishing).zoneTable = live.zoneTable.set 1 (some 0)
    ∧ Finishes (finishingBy (.pageWrite 0 .b 2 (flat 20))) (.pageWrite 0 .b 2 (flat 20)) 0 { mv with k := 4 }
        ⟨0, 2, flat 20, .frame, .check⟩ []
    ∧ endsJob (.pageWriteEnd 0x80) (.pageWrite 0 .b 2 (flat 20)) 0 true
    ∧ Finishes (finishingBy (.pageCheck 0)) (.pageCheck 0) 0 { mv with k := 4 } ⟨0, 2, flat 20, .frame, .check⟩ []
    ∧ endsJob (.pointerCheckReadEnd true) (.pageCheck 0) 0 true := by
  refine ⟨finishes_of (Or.inl ?_) ?_ ?_ ?_ ?_ ?_ ?_ ?_ ?_ ?_ ?_ ?_, Or.inl ⟨.b, rfl, rfl⟩, Or.inl ⟨.b, rfl, rfl⟩, ?_, ?_,
    finishes_of (Or.inl ?_) ?_ ?_ ?_ ?_ ?_ ?_ ?_ ?_ ?_ ?_ ?_, Or.inr (Or.inl ⟨rfl, .b, 2, flat 20, 0x80, rfl, ?_, rfl⟩),
    finishes_of (Or.inl ?_) ?_ ?_ ?_ ?_ ?_ ?_ ?_ ?_ ?_ ?_ ?_, Or.inr (Or.inr ⟨rfl, rfl, rfl⟩)⟩ <;> decide +kernel

theorem witness_LastPageCompletesTheMove_halt :
    Finishes { finishing with mode := .draining } (.pointerWrite 0 .b) 0 { mv with k := 4 } ⟨0, 2, flat 20, .frame, .check⟩ []
    ∧ finishing.saver = [] ∧ (∀ g : HeadId, g ≠ 0 → (finishing.head g).state ≠ .moving ∧ (finishing.head g).state ≠ .restoring)
    ∧ (after (.pointerWriteEnd true) { finishing with mode := .draining }).mode = .halted := by
  refine ⟨finishes_of (Or.inr ?_) ?_ ?_ ?_ ?_ ?_ ?_ ?_ ?_ ?_ ?_ ?_, ?_, ?_, ?_⟩ <;> decide +kernel

/-- A cue of head 0 waits at FIRE, or its direct cue at STAGING, while its move ends; another head's claim waits for zone 3. -/
def finishingHeld (staged : Bool) : State :=
  at0 { finishing with claims := [⟨1, .restore, .set, 8, 9⟩], zoneTable := finishing.zoneTable.set 3 (some 5) } fun hd =>
    if staged then { hd with queue := [rcue 0 .step false] } else { hd with direct := some dcue }

theorem witness_LastPageCompletesTheMove_held :
    Finishes (finishingHeld true) (.pointerWrite 0 .b) 0 { mv with k := 4 } ⟨0, 2, flat 20, .frame, .check⟩ []
    ∧ Finishes (finishingHeld false) (.pointerWrite 0 .b) 0 { mv with k := 4 } ⟨0, 2, flat 20, .frame, .check⟩ []
    ∧ ((finishingHeld true).head 0).candidate = some (rcue 0 .step false) ∧ ((finishingHeld false).head 0).candidate = some dcue
    ∧ Releases (finishingHeld true) 0 { mv with k := 4 } ∧ noGrant (finishingHeld true) 0 { mv with k := 4 } := by
  refine ⟨finishes_of (Or.inl ?_) ?_ ?_ ?_ ?_ ?_ ?_ ?_ ?_ ?_ ?_ ?_, finishes_of (Or.inl ?_) ?_ ?_ ?_ ?_ ?_ ?_ ?_ ?_ ?_ ?_ ?_, ?_, ?_, ⟨2, ?_⟩,
    Or.inr fun q hq => ?_⟩
  case refine_28 =>
    cases List.mem_singleton.mp hq
    unfold Grantable
    decide +kernel
  all_goals decide +kernel

/-- Claims of heads 1 and 2, with restored moves of both, wait while head 0's move ends; head 5 owns zone 3. -/
def scanning (cs : List Claim) : State :=
  { (finishing.setHead 1 fun hd => { hd with move := some { mv with pending := true } }).setHead 2 fun hd =>
      { hd with move := some { mv with level := .live, pending := true } } with
    claims := cs, zoneTable := finishing.zoneTable.set 3 (some 5) }

/-- A restored move's claim on zones. -/
def wants (h : HeadId) (z : Zones) : Claim := ⟨h, .restore, .set, z, 9⟩

theorem witness_LastPageCompletesTheMove_scan :
    Finishes (scanning [wants 1 4]) (.pointerWrite 0 .b) 0 { mv with k := 4 } ⟨0, 2, flat 20, .frame, .check⟩ []
    ∧ Releases (scanning [wants 1 4]) 0 { mv with k := 4 } ∧ (scanning [wants 1 4]).mode = .running
    ∧ Grantable (scanning [wants 1 4]) 0 { mv with k := 4 } (wants 1 4)
    ∧ ¬ Grantable (scanning [wants 1 12]) 0 { mv with k := 4 } (wants 1 12)
    ∧ ((scanning [wants 1 4]).head 1).move = some { mv with pending := true }
    ∧ ¬ Releases (at0 (scanning [wants 1 4]) fun hd => { hd with move := some { mv with k := 4, stand := 0 } }) 0 { mv with k := 4, stand := 0 } := by
  refine ⟨finishes_of (Or.inl ?_) ?_ ?_ ?_ ?_ ?_ ?_ ?_ ?_ ?_ ?_ ?_, ⟨2, ?_⟩, ?_, ?_, ?_, ?_, ?_⟩ <;> (try unfold Grantable) <;>
    (try unfold Releases) <;> decide +kernel

/-- A staged direct cue of head 1 that claims zone 2. -/
def pedCue : Cue := { dcue with stage := .staged (.ped (flat 5) 4 0) }

/-- The candidate of head 1 waits for zone 2 while head 0's move ends. -/
def scanningCue : State :=
  (scanning [⟨1, .cue, .live, 4, 9⟩]).setHead 1 fun hd =>
    { hd with move := none, direct := some pedCue, queue := [rcue 2 .step false], gate := some .zone }

theorem witness_LastPageCompletesTheMove_cue :
    Finishes scanningCue (.pointerWrite 0 .b) 0 { mv with k := 4 } ⟨0, 2, flat 20, .frame, .check⟩ []
    ∧ Releases scanningCue 0 { mv with k := 4 } ∧ Grantable scanningCue 0 { mv with k := 4 } ⟨1, .cue, .live, 4, 9⟩
    ∧ (scanningCue.head 1).state = .rest ∧ (scanningCue.head 1).candidate = some pedCue
    ∧ pedCue.stage = .staged (.ped (flat 5) 4 0) ∧ (ShotCopy.ped (flat 5) 4 0).claim = 4
    ∧ (cuesInOrder (scanningCue.head 1))[1]? = some (rcue 2 .step false) ∧ (rcue 2 .step false).released = false
    ∧ scanningCue.cueDuration 1 pedCue (.ped (flat 5) 4 0) ≤ 65535
    ∧ 65535 < scanningCue.cueDuration 1 pedCue (.ped (flat 0x7FFFFFFF) 4 0) := by
  refine ⟨finishes_of (Or.inl ?_) ?_ ?_ ?_ ?_ ?_ ?_ ?_ ?_ ?_ ?_ ?_, ⟨2, ?_⟩, ?_, ?_, ?_, ?_, ?_, ?_, ?_, ?_, ?_⟩ <;>
    (try unfold Grantable) <;> decide +kernel

theorem witness_LastPageCompletesTheMove_two :
    Finishes (scanning [wants 1 4, wants 2 6]) (.pointerWrite 0 .b) 0 { mv with k := 4 } ⟨0, 2, flat 20, .frame, .check⟩ []
    ∧ Finishes (scanning [wants 1 12, wants 2 4]) (.pointerWrite 0 .b) 0 { mv with k := 4 } ⟨0, 2, flat 20, .frame, .check⟩ []
    ∧ Releases (scanning [wants 1 4, wants 2 6]) 0 { mv with k := 4 }
    ∧ Grantable (scanning [wants 1 4, wants 2 6]) 0 { mv with k := 4 } (wants 1 4) ∧ (wants 1 4).zones &&& (wants 2 6).zones ≠ 0
    ∧ Releases (scanning [wants 1 12, wants 2 4]) 0 { mv with k := 4 }
    ∧ ¬ Grantable (scanning [wants 1 12, wants 2 4]) 0 { mv with k := 4 } (wants 1 12)
    ∧ Grantable (scanning [wants 1 12, wants 2 4]) 0 { mv with k := 4 } (wants 2 4)
    ∧ ((scanning [wants 1 4, wants 2 6]).head 1).move = some { mv with pending := true }
    ∧ ((scanning [wants 1 4, wants 2 6]).head 2).move = some { mv with level := .live, pending := true } := by
  refine ⟨finishes_of (Or.inl ?_) ?_ ?_ ?_ ?_ ?_ ?_ ?_ ?_ ?_ ?_ ?_, finishes_of (Or.inl ?_) ?_ ?_ ?_ ?_ ?_ ?_ ?_ ?_ ?_ ?_ ?_, ⟨2, ?_⟩, ?_,
    ?_, ⟨2, ?_⟩, ?_, ?_, ?_, ?_⟩ <;> (try unfold Grantable) <;> decide +kernel

/-- The empty tag write of head 0's SET slot is in progress. -/
def emptying : State := { granted live (.emptyTag 0 .set) with saver := [⟨.emptyTag, 0, .set, ref3, false⟩] }

/-- The part drains, with the end of one job of the saver all that is left. -/
def lastJob (j : SaveJob) (x : Xfer) : State := { granted live x with mode := .draining, saver := [j] }

theorem saverRuns_of {s : State} {x : Xfer} {j : SaveJob} {rest : List SaveJob} (hl : s.mode = .running ∨ s.mode = .draining)
    (hg : s.grant = some ⟨x, false, false⟩) (hj : s.saver = j :: rest) (hs : settledTest s = true) (hm : Memory.wf s.mem = true) :
    SaverRuns s x j rest := ⟨hl, hg, hj, settled_of hs, hm⟩

theorem witness_SaverTransfersEnd :
    SaverRuns saving (.save 0 mv.saved) ⟨.save mv.saved, 0, mv.saved.level, ref3, false⟩ []
    ∧ SaverRuns { saving with saver := [⟨.save mv.saved, 0, .set, ref3, true⟩] } (.save 0 mv.saved)
        ⟨.save mv.saved, 0, mv.saved.level, ref3, true⟩ []
    ∧ SaverRuns emptying (.emptyTag 0 .set) ⟨.emptyTag, 0, .set, ref3, false⟩ []
    ∧ (emptying.head 0).queue = [] ∧ (emptying.head 0).direct = none ∧ (tagging.head 0).queue ≠ []
    ∧ SaverRuns tagging (.emptyTag 0 .park) ⟨.emptyTag, 0, .park, ref3, false⟩ []
    ∧ (after (.emptyTagWriteEnd true) emptying).mode = emptying.mode := by
  refine ⟨saverRuns_of ?_ ?_ ?_ ?_ ?_, saverRuns_of ?_ ?_ ?_ ?_ ?_, saverRuns_of ?_ ?_ ?_ ?_ ?_, ?_, ?_, ?_,
    saverRuns_of ?_ ?_ ?_ ?_ ?_, ?_⟩ <;> decide +kernel

/-- Head 0's unreleased cue waits at FIRE while its save runs. -/
def savingHeld : State := at0 (savingAtRest .step) fun hd => { hd with queue := [rcue 0 .step false], levels := 2 }

theorem witness_SaverTransfersEnd_held :
    SaverRuns savingHeld (.save 0 mv.saved) ⟨.save mv.saved, 0, mv.saved.level, ref3, false⟩ []
    ∧ (savingHeld.head 0).candidate = some (rcue 0 .step false) ∧ heldTest { savingHeld with saver := [] } 0 = true
    ∧ heldTest (slotLost savingHeld 0 .set [⟨.emptyTag, 0, .set, ref3, false⟩]) 0 = true
    ∧ SaverRuns (at0 emptying fun hd => { hd with queue := [rcue 0 .step false] }) (.emptyTag 0 .set) ⟨.emptyTag, 0, .set, ref3, false⟩ []
    ∧ heldTest { at0 emptying fun hd => { hd with queue := [rcue 0 .step false] } with saver := [] } 0 = true := by
  refine ⟨saverRuns_of ?_ ?_ ?_ ?_ ?_, ?_, ?_, ?_, saverRuns_of ?_ ?_ ?_ ?_ ?_, ?_⟩ <;> decide +kernel

theorem witness_SaverTransfersEnd_drain :
    SaverRuns (lastJob ⟨.save mv.saved, 0, .set, ref3, false⟩ (.save 0 mv.saved)) (.save 0 mv.saved)
        ⟨.save mv.saved, 0, mv.saved.level, ref3, false⟩ []
    ∧ lastToDrain (lastJob ⟨.save mv.saved, 0, .set, ref3, false⟩ (.save 0 mv.saved)) 0 []
    ∧ SaverRuns (lastJob ⟨.emptyTag, 11, .override, ref3, false⟩ (.emptyTag 11 .override)) (.emptyTag 11 .override)
        ⟨.emptyTag, 11, .override, ref3, false⟩ []
    ∧ lastToDrain (lastJob ⟨.emptyTag, 11, .override, ref3, false⟩ (.emptyTag 11 .override)) 11 []
    ∧ (after (.saveTransferEnd 1) (lastJob ⟨.save mv.saved, 0, .set, ref3, false⟩ (.save 0 mv.saved))).mode = .draining := by
  refine ⟨saverRuns_of ?_ ?_ ?_ ?_ ?_, ⟨?_, ⟨?_, ?_⟩, ?_, ?_, ?_, ?_⟩, saverRuns_of ?_ ?_ ?_ ?_ ?_, ⟨?_, ⟨?_, ?_⟩, ?_, ?_, ?_, ?_⟩, ?_⟩ <;>
    decide +kernel

theorem witness_SaverTransfersEnd_letRun :
    LetRun (letRunning (.save 0 mv.saved)) (.save 0 mv.saved) ∧ LetRun (letRunning (.emptyTag 11 .override)) (.emptyTag 11 .override) :=
  ⟨letRun_of (by decide +kernel), letRun_of (by decide +kernel)⟩

/-- The restore read of a saved move of head 0 at SET is in progress; the slot holds the words of the move. -/
def restoring (m : SavedMove) : State :=
  withWords { granted (at0 live fun hd => { hd with state := .restoring, levels := 2 }) (.restore 0 .set) with
    saver := [⟨.restore, 0, .set, ref3, false⟩] } 0x15040 m.words

theorem witness_RestoreReadEndsInMoveOrLoss :
    SaverRuns (restoring mv.saved) (.restore 0 .set) ⟨.restore, 0, .set, ref3, false⟩ []
    ∧ ((restoring mv.saved).head 0).state = .restoring
    ∧ (restoring mv.saved).mem.readWord (slotBase 0 .set + 60) = BitVec.ofNat 32 (0x5A7E0000 + Level.set.num)
    ∧ restoredDuration (restoring mv.saved) 0 (savedAt (restoring mv.saved) 0 .set) ≤ 65535
    ∧ (restoring mv.saved).claimOf 0 .restore = none ∧ ((restoring mv.saved).head 0).freeze.any = false
    ∧ ((restoring mv.saved).head 0).onAir = false
    ∧ (∀ z : Fin 32, (mv.stand ||| mv.path).getLsbD z.val = true → (restoring mv.saved).zoneTable[z.val] = none)
    ∧ 65535 < restoredDuration (restoring { mv.saved with target := flat 0x7FFFFFFF }) 0
        (savedAt (restoring { mv.saved with target := flat 0x7FFFFFFF }) 0 .set)
    ∧ highest (levelDrop ((restoring mv.saved).head 0).levels .set) = none := by
  refine ⟨saverRuns_of ?_ ?_ ?_ ?_ ?_, ?_, ?_, ?_, ?_, ?_, ?_, ?_, ?_, ?_⟩ <;> decide +kernel

/-- The restored move of head 0 finds zone 1 owned by head 5, or its head on air, or the part draining. -/
def blocked (patience : Nat) (maystart onAir : Bool) : State :=
  at0 { restoring mv.saved with mode := .draining, zoneTable := live.zoneTable.set 1 (some 5),
                                tables := { tables with levels := Vector.replicate 4 ⟨100, patience, maystart, true⟩ } } fun hd =>
    { hd with onAir := onAir }

theorem witness_RestoreReadEndsInMoveOrLoss_waits :
    (∀ p ∈ [0, 1], SaverRuns (blocked p true true) (.restore 0 .set) ⟨.restore, 0, .set, ref3, false⟩ []
      ∧ ((blocked p true true).levelRec .set).patience = p ∧ ((blocked p true true).levelRec .set).mayStartOnAir = true)
    ∧ SaverRuns (blocked 1 false true) (.restore 0 .set) ⟨.restore, 0, .set, ref3, false⟩ []
    ∧ ((blocked 1 false true).head 0).onAir = true ∧ ((blocked 1 false true).levelRec .set).mayStartOnAir = false
    ∧ (mv.stand ||| mv.path).getLsbD (1 : Fin 32).val = true ∧ (blocked 1 true true).zoneTable[(1 : Fin 32).val] = some 5
    ∧ (blocked 1 true true).claimOf 0 .restore = none
    ∧ restoredDuration (blocked 1 true true) 0 (savedAt (blocked 1 true true) 0 .set) ≤ 65535
    ∧ (savedAt (blocked 1 true true) 0 .set).stand = mv.stand := by
  refine ⟨fun p hp => ?_, saverRuns_of ?_ ?_ ?_ ?_ ?_, ?_, ?_, ?_, ?_, ?_, ?_, ?_⟩
  · simp only [List.mem_cons, List.not_mem_nil, or_false] at hp
    rcases hp with rfl | rfl <;> refine ⟨saverRuns_of ?_ ?_ ?_ ?_ ?_, ?_, ?_⟩ <;> decide +kernel
  all_goals decide +kernel

/-- A status transfer is in progress. -/
def reporting (r : RecId) (half : Half) (n : Nat) : State :=
  { granted live (.status r half) with status := { live.status with job := some ⟨r, List.replicate n 3, false⟩ } }

theorem witness_StatusTransfersEnd :
    (reporting 0 .first 16).settled ∧ (reporting 0 .first 16).memoryOk
    ∧ (reporting 0 .first 16).grant = some ⟨.status 0 .first, false, false⟩
    ∧ (reporting 0 .first 16).status.job = some ⟨0, List.replicate 16 3, false⟩ ∧ (List.replicate 16 (3 : Word)).length = 16
    ∧ (reporting 12 .first 32).settled ∧ (reporting 12 .first 32).grant = some ⟨.status 12 .first, false, false⟩
    ∧ (reporting 12 .second 32).settled ∧ (reporting 12 .second 32).grant = some ⟨.status 12 .second, false, false⟩
    ∧ (reporting 12 .second 32).status.job = some ⟨12, List.replicate 32 3, false⟩ ∧ (List.replicate 32 (3 : Word)).length = 32
    ∧ ({ reporting 12 .first 32 with grant := some ⟨.status 12 .first, true, false⟩ } : State).settled :=
  ⟨settled_of (by decide +kernel), by unfold State.memoryOk; decide +kernel, rfl, rfl, by decide, settled_of (by decide +kernel), rfl,
    settled_of (by decide +kernel), rfl, rfl, by decide, settled_of (by decide +kernel)⟩

theorem witness_StatusTransfersEnd_owed :
    (after .floorAsserted live).image 0 0 ≠ live.image 0 0 ∧ exec .floorAsserted live = .next (after .floorAsserted live)
    ∧ (after (.hold 1) moving).image 1 0 ≠ moving.image 1 0 ∧ exec (.hold 1) moving = .next (after (.hold 1) moving) :=
  ⟨by decide +kernel, rfl, by decide +kernel, rfl⟩

end Sys2Proof.Tests
end

section
/-! PROOFS. The host's path: what forwarding an operation and ending its transfer do to the state, and that a host read passes
(R8). -/
namespace Sys2Proof.Machine

/-! ## The arms of the host's commands -/

theorem exec_hostRead_eq (addr : Addr) (s : State) :
    exec (.hostRead addr) s = .next (s.hostArrival ⟨false, addr, 15, 0, none⟩ []) := rfl

theorem exec_hostTransferEnd_eq (err : Bool) (s : State) : exec (.hostTransferEnd err) s = execHostTransferEnd err s := rfl

/-- HOST_TRANSFER_END of a granted host transfer is one event. -/
theorem exec_hostTransferEnd_of_granted {s : State} {op : HostOp} (granted : s.grants .host) (inProgress : s.near.op = some op)
    (err : Bool) : exec (.hostTransferEnd err) s = .next (s.event fun t => t.hostTransferEnd op err) := by
  have isGranted : s.granted .host = true := by
    rw [State.granted, granted]
    rfl
  rw [exec_hostTransferEnd_eq, execHostTransferEnd, isGranted, inProgress]

/-! ## Settled parts -/

/-- Whether a change of part mode is due depends on the mode, the loader, the page jobs, the saver, the heads and the far-port
clients other than the host (R30, R32). -/
theorem settled_congr {s t : State} (mode : t.mode = s.mode) (loader : t.loader = s.loader) (pageJobs : t.pageJobs = s.pageJobs)
    (saver : t.saver = s.saver) (heads : t.heads = s.heads) (busy : ∀ k, k ≠ .host → t.busy k = s.busy k) :
    t.settled ↔ s.settled := by
  have loaded : t.loaded = s.loaded := by
    simp only [State.loaded, mode, loader, pageJobs, busy .loader (by decide)]
  have head : t.head = s.head := funext fun h => head_congr s t h heads
  have saveWriting : t.saveWriting = s.saveWriting := by
    funext h
    rw [State.saveWriting, State.saveWriting, saver]
  have drained : t.drained = s.drained := by
    simp only [State.drained, head, saveWriting, pageJobs, busy .pageWriter (by decide)]
  simp only [State.settled, loaded, drained, mode]

/-- The end of an event leaves every area of the settled part that the event's change has made. -/
theorem sameArea_event {s : State} {f : State → State} (settled : (f { s with eventNo := s.eventNo + 1 }).settled) (a : Area) :
    sameArea (f { s with eventNo := s.eventNo + 1 }) (s.event f) a :=
  leaves_finish (c := []) _ _ settled a List.not_mem_nil

theorem event_near {s : State} {f : State → State} (settled : (f { s with eventNo := s.eventNo + 1 }).settled) :
    (s.event f).near = (f { s with eventNo := s.eventNo + 1 }).near :=
  sameArea_event settled .nearPort

theorem event_waiting {s : State} {f : State → State} (settled : (f { s with eventNo := s.eventNo + 1 }).settled)
    {q : Request} (waits : q ∈ (f { s with eventNo := s.eventNo + 1 }).waiting) : q ∈ (s.event f).waiting :=
  sameArea_event settled .requests q waits

/-! ## A forwarded operation -/

/-- A request of the host makes no other client busy. -/
theorem forward_busy (s : State) (op : HostOp) {k : Client} (notHost : k ≠ .host) : (s.forward op).busy k = s.busy k := by
  have waits : (s.forward op).waits k = s.waits k := by
    simp [State.waits, State.forward, State.request, Xfer.client, notHost.symm]
  have granted : (s.forward op).granted k = s.granted k := rfl
  rw [State.busy, State.busy, waits, granted]

theorem forward_settled (s : State) (op : HostOp) : (s.forward op).settled ↔ s.settled :=
  settled_congr rfl rfl rfl rfl rfl fun _ => forward_busy s op

/-- A ready near port takes the operation that arrives, as one event (R1, R16). -/
theorem hostArrival_of_ready {s : State} (ready : s.Ready) (op : HostOp) (order : List Recheck) :
    s.hostArrival op order = s.event fun t => t.takeOp op order := by
  obtain ⟨noOp, noHeld, noReset, -⟩ := ready
  have noReset' : ({ s with eventNo := s.eventNo + 1 } : State).inReset = false := noReset
  simp [State.hostArrival, State.nearBusy, State.event, State.arrive, noOp, noHeld, noReset']

/-- An event that forwards an operation leaves it in progress with its request waiting, and changes the near port alone
(R5, R8). -/
theorem event_forward_forwards {s : State} (settled : s.settled) (op : HostOp) :
    Forwards (s.event fun t => t.forward op) op ∧ Leaves [.nearPort] s (s.event fun t => t.forward op) := by
  have stays : (State.forward { s with eventNo := s.eventNo + 1 } op).settled := (forward_settled _ op).mpr settled
  have near : (s.event fun t => t.forward op).near = { s.near with op := some op, answer := none } :=
    event_near stays
  have request : (⟨.host, false, s.eventNo + 1⟩ : Request) ∈ (s.event fun t => t.forward op).waiting :=
    event_waiting (f := fun t => t.forward op) stays (List.mem_append_right _ (List.mem_singleton_self _))
  refine ⟨⟨?op, ?unanswered, ?held, ?request⟩, leaves_event s _ stays (leaves_forward _ op List.mem_cons_self)⟩
  case op => rw [near]
  case unanswered => rw [near]
  case held => simp [State.wait, near]
  case request => exact ⟨_, request, rfl⟩

/-! ## The end of a host transfer -/

/-- No other client becomes idle at the end of the host's grant. -/
theorem endGrant_answerHost_busy {s : State} (granted : s.grants .host) (a : Answer) {k : Client} (notHost : k ≠ .host) :
    (s.endGrant.answerHost a).busy k = s.busy k := by
  have waits : (s.endGrant.answerHost a).waits k = s.waits k := rfl
  have before : s.granted k = false := by
    rw [State.granted, granted]
    simp [Xfer.client, notHost.symm]
  have afterwards : (s.endGrant.answerHost a).granted k = false := rfl
  rw [State.busy, State.busy, waits, before, afterwards]

theorem endGrant_answerHost_settled {s : State} (granted : s.grants .host) (a : Answer) :
    (s.endGrant.answerHost a).settled ↔ s.settled :=
  settled_congr rfl rfl rfl rfl rfl fun _ => endGrant_answerHost_busy granted a

/-- The transfer of a host read stores nothing and gives no notice (R8). -/
theorem hostTransferEnd_read (s : State) (addr : Addr) (lanes : BitVec 4) (data : Word) (err : Bool) :
    s.hostTransferEnd ⟨false, addr, lanes, data, none⟩ err
      = s.endGrant.answerHost (if err then .err else .readData (s.mem.readWord (wordAddr addr))) := rfl

/-! ## Host reads -/

/-- A host read at a ready near port is forwarded whatever its window, the part mode and the heads (R8). -/
theorem hostRead_forwards {s : State} (ready : s.Ready) (addr : Addr) :
    ∃ t, exec (.hostRead addr) s = .next t ∧ Forwards t ⟨false, addr, 15, 0, none⟩ ∧ Leaves [.nearPort] s t := by
  refine ⟨_, ?_, event_forward_forwards ready.settled ⟨false, addr, 15, 0, none⟩⟩
  rw [exec_hostRead_eq, hostArrival_of_ready ready]
  rfl

/-- The end of a host read's transfer answers the memory's word or ERR, and changes the near port and the grant alone (R8). -/
theorem hostTransferEnd_answers_read {s : State} {addr : Addr} (granted : s.grants .host)
    (inProgress : s.near.op = some ⟨false, addr, 15, 0, none⟩) (settled : s.settled) (err : Bool) :
    ∃ t, exec (.hostTransferEnd err) s = .next t ∧ t.near.op = none
      ∧ t.near.answer = some (if err then .err else .readData (s.mem.readWord (wordAddr addr)))
      ∧ Leaves [.nearPort, .grant] s t := by
  have stays : (State.hostTransferEnd { s with eventNo := s.eventNo + 1 } ⟨false, addr, 15, 0, none⟩ err).settled := by
    rw [hostTransferEnd_read]
    exact (endGrant_answerHost_settled (s := { s with eventNo := s.eventNo + 1 }) granted _).mpr settled
  have near := event_near (f := fun t => t.hostTransferEnd ⟨false, addr, 15, 0, none⟩ err) stays
  rw [hostTransferEnd_read] at near
  refine ⟨_, exec_hostTransferEnd_of_granted granted inProgress err, congrArg NearPort.op near, congrArg NearPort.answer near,
    leaves_event s _ stays ?_⟩
  rw [hostTransferEnd_read]
  exact Leaves.after (leaves_answerHost _ _ List.mem_cons_self) (leaves_endGrant _)

/-- Settles O10: the read is forwarded in one event and answered in another, and neither makes a change of part mode due. -/
theorem hostReadPasses : Obligations.HostReadPasses :=
  ⟨fun _ addr ready => hostRead_forwards ready addr,
    fun _ _ err granted inProgress settled => hostTransferEnd_answers_read granted inProgress settled err⟩

end Sys2Proof.Machine
end

section
/-! PROOFS. The cue port: how the decoder treats a write to a slot, what a refusal and a forwarded command leave, and which writes
are refused by their form (R37), by the part mode (R39) and, for FIRE, by the fetcher's state (R44). -/
namespace Sys2Proof.Machine

/-! ## Writes to the slots -/

@[simp] theorem slotOp_lanes (k : Nat) (p : Word) : (slotOp k p).lanes = 15 := rfl

@[simp] theorem slotOp_data (k : Nat) (p : Word) : (slotOp k p).data = p := rfl

theorem exec_hostWrite_eq (addr : Addr) (lanes : BitVec 4) (data : Word) (order : List Recheck) (s : State) :
    exec (.hostWrite addr lanes data order) s = .next (s.hostArrival ⟨true, addr, lanes, data, none⟩ order) := rfl

/-- The order that the command of a slot carries as an operand: FIRE's, THAW's and RESUME's, and none for the others. -/
def commandOrder (k : Nat) (order : List Recheck) : List Recheck := if k = 3 ∨ k = 8 ∨ k = 9 then order else []

/-- Each command arrives as the full-word write of its parameter to its slot (R36). -/
theorem exec_command {k : Nat} {p : Word} {order : List Recheck} {c : Instr} (command : commandOf k p order = some c)
    (s : State) : exec c s = .next (s.hostArrival (slotOp k p) (commandOrder k order)) := by
  unfold commandOf at command
  split at command
  case h_14 => cases command
  all_goals
    obtain rfl := Option.some.inj command
    rfl

/-- The commands stand in slots 0 to 12 (section 11.3). -/
theorem slot_lt_of_command {k : Nat} {p : Word} {order : List Recheck} {c : Instr} (command : commandOf k p order = some c) :
    k < 13 := by
  unfold commandOf at command
  split at command
  case h_14 => cases command
  all_goals decide

theorem wordAddr_slot {k : Nat} (lt : k < 16) : wordAddr (BitVec.ofNat 20 (0x13000 + 4 * k)) = 0x13000 + 4 * k := by
  rw [wordAddr, BitVec.toNat_ofNat]
  omega

/-- The addresses from 13000h to 1303Fh are the sixteen slots of the cue port (R2). -/
theorem windowOf_slot {k : Nat} (lt : k < 16) : windowOf (BitVec.ofNat 20 (0x13000 + 4 * k)) = .cue k := by
  have above : ∀ b ≤ 0x13000, ¬ 0x13000 + 4 * k < b := fun b le => by omega
  have below : 0x13000 + 4 * k < 0x13040 := by omega
  have slot : (0x13000 + 4 * k - 0x13000) / 4 = k := by omega
  rw [windowOf, wordAddr_slot lt]
  simp only [above, below, slot, Nat.reduceLeDiff, if_true, if_false]

/-- A write to a slot goes to the command decoder (R3, R7). -/
theorem takeOp_slot (s : State) {k : Nat} (lt : k < 16) (lanes : BitVec 4) (data : Word) (order : List Recheck) :
    s.takeOp ⟨true, BitVec.ofNat 20 (0x13000 + 4 * k), lanes, data, none⟩ order
      = s.offer k ⟨true, BitVec.ofNat 20 (0x13000 + 4 * k), lanes, data, none⟩ order := by
  rw [State.takeOp, windowOf_slot lt, State.treatment]
  rfl

/-- A ready near port offers the write of a slot to the decoder, as one event. -/
theorem hostArrival_slot {s : State} (ready : s.Ready) {k : Nat} (lt : k < 16) (lanes : BitVec 4) (data : Word)
    (order : List Recheck) :
    s.hostArrival ⟨true, BitVec.ofNat 20 (0x13000 + 4 * k), lanes, data, none⟩ order
      = s.event fun t => t.offer k ⟨true, BitVec.ofNat 20 (0x13000 + 4 * k), lanes, data, none⟩ order := by
  simp only [hostArrival_of_ready ready, takeOp_slot _ lt]

/-- A command at a ready near port is offered to the decoder, as one event. -/
theorem exec_command_of_ready {s : State} (ready : s.Ready) {k : Nat} {p : Word} {order : List Recheck} {c : Instr}
    (command : commandOf k p order = some c) :
    exec c s = .next (s.event fun t => t.offer k (slotOp k p) (commandOrder k order)) := by
  have lt : k < 16 := Nat.lt_trans (slot_lt_of_command command) (by decide)
  rw [exec_command command, slotOp, hostArrival_slot ready lt]

/-- An event is what its change makes of the state that counts it. -/
theorem event_congr {s : State} {f g : State → State}
    (same : f { s with eventNo := s.eventNo + 1 } = g { s with eventNo := s.eventNo + 1 }) : s.event f = s.event g := by
  rw [State.event, State.event, same]

/-! ## What the decoder answers -/

theorem and_laneMask_full (data : Word) : data &&& laneMask 15 = data := by
  have full : laneMask 15 = BitVec.allOnes 32 := by decide
  rw [full, BitVec.and_allOnes]

/-- A partial write and a write to slots 13 to 15 are refused with RANGE before any other check (R37, R38). -/
theorem offer_malformed (s : State) {k : Nat} {op : HostOp} (malformed : op.lanes ≠ 15 ∨ 13 ≤ k) (order : List Recheck) :
    s.offer k op order = s.refuse k .range (op.data &&& laneMask op.lanes) := by
  by_cases full : op.lanes = 15
  · have unnamed : 13 ≤ k := malformed.resolve_left (absurd full)
    rw [State.offer, if_neg (not_not_intro full), if_pos unnamed, full, and_laneMask_full]
  · rw [State.offer, if_pos full]

/-- A full-word write to a command's slot whose checks give a reason is refused with it (R38, R40). -/
theorem offer_refused {s : State} {k : Nat} (lt : k < 13) {p : Word} {r : Reason} (judged : s.judge k p = some r)
    (order : List Recheck) : s.offer k (slotOp k p) order = s.refuse k r p := by
  simp [State.offer, judged, Nat.not_le.mpr lt]

/-- A full-word write to a command's slot that passes the checks takes effect and is forwarded (R42). -/
theorem offer_accepted {s : State} {k : Nat} (lt : k < 13) {p : Word} (judged : s.judge k p = none) (order : List Recheck) :
    s.offer k (slotOp k p) order = (s.carryOut k p order).forward (slotOp k p) := by
  simp [State.offer, judged, Nat.not_le.mpr lt]

/-! ## Refusals -/

theorem refuse_settled (s : State) (slot : Nat) (r : Reason) (p : Word) : (s.refuse slot r p).settled ↔ s.settled :=
  settled_congr rfl rfl rfl rfl rfl fun _ _ => rfl

/-- An event that refuses a write answers ERR, overwrites the last-refusal record and leaves the rest (R40, R41). -/
theorem event_refuse_refuses {s : State} (settled : s.settled) (slot : Nat) (r : Reason) (p : Word) :
    Refuses s (s.event fun t => t.refuse slot r p) slot r p := by
  have stays : (State.refuse { s with eventNo := s.eventNo + 1 } slot r p).settled := (refuse_settled _ slot r p).mpr settled
  have near : (s.event fun t => t.refuse slot r p).near = { s.near with op := none, answer := some .err } := event_near stays
  refine ⟨?answered, ?record, ?left⟩
  case answered => simp [near]
  case record => exact sameArea_event (f := fun t => t.refuse slot r p) stays .lastRefusal
  case left => exact leaves_event s _ stays (leaves_refuse _ slot r p (by simp) (by simp))

/-- A command whose checks give a reason is refused with it. -/
theorem command_refused {s : State} (ready : s.Ready) {k : Nat} {p : Word} {order : List Recheck} {c : Instr}
    (command : commandOf k p order = some c) {r : Reason} (judged : s.judge k p = some r) :
    ∃ t, exec c s = .next t ∧ Refuses s t k r p := by
  have judged' : State.judge { s with eventNo := s.eventNo + 1 } k p = some r := judged
  refine ⟨_, exec_command_of_ready ready command, ?_⟩
  rw [event_congr (g := fun t => t.refuse k r p) (offer_refused (slot_lt_of_command command) judged' _)]
  exact event_refuse_refuses ready.settled k r p

/-! ## Accepted commands -/

/-- An event whose change ends with the forwarding of an operation leaves that operation in progress, with its request waiting
(R5, R42). -/
theorem event_forward_after {s : State} {f : State → State} (settled : (f { s with eventNo := s.eventNo + 1 }).settled)
    (op : HostOp) : Forwards (s.event fun t => (f t).forward op) op := by
  have stays : ((f { s with eventNo := s.eventNo + 1 }).forward op).settled := (forward_settled _ op).mpr settled
  have near : (s.event fun t => (f t).forward op).near
      = { (f { s with eventNo := s.eventNo + 1 }).near with op := some op, answer := none } := event_near stays
  refine ⟨?op, ?unanswered, ?held, ?request⟩
  case op => rw [near]
  case unanswered => rw [near]
  case held => simp [State.wait, near]
  case request =>
    exact ⟨_, event_waiting (f := fun t => (f t).forward op) stays (List.mem_append_right _ (List.mem_singleton_self _)), rfl⟩

/-- A command that passes its checks is forwarded to its slot, if its effect leaves no change of part mode due (R42). -/
theorem command_accepted {s : State} (ready : s.Ready) {k : Nat} {p : Word} {order : List Recheck} {c : Instr}
    (command : commandOf k p order = some c) (judged : s.judge k p = none)
    (stays : (State.carryOut { s with eventNo := s.eventNo + 1 } k p (commandOrder k order)).settled) :
    ∃ t, exec c s = .next t ∧ Forwards t (slotOp k p) := by
  have judged' : State.judge { s with eventNo := s.eventNo + 1 } k p = none := judged
  refine ⟨_, exec_command_of_ready ready command, ?_⟩
  rw [event_congr (g := fun t => (t.carryOut k p (commandOrder k order)).forward (slotOp k p))
    (offer_accepted (slot_lt_of_command command) judged' _)]
  exact event_forward_after stays (slotOp k p)

/-! ## The bytes of a partial write -/

theorem laneMask_byte (lanes : BitVec 4) (j : Fin 4) :
    (laneMask lanes).extractLsb' (8 * j.val) 8 = if lanes.getLsbD j.val then BitVec.allOnes 8 else 0#8 := by
  revert lanes j
  decide

/-- The bytes of the enabled lanes are kept and the others are 0 (R41). -/
theorem and_laneMask_byte (data : Word) (lanes : BitVec 4) (j : Fin 4) :
    (data &&& laneMask lanes).toNat / 2 ^ (8 * j.val) % 256 =
      if lanes.getLsbD j.val then data.toNat / 2 ^ (8 * j.val) % 256 else 0 := by
  have byte : ∀ w : Word, w.toNat / 2 ^ (8 * j.val) % 256 = (w.extractLsb' (8 * j.val) 8).toNat := fun w => by
    rw [BitVec.extractLsb'_toNat, Nat.shiftRight_eq_div_pow]
  rw [byte, byte, BitVec.extractLsb'_and, laneMask_byte]
  split
  · rw [BitVec.and_allOnes]
  · rw [BitVec.and_zero]
    rfl

/-- Settles O16: the form of the write is judged before the part mode, and the record keeps the data under the lane mask. -/
theorem partialAndUnnamedSlotsAreRefused : Obligations.PartialAndUnnamedSlotsAreRefused := by
  intro s k lanes data order ready malformed
  refine ⟨_, data &&& laneMask lanes, exec_hostWrite_eq .., ?_, and_laneMask_byte data lanes⟩
  rw [hostArrival_slot ready k.isLt,
    event_congr (g := fun t => t.refuse k.val .range (data &&& laneMask lanes)) (offer_malformed _ malformed order)]
  exact event_refuse_refuses ready.settled k.val .range _

/-! ## The part mode -/

/-- The decoder's table of modes is that of R39. -/
theorem available_iff {k : Nat} (lt : k < 13) (m : PartMode) : available k m = true ↔ m ∈ modesOf k := by
  have table : ∀ i : Fin 13, available i.val m = true ↔ m ∈ modesOf i.val := by cases m <;> decide
  exact table ⟨k, lt⟩

/-- The part mode is the first check of a full-word write to a command's slot (R38). -/
theorem judge_of_unavailable {s : State} {k : Nat} (lt : k < 13) (unavailable : s.mode ∉ modesOf k) (p : Word) :
    s.judge k p = some .mode := by
  have notAvailable : available k s.mode = false := Bool.eq_false_iff.mpr (mt (available_iff lt s.mode).mp unavailable)
  unfold State.judge
  rw [notAvailable]
  rfl

/-- Settles O17: the checks begin with the part mode. -/
theorem commandsAreRefusedByMode : Obligations.CommandsAreRefusedByMode := by
  intro s k p order c ready command unavailable
  exact command_refused ready command (judge_of_unavailable (slot_lt_of_command command) unavailable p)

/-! ## FIRE -/

theorem judge_fire {s : State} (running : s.mode = .running) (p : Word) : s.judge 3 p = s.judgeFire p := by
  rw [State.judge, running]
  rfl

/-- FIRE moves the fetcher's pointers and makes the heads examine the cues it releases (R65). -/
theorem leaves_fire (s : State) (order : List Recheck) : Leaves ([.rundown, .fetchState] ++ allExams) s (s.fire order) :=
  Leaves.after (leaves_releaseBelow _ _ order (List.subset_append_right _ _)) (leaves_setFetcher s _ (by simp) (by simp))

theorem fire_mode (s : State) (order : List Recheck) : (s.fire order).mode = s.mode :=
  leaves_fire s order .partMode (by decide)

/-- Settles O18: a FIRE that a check refuses is answered with its reason; one that passes leaves the part RUNNING and is
forwarded. -/
theorem fireIsJudged : Obligations.FireIsJudged := by
  intro s p order ready running
  have command : commandOf 3 p order = some (.fire p order) := rfl
  have refused {r : Reason} (judged : s.judgeFire p = some r) :=
    command_refused ready command ((judge_fire running p).trans judged)
  have accepted (judged : s.judgeFire p = none) :=
    command_accepted ready command ((judge_fire running p).trans judged)
      (settled_of_running _ ((fire_mode _ order).trans running))
  have index : field p 0 16 = p.toNat % 65536 := by simp [field]
  by_cases opened : s.fetcher.fireOpen = true
  · simp only [if_pos opened]
    exact refused (by rw [State.judgeFire, if_pos opened])
  simp only [if_neg opened]
  by_cases ended : s.fetcher.next = s.fetcher.count
  · simp only [if_pos ended]
    exact refused (by rw [State.judgeFire, if_neg opened, if_pos ended])
  simp only [if_neg ended]
  by_cases unexpected : p.toNat % 65536 ≠ 0xFFFF ∧ p.toNat % 65536 ≠ s.fetcher.next
  · simp only [if_pos unexpected]
    exact refused (by rw [State.judgeFire, if_neg opened, if_neg ended, index, if_pos unexpected])
  · simp only [if_neg unexpected]
    exact accepted (by rw [State.judgeFire, if_neg opened, if_neg ended, index, if_neg unexpected])

end Sys2Proof.Machine
end

section
/-! PROOFS. MOVE: the checks of R46 that a managed head passes, the direct cue its parameter makes (R85), and what the placing of
that cue does to the stager's list, the claims and the head (R86, R90). -/
namespace Sys2Proof.Machine

/-! ## The effect of an accepted command -/

/-- Past the near port, a command that passes its checks leaves what its own block has made of the state (R42). -/
theorem command_accepted_leaves {s : State} (ready : s.Ready) {k : Nat} {p : Word} {order : List Recheck} {c : Instr}
    (command : commandOf k p order = some c) (judged : s.judge k p = none)
    (stays : (State.carryOut { s with eventNo := s.eventNo + 1 } k p (commandOrder k order)).settled) :
    ∃ t, exec c s = .next t ∧ Forwards t (slotOp k p)
      ∧ Leaves [.nearPort] (State.carryOut { s with eventNo := s.eventNo + 1 } k p (commandOrder k order)) t := by
  have judged' : State.judge { s with eventNo := s.eventNo + 1 } k p = none := judged
  refine ⟨_, exec_command_of_ready ready command, ?_⟩
  rw [event_congr (g := fun t => (t.carryOut k p (commandOrder k order)).forward (slotOp k p))
    (offer_accepted (slot_lt_of_command command) judged' _)]
  exact ⟨event_forward_after stays (slotOp k p),
    Leaves.after (leaves_finish _ _ ((forward_settled _ _).mpr stays)) (leaves_forward _ _ List.mem_cons_self)⟩

/-! ## The parameter of MOVE -/

theorem headOf_val (h : HeadId) : headOf h.val = some h := dif_pos h.isLt

/-- A head of managed operation that has adopted its pose: the states in which it has a candidate (R46, R90). -/
def Head.managed (hd : Head) : Prop := hd.state = .rest ∨ hd.state = .moving ∨ hd.state = .restoring

/-- A MOVE to a managed head passes every check (R38, R39, R46). -/
theorem judge_move {s : State} {p : Word} {h : HeadId} (running : s.mode = .running) (names : headOf (field p 0 4) = some h)
    (managed : (s.head h).managed) : s.judge 6 p = none := by
  have ofMove : s.judge 6 p = s.judgeMove p := by
    rw [State.judge, running]
    rfl
  rw [ofMove, State.judgeMove, names]
  obtain state | state | state := managed <;> simp only [state]

/-- An accepted MOVE places a direct cue at the head it names (R85). -/
theorem carryOut_move {s : State} {p : Word} {h : HeadId} (names : headOf (field p 0 4) = some h) (order : List Recheck) :
    s.carryOut 6 p order = s.placeDirect h p := by
  simp only [State.carryOut, names]

/-- The fields of the direct cue by the bits of the parameter (section 11.3). -/
theorem moveCue_fields (p : Word) : moveCue p =
    { origin := .direct, shot := BitVec.ofNat 8 (p.toNat / 2 ^ 10), level := Level.ofNum (p.toNat / 16 % 4 + 1),
      curve := BitVec.ofNat 4 (p.toNat / 2 ^ 6), dur := p.toNat / 2 ^ 18, kind := .step, stepEnd := false,
      stage := .staging, released := true, countdown := none } := by
  have shot : BitVec.ofNat 8 (field p 10 8) = BitVec.ofNat 8 (p.toNat / 2 ^ 10) :=
    BitVec.eq_of_toNat_eq (by simp [field])
  have curve : BitVec.ofNat 4 (field p 6 4) = BitVec.ofNat 4 (p.toNat / 2 ^ 6) :=
    BitVec.eq_of_toNat_eq (by simp [field])
  have dur : field p 18 14 = p.toNat / 2 ^ 18 := Nat.mod_eq_of_lt (by have := p.isLt; omega)
  rw [moveCue, shot, curve, dur]
  rfl

/-! ## The cue that is displaced -/

@[simp] theorem unstage_heads (k : StageKey) (s : State) : (State.unstage k s).heads = s.heads := by
  unfold State.unstage
  dsimp only
  split <;> rfl

@[simp] theorem unstage_claims (k : StageKey) (s : State) : (State.unstage k s).claims = s.claims := by
  unfold State.unstage
  dsimp only
  split <;> rfl

/-- The cue has left the stager, whether it stood in the list or was being read; the others keep their order (R86). -/
theorem unstage_stager (k : StageKey) (s : State) :
    (State.unstage k s).stager.current.toList ++ (State.unstage k s).stager.list
      = (s.stager.current.toList ++ s.stager.list).filter fun x => decide (x ≠ k) := by
  unfold State.unstage
  dsimp only
  split
  case isTrue reading => simp [State.abandon, reading]
  case isFalse other =>
    cases current : s.stager.current with
    | none => simp [current]
    | some x =>
      have ne : x ≠ k := fun e => other (current.trans (congrArg some e))
      simp [current, ne]

/-- The unstarted direct cue of a head leaves the stager; an empty slot has none (R85, R86). -/
def State.unstageDirect (s : State) (h : HeadId) : State :=
  if (s.head h).direct.isSome then State.unstage ⟨h, none⟩ s else s

theorem unstageDirect_empty {s : State} {h : HeadId} (empty : (s.head h).direct = none) : s.unstageDirect h = s := by
  simp [State.unstageDirect, empty]

theorem unstageDirect_occupied {s : State} {h : HeadId} (occupied : (s.head h).direct ≠ none) :
    s.unstageDirect h = State.unstage ⟨h, none⟩ s :=
  if_pos (Option.isSome_iff_ne_none.mpr occupied)

@[simp] theorem unstageDirect_heads (s : State) (h : HeadId) : (s.unstageDirect h).heads = s.heads := by
  unfold State.unstageDirect
  split
  · exact unstage_heads _ s
  · rfl

@[simp] theorem unstageDirect_head (s : State) (h g : HeadId) : (s.unstageDirect h).head g = s.head g :=
  head_congr _ _ g (unstageDirect_heads s h)

@[simp] theorem unstageDirect_claims (s : State) (h : HeadId) : (s.unstageDirect h).claims = s.claims := by
  unfold State.unstageDirect
  split
  · exact unstage_claims _ s
  · rfl

theorem unstageDirect_stager (s : State) (h : HeadId) :
    (s.unstageDirect h).stager.current.toList ++ (s.unstageDirect h).stager.list
      = if (s.head h).direct = none then s.stager.current.toList ++ s.stager.list
        else (s.stager.current.toList ++ s.stager.list).filter fun k => decide (k ≠ ⟨h, none⟩) := by
  split
  case isTrue empty => rw [unstageDirect_empty empty]
  case isFalse occupied => rw [unstageDirect_occupied occupied, unstage_stager]

/-- Only a cue that stands in the slot has a request or a read to give up. -/
theorem leaves_unstageDirect {c : List Area} (s : State) (h : HeadId)
    (read : (s.head h).direct ≠ none → .stager ∈ c ∧ .requests ∈ c ∧ .grant ∈ c) : Leaves c s (s.unstageDirect h) := by
  by_cases empty : (s.head h).direct = none
  · rw [unstageDirect_empty empty]
    exact Leaves.refl c s
  · obtain ⟨stager, requests, grant⟩ := read empty
    rw [unstageDirect_occupied empty]
    exact leaves_unstage _ s stager requests grant

/-! ## The cue that is placed -/

@[simp] theorem withdrawClaim_head (s : State) (h g : HeadId) (k : ClaimKind) : (s.withdrawClaim h k).head g = s.head g := rfl

/-- MOVE up to the examination of its cue: the displaced cue and its claim are gone, the new cue stands in the slot and at the tail
of the stager's list (R85, R90). -/
def State.slotDirect (s : State) (h : HeadId) (p : Word) : State :=
  (((s.unstageDirect h).withdrawClaim h .cue).setHead h fun hd => { hd with direct := some (moveCue p) }).setStager
    fun g => { g with list := g.list ++ [⟨h, none⟩] }

theorem slotDirect_head (s : State) (h : HeadId) (p : Word) :
    (s.slotDirect h p).head h = { s.head h with direct := some (moveCue p) } := by
  calc (s.slotDirect h p).head h
      = (((s.unstageDirect h).withdrawClaim h .cue).setHead h fun hd => { hd with direct := some (moveCue p) }).head h := rfl
    _ = { s.head h with direct := some (moveCue p) } := by
      rw [head_setHead_same, withdrawClaim_head, unstageDirect_head]

/-- In a managed head the direct cue is the candidate (R90). -/
theorem candidate_of_managed {hd : Head} {c : Cue} (managed : hd.managed) (direct : hd.direct = some c) :
    hd.candidate = some c := by
  unfold Head.candidate
  obtain state | state | state := managed <;> simp only [state, direct, Option.some_or]

/-- A cue without a staged copy fails at STAGING, the first gate (R91). -/
theorem gateOf_unstaged (s : State) (h : HeadId) {c : Cue} (unstaged : c.copy = none) : s.gateOf h c = some .staging := by
  simp [State.gateOf, unstaged]

/-- The new cue is the candidate of a managed head and waits at STAGING. -/
theorem placeDirect_waits {s : State} {h : HeadId} (managed : (s.head h).managed) (p : Word) :
    s.placeDirect h p = ((s.slotDirect h p).withdrawClaim h .cue).setGate h (some .staging) := by
  have candidate : ((s.slotDirect h p).head h).candidate = some (moveCue p) := by
    rw [slotDirect_head]
    exact candidate_of_managed managed rfl
  calc s.placeDirect h p = (s.slotDirect h p).examine h := rfl
    _ = _ := examine_fails candidate (gateOf_unstaged _ h rfl)

theorem placeDirect_head {s : State} {h : HeadId} (managed : (s.head h).managed) (p : Word) :
    (s.placeDirect h p).head h = { s.head h with direct := some (moveCue p), gate := some .staging } := by
  rw [placeDirect_waits managed, State.setGate, head_setHead_same, withdrawClaim_head, slotDirect_head]

theorem placeDirect_stager {s : State} {h : HeadId} (managed : (s.head h).managed) (p : Word) :
    (s.placeDirect h p).stager.current.toList ++ (s.placeDirect h p).stager.list
      = (if (s.head h).direct = none then s.stager.current.toList ++ s.stager.list
         else (s.stager.current.toList ++ s.stager.list).filter fun k => decide (k ≠ ⟨h, none⟩)) ++ [⟨h, none⟩] := by
  have stager : (s.placeDirect h p).stager
      = { (s.unstageDirect h).stager with list := (s.unstageDirect h).stager.list ++ [⟨h, none⟩] } := by
    rw [placeDirect_waits managed]
    rfl
  rw [stager, ← List.append_assoc, unstageDirect_stager]

theorem placeDirect_claims {s : State} {h : HeadId} (managed : (s.head h).managed) (p : Word) :
    (s.placeDirect h p).claims = s.claims.filter fun c => !(decide (c.head = h) && decide (c.kind = .cue)) := by
  simp [placeDirect_waits managed, State.setGate, State.slotDirect, State.withdrawClaim, List.filter_filter]

/-- The placing changes the head's cues, the claims and the stager, and the far port only where it displaces a cue. -/
theorem leaves_placeDirect_managed {c : List Area} {s : State} {h : HeadId} (managed : (s.head h).managed) (p : Word)
    (cues : .cues h ∈ c) (claims : .claims ∈ c) (stager : .stager ∈ c)
    (read : (s.head h).direct ≠ none → .requests ∈ c ∧ .grant ∈ c) : Leaves c s (s.placeDirect h p) := by
  have displaced : Leaves c s (s.unstageDirect h) := leaves_unstageDirect s h fun occupied => ⟨stager, read occupied⟩
  have placed : Leaves c (s.unstageDirect h) (s.slotDirect h p) :=
    Leaves.after (leaves_setStager _ _ stager) (Leaves.after (leaves_setHead _ h _ (.inl cues) (.inr ⟨rfl, rfl, rfl⟩)
      (.inr ⟨rfl, rfl, rfl, rfl⟩) (.inr rfl) (.inr rfl) (.inr rfl) (.inr rfl)) (leaves_withdrawClaim _ _ _ claims))
  rw [placeDirect_waits managed]
  exact Leaves.after (leaves_setGate _ _ _ cues)
    (Leaves.after (leaves_withdrawClaim _ _ _ claims) (Leaves.after placed displaced))

/-- A MOVE to a managed head is accepted, and past the near port its event leaves what the placing has made of the state. -/
theorem move_placesDirect {s : State} {p : Word} {h : HeadId} (ready : s.Ready) (running : s.mode = .running)
    (names : headOf (field p 0 4) = some h) (managed : (s.head h).managed) :
    ∃ t, exec (.move p) s = .next t ∧ Forwards t (slotOp 6 p)
      ∧ Leaves [.nearPort] (State.placeDirect { s with eventNo := s.eventNo + 1 } h p) t := by
  have command : commandOf 6 p [] = some (.move p) := rfl
  have mode (u : State) : (u.placeDirect h p).mode = u.mode :=
    leaves_placeDirect u h p (List.Subset.refl _) .partMode (by simp [flushAreas, examAreas])
  have accepted := command_accepted_leaves ready command (judge_move running names managed)
  rw [carryOut_move names] at accepted
  exact accepted (settled_of_running _ ((mode _).trans running))

/-- Settles O26: what the placing makes of the cues, the stager's list and the claims is still there when the event ends. -/
theorem movePlacesDirectCue : Obligations.MovePlacesDirectCue := by
  intro s p h ready running number managed
  have names : headOf (field p 0 4) = some h := by
    have parameter : field p 0 4 = h.val := by simpa [field] using number
    rw [parameter, headOf_val]
  obtain ⟨t, answers, forwards, left⟩ := move_placesDirect ready running names managed
  have begunManaged : (State.head { s with eventNo := s.eventNo + 1 } h).managed := managed
  have frame {c : List Area} (near : Area.nearPort ∈ c) (cues : Area.cues h ∈ c) (claims : Area.claims ∈ c)
      (stager : Area.stager ∈ c) (read : (s.head h).direct ≠ none → Area.requests ∈ c ∧ Area.grant ∈ c) : Leaves c s t :=
    Leaves.after (left.mono (by simpa using near))
      (Leaves.after (leaves_placeDirect_managed begunManaged p cues claims stager read) (leaves_nextEvent s))
  have head := placeDirect_head begunManaged p
  obtain ⟨queue, direct, gate⟩ := left (.cues h) (by simp)
  refine ⟨t, answers, forwards, ?direct, ?queue, ?gate, ?stager, ?claims, ?leaves, ?leavesFarPort⟩
  case direct => rw [direct, head, ← moveCue_fields]
  case queue =>
    rw [queue, head]
    rfl
  case gate => rw [gate, head]
  case stager => exact (left .stager (by simp)).trans (placeDirect_stager begunManaged p)
  case claims => exact (left .claims (by simp)).trans (placeDirect_claims begunManaged p)
  case leaves => exact frame (by simp) (by simp) (by simp) (by simp) fun _ => by simp
  case leavesFarPort =>
    intro empty
    exact frame (by simp) (by simp) (by simp) (by simp) fun occupied => absurd empty occupied

end Sys2Proof.Machine
end

section
/-! PROOFS. Levels: the LEVEL gate by the head's state (R98). -/
namespace Sys2Proof.Machine

/-! ## The LEVEL gate -/

theorem levelFails_iff (hd : Head) (c : Cue) :
    hd.levelFails c = true ↔ c.level.num < holdingLevel hd.levels
      ∨ (c.level.num = holdingLevel hd.levels ∧ c.kind = .chain) ∧ (hd.state = .moving ∨ hd.state = .restoring) := by
  simp only [Head.levelFails, Bool.or_eq_true, Bool.and_eq_true, decide_eq_true_eq]

/-- The row L = H of R98's table in REST: the start kind does not matter. -/
theorem levelFails_of_rest {hd : Head} (rest : hd.state = .rest) (c : Cue) :
    hd.levelFails c = true ↔ c.level.num < holdingLevel hd.levels := by
  simp [levelFails_iff, rest]

/-- The row L = H of R98's table in MOVING and RESTORING: CHAIN alone fails. -/
theorem levelFails_of_moving_or_restoring {hd : Head} (busy : hd.state = .moving ∨ hd.state = .restoring) (c : Cue) :
    hd.levelFails c = true ↔ c.level.num < holdingLevel hd.levels
      ∨ (c.level.num = holdingLevel hd.levels ∧ c.kind = .chain) := by
  rw [levelFails_iff, and_iff_left busy]

/-- Settles O53, by the rows of R98's table: a head in REST, and one in MOVING or RESTORING. -/
theorem levelGateFollowsItsTable : Obligations.LevelGateFollowsItsTable := by
  rintro hd c (rest | busy)
  case inl => simp [levelFails_of_rest rest, rest]
  case inr =>
    have notRest : hd.state ≠ .rest := by
      rcases busy with moving | restoring
      · simp [moving]
      · simp [restoring]
    simp [levelFails_of_moving_or_restoring busy, notRest]

end Sys2Proof.Machine
end

section
/-! PROOFS. ATTN: every step keeps it asserted exactly while a fault record is occupied, and each of the three resets empties the
records and deasserts it (R175). -/
namespace Sys2Proof.Machine

/-! ## Occupied records -/

/-- A fault record is occupied if and only if the part's is or some head's is. -/
theorem anyFault_iff (w : StatusWriter) :
    w.anyFault = true ↔ w.partFault ≠ none ∨ ∃ h : HeadId, w.headFaults[h.val] ≠ none := by
  have heads : (w.headFaults.toList.any fun f => f.isSome) = true ↔ ∃ h : HeadId, w.headFaults[h.val] ≠ none := by
    rw [List.any_eq_true]
    constructor
    · rintro ⟨f, mem, occupied⟩
      obtain ⟨i, lt, rfl⟩ := Vector.mem_iff_getElem.mp (Vector.mem_toList_iff.mp mem)
      exact ⟨⟨i, lt⟩, Option.isSome_iff_ne_none.mp occupied⟩
    · rintro ⟨h, occupied⟩
      exact ⟨_, Vector.mem_toList_iff.mpr (Vector.getElem_mem h.isLt), Option.isSome_iff_ne_none.mpr occupied⟩
  rw [StatusWriter.anyFault, Bool.or_eq_true, heads, Option.isSome_iff_ne_none]

theorem attn_iff_of_attnOk {s : State} (ok : s.attnOk) :
    s.status.attn = true ↔ s.status.partFault ≠ none ∨ ∃ h : HeadId, s.status.headFaults[h.val] ≠ none := by
  rw [show s.status.attn = s.status.anyFault from ok, anyFault_iff]

/-! ## Events -/

/-- The law speaks of the status writer alone. -/
theorem attnOk_of_status {s t : State} (ok : s.attnOk) (status : t.status = s.status := by rfl) : t.attnOk := by
  unfold State.attnOk
  rw [status]
  exact ok

/-- An event keeps the law if its own change does: what ends every event files no fault and clears none. -/
theorem event_attnOk {s : State} {f : State → State} (ok : s.attnOk) (keeps : ∀ u : State, u.attnOk → (f u).attnOk) :
    (s.event f).attnOk :=
  (keeps_finish _ _).attn (keeps _ (attnOk_of_status ok))

theorem event_attnOk_of_keeps {s : State} {f : State → State} (ok : s.attnOk) (keeps : ∀ u, Keeps u (f u)) :
    (s.event f).attnOk :=
  event_attnOk ok fun u => (keeps u).attn

/-- A change that is made in one case only. -/
theorem ite_attnOk {c : Prop} [Decidable c] {s t : State} (yes : s.attnOk) (no : t.attnOk) : (if c then s else t).attnOk := by
  split
  · exact yes
  · exact no

/-! ## The resets -/

/-- Every reset empties the fault records and deasserts ATTN. -/
theorem resetBlocks_attnOk (s : State) (cause : ResetCause) : (s.resetBlocks cause).attnOk := rfl

theorem hardReset_attnOk (s : State) (cause : ResetCause) (c : CutPoint) : (s.hardReset cause c).attnOk :=
  attnOk_of_status (resetBlocks_attnOk (s.cutTransfer c) cause)

/-- Of the status writer the RESET command keeps a begun job alone (R170). -/
theorem resetCommand_attnOk (s : State) : s.resetCommand.attnOk := resetBlocks_attnOk s .command

/-- An event whose change is a reset ends with ATTN deasserted: a HALTED part has no change of mode due. -/
theorem event_attn_of_reset {s : State} {f : State → State}
    (halted : (f { s with eventNo := s.eventNo + 1 }).mode = .halted)
    (deasserted : (f { s with eventNo := s.eventNo + 1 }).status.attn = false) : (s.event f).status.attn = false :=
  (sameArea_event (settled_of_halted _ halted) .attn).trans deasserted

/-! ## The near port -/

theorem carryOut_attnOk {s : State} (ok : s.attnOk) (slot : Nat) (p : Word) (order : List Recheck) :
    (s.carryOut slot p order).attnOk := by
  unfold State.carryOut
  split
  · exact ok
  · exact (keeps_stopPart s).attn ok
  · exact resetCommand_attnOk s
  · exact (keeps_fire s order).attn ok
  · exact (keeps_cutTo s _).attn ok
  · exact (keeps_swapTo s _).attn ok
  · split
    · exact (keeps_placeDirect s _ p).attn ok
    · exact ok
  · exact (keeps_holdHeads s p).attn ok
  · exact (keeps_thawHeads s p order).attn ok
  · exact (keeps_resumeFloor s order).attn (ite_attnOk ok ok)
  · split
    · exact (keeps_levelEnd s _).attn ok
    · exact ok
  · exact (keeps_clearFaultRecord s p).attn ok
  · split
    · exact (keeps_changeMode s _ _).attn ok
    · exact ok
    · exact ok
  · exact ok

theorem offer_attnOk {s : State} (ok : s.attnOk) (slot : Nat) (op : HostOp) (order : List Recheck) :
    (s.offer slot op order).attnOk := by
  refine ite_attnOk ok (ite_attnOk ok ?_)
  split
  · exact ok
  · exact carryOut_attnOk ok slot op.data order

theorem takeOp_attnOk {s : State} (ok : s.attnOk) (op : HostOp) (order : List Recheck) : (s.takeOp op order).attnOk := by
  refine ite_attnOk ?_ ok
  split
  · exact ok
  · exact ok
  · exact ok
  · exact offer_attnOk ok _ op order

theorem arrive_attnOk {s : State} (ok : s.attnOk) (op : HostOp) (order : List Recheck) : (s.arrive op order).attnOk :=
  ite_attnOk ok (ite_attnOk ok (takeOp_attnOk ok op order))

theorem hostArrival_attnOk {s : State} (ok : s.attnOk) (op : HostOp) (order : List Recheck) :
    (s.hostArrival op order).attnOk :=
  ite_attnOk ok (event_attnOk ok fun _ kept => arrive_attnOk kept op order)

/-- The end of a reset answers a cut operation and takes a held one (R16). -/
theorem resumeNear_attnOk {s : State} (ok : s.attnOk) : s.resumeNear.attnOk := by
  have answered : (if s.near.cut && s.near.op.isSome then
      (s.setNear fun n => { n with cut := false }).answerHost .err else s).attnOk := ite_attnOk ok ok
  unfold State.resumeNear
  dsimp only
  split
  · exact takeOp_attnOk (attnOk_of_status answered) _ []
  · exact answered

/-! ## Transfers -/

/-- A write transfer that ends has changed the grant, the memory and the counter of free values. -/
theorem endGrant_store_attnOk {s : State} (ok : s.attnOk) (a : Nat) (ws : List Word) (err : Nat) :
    (s.endGrant.store a ws err).attnOk :=
  attnOk_of_status ok

theorem hostTransferEnd_attnOk {s : State} (ok : s.attnOk) (op : HostOp) (err : Bool) : (s.hostTransferEnd op err).attnOk := by
  have stored : (s.endGrant.hostStore op err).attnOk :=
    ite_attnOk (ite_attnOk (attnOk_of_status ok) (attnOk_of_status ok)) (attnOk_of_status ok)
  unfold State.hostTransferEnd
  dsimp only
  split
  · exact (keeps_deliver _ _).attn stored
  · exact stored

theorem grantRequest_attnOk {s : State} (ok : s.attnOk) (r : Request) : (s.grantRequest r).attnOk := by
  unfold State.grantRequest
  dsimp only
  split
  · exact (keeps_startStatusWrite _ _).attn (attnOk_of_status ok)
  · exact attnOk_of_status ok

theorem readEnd_attnOk {s : State} (ok : s.attnOk) (g : Grant) {act : State → State} (keeps : ∀ u, Keeps u (act u)) :
    (s.readEnd g act).attnOk :=
  event_attnOk ok fun _ kept => ite_attnOk (attnOk_of_status kept) ((keeps _).attn (attnOk_of_status kept))

/-! ## Frames -/

theorem forEach_attnOk {α : Type} {s : State} (ok : s.attnOk) (l : List α) {f : α → State → State}
    (keeps : ∀ x u, Keeps u (f x u)) : (s.forEach l f).attnOk :=
  (Keeps.forEach f keeps l s).attn ok

theorem takeDue_attnOk {s : State} (ok : s.attnOk) (losses : List Recheck) : (s.takeDue losses).attnOk :=
  forEach_attnOk (attnOk_of_status ok) s.due (keeps_markEvent losses)

theorem frameMark_attnOk {s : State} (ok : s.attnOk) (order later : List FmarkBlock) (losses : List Recheck) :
    (s.frameMark order later losses).attnOk := by
  unfold State.frameMark
  dsimp only
  split
  · exact (keeps_finish _ _).attn (attnOk_of_status ok)
  · refine forEach_attnOk ?_ _ (keeps_markEvent losses)
    exact (keeps_finish _ _).attn ((keeps_blockMark losses _ _).attn (attnOk_of_status ok))

/-! ## Every command -/

/-- Every command answers, and the state it answers keeps the law. -/
theorem exec_attnOk (c : Instr) {s : State} (ok : s.attnOk) : ∃ t, exec c s = .next t ∧ t.attnOk := by
  cases c
  all_goals refine ⟨_, rfl, ?_⟩
  case hostWrite | hostRead | start | stop | reset | fire | cut | swap | move | hold | thaw | resume | levelEnd | clearFault
      | mode =>
    exact hostArrival_attnOk ok _ _
  case hostTransferEnd err =>
    split
    · exact event_attnOk ok fun _ kept => hostTransferEnd_attnOk kept _ err
    · exact ok
    · exact ok
  case farPortGrant first =>
    refine ite_attnOk ok ?_
    split
    · exact event_attnOk ok fun _ kept => grantRequest_attnOk kept _
    · exact ok
  case fmark order later losses =>
    have due := takeDue_attnOk (s := { s with eventNo := s.eventNo + 1 }) (attnOk_of_status ok) losses
    exact ite_attnOk (ite_attnOk (frameMark_attnOk due order later losses) due) ok
  case offsetCountdownExpiry h =>
    exact ite_attnOk (event_attnOk ok fun _ kept => (keeps_headMark h _).attn kept)
      (ite_attnOk (event_attnOk_of_keeps ok fun u => keeps_examine u h) ok)
  case zoneTimeout losses => exact ite_attnOk (event_attnOk ok fun _ kept => (keeps_arbiterMark losses _).attn kept) ok
  case tallyChange h onAir order =>
    exact ite_attnOk ok (event_attnOk ok fun u kept => (keeps_tallyChanged u h onAir order).attn kept)
  case floorAsserted => exact ite_attnOk ok (event_attnOk ok fun u kept => (keeps_floorOn u).attn kept)
  case floorReleased => exact ite_attnOk (event_attnOk ok fun _ kept => kept) ok
  case powerOn c _ _ => exact event_attnOk ok fun _ _ => hardReset_attnOk _ .power c
  case resetNAsserted c => exact ite_attnOk ok (event_attnOk ok fun _ _ => hardReset_attnOk _ .line c)
  case resetNReleased | powerOnResetEnd =>
    exact ite_attnOk (event_attnOk ok fun _ kept => ite_attnOk kept (resumeNear_attnOk kept)) ok
  case heldEntryExamination =>
    split
    · exact event_attnOk_of_keeps ok fun u => keeps_dispatchEntry u _
    · exact ok
  case tableReadEnd err =>
    split
    · exact readEnd_attnOk ok _ fun u => keeps_tableRead u _ _ _
    · exact ok
  case entryReadEnd err =>
    split
    · exact readEnd_attnOk ok _ fun u => keeps_entryRead u _ err
    · exact ok
  case headerReadEnd err =>
    split
    · exact readEnd_attnOk ok _ fun u => keeps_headerReadBack u _ err
    · exact ok
  case stageReadEnd err =>
    split
    · exact readEnd_attnOk ok _ fun u => keeps_stageRead u _ err
    · exact ok
  case adoptionReadEnd err =>
    split
    · exact readEnd_attnOk ok _ fun u => keeps_adopterPointer u _ err _
    · exact readEnd_attnOk ok _ fun u => keeps_adopterPage u _ _ err _
    · exact ok
  case pointerCheckReadEnd err =>
    split
    · exact readEnd_attnOk ok _ fun u => keeps_pointerChecked u _ _ err
    · exact ok
  case restoreReadEnd err order =>
    split
    · exact readEnd_attnOk ok _ fun u => keeps_saverEnd u _ fun j v => keeps_restoreEnded v j err _ order
    · exact ok
  case pageWriteEnd err =>
    split
    · exact event_attnOk ok fun _ kept => (keeps_pageWritten _ _ _ _ _).attn (endGrant_store_attnOk kept _ _ _)
    · exact ok
  case pointerWriteEnd err =>
    split
    · exact event_attnOk ok fun _ kept => (keeps_pointerWritten _ _ _ _ _).attn (endGrant_store_attnOk kept _ _ _)
    · exact ok
  case saveTransferEnd err =>
    split
    · exact event_attnOk ok fun _ kept => ite_attnOk ((keeps_requestLetRun _ _).attn (endGrant_store_attnOk kept _ _ _))
        ((keeps_saverEnd _ _ fun j v => keeps_saveEnded v j _).attn (endGrant_store_attnOk kept _ _ _))
    · exact ok
  case emptyTagWriteEnd err =>
    split
    · exact event_attnOk ok fun _ kept => ite_attnOk (endGrant_store_attnOk kept _ _ _)
        ((keeps_saverEnd _ _ fun j v => keeps_emptyTagEnded v j _).attn (endGrant_store_attnOk kept _ _ _))
    · exact ok
  case statusTransferEnd err =>
    split
    · exact event_attnOk ok fun _ kept => (keeps_statusWritten _ _ _ _ _).attn (endGrant_store_attnOk kept _ _ _)
    · exact ok

theorem step_attnOk {s t : State} (ok : s.attnOk) (answers : step s = .next t) : t.attnOk := by
  unfold step at answers
  split at answers
  case h_1 =>
    obtain rfl := Host.Outcome.next.inj answers
    exact ok
  case h_2 c rest _ =>
    obtain ⟨u, next, kept⟩ := exec_attnOk c (s := { s with pending := rest }) (attnOk_of_status ok)
    obtain rfl := Host.Outcome.next.inj (next.symm.trans answers)
    exact kept

/-! ## A command at a free near port -/

/-- Outside a reset a near port without an operation takes the one that arrives, also while a change of part mode is due, which
`State.Ready` excludes (R1, R16). -/
theorem hostArrival_of_free {s : State} (noOp : s.near.op = none) (noHeld : s.near.held = none) (noReset : s.inReset = false)
    (op : HostOp) (order : List Recheck) : s.hostArrival op order = s.event fun t => t.takeOp op order := by
  have noReset' : ({ s with eventNo := s.eventNo + 1 } : State).inReset = false := noReset
  simp [State.hostArrival, State.nearBusy, State.event, State.arrive, noOp, noHeld, noReset']

/-- A command that passes its checks is one event: its effect, and the forwarding of its word (R42). -/
theorem exec_command_accepted {s : State} (noOp : s.near.op = none) (noHeld : s.near.held = none) (noReset : s.inReset = false)
    {k : Nat} {p : Word} {order : List Recheck} {c : Instr} (command : commandOf k p order = some c)
    (judged : s.judge k p = none) :
    exec c s = .next (s.event fun t => (t.carryOut k p (commandOrder k order)).forward (slotOp k p)) := by
  have lt : k < 13 := slot_lt_of_command command
  have judged' : State.judge { s with eventNo := s.eventNo + 1 } k p = none := judged
  have taken : State.takeOp { s with eventNo := s.eventNo + 1 } (slotOp k p) (commandOrder k order)
      = (State.carryOut { s with eventNo := s.eventNo + 1 } k p (commandOrder k order)).forward (slotOp k p) := by
    rw [slotOp, takeOp_slot _ (by omega), ← slotOp, offer_accepted lt judged']
  rw [exec_command command, hostArrival_of_free noOp noHeld noReset,
    event_congr (g := fun t => (t.carryOut k p (commandOrder k order)).forward (slotOp k p)) taken]

/-! ## The resets deassert ATTN -/

/-- RESET is available in every part mode and has no other check (R39, R43). -/
theorem judge_reset (s : State) (p : Word) : s.judge 2 p = none := rfl

theorem powerOn_attn (s : State) (c : CutPoint) (tally : BitVec 12) (floor : Bool) :
    ∃ t, exec (.powerOn c tally floor) s = .next t ∧ t.status.attn = false :=
  ⟨_, rfl, event_attn_of_reset rfl rfl⟩

theorem resetNAsserted_attn {s : State} (c : CutPoint) (released : s.pins.resetN = false) :
    ∃ t, exec (.resetNAsserted c) s = .next t ∧ t.status.attn = false := by
  have notAsserted : ¬ s.pins.resetN = true := by simp [released]
  exact ⟨_, congrArg Host.Outcome.next (if_neg notAsserted), event_attn_of_reset rfl rfl⟩

theorem reset_attn {s : State} (p : Word) (noOp : s.near.op = none) (noHeld : s.near.held = none) (noReset : s.inReset = false) :
    ∃ t, exec (.reset p) s = .next t ∧ t.status.attn = false := by
  have command : commandOf 2 p [] = some (.reset p) := rfl
  exact ⟨_, exec_command_accepted noOp noHeld noReset command (judge_reset s p), event_attn_of_reset rfl rfl⟩

/-- Settles O4: every change of a fault record sets ATTN by the records that are then occupied, and a reset empties them all. -/
theorem stepKeepsAttnLaw : Obligations.StepKeepsAttnLaw :=
  ⟨fun _ _ ok answers => step_attnOk ok answers, fun _ ok => attn_iff_of_attnOk ok, rfl, rfl, powerOn_attn,
    fun _ c released => resetNAsserted_attn c released, fun _ p noOp noHeld noReset => reset_attn p noOp noHeld noReset⟩

end Sys2Proof.Machine
end

section
/-! PROOFS. CLEAR FAULT: the record that its parameter names is emptied, ATTN follows the others (R174, R175), and the event owes
the record because its words have changed (R166). -/
namespace Sys2Proof.Machine

/-! ## Owed marks at the end of an event -/

@[simp] theorem pumpPage_status (s : State) : s.pumpPage.status = s.status := by
  unfold State.pumpPage
  split
  · rfl
  · split <;> rfl

@[simp] theorem pumpSaver_status (s : State) : s.pumpSaver.status = s.status := by
  unfold State.pumpSaver
  split
  · rfl
  · split <;> rfl

@[simp] theorem pumpLoader_status (s : State) : s.pumpLoader.status = s.status := by
  unfold State.pumpLoader
  split
  · rfl
  · split
    · rfl
    · split <;> rfl

@[simp] theorem pumpAdopter_status (s : State) : s.pumpAdopter.status = s.status := by
  unfold State.pumpAdopter
  split
  · rfl
  · split
    · rfl
    · split <;> rfl

@[simp] theorem requestStage_status (s : State) (k : StageKey) : (s.requestStage k).status = s.status := by
  unfold State.requestStage
  split <;> rfl

@[simp] theorem pumpStager_status (s : State) : s.pumpStager.status = s.status := by
  unfold State.pumpStager
  split
  · rfl
  · split
    · exact requestStage_status s _
    · split
      · rfl
      · exact requestStage_status _ _

@[simp] theorem pumpFetcher_status (s : State) : s.pumpFetcher.status = s.status := by
  unfold State.pumpFetcher
  split
  · rfl
  · split
    · split <;> rfl
    all_goals rfl

/-- The status writer begins a job and clears no owed mark before its grant (R167). -/
@[simp] theorem pumpStatus_owed (s : State) : s.pumpStatus.status.owed = s.status.owed := by
  unfold State.pumpStatus
  split
  · rfl
  · split <;> rfl

@[simp] theorem pump_owed (s : State) : s.pump.status.owed = s.status.owed := by
  unfold State.pump
  split
  · rfl
  · simp

/-- A record is owed after an event if its words have changed, or if the event's own change leaves it owed (R166). -/
theorem event_owed {s : State} {f : State → State} (settled : (f { s with eventNo := s.eventNo + 1 }).settled) (r : RecId) :
    (s.event f).status.owed[r.val] = ((f { s with eventNo := s.eventNo + 1 }).status.owed[r.val]
      || decide (s.image r 0 ≠ (f { s with eventNo := s.eventNo + 1 }).image r 0)) := by
  have record : Fin.ofNat 13 r.val = r := Fin.ext (Nat.mod_eq_of_lt r.isLt)
  have image : State.image { s with eventNo := s.eventNo + 1 } r 0 = s.image r 0 := rfl
  rw [← image]
  simp only [State.event, State.finish, settleMode_of_settled _ settled, pump_owed, State.oweChanged, setStatus_status,
    Vector.getElem_mapIdx, record]

/-! ## The record that a parameter names -/

/-- The fault record of a head, or of the part, is empty (R172). -/
def StatusWriter.faultEmpty (w : StatusWriter) : Option HeadId → Prop
  | some h => w.headFaults[h.val] = none
  | none => w.partFault = none

/-- The status record that carries the fault record (R165). -/
def faultRecord : Option HeadId → RecId
  | some h => recOf h
  | none => 0

/-- The area of the fault record. -/
def faultArea : Option HeadId → Area
  | some h => .headFault h
  | none => .partFault

/-- The state with one fault record emptied and ATTN set by the others (R174, R175). -/
def State.emptyFault (s : State) (target : Option HeadId) : State := s.setStatus fun w => w.clearFault target

theorem clearFaultRecord_of_empty {s : State} {p : Word} (empty : s.status.faultEmpty (headOf (field p 0 5))) :
    s.clearFaultRecord p = s := by
  unfold State.clearFaultRecord
  split
  case h_1 h named =>
    rw [named] at empty
    exact if_neg (by simp [show s.status.headFaults[h.val] = none from empty])
  case h_2 named =>
    rw [named] at empty
    exact if_neg (by simp [show s.status.partFault = none from empty])

theorem clearFaultRecord_of_occupied {s : State} {p : Word} (occupied : ¬ s.status.faultEmpty (headOf (field p 0 5))) :
    s.clearFaultRecord p = s.emptyFault (headOf (field p 0 5)) := by
  unfold State.clearFaultRecord
  split
  case h_1 h named =>
    rw [named] at occupied ⊢
    exact if_pos (Option.isSome_iff_ne_none.mpr occupied)
  case h_2 named =>
    rw [named] at occupied ⊢
    exact if_pos (Option.isSome_iff_ne_none.mpr occupied)

theorem emptyFault_empty (s : State) (target : Option HeadId) : (s.emptyFault target).status.faultEmpty target := by
  cases target with
  | none => rfl
  | some h => exact Vector.getElem_set_self _

theorem emptyFault_attnOk (s : State) (target : Option HeadId) : (s.emptyFault target).attnOk := by
  cases target <;> rfl

theorem emptyFault_settled (s : State) (target : Option HeadId) : (s.emptyFault target).settled ↔ s.settled :=
  settled_congr rfl rfl rfl rfl rfl fun _ _ => rfl

/-- The other fault records, the counts, the marks and the job are left. -/
theorem leaves_emptyFault (s : State) (target : Option HeadId) :
    Leaves [faultArea target, .attn] s (s.emptyFault target) := by
  refine leaves_of rfl fun a other _ => ?_
  cases target with
  | none => cases a <;> simp_all [sameArea, headAreas, faultArea, State.emptyFault, StatusWriter.clearFault]
  | some h =>
    cases a
    case headFault g _ =>
      have ne : h.val ≠ g.val := fun e => other (by simp [faultArea, Fin.ext e])
      simp [sameArea, State.emptyFault, StatusWriter.clearFault, Vector.getElem_set_ne _ _ ne]
    all_goals simp_all [sameArea, headAreas, faultArea, State.emptyFault, StatusWriter.clearFault]

/-! ## The words of a fault record -/

theorem headFaultKind_code_bounds (k : HeadFaultKind) : 0 < k.code ∧ k.code < 16 := by
  cases k <;> decide

theorem partFaultKind_code_bounds (k : PartFaultKind) : 0 < k.code ∧ k.code < 16 := by
  cases k <;> decide

/-- Fields from bit 4 on leave the low four bits of a packed word. -/
theorem foldl_fields_mod (fields : List (Nat × Nat × Nat)) (above : ∀ f ∈ fields, 4 ≤ f.2.1) (acc : Nat) :
    fields.foldl (fun acc f => acc + f.1 % 2 ^ f.2.2 * 2 ^ f.2.1) acc % 16 = acc % 16 := by
  induction fields generalizing acc with
  | nil => rfl
  | cons f fields ih =>
    have high : 16 ∣ f.1 % 2 ^ f.2.2 * 2 ^ f.2.1 := Nat.dvd_mul_left_of_dvd (Nat.pow_dvd_pow 2 (above f List.mem_cons_self)) _
    rw [List.foldl_cons, ih fun g mem => above g (List.mem_cons_of_mem f mem)]
    omega

theorem packWord_ne_zero {v : Nat} (pos : 0 < v) (lt : v < 16) {fields : List (Nat × Nat × Nat)}
    (above : ∀ f ∈ fields, 4 ≤ f.2.1) : packWord ((v, 0, 4) :: fields) ≠ 0 := by
  intro zero
  have value := congrArg BitVec.toNat zero
  have low := foldl_fields_mod fields above (0 + v % 2 ^ 4 * 2 ^ 0)
  simp only [packWord, List.foldl_cons, BitVec.ofNat_eq_ofNat, BitVec.toNat_ofNat] at value
  omega

/-- An occupied record has a kind, whose code is not 0 (section 11.6). -/
theorem headFaultWords_ne_empty (f : HeadFault) : headFaultWords (some f) ≠ headFaultWords none := by
  obtain ⟨pos, lt⟩ := headFaultKind_code_bounds f.kind
  exact fun same => packWord_ne_zero pos lt (by simp) (List.cons.inj same).1

theorem partFaultWords_ne_empty (f : PartFault) : partFaultWords (some f) ≠ partFaultWords none := by
  obtain ⟨pos, lt⟩ := partFaultKind_code_bounds f.kind
  exact fun same => packWord_ne_zero pos lt (by simp) (List.cons.inj same).1

/-- Of the status writer's fields a head record carries the head's fault record alone (section 11.6). -/
theorem headImage_setStatus_iff (s : State) (f : StatusWriter → StatusWriter) (h : HeadId) (count : Word) :
    (s.setStatus f).headImage h count = s.headImage h count
      ↔ headFaultWords (f s.status).headFaults[h.val] = headFaultWords s.status.headFaults[h.val] := by
  unfold State.headImage
  rw [List.append_cancel_right_eq, List.append_cancel_right_eq]
  exact List.append_right_inj _

/-- Of the status writer's fields the part record carries the part fault record alone (section 11.6). -/
theorem partImage_setStatus_iff (s : State) (f : StatusWriter → StatusWriter) (count : Word) :
    (s.setStatus f).partImage count = s.partImage count
      ↔ partFaultWords (f s.status).partFault = partFaultWords s.status.partFault := by
  unfold State.partImage
  rw [List.append_cancel_right_eq]
  exact List.append_right_inj _

theorem image_part (s : State) (count : Word) : s.image 0 count = s.partImage count := rfl

theorem image_head (s : State) (h : HeadId) (count : Word) : s.image (recOf h) count = s.headImage h count := rfl

/-- The words of a status record change when its fault record is emptied. -/
theorem image_emptyFault_ne {s : State} {target : Option HeadId} (occupied : ¬ s.status.faultEmpty target) (count : Word) :
    s.image (faultRecord target) count ≠ (s.emptyFault target).image (faultRecord target) count := by
  refine Ne.symm ?_
  cases target with
  | none =>
    obtain ⟨f, fault⟩ := Option.ne_none_iff_exists'.mp occupied
    rw [faultRecord, image_part, image_part, State.emptyFault, Ne, partImage_setStatus_iff, fault]
    exact (partFaultWords_ne_empty f).symm
  | some h =>
    obtain ⟨f, fault⟩ := Option.ne_none_iff_exists'.mp occupied
    have emptied : (s.status.clearFault (some h)).headFaults[h.val] = none := emptyFault_empty s (some h)
    rw [faultRecord, image_head, image_head, State.emptyFault, Ne, headImage_setStatus_iff, fault, emptied]
    exact (headFaultWords_ne_empty f).symm

/-! ## CLEAR FAULT -/

/-- CLEAR FAULT is available in every part mode; its only check is that the parameter names a record (R39, R50). -/
theorem judge_clearFault (s : State) {p : Word} (names : field p 0 5 < 12 ∨ field p 0 5 = 31) : s.judge 11 p = none :=
  if_pos names

/-- A CLEAR FAULT that names a record is one event: what it makes of the record, and the forwarding of its word. -/
theorem exec_clearFault {s : State} {p : Word} {f : State → State} (ready : s.Ready)
    (names : field p 0 5 < 12 ∨ field p 0 5 = 31)
    (effect : State.clearFaultRecord { s with eventNo := s.eventNo + 1 } p = f { s with eventNo := s.eventNo + 1 }) :
    exec (.clearFault p) s = .next (s.event fun t => (f t).forward (slotOp 11 p)) := by
  have command : commandOf 11 p [] = some (.clearFault p) := rfl
  have carried : State.carryOut { s with eventNo := s.eventNo + 1 } 11 p [] = f { s with eventNo := s.eventNo + 1 } := effect
  rw [exec_command_accepted ready.noOp ready.noHeld ready.noReset command (judge_clearFault s names),
    event_congr (g := fun t => (f t).forward (slotOp 11 p)) (congrArg (State.forward · (slotOp 11 p)) carried)]

theorem exec_clearFault_of_empty {s : State} {p : Word} (ready : s.Ready) (names : field p 0 5 < 12 ∨ field p 0 5 = 31)
    (empty : s.status.faultEmpty (headOf (field p 0 5))) :
    exec (.clearFault p) s = .next (s.event fun t => t.forward (slotOp 11 p)) :=
  exec_clearFault (f := id) ready names (clearFaultRecord_of_empty empty)

theorem exec_clearFault_of_occupied {s : State} {p : Word} (ready : s.Ready) (names : field p 0 5 < 12 ∨ field p 0 5 = 31)
    (occupied : ¬ s.status.faultEmpty (headOf (field p 0 5))) : exec (.clearFault p) s =
      .next (s.event fun t => (t.emptyFault (headOf (field p 0 5))).forward (slotOp 11 p)) :=
  exec_clearFault (f := fun t => t.emptyFault (headOf (field p 0 5))) ready names (clearFaultRecord_of_occupied occupied)

/-- An event that forwards an operation alone changes no word of a status record, so that nothing becomes owed (R166). -/
theorem event_forward_owed {s : State} (settled : s.settled) (op : HostOp) :
    (s.event fun t => t.forward op).status.owed = s.status.owed := by
  have stays : (State.forward { s with eventNo := s.eventNo + 1 } op).settled := (forward_settled _ op).mpr settled
  refine Vector.ext fun i lt => ?_
  have same : decide (s.image ⟨i, lt⟩ 0 ≠ s.image ⟨i, lt⟩ 0) = false := by simp
  calc (s.event fun t => t.forward op).status.owed[i]
      = (s.status.owed[i] || decide (s.image ⟨i, lt⟩ 0 ≠ s.image ⟨i, lt⟩ 0)) := event_owed stays ⟨i, lt⟩
    _ = s.status.owed[i] := by rw [same, Bool.or_false]

theorem faultEmpty_congr {s t : State} {target : Option HeadId} (same : sameArea s t (faultArea target)) :
    t.status.faultEmpty target ↔ s.status.faultEmpty target := by
  cases target with
  | none => exact iff_of_eq (congrArg (· = none) same)
  | some h => exact iff_of_eq (congrArg (· = none) same)

/-- What the event that empties an occupied record leaves: the record empty and owed, ATTN by the other records, and nothing else
changed but the near port (R166, R174, R175). -/
theorem event_emptyFault {s : State} {target : Option HeadId} (settled : s.settled) (occupied : ¬ s.status.faultEmpty target)
    (op : HostOp) {t : State} (ended : t = s.event fun t => (t.emptyFault target).forward op) :
    Forwards t op ∧ t.status.faultEmpty target ∧ t.status.owed[(faultRecord target).val] = true ∧ t.attnOk
      ∧ Leaves [.nearPort, faultArea target, .attn] s t := by
  subst ended
  have emptied : (State.emptyFault { s with eventNo := s.eventNo + 1 } target).settled :=
    (emptyFault_settled _ target).mpr settled
  have stays : ((State.emptyFault { s with eventNo := s.eventNo + 1 } target).forward op).settled :=
    (forward_settled _ op).mpr emptied
  refine ⟨event_forward_after emptied op, ?empty, ?owed, ?attn, ?left⟩
  case empty =>
    exact (faultEmpty_congr (sameArea_event (f := fun t => (t.emptyFault target).forward op) stays _)).mpr
      (emptyFault_empty _ target)
  case owed =>
    have changed : s.image (faultRecord target) 0
        ≠ ((State.emptyFault { s with eventNo := s.eventNo + 1 } target).forward op).image (faultRecord target) 0 :=
      image_emptyFault_ne (s := { s with eventNo := s.eventNo + 1 }) occupied 0
    rw [event_owed (f := fun t => (t.emptyFault target).forward op) stays, decide_eq_true changed, Bool.or_true]
  case attn => exact (keeps_finish _ _).attn (attnOk_of_status (emptyFault_attnOk _ target))
  case left =>
    exact leaves_event s _ stays (Leaves.after (leaves_forward _ op List.mem_cons_self)
      ((leaves_emptyFault _ target).mono (List.subset_cons_self _ _)))

/-- CLEAR FAULT for the record that its parameter names (R174). -/
theorem clearFault_empties {s : State} {p : Word} {target : Option HeadId} (ready : s.Ready)
    (names : field p 0 5 < 12 ∨ field p 0 5 = 31) (named : headOf (field p 0 5) = target) :
    ∃ t, exec (.clearFault p) s = .next t ∧ Forwards t (slotOp 11 p) ∧ t.status.faultEmpty target
      ∧ (s.status.faultEmpty target → t.status.owed = s.status.owed ∧ Leaves [.nearPort] s t)
      ∧ (¬ s.status.faultEmpty target → t.status.owed[(faultRecord target).val] = true ∧ t.attnOk
          ∧ Leaves [.nearPort, faultArea target, .attn] s t) := by
  subst named
  by_cases empty : s.status.faultEmpty (headOf (field p 0 5))
  · obtain ⟨forwards, left⟩ := event_forward_forwards ready.settled (slotOp 11 p)
    have still := (faultEmpty_congr (left _ (by cases headOf (field p 0 5) <;> simp [faultArea]))).mpr empty
    exact ⟨_, exec_clearFault_of_empty ready names empty, forwards, still,
      fun _ => ⟨event_forward_owed ready.settled _, left⟩, fun occupied => absurd empty occupied⟩
  · obtain ⟨forwards, emptied, effect⟩ := event_emptyFault ready.settled empty (slotOp 11 p) rfl
    exact ⟨_, exec_clearFault_of_occupied ready names empty, forwards, emptied, fun e => absurd e empty, fun _ => effect⟩

/-- Settles O32: the heads' records and the part's are emptied alike, and the law of ATTN holds of what is left. -/
theorem clearFaultEmptiesTheRecord : Obligations.ClearFaultEmptiesTheRecord := by
  have number (p : Word) : field p 0 5 = p.toNat % 32 := by simp [field]
  constructor
  case left =>
    intro s p h ready names
    have parameter : field p 0 5 = h.val := (number p).trans names
    obtain ⟨t, answers, forwards, emptied, ofEmpty, ofOccupied⟩ :=
      clearFault_empties ready (.inl (parameter ▸ h.isLt)) (parameter ▸ headOf_val h)
    refine ⟨t, answers, forwards, emptied, ofEmpty, fun occupied => ?_⟩
    obtain ⟨owed, ok, left⟩ := ofOccupied occupied
    exact ⟨owed, attn_iff_of_attnOk ok, left⟩
  case right =>
    intro s p ready names
    have parameter : field p 0 5 = 31 := (number p).trans names
    have part : headOf (field p 0 5) = none := by rw [parameter]; rfl
    obtain ⟨t, answers, forwards, emptied, ofEmpty, ofOccupied⟩ := clearFault_empties ready (.inr parameter) part
    refine ⟨t, answers, forwards, emptied, ofEmpty, fun occupied => ?_⟩
    obtain ⟨owed, ok, left⟩ := ofOccupied occupied
    have others := attn_iff_of_attnOk ok
    rw [show t.status.partFault = none from emptied] at others
    exact ⟨owed, by simpa using others, left⟩

end Sys2Proof.Machine
end
